-- ==== Sys2Proof/Word.lean ====
section
/-! DEFINITION. The word types of the FRS416: what the manual sends and compares as bits (file 00, 0.6.4; file 11). -/

namespace Sys2Proof

/-- A byte of a frame, a port transaction or a stored record. -/
abbrev Byte := BitVec 8

/-- A 32-bit field: a held quantity or a check (R44, R62). -/
abbrev Word32 := BitVec 32

/-- A value of the 32-bit seconds counter; differences of two are taken modulo 2^32 (R158). -/
abbrev Second := BitVec 32

/-- A station number of six bits; 1..62 name stations (file 11, 11.1). -/
abbrev Station := BitVec 6

/-- An item number, the low six bits of a subject (file 11, 11.1). -/
abbrev ItemNo := BitVec 6

/-- A parcel number or the parcel field of a subject, four bits (R1; file 11, 11.1). -/
abbrev ParcelNo := BitVec 4

/-- The 24-bit frame key (R137; file 11, 11.1). -/
abbrev FrameKey := BitVec 24

end Sys2Proof
end

