-- ==== Sys2Proof/Config.lean ====
section
/-! DEFINITION. What is fixed for every FRS416 (capacities and thresholds), and the types of the operands a
command carries. The manual leaves no value of this part to the implementation, so Config holds no free value. -/

namespace Sys2Proof
namespace Config

/-- The parcel table and the Record Store hold at most 6 parcels (R1, R116). -/
abbrev tableSize : Nat := 6
/-- The outbound queue holds at most 10 frames (R151). -/
abbrev outboundSize : Nat := 10
/-- The intake queue holds at most 32 entries (R131). -/
abbrev intakeSize : Nat := 32
/-- The notice queue holds at most 16 notices (R176). -/
abbrev noticeSize : Nat := 16
/-- The number of bindable entries, and of gauge slots (R122, R125). -/
abbrev slotCount : Nat := 24
/-- The index of the first bindable acceptance entry (R122). -/
abbrev firstBindable : Nat := 8
/-- The intake length that sets pressure mode (R134). -/
abbrev pressureOn : Nat := 24
/-- The intake length that clears pressure mode (R134). -/
abbrev pressureOff : Nat := 16
/-- The fault count at which ACTIVE becomes MUTED (R144). -/
abbrev mutedAt : Nat := 96
/-- The transmit fault count at which the standing becomes WITHDRAWN (R145). -/
abbrev withdrawnAt : Nat := 200
/-- The good frames heard in WITHDRAWN that end it (R145). -/
abbrev recoveryCount : Nat := 64
/-- The faulted attempts that drop a frame (R142). -/
abbrev faultLimit : Nat := 8
/-- What a faulted attempt adds to TFC (R141). -/
abbrev faultStep : Nat := 4
/-- The upper limit of TFC and RFC (R148). -/
abbrev faultCountMax : Nat := 255
/-- The upper limit of an engine counter (R103). -/
abbrev counterMax : Nat := 65535
/-- The services after which a port request is starved (R105). -/
abbrev starvationLimit : Nat := 8
/-- The age in seconds at which an assembly buffer times out (R30). -/
abbrev assemblyLimit : Nat := 2
/-- The longest payload of a frame (R137). -/
abbrev maxPayload : Nat := 20
/-- The highest round of a parcel (R4, R13). -/
abbrev lastRound : Nat := 4

end Config

/-- A whole frame as the line carries it: the 24 key bits, the payload bytes (as many as the length field says)
and the 16 bits of the frame check as they were read or sent (R137). -/
structure LineFrame where
  key : FrameKey
  payload : List Byte
  check : BitVec 16
  deriving DecidableEq, Repr

/-- The three ways an attempt that survived contention ends (R141). -/
inductive AttemptOutcome where
  /-- the mark slot reads dominant -/
  | carried
  /-- the mark slot reads recessive -/
  | unheard
  /-- a level read differs from the level driven -/
  | mismatch
  deriving DecidableEq, Repr

/-- The levels of the strap pins at the release of a reset; true is high (R177). -/
structure StrapPins where
  /-- ST5..ST0, ST5 most significant -/
  st : BitVec 6
  /-- LT1, LT0, LT1 first -/
  lt : BitVec 2
  rate : Bool
  policy : Bool
  cyc : Bool
  deriving DecidableEq, Repr

/-- Where a warm reset cuts the service in progress short (R117): how many of its changes of the Record Store were
complete, and, when it fell during the next one, the parcel number found at the position if this was the position's
first write (R119 step 1 judges it). -/
structure ServiceCut where
  complete : Nat
  torn : Option Byte
  deriving DecidableEq, Repr

end Sys2Proof
end

