-- ==== Sys2Proof/Syntax.lean ====
section
/-! DEFINITION. The commands of the FRS416: one constructor for each row of spec/opcode_table.json. A command is
one event of the line, the crystal, the engine, the report port or the pins. A port transaction carries the bytes
the host sends, so that short and overlong transactions are commands too (R168, R169). -/

namespace Sys2Proof

inductive Instr where
  /-- RECEIVE_FRAME (R140): a whole frame of another station has been read from the line. -/
  | receiveFrame (frame : LineFrame)
  /-- WITHDRAWN_RECOVERY (R145): the 64th good frame heard in WITHDRAWN ends it. -/
  | withdrawnRecovery
  /-- ATTEMPT (R138): the line is idle and no other station has begun. -/
  | attempt
  /-- CONTENTION_LOST (R139): dominant was read while recessive was driven in the key. -/
  | contentionLost
  /-- ATTEMPT_END (R141): the attempt in flight ends in one of three ways. -/
  | attemptEnd (outcome : AttemptOutcome)
  /-- OUTBOUND_DROP (R142): a frame with eight faulted attempts is dropped. -/
  | outboundDrop
  /-- LISTEN_PERIOD_END (R149): the seconds counter has reached the listen time. -/
  | listenPeriodEnd
  /-- SECOND_TICK (R158): the crystal division completes. -/
  | secondTick
  /-- CYCLE_START (R159): a publication cycle starts. -/
  | cycleStart
  /-- BUILD_MOMENT (R164): the frame of a cycle start is built and offered. -/
  | buildMoment
  /-- MARK_END (R165): the mark of the cycle ends. -/
  | markEnd
  /-- CYCLE_END (R166): the cycle ends. -/
  | cycleEnd
  /-- SECOND_DUTY (R108): the engine serves the second duty. -/
  | secondDuty
  /-- ASSEMBLY_TIMEOUT (R30): the second duty's part for one assembly buffer, 0 or 1. -/
  | assemblyTimeout (buffer : Fin 2)
  /-- WINDOW_EXPIRY (R78): the second duty's window expiry of one parcel. -/
  | windowExpiry (parcel : ParcelNo)
  /-- HALF_WINDOW_PASS (R79): the second duty's half-window pass of one parcel. -/
  | halfWindowPass (parcel : ParcelNo)
  /-- PERSISTENCE_RUN_OUT (R69): the second duty's persistence test of one parcel. -/
  | persistenceRunOut (parcel : ParcelNo)
  /-- CHECKPOINT (R114): the engine serves the checkpoint. -/
  | checkpoint
  /-- BURST_END_CLOSE (R112): the closings of an arbiter choice under CLOSE_AFTER_BURST. -/
  | burstEndClose
  /-- STARVATION (R105): a port request that waited for 8 services moves ahead. -/
  | starvation
  /-- INTAKE_SERVICE (R133): the engine serves the head of the intake queue. -/
  | intakeService
  /-- GAUGE_SLOT_SERVICE (R130): the engine serves the next full gauge slot. -/
  | gaugeSlotService
  /-- PORT_REQUEST_SERVICE (R115): the engine serves the outstanding port request. -/
  | portRequestService
  /-- STATUS_POLL (R168): a transaction of the bytes sent, which is neither a REQUEST nor a FETCH. With no byte, the
  falling edge of PSEL alone: the transaction stays open, and the bytes of the next port command are its bytes. -/
  | statusPoll (sent : List Byte)
  /-- FETCH (R171): code 0x02, then the bytes clocked after it. -/
  | fetch (rest : List Byte)
  /-- READ_STATUS (R174): REQUEST 0x10 and the parameter bytes sent. -/
  | readStatus (params : List Byte)
  /-- READ_NOTICE (R174): REQUEST 0x11 and the parameter bytes sent. -/
  | readNotice (params : List Byte)
  /-- ECHO (R182): REQUEST 0x12 and the parameter bytes sent. -/
  | echo (params : List Byte)
  /-- SUBMIT_DECLARE (R173): REQUEST 0x30 and the parameter bytes sent. -/
  | submitDeclare (params : List Byte)
  /-- SUBMIT_PHASE (R173): REQUEST 0x31 and the parameter bytes sent. -/
  | submitPhase (params : List Byte)
  /-- SET_CYCLE (R160): REQUEST 0x40 and the parameter bytes sent. -/
  | setCycle (params : List Byte)
  /-- READ_PARCEL (R115): REQUEST 0x20 and the parameter bytes sent. -/
  | readParcel (params : List Byte)
  /-- READ_ROSTER_ITEM (R115): REQUEST 0x21 and the parameter bytes sent. -/
  | readRosterItem (params : List Byte)
  /-- READ_VOTES (R115): REQUEST 0x22 and the parameter bytes sent. -/
  | readVotes (params : List Byte)
  /-- READ_ACCEPTANCE (R135): REQUEST 0x23 and the parameter bytes sent. -/
  | readAcceptance (params : List Byte)
  /-- DROP_PARCEL (R17): REQUEST 0x41 and the parameter bytes sent. -/
  | dropParcel (params : List Byte)
  /-- UNKNOWN_COMMAND (R169): REQUEST with an undefined command code. -/
  | unknownCommand (code : Byte) (params : List Byte)
  /-- POWER_ON_RESET (R178): the supply rises from below the retention level. -/
  | powerOnReset
  /-- PIN_RESET (R178): RESETn has been low for 10 µs; where it cut the service in progress short, if any (R117). -/
  | pinReset (cut : Option ServiceCut)
  /-- SUPPLY_LOW_RESET (R178): the supply has been below 2.75 V for 2 ms; where it cut the service in progress short, if
  any (R117). -/
  | supplyLowReset (cut : Option ServiceCut)
  /-- RESET_RELEASE (R179): no reset condition holds any more; the levels of the strap pins at that moment. -/
  | resetRelease (pins : StrapPins)
  /-- FRAME_BROKEN_OFF (R140): the line went idle before the frame check had been read in full. -/
  | frameBrokenOff
  /-- FRAME_ABANDONED_ON_LENGTH (R140): a length field above 20 has been read. -/
  | frameAbandonedOnLength
  /-- SUPPLY_BELOW_RETENTION (R179): the supply falls below 1.8 V. -/
  | supplyBelowRetention
  deriving DecidableEq, Repr

end Sys2Proof
end

