-- ==== Sys2Proof/WellFormed.lean ====
section
/-! DEFINITION. Which commands the outside can send: the length of a frame read whole (R137), and which bytes make a
status poll, a FETCH and an unknown command (R168, R169). Every meaning is total: it answers on ill-formed operands
too, by the rule that the bytes themselves fall under. -/

namespace Sys2Proof

/-- The eleven command codes (file 11, 11.5). -/
def commandCodes : List Byte :=
  [0x10#8, 0x11#8, 0x12#8, 0x20#8, 0x21#8, 0x22#8, 0x23#8, 0x30#8, 0x31#8, 0x40#8, 0x41#8]

/-- A status poll: at least one byte, and either one byte alone or a code that is neither REQUEST nor FETCH (R168). -/
def isStatusPoll (sent : List Byte) : Bool :=
  match sent with
  | [] => false
  | [_] => true
  | code :: _ => code != 0x01#8 && code != 0x02#8

/-- The commands that the line, the host and the pins can produce as the row names them. -/
def Instr.wellFormed : Instr → Bool
  | .receiveFrame f => f.payload.length ≤ Config.maxPayload
  | .statusPoll sent => sent.isEmpty || isStatusPoll sent
  | .fetch rest => rest.length ≥ 1
  | .unknownCommand code _ => !commandCodes.contains code
  | .withdrawnRecovery => true
  | .attempt => true
  | .contentionLost => true
  | .attemptEnd _ => true
  | .outboundDrop => true
  | .listenPeriodEnd => true
  | .secondTick => true
  | .cycleStart => true
  | .buildMoment => true
  | .markEnd => true
  | .cycleEnd => true
  | .secondDuty => true
  | .assemblyTimeout _ => true
  | .windowExpiry _ => true
  | .halfWindowPass _ => true
  | .persistenceRunOut _ => true
  | .checkpoint => true
  | .burstEndClose => true
  | .starvation => true
  | .intakeService => true
  | .gaugeSlotService => true
  | .portRequestService => true
  | .readStatus _ => true
  | .readNotice _ => true
  | .echo _ => true
  | .submitDeclare _ => true
  | .submitPhase _ => true
  | .setCycle _ => true
  | .readParcel _ => true
  | .readRosterItem _ => true
  | .readVotes _ => true
  | .readAcceptance _ => true
  | .dropParcel _ => true
  | .powerOnReset => true
  | .pinReset _ => true
  | .supplyLowReset _ => true
  | .resetRelease _ => true
  | .frameBrokenOff => true
  | .frameAbandonedOnLength => true
  | .supplyBelowRetention => true

end Sys2Proof
end

