-- ==== Sys2Proof/Machine/State.lean ====
section
/-! DEFINITION. The state of the FRS416 as plain data, block by block, and the machine after reset. -/

namespace Sys2Proof.Machine

/-! ## Enumerations (file 11, 11.4; their codes are in Operands.lean) -/

/-- The eleven frame kinds (R140). -/
inductive Kind where
  | phase | vote | request | snapshot | declare | alarm | lineState | meter | gauge | figure | presence
  deriving DecidableEq, Repr

/-- The line standing (R144 to R147). -/
inductive Standing where
  | active | muted | withdrawn | duplicate | unnumbered
  deriving DecidableEq, Repr

/-- The nine parcel states (file 01, 1.3). -/
inductive ParcelState where
  | declared | opening | transfer | closing | reconciled | agreed | disputed | lapsed | void
  deriving DecidableEq, Repr

/-- The cause of an entry into VOID (R4). -/
inductive VoidReason where
  | cancelled | peerRefused | check | amendRefused
  deriving DecidableEq, Repr

/-- The six phases (R9). -/
inductive Phase where
  | opening | start | stop | regauge | cancel | release
  deriving DecidableEq, Repr

/-- The role of a roster item (R5). -/
inductive Role where
  | shipTank | shoreTank | line | meter
  deriving DecidableEq, Repr

/-- The direction of a parcel (R3). -/
inductive Direction where
  | shipToShore | shoreToShip
  deriving DecidableEq, Repr

/-- The verdict of an own figure (R59). -/
inductive Verdict where
  | none | within | outside
  deriving DecidableEq, Repr

/-- The status of a vote-list entry (R87). -/
inductive VoteStatus where
  | absent | received | inconsistent
  deriving DecidableEq, Repr

/-- The reasons of a refusal (R34, R31). -/
inductive RefusalReason where
  | form | notMember | nodeUnheard | tankBusy | tableFull | noSlots | assembly
  deriving DecidableEq, Repr

/-- The answer of the outbound queue to an offer (R153). -/
inductive Answer where
  | admitted | replaced | displaced | busy | queueFull | silenced
  deriving DecidableEq, Repr

/-- The recorded cause of a reset (R179). -/
inductive ResetCause where
  | powerOn | pin | supplyLow
  deriving DecidableEq, Repr

/-- The listen time strap (R177). -/
inductive ListenTime where
  | s1 | s2 | s4 | s8
  deriving DecidableEq, Repr

/-- The line rate strap (R177). -/
inductive LineRate where
  | kbit125 | kbit250
  deriving DecidableEq, Repr

/-- The context policy strap (R112). -/
inductive Policy where
  | keepOpen | closeAfterBurst
  deriving DecidableEq, Repr

/-- The default cycle strap (R167). -/
inductive DefaultCycle where
  | cycleA | cycleB
  deriving DecidableEq, Repr

/-- The parity of a publication cycle (R161). -/
inductive Parity where
  | secondary | primary
  deriving DecidableEq, Repr

/-- The two working contexts (R109). -/
inductive ContextId where
  | w0 | w1
  deriving DecidableEq, Repr

/-! ## Readings, values and the parcel record (file 01, 1.2) -/

/-- The payload of a GAUGE or SNAPSHOT (file 11, 11.2.1). -/
structure TankReading where
  kind : Byte
  seq : Byte
  volume : Word32
  water : Word32
  temp : BitVec 16
  deriving DecidableEq, Repr

/-- The payload of a LINE STATE record. -/
structure LineReading where
  kind : Byte
  seq : Byte
  grade : Byte
  fill : Word32
  temp : BitVec 16
  deriving DecidableEq, Repr

/-- The payload of a METER record. -/
structure MeterReading where
  kind : Byte
  seq : Byte
  totaliser : Word32
  temp : BitVec 16
  deriving DecidableEq, Repr

/-- A stored record of a roster item, by the item's role (file 01, 1.2.3). -/
inductive Reading where
  | tank (r : TankReading)
  | line (r : LineReading)
  | meter (r : MeterReading)
  deriving DecidableEq, Repr

/-- A value: a stored record with its held standard quantity (0 for a meter, R48). -/
structure Value where
  reading : Reading
  std : Word32
  deriving DecidableEq, Repr

/-- An opening value with its substituted flag (R5, R11). -/
structure OpeningValue where
  value : Value
  substituted : Bool
  deriving DecidableEq, Repr

/-- The latest routine reading of a tank (R5, R23); the standard volume is absent when the reading is BAD. -/
structure LatestReading where
  reading : TankReading
  arrival : Second
  std : Option Word32
  bad : Bool
  deriving DecidableEq, Repr

/-- The bound acceptance entry, 8..31, and gauge slot, 0..23, of a tank (R5). -/
structure Binding where
  entry : Nat
  slot : Nat
  deriving DecidableEq, Repr

/-- One roster item of a parcel record (R5). -/
structure RosterItem where
  station : Station
  item : ItemNo
  role : Role
  binding : Option Binding
  latest : Option LatestReading
  opening : Option OpeningValue
  closing : Option Value
  requestIssued : Bool
  deriving DecidableEq, Repr

/-- The declaration part of a parcel record (R3). -/
structure Declaration where
  grade : Byte
  direction : Direction
  alpha : Nat
  rho : Nat
  vef : Nat
  tolerance : Nat
  alarmLimit : Nat
  persistence : Nat
  window : Nat
  nodes : List Station
  declarer : Station
  deriving DecidableEq, Repr

/-- The last phase field (R4). -/
structure LastPhase where
  phase : Phase
  source : Station
  reason : Byte
  arrival : Second
  deriving DecidableEq, Repr

/-- The running figure (file 04, 4.1). -/
structure RunningFigure where
  p : Word32
  s : Word32
  delta : Word32
  second : Second
  complete : Bool
  deriving DecidableEq, Repr

/-- The alarm record (file 04, 4.2). -/
structure AlarmRecord where
  conditionSince : Option Second
  raised : Bool
  clearSince : Option Second
  deriving DecidableEq, Repr

/-- The own figure (R49). -/
structure OwnFigure where
  p : Word32
  s : Word32
  delta : Word32
  ratio : Word32
  verdict : Verdict
  flags : BitVec 16
  check : Word32
  deriving DecidableEq, Repr

/-- The stored values of a received vote (R87). -/
structure VoteData where
  round : Nat
  check : Word32
  p : Word32
  s : Word32
  ratio : Word32
  flags : BitVec 16
  deriving DecidableEq, Repr

/-- One entry of the vote list (R87); the values are absent while the status is ABSENT. -/
structure VoteEntry where
  node : Station
  status : VoteStatus
  vote : Option VoteData
  deriving DecidableEq, Repr

/-- A peer running figure (R74). -/
structure PeerFigure where
  p : Word32
  s : Word32
  delta : Word32
  raised : Bool
  complete : Bool
  arrival : Second
  deriving DecidableEq, Repr

/-- The peer data of one node of the node set (file 04, 4.4.2). -/
structure PeerEntry where
  node : Station
  figure : Option PeerFigure
  alarm : Bool
  deriving DecidableEq, Repr

/-- The parcel record (file 01, 1.2). In VOID(CHECK) every part but the number and the state is absent, and the
round is reported as 0 (R15). -/
structure ParcelRecord where
  number : ParcelNo
  decl : Option Declaration
  state : ParcelState
  voidReason : Option VoidReason
  round : Nat
  lastPhase : Option LastPhase
  roster : List RosterItem
  running : Option RunningFigure
  alarm : AlarmRecord
  own : Option OwnFigure
  votes : List VoteEntry
  peers : List PeerEntry
  windowStart : Option Second
  voteOwed : Bool
  alarmOwed : Bool
  deriving DecidableEq, Repr

/-- One position of the Record Store in use (R116). -/
structure StoredParcel where
  number : Byte
  record : ParcelRecord
  check : Word32
  deriving DecidableEq, Repr

/-! ## Line Interface (file 08) -/

/-- A frame of the outbound queue (R151), with the mark of a withdrawal that waits for its attempt (R156) and the
mark that it is on the Publication Timer's list (R165). -/
structure QueuedFrame where
  key : FrameKey
  payload : List Byte
  faults : Nat
  inFlight : Bool
  pendingPayload : Option (List Byte)
  withdrawn : Bool
  listed : Bool
  deriving DecidableEq, Repr

/-- The Line Interface (file 08). `driving` is the frame that the attempt in flight sends, `markDriven` whether the
part drove the mark slot of the frame received last. -/
structure LineInterface where
  standing : Standing
  tfc : Nat
  rfc : Nat
  goodHeard : Option Nat
  listening : Bool
  outbound : List QueuedFrame
  driving : Option LineFrame
  markDriven : Bool
  deriving DecidableEq, Repr

/-! ## Acceptance Unit (file 07) -/

/-- A bound entry of the acceptance table (R122, R125). -/
structure BoundEntry where
  station : Station
  item : ItemNo
  parcel : ParcelNo
  index : Nat
  slot : Nat
  deriving DecidableEq, Repr

/-- A reading that waits in a gauge slot: the payload as it came, and its arrival second (R128). -/
structure WaitingReading where
  payload : List Byte
  arrival : Second
  deriving DecidableEq, Repr

/-- A gauge slot (R128): bound to an entry or free, full while a reading waits. -/
structure GaugeSlot where
  boundTo : Option Nat
  waiting : Option WaitingReading
  overrun : Bool
  deriving DecidableEq, Repr

/-- An entry of the intake queue (R131). -/
structure IntakeEntry where
  cls : BitVec 3
  kind : Kind
  source : Station
  parcel : ParcelNo
  item : ItemNo
  payload : List Byte
  entryIndex : Nat
  arrival : Second
  own : Bool
  deriving DecidableEq, Repr

/-- The Acceptance Unit (file 07). -/
structure AcceptanceUnit where
  entries : List (Option BoundEntry)
  slots : List GaugeSlot
  intake : List IntakeEntry
  pressure : Bool
  deriving DecidableEq, Repr

/-! ## Reconciliation Engine (files 02 and 06) -/

/-- Which of the two seconds the persistence copy holds (R101). -/
inductive SinceTag where
  | condition | clear
  deriving DecidableEq, Repr

/-- The persistence copy of a directory entry (R101). -/
structure PersistenceCopy where
  tag : SinceTag
  since : Second
  persistence : Nat
  deriving DecidableEq, Repr

/-- An entry of the parcel directory (R101). -/
structure DirEntry where
  number : ParcelNo
  state : ParcelState
  round : Nat
  windowStart : Option Second
  windowLength : Option Nat
  halfDone : Bool
  persistence : Option PersistenceCopy
  voteOwed : Bool
  alarmOwed : Bool
  context : Option ContextId
  deriving DecidableEq, Repr

/-- An entry of the roster directory (R102). -/
structure RosterEntry where
  station : Station
  item : ItemNo
  parcel : ParcelNo
  index : Nat
  role : Role
  deriving DecidableEq, Repr

/-- The fields of a DECLARE part 0 as received (file 11, 11.2.2). -/
structure Part0 where
  grade : Byte
  direction : BitVec 2
  count : Nat
  alpha : Nat
  rho : Nat
  vefOffset : Int
  tolerance : Nat
  alarmLimit : Nat
  persistence : Nat
  window : Nat
  nodeFields : List Station
  deriving DecidableEq, Repr

/-- A roster item of a DECLARE part (R24). -/
structure DeclaredItem where
  station : Station
  item : ItemNo
  role : Role
  deriving DecidableEq, Repr

/-- An assembly buffer in use (R26). -/
structure Assembly where
  source : Station
  parcel : ParcelNo
  part0 : Part0
  second : Second
  nextPart : Nat
  items : List DeclaredItem
  deriving DecidableEq, Repr

/-- A working context that holds a parcel (R109). -/
structure OpenContext where
  record : ParcelRecord
  dirty : Bool
  deriving DecidableEq, Repr

/-- The starvation count of the port request that waits for the engine, and whether it has moved to place 3 (R105). -/
structure Starvation where
  count : Nat
  ahead : Bool
  deriving DecidableEq, Repr

/-- The Reconciliation Engine (file 06). `windowRestart` holds while the restart of R121 is still to be made,
`dueWrites` names the parcels that the service in progress writes through at its end (R113). -/
structure Engine where
  directory : List DirEntry
  rosterDir : List RosterEntry
  heard : List Station
  w0 : Option OpenContext
  w1 : Option OpenContext
  lessRecent : ContextId
  buf0 : Option Assembly
  buf1 : Option Assembly
  dutyPending : Bool
  checkpointPending : Bool
  slotPointer : Nat
  starvation : Option Starvation
  windowRestart : Bool
  dueWrites : List ParcelNo
  deriving DecidableEq, Repr

/-- The counters of R103, in the order of its table. -/
structure Counters where
  slotOverruns : Nat
  intakeLost : Nat
  staleReadings : Nat
  lateRecords : Nat
  unusableRecords : Nat
  ignoredPhases : Nat
  ignoredVotes : Nat
  conflicts : Nat
  outboundDrops : Nat
  displacements : Nat
  noticesLost : Nat
  deriving DecidableEq, Repr

/-- The names of the counters of R103. -/
inductive Counter where
  | slotOverruns | intakeLost | staleReadings | lateRecords | unusableRecords | ignoredPhases | ignoredVotes
  | conflicts | outboundDrops | displacements | noticesLost
  deriving DecidableEq, Repr

/-! ## Publication Timer (file 09) -/

/-- The cycle in progress (R159, R161). -/
structure Cycle where
  start : Second
  parity : Parity
  quiet : Bool
  deriving DecidableEq, Repr

/-- The Publication Timer (file 09). `buildsDue` holds the parity of each loud cycle start whose build moment is
still to come (R164). -/
structure PublicationTimer where
  seconds : Second
  mark : Byte
  space : Byte
  pendingLengths : Option (Byte × Byte)
  cycle : Option Cycle
  pointer : ParcelNo
  buildsDue : List Parity
  deriving DecidableEq, Repr

/-! ## Report Port (file 10) -/

/-- A request that the engine serves (R172), with its parameter bytes. -/
inductive EngineRequest where
  | readParcel (parcel : Byte)
  | readRosterItem (parcel : Byte) (index : Byte)
  | readVotes (parcel : Byte)
  | readAcceptance
  | dropParcel (parcel : Byte)
  deriving DecidableEq, Repr

/-- The response codes (file 10, 10.3). -/
inductive ResponseCode where
  | done | busy | range | unknownParcel | notNow | queueFull | silenced | unknownCommand | none
  deriving DecidableEq, Repr

/-- A response in the buffer (R171). -/
structure Response where
  code : ResponseCode
  fields : List Byte
  deriving DecidableEq, Repr

/-- The port state (R170). -/
inductive PortState where
  | idle
  | waiting (request : EngineRequest)
  | answered (response : Response)
  deriving DecidableEq, Repr

/-- What the PARCEL_STATE notice says of its cause (R8; file 11, 11.5.3). -/
inductive NoticeCause where
  | other
  | phase (reason : Byte)
  | refusal (reason : Byte)
  deriving DecidableEq, Repr

/-- What an alarm notice says of the ALARM frame (R176). -/
inductive FrameFate where
  | noneOffered | admitted | refused
  deriving DecidableEq, Repr

/-- The kinds of notice with their fields (R176); in PARCEL_STATE, no state stands for REMOVED. -/
inductive NoticeBody where
  | parcelState (parcel : ParcelNo) (state : Option ParcelState) (round : Nat) (void : Option VoidReason) (cause : NoticeCause)
  | alarmRaised (parcel : ParcelNo) (frame : FrameFate) (delta : Word32)
  | alarmCleared (parcel : ParcelNo) (frame : FrameFate) (delta : Word32)
  | peerAlarm (parcel : ParcelNo) (source : Station) (raised : Bool) (value : Word32)
  | declareRefused (parcel : ParcelNo) (source : Station) (reason : RefusalReason) (admitted : Bool)
  | declareConflict (parcel : ParcelNo) (source : Station) (held : ParcelState)
  | standing (standing : Standing) (tfc rfc : Nat) (heard : Station)
  | intakeLost (kind : Kind) (parcel : ParcelNo)
  | intakePressure (length : Nat)
  | frameDropped (cls : BitVec 3) (kind : BitVec 5) (parcel : ParcelNo) (item : ItemNo)
  | openingMissing (parcel : ParcelNo) (index : Nat)
  | restart (cause : ResetCause) (station : Station)
  deriving DecidableEq, Repr

/-- A notice with its posting second (R176). -/
structure Notice where
  second : Second
  body : NoticeBody
  deriving DecidableEq, Repr

/-- PSEL as the port takes it (R168): high; low in a transaction that began with this port status; or low with no
transaction of its own, after a reset that cut one off or in whose hold PSEL fell. -/
inductive Select where
  | high
  | low (status : Byte)
  | unheeded
  deriving DecidableEq, Repr

/-- The Report Port (file 10). `pdo` is what the part returned on PDO in the last transaction. -/
structure ReportPort where
  state : PortState
  busy : Bool
  notices : List Notice
  pdo : List Byte
  select : Select
  deriving DecidableEq, Repr

/-! ## Supply Supervisor (file 10) -/

/-- The sampled straps (R177). -/
structure Straps where
  station : Station
  listen : ListenTime
  rate : LineRate
  policy : Policy
  cycle : DefaultCycle
  deriving DecidableEq, Repr

/-- The Supply Supervisor (file 10). `belowRetention` holds from a fall of the supply below the retention level
until the next release. -/
structure Supervisor where
  held : Bool
  cause : ResetCause
  belowRetention : Bool
  straps : Straps
  deriving DecidableEq, Repr

/-! ## The machine -/

/-- A change of the Record Store (R116): the position that a write-back writes, none for a removal, and the store after
the change. -/
structure StoreStep where
  position : Option Nat
  after : List (Option StoredParcel)
  deriving DecidableEq, Repr

/-- The state of the part, and the queue of commands that wait for it, first in first out. `storeLog` holds the changes
of the Record Store that the service in progress has made, the latest last (R117); it is the model's own, and empty
between two services. -/
structure State where
  line : LineInterface
  acc : AcceptanceUnit
  eng : Engine
  store : List (Option StoredParcel)
  storeLog : List StoreStep
  tmr : PublicationTimer
  port : ReportPort
  sup : Supervisor
  counters : Counters
  pending : List Instr
  deriving DecidableEq, Repr

/-- Nothing stops the part: a receive or transmit fault, a failed check and a bad request are next states (R140,
R141, R119, R169). So no fault has a name. Safe: no step ends in one. -/
inductive Fault where
  deriving DecidableEq, Repr

/-- Why a command is refused. -/
inductive Refusal where
  /-- Raised by an arm of exec whose command has no meaning yet; no arm raises it. Safe: a run stops there. -/
  | notModelled (mnemonic : String)
  deriving DecidableEq, Repr

namespace State

def setLine (s : State) (x : LineInterface) : State := { s with line := x }
def setAcc (s : State) (x : AcceptanceUnit) : State := { s with acc := x }
def setEng (s : State) (x : Engine) : State := { s with eng := x }
def setStore (s : State) (x : List (Option StoredParcel)) : State := { s with store := x }
def setStoreLog (s : State) (x : List StoreStep) : State := { s with storeLog := x }
def setTmr (s : State) (x : PublicationTimer) : State := { s with tmr := x }
def setPort (s : State) (x : ReportPort) : State := { s with port := x }
def setSup (s : State) (x : Supervisor) : State := { s with sup := x }
def setCounters (s : State) (x : Counters) : State := { s with counters := x }
def setPending (s : State) (x : List Instr) : State := { s with pending := x }

/-- The machine right after the release of a POWER_ON reset (R118, R136, R157, R167, R180), with the strap pins of
assumption 1: station 1 and every other strap pin low. -/
def reset : State where
  line :=
    { standing := .active, tfc := 0, rfc := 0, goodHeard := none, listening := true, outbound := []
      driving := none, markDriven := false }
  acc :=
    { entries := List.replicate 24 none
      slots := List.replicate 24 { boundTo := none, waiting := none, overrun := false }
      intake := [], pressure := false }
  eng :=
    { directory := [], rosterDir := [], heard := [1#6], w0 := none, w1 := none, lessRecent := .w0
      buf0 := none, buf1 := none, dutyPending := false, checkpointPending := false, slotPointer := 23
      starvation := none, windowRestart := false, dueWrites := [] }
  store := List.replicate 6 none
  storeLog := []
  tmr :=
    { seconds := 0#32, mark := 2#8, space := 8#8, pendingLengths := none, cycle := none, pointer := 0#4
      buildsDue := [] }
  port :=
    { state := .idle, busy := false
      notices := [{ second := 0#32, body := .restart .powerOn 1#6 }], pdo := []
      select := .high }
  sup :=
    { held := false, cause := .powerOn, belowRetention := false
      straps := { station := 1#6, listen := .s1, rate := .kbit125, policy := .keepOpen, cycle := .cycleA } }
  counters :=
    { slotOverruns := 0, intakeLost := 0, staleReadings := 0, lateRecords := 0, unusableRecords := 0
      ignoredPhases := 0, ignoredVotes := 0, conflicts := 0, outboundDrops := 0, displacements := 0
      noticesLost := 0 }
  pending := []

end State

end Sys2Proof.Machine
end

