-- ==== Sys2Proof/Machine/Operands.lean ====
section
/-! DEFINITION. The layouts and codes of frames, port transactions and records (file 11), the frame check (R137) and
the check register of the figure check and the store check (R62). -/

namespace Sys2Proof.Machine

/-! ## Bytes, most significant first (file 00, 0.6.4) -/

def be16 (w : BitVec 16) : List Byte := [w.extractLsb' 8 8, w.extractLsb' 0 8]

def be32 (w : Word32) : List Byte :=
  [w.extractLsb' 24 8, w.extractLsb' 16 8, w.extractLsb' 8 8, w.extractLsb' 0 8]

def word16 (hi lo : Byte) : BitVec 16 := hi ++ lo

def word32 (a b c d : Byte) : Word32 := a ++ b ++ c ++ d

def byteOf (n : Nat) : Byte := BitVec.ofNat 8 n

def boolByte (b : Bool) : Byte := if b then 1#8 else 0#8

/-- A byte whose bits 0, 1, 2, … are the given flags. -/
def flagByte (flags : List Bool) : Byte :=
  flags.foldr (fun f acc => (acc <<< 1) ||| boolByte f) 0#8

def zeros (n : Nat) : List Byte := List.replicate n 0#8

/-! ## Checks -/

/-- One bit through a check register: the top bit is compared, the register shifts towards it with 0 entering, and
the generator is combined when they differed (R62, R137). -/
def checkBit {w : Nat} (generator reg : BitVec w) (bit : Bool) : BitVec w :=
  if reg.msb == bit then reg <<< 1 else (reg <<< 1) ^^^ generator

/-- The bits of a byte from bit 7 to bit 0. -/
def byteBits (b : Byte) : List Bool := (List.range 8).map (fun i => b.getMsbD i)

def checkByte {w : Nat} (generator reg : BitVec w) (b : Byte) : BitVec w :=
  (byteBits b).foldl (checkBit generator) reg

def checkBytes {w : Nat} (generator start : BitVec w) (bytes : List Byte) : BitVec w :=
  bytes.foldl (checkByte generator) start

/-- The 32-bit check of R62: start 0xFFFFFFFF, generator 0x741B8CD7, not inverted. -/
def check32 (bytes : List Byte) : Word32 := checkBytes 0x741B8CD7#32 0xFFFFFFFF#32 bytes

/-- The 16-bit frame check of R137: start 0x0000, generator 0x8BB7. -/
def check16 (bytes : List Byte) : BitVec 16 := checkBytes 0x8BB7#16 0x0000#16 bytes

/-! ## The key (file 11, 11.1; R140) -/

def keyClass (k : FrameKey) : BitVec 3 := k.extractLsb' 21 3
def keyKind (k : FrameKey) : BitVec 5 := k.extractLsb' 16 5
def keySource (k : FrameKey) : Station := k.extractLsb' 10 6
def keyParcel (k : FrameKey) : ParcelNo := k.extractLsb' 6 4
def keyItem (k : FrameKey) : ItemNo := k.extractLsb' 0 6

def Kind.code : Kind → BitVec 5
  | .phase => 0#5 | .vote => 1#5 | .request => 2#5 | .snapshot => 3#5 | .declare => 4#5 | .alarm => 5#5
  | .lineState => 6#5 | .meter => 7#5 | .gauge => 8#5 | .figure => 9#5 | .presence => 10#5

def Kind.cls : Kind → BitVec 3
  | .phase => 0#3 | .vote => 1#3 | .request => 2#3 | .snapshot => 2#3 | .declare => 3#3 | .alarm => 4#3
  | .lineState => 5#3 | .meter => 5#3 | .gauge => 6#3 | .figure => 6#3 | .presence => 7#3

def allKinds : List Kind :=
  [.phase, .vote, .request, .snapshot, .declare, .alarm, .lineState, .meter, .gauge, .figure, .presence]

/-- The kind of a kind code; codes 11..31 have none (R140). -/
def kindOfCode (c : BitVec 5) : Option Kind := allKinds.find? (fun k => k.code == c)

def mkKey (kind : Kind) (source : Station) (parcel : ParcelNo) (item : ItemNo) : FrameKey :=
  kind.cls ++ kind.code ++ source ++ parcel ++ item

/-- The bytes that the frame check covers: key, length and payload, in the order they are sent (R137). -/
def coveredBytes (key : FrameKey) (payload : List Byte) : List Byte :=
  [key.extractLsb' 16 8, key.extractLsb' 8 8, key.extractLsb' 0 8, byteOf payload.length] ++ payload

/-- The whole frame of a key and a payload, with its frame check as it is sent (R137). -/
def wireFrame (key : FrameKey) (payload : List Byte) : LineFrame :=
  { key := key, payload := payload, check := check16 (coveredBytes key payload) }

def frameCheckGood (f : LineFrame) : Bool := f.check == check16 (coveredBytes f.key f.payload)

/-- A good check with an undefined kind, a class that is not the kind's, or a source of 0 or 63 (R140). -/
def formFault (key : FrameKey) : Bool :=
  match kindOfCode (keyKind key) with
  | none => true
  | some k => keyClass key != k.cls || keySource key == 0#6 || keySource key == 63#6

/-! ## Enumeration codes (file 11, 11.4) -/

def Phase.code : Phase → Byte
  | .opening => 0#8 | .start => 1#8 | .stop => 2#8 | .regauge => 3#8 | .cancel => 4#8 | .release => 5#8

def phaseOfCode (c : Byte) : Option Phase :=
  [Phase.opening, .start, .stop, .regauge, .cancel, .release].find? (fun p => p.code == c)

def Verdict.code : Verdict → Byte
  | .none => 0#8 | .within => 1#8 | .outside => 2#8

def verdictOfCode (c : Byte) : Option Verdict :=
  [Verdict.none, .within, .outside].find? (fun v => v.code == c)

def RefusalReason.code : RefusalReason → Byte
  | .form => 1#8 | .notMember => 2#8 | .nodeUnheard => 3#8 | .tankBusy => 4#8 | .tableFull => 5#8 | .noSlots => 6#8
  | .assembly => 7#8

def Standing.code : Standing → Byte
  | .active => 0#8 | .muted => 1#8 | .withdrawn => 2#8 | .duplicate => 3#8 | .unnumbered => 4#8

def ParcelState.code : ParcelState → Byte
  | .declared => 1#8 | .opening => 2#8 | .transfer => 3#8 | .closing => 4#8 | .reconciled => 5#8 | .agreed => 6#8
  | .disputed => 7#8 | .lapsed => 8#8 | .void => 9#8

/-- The code REMOVED, used in notices only. -/
def removedCode : Byte := 15#8

def VoidReason.code : VoidReason → Byte
  | .cancelled => 1#8 | .peerRefused => 2#8 | .check => 3#8 | .amendRefused => 4#8

/-- The void reason field: 0 when there is none. -/
def voidCode : Option VoidReason → Byte
  | none => 0#8
  | some v => v.code

def VoteStatus.code : VoteStatus → Byte
  | .absent => 0#8 | .received => 1#8 | .inconsistent => 2#8

def ResetCause.code : ResetCause → Byte
  | .powerOn => 1#8 | .pin => 2#8 | .supplyLow => 3#8

def Policy.code : Policy → Byte
  | .keepOpen => 0#8 | .closeAfterBurst => 1#8

def DefaultCycle.code : DefaultCycle → Byte
  | .cycleA => 0#8 | .cycleB => 1#8

def LineRate.code : LineRate → Byte
  | .kbit125 => 0#8 | .kbit250 => 1#8

/-- The listen time in seconds (R177). -/
def ListenTime.seconds : ListenTime → Nat
  | .s1 => 1 | .s2 => 2 | .s4 => 4 | .s8 => 8

/-- The parity field of READ_STATUS: 0 while no cycle runs. -/
def parityCode : Option Parity → Byte
  | none => 0#8
  | some .secondary => 1#8
  | some .primary => 2#8

def Role.code : Role → BitVec 2
  | .shipTank => 0#2 | .shoreTank => 1#2 | .line => 2#2 | .meter => 3#2

def roleOfCode (c : BitVec 2) : Role :=
  if c == 0#2 then .shipTank else if c == 1#2 then .shoreTank else if c == 2#2 then .line else .meter

def Role.isTank : Role → Bool
  | .shipTank => true | .shoreTank => true | .line => false | .meter => false

def Direction.code : Direction → BitVec 2
  | .shipToShore => 0#2 | .shoreToShip => 1#2

def directionOfCode (c : BitVec 2) : Option Direction :=
  if c == 0#2 then some .shipToShore else if c == 1#2 then some .shoreToShip else none

/-- The alarm kinds. -/
def divergenceCode : Byte := 0#8
def declareRefusedCode : Byte := 1#8

def ResponseCode.code : ResponseCode → Byte
  | .done => 0#8 | .busy => 1#8 | .range => 2#8 | .unknownParcel => 3#8 | .notNow => 4#8 | .queueFull => 5#8
  | .silenced => 6#8 | .unknownCommand => 7#8 | .none => 8#8

/-! ## Straps (R177) -/

def listenOfPins (lt : BitVec 2) : ListenTime :=
  if lt == 0#2 then .s1 else if lt == 1#2 then .s2 else if lt == 2#2 then .s4 else .s8

def strapsOfPins (p : StrapPins) : Straps :=
  { station := p.st
    listen := listenOfPins p.lt
    rate := if p.rate then .kbit250 else .kbit125
    policy := if p.policy then .closeAfterBurst else .keepOpen
    cycle := if p.cyc then .cycleB else .cycleA }

/-- A strap station number that names no station (R146). -/
def Straps.unnumbered (s : Straps) : Bool := s.station == 0#6 || s.station == 63#6

/-! ## Payloads received -/

/-- A GAUGE or SNAPSHOT payload, of length 12 exactly (file 11, 11.2.1). -/
def parseTank : List Byte → Option TankReading
  | [k, q, a, b, c, d, e, f, g, h, t, u] =>
    some { kind := k, seq := q, volume := word32 a b c d, water := word32 e f g h, temp := word16 t u }
  | _ => none

/-- A LINE STATE payload, of length 9 exactly. -/
def parseLine : List Byte → Option LineReading
  | [k, q, g, a, b, c, d, t, u] =>
    some { kind := k, seq := q, grade := g, fill := word32 a b c d, temp := word16 t u }
  | _ => none

/-- A METER payload, of length 8 exactly. -/
def parseMeter : List Byte → Option MeterReading
  | [k, q, a, b, c, d, t, u] => some { kind := k, seq := q, totaliser := word32 a b c d, temp := word16 t u }
  | _ => none

def TankReading.bytes (r : TankReading) : List Byte :=
  [r.kind, r.seq] ++ be32 r.volume ++ be32 r.water ++ be16 r.temp

def LineReading.bytes (r : LineReading) : List Byte :=
  [r.kind, r.seq, r.grade] ++ be32 r.fill ++ be16 r.temp

def MeterReading.bytes (r : MeterReading) : List Byte :=
  [r.kind, r.seq] ++ be32 r.totaliser ++ be16 r.temp

/-- A record in 12 bytes, zero-filled after its own length (file 11, READ_ROSTER_ITEM). -/
def Reading.bytes12 : Reading → List Byte
  | .tank r => r.bytes
  | .line r => r.bytes ++ zeros 3
  | .meter r => r.bytes ++ zeros 4

def Reading.kind : Reading → Byte
  | .tank r => r.kind
  | .line r => r.kind
  | .meter r => r.kind

def Reading.seq : Reading → Byte
  | .tank r => r.seq
  | .line r => r.seq
  | .meter r => r.seq

def Reading.temp : Reading → BitVec 16
  | .tank r => r.temp
  | .line r => r.temp
  | .meter r => r.temp

/-- The record of a SNAPSHOT, LINE STATE or METER payload; none on a wrong length (R19). -/
def parseRecord (kind : Kind) (payload : List Byte) : Option Reading :=
  match kind with
  | .snapshot => (parseTank payload).map .tank
  | .lineState => (parseLine payload).map .line
  | .meter => (parseMeter payload).map .meter
  | _ => none

/-- The four station fields of bytes 17..19 of part 0, first in the highest bits. -/
def nodeFields (a b c : Byte) : List Station :=
  let w : BitVec 24 := a ++ b ++ c
  [w.extractLsb' 18 6, w.extractLsb' 12 6, w.extractLsb' 6 6, w.extractLsb' 0 6]

/-- The 17-bit two's complement VEF offset of part 0 (R181). -/
def vefOffsetOf (b1 hi lo : Byte) : Int := (b1.extractLsb' 5 1 ++ hi ++ lo : BitVec 17).toInt

/-- A DECLARE part 0 of 20 bytes (file 11, 11.2.2). -/
def parsePart0 : List Byte → Option Part0
  | [g, d, a0, a1, r0, r1, v0, v1, t0, t1, l0, l1, l2, l3, p0, p1, w, n0, n1, n2] =>
    some
      { grade := g
        direction := d.extractLsb' 6 2
        count := (d.extractLsb' 0 5).toNat
        alpha := (word16 a0 a1).toNat
        rho := (word16 r0 r1).toNat
        vefOffset := vefOffsetOf d v0 v1
        tolerance := (word16 t0 t1).toNat
        alarmLimit := (word32 l0 l1 l2 l3).toNat
        persistence := (word16 p0 p1).toNat
        window := w.toNat
        nodeFields := nodeFields n0 n1 n2 }
  | _ => none

/-- The roster items of a DECLARE part 1 or 2, two bytes each; the unused bits are not examined (R24). -/
def parseItems : List Byte → List DeclaredItem
  | a :: b :: rest =>
    let w : BitVec 16 := word16 a b
    { station := w.extractLsb' 10 6, item := w.extractLsb' 4 6, role := roleOfCode (w.extractLsb' 2 2) } ::
      parseItems rest
  | _ => []

/-- The two bytes of a roster item, with the unused bits 0 (R173, R181). -/
def DeclaredItem.bytes (i : DeclaredItem) : List Byte :=
  be16 (i.station ++ i.item ++ i.role.code ++ 0#2)

/-- The nonzero station fields of a part 0, in node-set order (R24). -/
def Part0.nodes (p : Part0) : List Station := p.nodeFields.filter (fun n => n != 0#6)

/-! ## The stored record as bytes

The order of the stored bytes is not visible outside the part (R116); this order is the model's. -/

def imageOption {α : Type} (f : α → List Byte) : Option α → List Byte
  | none => [0#8]
  | some a => 1#8 :: f a

def imageList {α : Type} (f : α → List Byte) (l : List α) : List Byte :=
  byteOf l.length :: l.flatMap f

def byte6 (s : BitVec 6) : Byte := s.setWidth 8

def byte4 (p : ParcelNo) : Byte := p.setWidth 8

def word32OfNat (n : Nat) : Word32 := BitVec.ofNat 32 n

def word16OfNat (n : Nat) : BitVec 16 := BitVec.ofNat 16 n

def Declaration.image (d : Declaration) : List Byte :=
  [d.grade, d.direction.code.setWidth 8] ++ be16 (word16OfNat d.alpha) ++ be16 (word16OfNat d.rho) ++
    be32 (word32OfNat d.vef) ++ be16 (word16OfNat d.tolerance) ++ be32 (word32OfNat d.alarmLimit) ++
    be16 (word16OfNat d.persistence) ++ [byteOf d.window] ++ imageList (fun n => [byte6 n]) d.nodes ++
    [byte6 d.declarer]

def Reading.image : Reading → List Byte
  | .tank r => 0#8 :: r.bytes
  | .line r => 1#8 :: r.bytes
  | .meter r => 2#8 :: r.bytes

def Value.image (v : Value) : List Byte := v.reading.image ++ be32 v.std

def OpeningValue.image (v : OpeningValue) : List Byte := v.value.image ++ [boolByte v.substituted]

def LatestReading.image (v : LatestReading) : List Byte :=
  v.reading.bytes ++ be32 v.arrival ++ imageOption be32 v.std ++ [boolByte v.bad]

def RosterItem.image (i : RosterItem) : List Byte :=
  [byte6 i.station, byte6 i.item, i.role.code.setWidth 8] ++
    imageOption (fun b : Binding => [byteOf b.entry, byteOf b.slot]) i.binding ++
    imageOption LatestReading.image i.latest ++ imageOption OpeningValue.image i.opening ++
    imageOption Value.image i.closing ++ [boolByte i.requestIssued]

def LastPhase.image (l : LastPhase) : List Byte :=
  [l.phase.code, byte6 l.source, l.reason] ++ be32 l.arrival

def RunningFigure.image (r : RunningFigure) : List Byte :=
  be32 r.p ++ be32 r.s ++ be32 r.delta ++ be32 r.second ++ [boolByte r.complete]

def AlarmRecord.image (a : AlarmRecord) : List Byte :=
  imageOption be32 a.conditionSince ++ [boolByte a.raised] ++ imageOption be32 a.clearSince

def OwnFigure.image (o : OwnFigure) : List Byte :=
  be32 o.p ++ be32 o.s ++ be32 o.delta ++ be32 o.ratio ++ [o.verdict.code] ++ be16 o.flags ++ be32 o.check

def VoteData.image (v : VoteData) : List Byte :=
  byteOf v.round :: be32 v.check ++ be32 v.p ++ be32 v.s ++ be32 v.ratio ++ be16 v.flags

def VoteEntry.image (v : VoteEntry) : List Byte :=
  [byte6 v.node, v.status.code] ++ imageOption VoteData.image v.vote

def PeerFigure.image (f : PeerFigure) : List Byte :=
  be32 f.p ++ be32 f.s ++ be32 f.delta ++ [boolByte f.raised, boolByte f.complete] ++ be32 f.arrival

def PeerEntry.image (p : PeerEntry) : List Byte :=
  byte6 p.node :: imageOption PeerFigure.image p.figure ++ [boolByte p.alarm]

/-- Every part of a stored record (R116). -/
def ParcelRecord.image (r : ParcelRecord) : List Byte :=
  byte4 r.number :: imageOption Declaration.image r.decl ++ [r.state.code, voidCode r.voidReason, byteOf r.round] ++
    imageOption LastPhase.image r.lastPhase ++ imageList RosterItem.image r.roster ++
    imageOption RunningFigure.image r.running ++ r.alarm.image ++ imageOption OwnFigure.image r.own ++
    imageList VoteEntry.image r.votes ++ imageList PeerEntry.image r.peers ++ imageOption be32 r.windowStart ++
    [boolByte r.voteOwed, boolByte r.alarmOwed]

/-- The store check: R62's register over the parcel number and every byte of the stored record (R116). -/
def storeCheck (number : Byte) (r : ParcelRecord) : Word32 := check32 (number :: r.image)

end Sys2Proof.Machine
end

