-- ==== Sys2Proof/Machine/Flags.lean ====
section
/-! DEFINITION. The flags of the part: the flags field and verdict of an own figure (R54 to R59; file 11, 11.2.3), the
port status (R168; file 11, 11.5), the fault counts (R148) and the saturating counters (R103). -/

namespace Sys2Proof.Machine

/-- The flags field: bits 0..4 are SUBSTITUTED, METER_DISAGREE, OVERFLOW, ZERO_BASE and RANGE, the others 0. -/
def figureFlags (substituted meterDisagree overflow zeroBase range : Bool) : BitVec 16 :=
  (flagByte [substituted, meterDisagree, overflow, zeroBase, range]).setWidth 16

/-- The verdict (R59), from the flags, the held ratio and the tolerance. -/
def verdictOf (zeroBase overflow range : Bool) (ratio : Word32) (tolerance : Nat) : Verdict :=
  if zeroBase || overflow || range then .none
  else if ratio.toInt.natAbs ≤ tolerance then .within
  else .outside

/-- The port status byte: bit 7 READY, 6 ATTN, 5 OUTSTANDING, 4 BUSY, 3..0 zero. -/
def statusByte (ready attn outstanding busy : Bool) : Byte :=
  flagByte [false, false, false, false, busy, outstanding, attn, ready]

/-- A fault count rises, saturating at 255 (R148). -/
def countUp (n step : Nat) : Nat := min Config.faultCountMax (n + step)

/-- A fault count falls by 1 with a floor of 0 (R148). -/
def countDown (n : Nat) : Nat := n - 1

/-- A 16-bit counter rises by 1 and saturates (R103). -/
def saturate (n : Nat) : Nat := min Config.counterMax (n + 1)

def Counters.raise (c : Counters) : Counter → Counters
  | .slotOverruns => { c with slotOverruns := saturate c.slotOverruns }
  | .intakeLost => { c with intakeLost := saturate c.intakeLost }
  | .staleReadings => { c with staleReadings := saturate c.staleReadings }
  | .lateRecords => { c with lateRecords := saturate c.lateRecords }
  | .unusableRecords => { c with unusableRecords := saturate c.unusableRecords }
  | .ignoredPhases => { c with ignoredPhases := saturate c.ignoredPhases }
  | .ignoredVotes => { c with ignoredVotes := saturate c.ignoredVotes }
  | .conflicts => { c with conflicts := saturate c.conflicts }
  | .outboundDrops => { c with outboundDrops := saturate c.outboundDrops }
  | .displacements => { c with displacements := saturate c.displacements }
  | .noticesLost => { c with noticesLost := saturate c.noticesLost }

/-- The counters in the order of the table of R103. -/
def Counters.toList (c : Counters) : List Nat :=
  [c.slotOverruns, c.intakeLost, c.staleReadings, c.lateRecords, c.unusableRecords, c.ignoredPhases, c.ignoredVotes,
    c.conflicts, c.outboundDrops, c.displacements, c.noticesLost]

def Counters.zero : Counters :=
  { slotOverruns := 0, intakeLost := 0, staleReadings := 0, lateRecords := 0, unusableRecords := 0
    ignoredPhases := 0, ignoredVotes := 0, conflicts := 0, outboundDrops := 0, displacements := 0, noticesLost := 0 }

/-- The states in which the roster tanks keep their entries and slots (R7). -/
def ParcelState.isBound : ParcelState → Bool
  | .declared => true | .opening => true | .transfer => true | .closing => true | .reconciled => true
  | .agreed => false | .disputed => true | .lapsed => true | .void => false

/-- The states from which a parcel can be removed (R7). -/
def ParcelState.isTerminal : ParcelState → Bool
  | .declared => false | .opening => false | .transfer => false | .closing => false | .reconciled => false
  | .agreed => true | .disputed => true | .lapsed => true | .void => true

end Sys2Proof.Machine
end

