-- ==== Sys2Proof/Machine/Arithmetic.lean ====
section
/-! DEFINITION. The quantity arithmetic (file 03): exact whole numbers, one rounding, clamps at the end. -/

namespace Sys2Proof.Machine

/-- The nearest whole number to n / d, halves away from zero (R43). -/
def roundDiv (n : Int) (d : Nat) : Int :=
  let q : Nat := (2 * n.natAbs + d) / (2 * d)
  if 0 ≤ n then (q : Int) else -(q : Int)

def maxU32 : Int := 4294967295
def maxS32 : Int := 2147483647
def minS32 : Int := -2147483648

/-- A quantity held as unsigned 32-bit, clamped (R44). -/
def holdU (x : Int) : Word32 := BitVec.ofInt 32 (max 0 (min x maxU32))

/-- A quantity held as signed 32-bit, clamped (R44). -/
def holdS (x : Int) : Word32 := BitVec.ofInt 32 (max minS32 (min x maxS32))

def outsideS32 (x : Int) : Bool := x < minS32 || maxS32 < x

def outsideU32 (x : Int) : Bool := maxU32 < (x.natAbs : Int)

/-- The volume correction factor in ppm (R45); the temperature is a signed 16-bit value in 0.01 °C. -/
def vcf (alpha : Nat) (temp : BitVec 16) : Int :=
  1000000 - roundDiv ((alpha : Int) * (temp.toInt - 1500)) 100

/-- The temperature range of R19. -/
def tempInRange (temp : BitVec 16) : Bool := decide (-5000 ≤ temp.toInt) && decide (temp.toInt ≤ 15000)

def factorInRange (alpha : Nat) (temp : BitVec 16) : Bool :=
  decide (800000 ≤ vcf alpha temp) && decide (vcf alpha temp ≤ 1100000)

/-- The BAD tests of R19. -/
def TankReading.isBad (alpha : Nat) (r : TankReading) : Bool :=
  decide (r.volume.toNat < r.water.toNat) || !factorInRange alpha r.temp

def Reading.isBad (alpha : Nat) : Reading → Bool
  | .tank r => r.isBad alpha
  | .line r => !factorInRange alpha r.temp
  | .meter r => !factorInRange alpha r.temp

/-- The exact standard volume of a tank reading (R46). -/
def TankReading.exact (alpha : Nat) (r : TankReading) : Int :=
  roundDiv (((r.volume.toNat : Int) - r.water.toNat) * vcf alpha r.temp) 1000000

/-- The exact line value (R47): 0 when the grades differ. -/
def LineReading.exact (alpha : Nat) (grade : Byte) (r : LineReading) : Int :=
  if r.grade == grade then roundDiv ((r.fill.toNat : Int) * vcf alpha r.temp) 1000000 else 0

/-- The standard quantity derived when a record is stored, exact; none of it for a meter (R46 to R48). -/
def Reading.exact (d : Declaration) : Reading → Int
  | .tank r => r.exact d.alpha
  | .line r => r.exact d.alpha d.grade
  | .meter _ => 0

def Reading.toValue (d : Declaration) (r : Reading) : Value := { reading := r, std := holdU (r.exact d) }

/-- A totaliser standardised with the closing factor (R48). -/
def standardTotaliser (factor : Int) (totaliser : Int) : Int := roundDiv (totaliser * factor) 1000000

/-! ## Exact quantities of one roster item that holds both values -/

/-- The opening and the closing value of an item, as readings. -/
def RosterItem.pair (i : RosterItem) : Option (Reading × Reading) :=
  match i.opening, i.closing with
  | some o, some c => some (o.value.reading, c.reading)
  | _, _ => none

/-- The exact opening and closing standard quantities that enter the canonical sequence and the RANGE test (R56,
R61): standardised totalisers with the closing factor for a meter. -/
def itemQuantities (d : Declaration) (i : RosterItem) : Int × Int :=
  match i.pair with
  | some (.meter o, .meter c) =>
    let f := vcf d.alpha c.temp
    (standardTotaliser f o.totaliser.toNat, standardTotaliser f c.totaliser.toNat)
  | some (o, c) => (o.exact d, c.exact d)
  | none => (0, 0)

/-- The meter movement of an item of role METER (R48). -/
def meterMovement (d : Declaration) (i : RosterItem) : Int :=
  match i.pair with
  | some (.meter o, .meter c) =>
    standardTotaliser (vcf d.alpha c.temp) ((c.totaliser.toNat : Int) - o.totaliser.toNat)
  | _ => 0

def sumBy {α : Type} (f : α → Int) (l : List α) : Int := l.foldr (fun a acc => f a + acc) 0

/-- The change of an item, closing less opening, in exact quantities. -/
def itemChange (d : Declaration) (i : RosterItem) : Int := (itemQuantities d i).2 - (itemQuantities d i).1

def ofRole (role : Role) (roster : List RosterItem) : List RosterItem := roster.filter (fun i => i.role == role)

/-- The ship and shore movements from the changes of the tanks, with the signs that the direction gives (R50). -/
def signedMovements (dir : Direction) (shipChange shoreChange : Int) : Int × Int :=
  match dir with
  | .shipToShore => (-shipChange, shoreChange)
  | .shoreToShip => (shipChange, -shoreChange)

/-- The ship and shore movements of an own figure (R50). -/
def movements (d : Declaration) (roster : List RosterItem) : Int × Int :=
  signedMovements d.direction (sumBy (itemChange d) (ofRole .shipTank roster))
    (sumBy (itemChange d) (ofRole .shoreTank roster))

/-- The line change L (R51). -/
def lineChange (d : Declaration) (roster : List RosterItem) : Int :=
  sumBy (itemChange d) (ofRole .line roster)

/-- The exact shore figure (R51). -/
def shoreFigure (dir : Direction) (shore lines : Int) : Int :=
  match dir with
  | .shipToShore => shore + lines
  | .shoreToShip => shore - lines

/-- The exact ship figure (R52). -/
def shipFigure (vef : Nat) (ship : Int) : Int := roundDiv (ship * 1000000) vef

/-- The exact ratio for S above 0 (R53), 0 otherwise (R54). -/
def ratioOf (delta s : Int) : Int := if 0 < s then roundDiv (delta * 1000000) s.toNat else 0

/-- The canonical sequence (R61). -/
def canonicalBytes (number : ParcelNo) (round : Nat) (d : Declaration) (roster : List RosterItem) (p s : Word32)
    (flags : BitVec 16) : List Byte :=
  [byte4 number, byteOf round] ++
    roster.flatMap (fun i => be32 (holdU (itemQuantities d i).1) ++ be32 (holdU (itemQuantities d i).2)) ++
    be32 p ++ be32 s ++ be16 flags

/-- The RANGE test (R56). -/
def rangeExceeded (d : Declaration) (roster : List RosterItem) : Bool :=
  roster.any (fun i => outsideU32 (itemQuantities d i).1 || outsideU32 (itemQuantities d i).2 ||
    outsideU32 (meterMovement d i)) ||
  outsideU32 (movements d roster).1 || outsideU32 (movements d roster).2 || outsideU32 (lineChange d roster)

/-- The meter check (R57): made with a meter on the roster and S above 0. -/
def meterDisagrees (d : Declaration) (roster : List RosterItem) (s : Int) : Bool :=
  match ofRole .meter roster with
  | [] => false
  | i :: _ =>
    decide (0 < s) && decide (d.tolerance < (roundDiv ((meterMovement d i - s) * 1000000) s.toNat).natAbs)

/-- SUBSTITUTED (R58). -/
def anySubstituted (roster : List RosterItem) : Bool :=
  roster.any (fun i => match i.opening with | some o => o.substituted | none => false)

/-- The own figure of a parcel whose items hold every opening and closing value (R49). -/
def ownFigure (number : ParcelNo) (round : Nat) (d : Declaration) (roster : List RosterItem) : OwnFigure :=
  let moves := movements d roster
  let s := shoreFigure d.direction moves.2 (lineChange d roster)
  let p := shipFigure d.vef moves.1
  let delta := p - s
  let zeroBase := decide (s ≤ 0)
  let ratio := ratioOf delta s
  let overflow := outsideS32 p || outsideS32 s || outsideS32 delta || outsideS32 ratio
  let range := rangeExceeded d roster
  let flags := figureFlags (anySubstituted roster) (meterDisagrees d roster s) overflow zeroBase range
  { p := holdS p, s := holdS s, delta := holdS delta, ratio := holdS ratio
    verdict := verdictOf zeroBase overflow range (holdS ratio) d.tolerance
    flags := flags
    check := check32 (canonicalBytes number round d roster (holdS p) (holdS s) flags) }

/-! ## Running balance (R64, R65) -/

/-- The exact change of a tank that counts: latest less opening. -/
def runningChange (d : Declaration) (i : RosterItem) : Option Int :=
  match i.opening, i.latest with
  | some o, some l => if l.bad then none else some (l.reading.exact d.alpha - o.value.reading.exact d)
  | _, _ => none

def runningSum (d : Declaration) (tanks : List RosterItem) : Int :=
  sumBy (fun i => (runningChange d i).getD 0) tanks

/-- Every roster tank counts (R65). -/
def evaluationComplete (d : Declaration) (roster : List RosterItem) : Bool :=
  roster.all (fun i => !i.role.isTank || (runningChange d i).isSome)

/-- The exact P_run and S_run of an evaluation (R64). -/
def runningExact (d : Declaration) (roster : List RosterItem) : Int × Int :=
  let moves := signedMovements d.direction (runningSum d (ofRole .shipTank roster))
    (runningSum d (ofRole .shoreTank roster))
  (shipFigure d.vef moves.1, moves.2)

def runningFigure (d : Declaration) (roster : List RosterItem) (now : Second) : RunningFigure :=
  let x := runningExact d roster
  { p := holdS x.1, s := holdS x.2, delta := holdS (x.1 - x.2), second := now
    complete := evaluationComplete d roster }

/-- The divergence condition, judged on the exact Δ_run (R66). -/
def divergenceHolds (d : Declaration) (roster : List RosterItem) : Bool :=
  decide (d.alarmLimit < ((runningExact d roster).1 - (runningExact d roster).2).natAbs)

/-- The mass of a held volume (R60). -/
def massOf (rho : Nat) (v : Word32) : Word32 := holdS (roundDiv (v.toInt * rho) 10000)

/-! ## Sequence numbers and elapsed seconds -/

/-- The new sequence is ahead of the held one by 1..127 modulo 256 (R20). -/
def newerThan (new held : Byte) : Bool :=
  decide (1 ≤ (new - held).toNat) && decide ((new - held).toNat ≤ 127)

/-- Newer than a value that may be absent (R20). -/
def newerThanOption (new : Byte) : Option Byte → Bool
  | none => true
  | some held => newerThan new held

/-- Whole seconds from one second to another, modulo 2^32 (R158). -/
def elapsed (now since : Second) : Nat := (now - since).toNat

end Sys2Proof.Machine
end

