-- ==== Sys2Proof/Machine/Ops.lean ====
section
/-! DEFINITION. The shared operations of the blocks: counters and notices, the outbound queue, arrivals, bindings,
working contexts and the Record Store. -/

namespace Sys2Proof.Machine

/-! ## Counters and notices (R103, R176) -/

def State.bump (s : State) (c : Counter) : State := s.setCounters (s.counters.raise c)

/-- A notice is appended, or discarded and counted at 16 (R176). -/
def State.post (s : State) (body : NoticeBody) : State :=
  if s.port.notices.length < Config.noticeSize then
    s.setPort { s.port with notices := s.port.notices ++ [{ second := s.tmr.seconds, body := body }] }
  else s.bump .noticesLost

def State.postAll (s : State) (bodies : List NoticeBody) : State := bodies.foldl State.post s

/-! ## Pins of the port -/

/-- READY: a response waits; low in reset (R168, R178). -/
def State.ready (s : State) : Bool :=
  !s.sup.held && (match s.port.state with | .answered _ => true | .idle => false | .waiting _ => false)

/-- ATTN: the notice queue holds a notice; low in reset (R176, R178). -/
def State.attn (s : State) : Bool := !s.sup.held && !s.port.notices.isEmpty

/-! ## The part itself -/

/-- The part's own station number, from the straps (R177). -/
def State.station (s : State) : Station := s.sup.straps.station

def State.now (s : State) : Second := s.tmr.seconds

/-- The fifteen parcel numbers in ascending order. -/
def allNumbers : List ParcelNo :=
  [1#4, 2#4, 3#4, 4#4, 5#4, 6#4, 7#4, 8#4, 9#4, 10#4, 11#4, 12#4, 13#4, 14#4, 15#4]

/-! ## The outbound queue (file 08, 8.6) -/

/-- No frame is ever offered and every offer is refused (R153 step 1). -/
def LineInterface.silenced (l : LineInterface) : Bool :=
  match l.standing with
  | .duplicate => true | .unnumbered => true | .active => false | .muted => false | .withdrawn => false

/-- A frame offered to the queue. -/
structure OfferedFrame where
  key : FrameKey
  payload : List Byte
  deriving DecidableEq, Repr

def newQueued (f : OfferedFrame) (listed : Bool) : QueuedFrame :=
  { key := f.key, payload := f.payload, faults := 0, inFlight := false, pendingPayload := none, withdrawn := false
    listed := listed }

/-- The kinds whose same-key offer replaces the waiting payload (R153). -/
def replaceable (k : FrameKey) : Bool :=
  keyKind k == Kind.figure.code || keyKind k == Kind.presence.code || keyKind k == Kind.alarm.code

/-- A replacement: at once, or kept as the pending payload while an attempt is in flight (R154). An offer of the
Publication Timer puts the frame on its list (R162, R163). -/
def replacePayload (payload : List Byte) (listed : Bool) (q : QueuedFrame) : QueuedFrame :=
  if q.inFlight then { q with pendingPayload := some payload, listed := q.listed || listed }
  else { q with payload := payload, listed := q.listed || listed }

/-- The frame with the highest key of a list. -/
def highestKey : List QueuedFrame → Option QueuedFrame
  | [] => none
  | q :: rest =>
    match highestKey rest with
    | none => some q
    | some h => if h.key < q.key then some q else some h

/-- The frame with the lowest key of a list. -/
def lowestKey : List QueuedFrame → Option QueuedFrame
  | [] => none
  | q :: rest =>
    match lowestKey rest with
    | none => some q
    | some h => if q.key < h.key then some q else some h

/-- A frame that an offer of class 0..4 may displace (R153 step 4, R155). -/
def displaceable (q : QueuedFrame) : Bool := !q.inFlight && decide (5#3 ≤ keyClass q.key)

def removeKey (k : FrameKey) (l : List QueuedFrame) : List QueuedFrame := l.filter (fun q => q.key != k)

def hasKey (k : FrameKey) (l : List QueuedFrame) : Bool := l.any (fun q => q.key == k)

def State.setOutbound (s : State) (l : List QueuedFrame) : State := s.setLine { s.line with outbound := l }

/-- The answer of the outbound queue to one offer, and the state after it (R153). -/
def offer (f : OfferedFrame) (listed : Bool) (s : State) : Answer × State :=
  if s.line.silenced then (.silenced, s)
  else if hasKey f.key s.line.outbound then
    if replaceable f.key then
      (.replaced, s.setOutbound (s.line.outbound.map
        (fun q => if q.key == f.key then replacePayload f.payload listed q else q)))
    else (.busy, s)
  else if s.line.outbound.length < Config.outboundSize then
    (.admitted, s.setOutbound (s.line.outbound ++ [newQueued f listed]))
  else if keyClass f.key ≤ 4#3 then
    match highestKey (s.line.outbound.filter (fun q => !q.inFlight)) with
    | some h =>
      if displaceable h then
        (.displaced, (s.setOutbound (removeKey h.key s.line.outbound ++ [newQueued f listed])).bump .displacements)
      else (.queueFull, s)
    | none => (.queueFull, s)
  else (.queueFull, s)

/-- The offer put the frame in the queue. -/
def Answer.isIn : Answer → Bool
  | .admitted => true | .replaced => true | .displaced => true
  | .busy => false | .queueFull => false | .silenced => false

/-- The offer was refused for want of room or of permission, so that a VOTE or ALARM is owed (R70, R84). -/
def Answer.isRefused : Answer → Bool
  | .queueFull => true | .silenced => true
  | .admitted => false | .replaced => false | .displaced => false | .busy => false

/-- Displaces the n displaceable frames with the highest keys, one by one (R155 step 4). -/
def displaceHighest : Nat → State → State
  | 0, s => s
  | n + 1, s =>
    match highestKey (s.line.outbound.filter displaceable) with
    | none => s
    | some h =>
      displaceHighest n ((s.setOutbound (removeKey h.key s.line.outbound)).bump .displacements)

/-- The parts of one declaration are admitted whole or refused whole (R155). -/
def offerGroup (fs : List OfferedFrame) (s : State) : Answer × State :=
  if s.line.silenced then (.silenced, s)
  else if fs.any (fun f => hasKey f.key s.line.outbound) then (.busy, s)
  else
    let free := Config.outboundSize - s.line.outbound.length
    if free + (s.line.outbound.filter displaceable).length < fs.length then (.queueFull, s)
    else
      let t := displaceHighest (fs.length - free) s
      (if free < fs.length then .displaced else .admitted,
        t.setOutbound (t.line.outbound ++ fs.map (fun f => newQueued f false)))

/-- A withdrawal of one key (R156). -/
def withdraw (k : FrameKey) (s : State) : State :=
  s.setOutbound ((s.line.outbound.filter (fun q => q.key != k || q.inFlight)).map
    (fun q => if q.key == k then { q with withdrawn := true } else q))

/-- An own frame of a kind and subject (R151). -/
def ownFrame (s : State) (kind : Kind) (parcel : ParcelNo) (item : ItemNo) (payload : List Byte) : OfferedFrame :=
  { key := mkKey kind s.station parcel item, payload := payload }

/-! ## The acceptance table, arrivals, slots and the intake queue (file 07) -/

/-- The mask forms (R123). -/
inductive MaskForm where
  | cls (c : BitVec 3)
  | kind (k : Kind)
  | sourceItem (k : Kind) (station : Station) (item : ItemNo)
  deriving DecidableEq, Repr

/-- The fields each mask form compares (R123). -/
def MaskForm.matchesKey (m : MaskForm) (key : FrameKey) : Bool :=
  match m with
  | .cls c => keyClass key == c
  | .kind k => keyKind key == k.code
  | .sourceItem k station item => keyKind key == k.code && keySource key == station && keyItem key == item

/-- The fixed entries 0..7, always enabled (R122). -/
def fixedEntries : List MaskForm :=
  [.kind .phase, .kind .vote, .kind .snapshot, .kind .declare, .kind .alarm, .cls 5#3, .kind .figure, .kind .presence]

/-- The mask of a bound entry (R122); a free entry is disabled. -/
def entryMask : Option BoundEntry → Option MaskForm
  | none => none
  | some e => some (.sourceItem .gauge e.station e.item)

/-- The entries 0..31 in search order; none is a disabled entry. -/
def AcceptanceUnit.table (a : AcceptanceUnit) : List (Option MaskForm) :=
  fixedEntries.map some ++ a.entries.map entryMask

/-- The index of the first enabled entry that matches (R123). -/
def AcceptanceUnit.search (a : AcceptanceUnit) (key : FrameKey) : Option Nat :=
  a.table.findIdx? (fun m => match m with | some f => f.matchesKey key | none => false)

def emptySlot : GaugeSlot := { boundTo := none, waiting := none, overrun := false }

def GaugeSlot.full (g : GaugeSlot) : Bool := g.waiting.isSome

def AcceptanceUnit.slot (a : AcceptanceUnit) (n : Nat) : GaugeSlot := a.slots.getD n emptySlot

def AcceptanceUnit.entry (a : AcceptanceUnit) (n : Nat) : Option BoundEntry :=
  a.entries.getD (n - Config.firstBindable) none

def AcceptanceUnit.setSlot (a : AcceptanceUnit) (n : Nat) (g : GaugeSlot) : AcceptanceUnit :=
  { a with slots := a.slots.set n g }

/-- A GAUGE fills an empty slot, or replaces the waiting reading and sets overrun (R128). -/
def fillSlot (n : Nat) (payload : List Byte) (s : State) : State :=
  let g := s.acc.slot n
  let reading : WaitingReading := { payload := payload, arrival := s.now }
  if g.full then
    (s.setAcc (s.acc.setSlot n { g with waiting := some reading, overrun := true })).bump .slotOverruns
  else s.setAcc (s.acc.setSlot n { g with waiting := some reading })

/-- The notice of a lost frame is posted for classes 0..4 (R132). -/
def postsIntakeLost (cls : BitVec 3) : Bool := decide (cls ≤ 4#3)

/-- An intake frame is appended, or lost at a full queue (R132); the append that reaches 24 enters pressure mode
(R134). -/
def appendIntake (e : IntakeEntry) (s : State) : State :=
  if s.acc.intake.length < Config.intakeSize then
    let intake := s.acc.intake ++ [e]
    if !s.acc.pressure && decide (Config.pressureOn ≤ intake.length) then
      (s.setAcc { s.acc with intake := intake, pressure := true }).post (.intakePressure intake.length)
    else s.setAcc { s.acc with intake := intake }
  else if postsIntakeLost e.cls then (s.bump .intakeLost).post (.intakeLost e.kind e.parcel)
  else s.bump .intakeLost

/-- An arrival: stamped with the arrival second, searched and routed (R124). -/
def arrive (own : Bool) (key : FrameKey) (payload : List Byte) (s : State) : State :=
  match s.acc.search key, kindOfCode (keyKind key) with
  | some n, some kind =>
    if n < Config.firstBindable then
      appendIntake
        { cls := keyClass key, kind := kind, source := keySource key, parcel := keyParcel key, item := keyItem key
          payload := payload, entryIndex := n, arrival := s.now, own := own } s
    else
      match s.acc.entry n with
      | some e => fillSlot e.slot payload s
      | none => s
  | _, _ => s

/-- The first free place of a list of entries. -/
def firstFree {α : Type} (free : α → Bool) (l : List α) : Option Nat := l.findIdx? free

def entryFree (e : Option BoundEntry) : Bool := e.isNone

def slotFree (g : GaugeSlot) : Bool := g.boundTo.isNone

/-- A binding: the lowest free entry and the lowest free slot are bound to a roster tank (R125). -/
def bindTank (station : Station) (item : ItemNo) (parcel : ParcelNo) (index : Nat) (a : AcceptanceUnit) :
    Option Binding × AcceptanceUnit :=
  match firstFree entryFree a.entries, firstFree slotFree a.slots with
  | some e, some g =>
    (some { entry := Config.firstBindable + e, slot := g },
      { a with
        entries := a.entries.set e
          (some { station := station, item := item, parcel := parcel, index := index, slot := g })
        slots := a.slots.set g { emptySlot with boundTo := some (Config.firstBindable + e) } })
  | _, _ => (none, a)

/-- Binds the tanks of a roster in roster order (R39). -/
def bindRoster (parcel : ParcelNo) : Nat → List RosterItem → AcceptanceUnit → List RosterItem × AcceptanceUnit
  | _, [], a => ([], a)
  | n, i :: rest, a =>
    if i.role.isTank then
      let b := bindTank i.station i.item parcel n a
      let r := bindRoster parcel (n + 1) rest b.2
      ({ i with binding := b.1 } :: r.1, r.2)
    else
      let r := bindRoster parcel (n + 1) rest a
      (i :: r.1, r.2)

def boundToParcel (parcel : ParcelNo) : Option BoundEntry → Bool
  | some e => e.parcel == parcel
  | none => false

/-- Unbinds every entry and slot of a parcel, discarding the readings that wait (R126). -/
def unbindParcel (parcel : ParcelNo) (a : AcceptanceUnit) : AcceptanceUnit :=
  { a with
    entries := a.entries.map (fun e => if boundToParcel parcel e then none else e)
    slots := a.slots.map (fun g =>
      match g.boundTo with
      | some n => if boundToParcel parcel (a.entry n) then emptySlot else g
      | none => g) }

def clearBindings (roster : List RosterItem) : List RosterItem := roster.map (fun i => { i with binding := none })

/-! ## The Record Store (file 06, 6.5) -/

def storedUnder (n : ParcelNo) : Option StoredParcel → Bool
  | some p => p.number == byte4 n
  | none => false

/-- A position's contents for a record, with its store check (R116). -/
def mkStored (r : ParcelRecord) : StoredParcel :=
  { number := byte4 r.number, record := r, check := storeCheck (byte4 r.number) r }

def State.stored (s : State) (n : ParcelNo) : Option StoredParcel :=
  match s.store.find? (storedUnder n) with
  | some p => p
  | none => none

/-- A change of the store, noted for a reset that falls in the service (R116, R117). -/
def State.storeStep (s : State) (position : Option Nat) (x : List (Option StoredParcel)) : State :=
  (s.setStore x).setStoreLog (s.storeLog ++ [{ position := position, after := x }])

/-- A write-back of a record to a position (R117). -/
def State.storeSet (s : State) (i : Nat) (r : ParcelRecord) : State :=
  s.storeStep (some i) (s.store.set i (some (mkStored r)))

/-- The position of a record: that of its number, or the lowest empty one (R116). -/
def State.storePlace (s : State) (n : ParcelNo) : Option Nat :=
  (s.store.findIdx? (storedUnder n)).or (s.store.findIdx? Option.isNone)

/-- The record replaces the stored one of its number, or takes the lowest empty position (R116). -/
def State.storePut (s : State) (r : ParcelRecord) : State :=
  match s.storePlace r.number with
  | some i => s.storeSet i r
  | none => s

def State.storeDelete (s : State) (n : ParcelNo) : State :=
  s.storeStep none (s.store.map (fun p => if storedUnder n p then none else p))

/-! ## The directories (R101, R102) -/

def State.dirFind (s : State) (n : ParcelNo) : Option DirEntry := s.eng.directory.find? (fun e => e.number == n)

def State.isHeld (s : State) (n : ParcelNo) : Bool := (s.dirFind n).isSome

def State.dirUpdate (s : State) (n : ParcelNo) (f : DirEntry → DirEntry) : State :=
  s.setEng { s.eng with directory := s.eng.directory.map (fun e => if e.number == n then f e else e) }

/-- A directory entry joins the directory, which is kept in ascending parcel number. -/
def insertDir (e : DirEntry) : List DirEntry → List DirEntry
  | [] => [e]
  | d :: rest => if e.number < d.number then e :: d :: rest else d :: insertDir e rest

/-- The one of condition-since and clear-since that is present (R101). -/
def persistenceCopy (r : ParcelRecord) : Option PersistenceCopy :=
  match r.decl with
  | none => none
  | some d =>
    match r.alarm.conditionSince, r.alarm.clearSince with
    | some t, _ => some { tag := .condition, since := t, persistence := d.persistence }
    | none, some t => some { tag := .clear, since := t, persistence := d.persistence }
    | none, none => none

/-- The copies of a record in its directory entry (R101). -/
def DirEntry.copyFrom (e : DirEntry) (r : ParcelRecord) : DirEntry :=
  { e with
    state := r.state
    round := r.round
    windowStart := r.windowStart
    windowLength := r.decl.map (fun d => d.window * 60)
    persistence := persistenceCopy r
    voteOwed := r.voteOwed
    alarmOwed := r.alarmOwed }

/-- A fresh directory entry of a record: the half-window mark clear and no context (R38, R119). -/
def dirEntryOf (r : ParcelRecord) : DirEntry :=
  DirEntry.copyFrom
    { number := r.number, state := r.state, round := r.round, windowStart := none, windowLength := none
      halfDone := false, persistence := none, voteOwed := false, alarmOwed := false, context := none } r

/-- The roster directory entries of a roster (R102). -/
def rosterEntries (parcel : ParcelNo) : Nat → List RosterItem → List RosterEntry
  | _, [] => []
  | n, i :: rest =>
    { station := i.station, item := i.item, parcel := parcel, index := n, role := i.role } ::
      rosterEntries parcel (n + 1) rest

def State.setRosterEntries (s : State) (n : ParcelNo) (l : List RosterEntry) : State :=
  s.setEng { s.eng with rosterDir := s.eng.rosterDir.filter (fun e => e.parcel != n) ++ l }

/-! ## Working contexts (file 06, 6.4) -/

def Engine.context (e : Engine) : ContextId → Option OpenContext
  | .w0 => e.w0
  | .w1 => e.w1

def Engine.setContext (e : Engine) (i : ContextId) (c : Option OpenContext) : Engine :=
  match i with
  | .w0 => { e with w0 := c }
  | .w1 => { e with w1 := c }

def otherContext : ContextId → ContextId
  | .w0 => .w1
  | .w1 => .w0

def State.setContext (s : State) (i : ContextId) (c : Option OpenContext) : State :=
  s.setEng (s.eng.setContext i c)

/-- Using a context makes it the more recently used (R109). -/
def State.touch (s : State) (i : ContextId) : State := s.setEng { s.eng with lessRecent := otherContext i }

/-- The victim of a miss (R109). -/
def Engine.victim (e : Engine) : ContextId :=
  match e.w0, e.w1 with
  | none, _ => .w0
  | some _, none => .w1
  | some _, some _ => e.lessRecent

/-- A write-back, when dirty: the record goes to the store and the context is clean (R110). -/
def State.writeBack (s : State) (i : ContextId) : State :=
  match s.eng.context i with
  | some c => if c.dirty then (s.storePut c.record).setContext i (some { c with dirty := false }) else s
  | none => s

/-- A closing: write-back if dirty, then the context is empty (R111). -/
def State.closeContext (s : State) (i : ContextId) : State :=
  match s.eng.context i with
  | some c => ((s.writeBack i).setContext i none).dirUpdate c.record.number (fun e => { e with context := none })
  | none => s

/-- Opens a held parcel: a hit, or a turnaround of the victim (R109, R110). -/
def State.openParcel (s : State) (n : ParcelNo) : State :=
  match s.dirFind n with
  | none => s
  | some e =>
    match e.context with
    | some i => s.touch i
    | none =>
      match s.stored n with
      | none => s
      | some p =>
        let i := s.eng.victim
        (((s.closeContext i).setContext i (some { record := p.record, dirty := false })).dirUpdate n
          (fun e => { e with context := some i })).touch i

/-- The working copy of an open parcel. -/
def State.working (s : State) (n : ParcelNo) : Option ParcelRecord :=
  match s.dirFind n with
  | none => none
  | some e =>
    match e.context with
    | none => none
    | some i =>
      match s.eng.context i with
      | some c => if c.record.number == n then some c.record else none
      | none => none

/-- The record of a held parcel: the working copy if it is open, and the stored copy otherwise (R164). -/
def State.recordOf (s : State) (n : ParcelNo) : Option ParcelRecord :=
  match s.working n with
  | some r => some r
  | none => (s.stored n).map (fun p => p.record)

/-- A change of the working copy of an open parcel: the context is dirty, and the directory copies change in the
same service (R101, R109). -/
def State.modify (s : State) (n : ParcelNo) (f : ParcelRecord → ParcelRecord) : State :=
  match s.dirFind n with
  | none => s
  | some e =>
    match e.context with
    | none => s
    | some i =>
      match s.eng.context i with
      | none => s
      | some c =>
        if c.record.number == n then
          ((s.setContext i (some { record := f c.record, dirty := true })).dirUpdate n
            (fun e => e.copyFrom (f c.record))).touch i
        else s

def State.setHalf (s : State) (n : ParcelNo) (b : Bool) : State := s.dirUpdate n (fun e => { e with halfDone := b })

/-- The service in progress writes the parcel through at its end (R113). -/
def State.markWrite (s : State) (n : ParcelNo) : State :=
  s.setEng { s.eng with dueWrites := n :: s.eng.dueWrites }

/-- The write-back of one parcel at the end of a service, if it is still open (R113). -/
def State.writeThrough (s : State) (n : ParcelNo) : State :=
  match s.dirFind n with
  | some e =>
    match e.context with
    | some i => s.writeBack i
    | none => s
  | none => s

/-- The write-throughs of a service, in ascending parcel number (R113). -/
def State.finishWrites (s : State) : State :=
  let due := allNumbers.filter (fun n => s.eng.dueWrites.contains n)
  (due.foldl State.writeThrough s).setEng { (due.foldl State.writeThrough s).eng with dueWrites := [] }

/-! ## What every command starts with -/

/-- While the part is held in reset no block changes state (R178). -/
def whenReleased (f : State → State) (s : State) : Host.Outcome State Fault Refusal :=
  if s.sup.held then .next s else .next (f s)

/-- A command of the engine, which may change the store: what it noted of its changes goes with its end. -/
def asService (f : State → State) : State → Host.Outcome State Fault Refusal :=
  whenReleased (fun s => (f s).setStoreLog s.storeLog)

end Sys2Proof.Machine
end

