-- ==== Sys2Proof/Machine/Parcel.lean ====
section
/-! DEFINITION. The life of a parcel: changes of state, the divergence alarm, the closing and the votes (files 01, 04
and 05). Each operation works on a parcel that the service has opened. -/

namespace Sys2Proof.Machine

/-! ## Changes of state and round (R8) -/

/-- The PARCEL_STATE notice of a record as it stands (R8). -/
def stateNotice (r : ParcelRecord) (cause : NoticeCause) : NoticeBody :=
  .parcelState r.number (some r.state) r.round (if r.state == .void then r.voidReason else none) cause

def postState (n : ParcelNo) (cause : NoticeCause) (s : State) : State :=
  match s.working n with
  | some r => s.post (stateNotice r cause)
  | none => s

/-- A change of state or round: the record changes, the notice is posted and the service writes the parcel through
at its end (R8, R113). -/
def changeState (n : ParcelNo) (f : ParcelRecord → ParcelRecord) (cause : NoticeCause) (s : State) : State :=
  (postState n cause (s.modify n f)).markWrite n

/-! ## The ALARM DIVERGENCE frame (R70) -/

def heldDelta (r : ParcelRecord) : Word32 :=
  match r.running with
  | some f => f.delta
  | none => 0#32

/-- The 6-byte payload: alarm kind, state, value. -/
def alarmPayload (r : ParcelRecord) : List Byte :=
  [divergenceCode, boolByte r.alarm.raised] ++ be32 (heldDelta r)

/-- Offers the ALARM of the alarm record as it stands; the answer sets or clears ALARM_OWED (R70). A refused retry of
R71 makes the context dirty too: the model's choice (notes/assumptions/33.md). -/
def offerAlarm (n : ParcelNo) (s : State) : Answer × State :=
  match s.working n with
  | none => (.silenced, s)
  | some r =>
    let o := offer (ownFrame s .alarm n 0#6 (alarmPayload r)) false s
    (o.1, o.2.modify n (fun r => { r with alarmOwed := o.1.isRefused }))

def fateOf (a : Answer) : FrameFate := if a.isRefused then .refused else .admitted

def setAlarm (n : ParcelNo) (a : AlarmRecord) (s : State) : State := s.modify n (fun r => { r with alarm := a })

def quietAlarm : AlarmRecord := { conditionSince := none, raised := false, clearSince := none }

/-- The notice of a raised or cleared alarm, with the held Δ_run. -/
def postAlarm (n : ParcelNo) (raised : Bool) (fate : FrameFate) (s : State) : State :=
  match s.working n with
  | none => s
  | some r => s.post (if raised then .alarmRaised n fate (heldDelta r) else .alarmCleared n fate (heldDelta r))

/-- The alarm is raised or cleared with its frame, its notice and a write-through (R69, R70). -/
def moveAlarm (n : ParcelNo) (raised : Bool) (s : State) : State :=
  let o := offerAlarm n (setAlarm n { conditionSince := none, raised := raised, clearSince := none } s)
  (postAlarm n raised (fateOf o.1) o.2).markWrite n

/-- STOP and CANCEL clear a raised alarm with a frame; condition-since and clear-since are discarded in any case
(R12, R14, R72). -/
def clearAlarmWithFrame (n : ParcelNo) (s : State) : State :=
  match s.working n with
  | none => s
  | some r => if r.alarm.raised then moveAlarm n false s else setAlarm n quietAlarm s

/-- An entry into VOID for another cause clears a raised alarm without a frame (R15, R72). -/
def clearAlarmSilently (n : ParcelNo) (s : State) : State :=
  match s.working n with
  | none => s
  | some r =>
    if r.alarm.raised then (postAlarm n false .noneOffered (setAlarm n quietAlarm s)).markWrite n
    else setAlarm n quietAlarm s

/-! ## Unbinding, VOID and removal (R7, R15, R16) -/

/-- Unbinds the roster tanks of a parcel; their entry and slot fields become absent (R126). -/
def unbind (n : ParcelNo) (s : State) : State :=
  (s.setAcc (unbindParcel n s.acc)).modify n (fun r => { r with roster := clearBindings r.roster })

def unbindIfBound (n : ParcelNo) (s : State) : State :=
  match s.working n with
  | some r => if r.state.isBound then unbind n s else s
  | none => s

def toVoid (why : VoidReason) (r : ParcelRecord) : ParcelRecord :=
  { r with state := .void, voidReason := some why, windowStart := none, voteOwed := false }

/-- An entry into VOID (R15); CANCEL has cleared the alarm before it (R14). -/
def enterVoid (n : ParcelNo) (why : VoidReason) (cause : NoticeCause) (s : State) : State :=
  (changeState n (toVoid why) cause (unbindIfBound n (clearAlarmSilently n s))).setHalf n false

/-- A context that holds the parcel is emptied without write-back (R16). -/
def discardContext (n : ParcelNo) (s : State) : State :=
  match s.dirFind n with
  | some e =>
    match e.context with
    | some i => s.setContext i none
    | none => s
  | none => s

def dropDirectory (n : ParcelNo) (s : State) : State :=
  s.setEng { s.eng with
    directory := s.eng.directory.filter (fun e => e.number != n)
    rosterDir := s.eng.rosterDir.filter (fun e => e.parcel != n)
    dueWrites := s.eng.dueWrites.filter (fun m => m != n) }

/-- The removal of a parcel, by RELEASE or DROP_PARCEL (R16). -/
def removeParcel (n : ParcelNo) (cause : NoticeCause) (s : State) : State :=
  match s.dirFind n with
  | none => s
  | some e =>
    ((dropDirectory n (discardContext n ((s.setAcc (unbindParcel n s.acc)).storeDelete n))).post
      (.parcelState n none e.round none cause))

/-! ## The own VOTE (R83, R84) -/

def votePayload (round : Nat) (o : OwnFigure) : List Byte :=
  [byteOf round, o.verdict.code] ++ be32 o.p ++ be32 o.s ++ be32 o.ratio ++ be32 o.check ++ be16 o.flags

def voteFrame (s : State) (n : ParcelNo) (round : Nat) (o : OwnFigure) : OfferedFrame :=
  ownFrame s .vote n (BitVec.ofNat 6 round) (votePayload round o)

/-- Offers the own VOTE; the answer sets or clears VOTE_OWED (R84). A BUSY answer clears it at an owed retry by R84's
table; that it clears it at the entry into RECONCILED too, where the table has no row for it, is the model's choice
(notes/assumptions/27.md). A refused retry, which leaves the flag as it was, makes the context dirty like any other
writing of the record: the model's choice (notes/assumptions/33.md). -/
def offerVote (n : ParcelNo) (s : State) : State :=
  match s.working n with
  | none => s
  | some r =>
    match r.own with
    | none => s
    | some o =>
      let a := offer (voteFrame s n r.round o) false s
      a.2.modify n (fun r => { r with voteOwed := a.1.isRefused })

/-! ## RECONCILED (R82) -/

def hasBothValues (i : RosterItem) : Bool := i.opening.isSome && i.closing.isSome

/-- The record with its own figure, in RECONCILED. -/
def toReconciled (r : ParcelRecord) : ParcelRecord :=
  match r.decl with
  | none => r
  | some d => { r with own := some (ownFigure r.number r.round d r.roster), state := .reconciled }

/-- After a closing value is stored: with every value held, the own figure is computed, the parcel enters RECONCILED
and its VOTE is offered (R22, R49, R82). -/
def reconcileIfComplete (n : ParcelNo) (s : State) : State :=
  match s.working n with
  | some r =>
    if r.roster.all hasBothValues then offerVote n (changeState n toReconciled .other s) else s
  | none => s

/-! ## AGREED, DISPUTED and LAPSED (R94, R95, R78) -/

def enterDisputed (n : ParcelNo) (s : State) : State :=
  (changeState n (fun r => { r with state := .disputed, windowStart := none }) .other s).setHalf n false

def enterLapsed (n : ParcelNo) (s : State) : State :=
  (changeState n (fun r => { r with state := .lapsed, windowStart := none }) .other s).setHalf n false

def enterAgreed (n : ParcelNo) (s : State) : State :=
  (changeState n (fun r => { r with state := .agreed, windowStart := none, voteOwed := false }) .other
    (unbind n s)).setHalf n false

/-! ## Votes (R92, R93) -/

/-- The entry of the source node after a vote (R92). -/
def voteEntryStep (v : VoteData) (e : VoteEntry) : VoteEntry :=
  match e.status, e.vote with
  | .absent, _ => { e with status := .received, vote := some v }
  | .received, some w => if w.check == v.check then e else { e with status := .inconsistent }
  | .received, none => e
  | .inconsistent, _ => e

def applyVoteTo (source : Station) (v : VoteData) (votes : List VoteEntry) : List VoteEntry :=
  votes.map (fun e => if e.node == source then voteEntryStep v e else e)

def VoteEntry.checkOf (e : VoteEntry) : Option Word32 := e.vote.map (fun v => v.check)

/-- Every entry holds the same check. -/
def checksEqual : List VoteEntry → Bool
  | [] => true
  | e :: rest => rest.all (fun f => f.checkOf == e.checkOf)

/-- The decision after a change of a vote-list entry (R93). -/
def decide93 (n : ParcelNo) (s : State) : State :=
  match s.working n with
  | none => s
  | some r =>
    if r.votes.any (fun e => e.status == .inconsistent) && (r.state == .closing || r.state == .reconciled) then
      enterDisputed n s
    else if r.votes.all (fun e => e.status == .received) && r.state == .reconciled then
      if checksEqual r.votes then enterAgreed n s else enterDisputed n s
    else s

/-! ## The running balance and the divergence alarm (file 04) -/

/-- The alarm record after a complete evaluation (R67, R68). -/
def alarmAfterEvaluation (holds : Bool) (now : Second) (a : AlarmRecord) : AlarmRecord :=
  if a.raised then
    if holds then { a with clearSince := none }
    else { a with clearSince := some (a.clearSince.getD now) }
  else
    if holds then { a with conditionSince := some (a.conditionSince.getD now) }
    else { a with conditionSince := none }

/-- The persistence has run out (R69): the state of the alarm that follows, if so. -/
def persistenceRunsOut (now : Second) (c : PersistenceCopy) : Bool := decide (c.persistence ≤ elapsed now c.since)

/-- The persistence test of R69 on the persistence copy of a parcel. -/
def testPersistence (n : ParcelNo) (s : State) : State :=
  match s.dirFind n with
  | none => s
  | some e =>
    match e.persistence with
    | none => s
    | some c =>
      if persistenceRunsOut s.now c then moveAlarm n (c.tag == .condition) s else s

/-- The record after an evaluation: the running figure, and the alarm record when it is complete (R63, R65). -/
def evaluated (now : Second) (r : ParcelRecord) : ParcelRecord :=
  match r.decl with
  | none => r
  | some d =>
    let f := runningFigure d r.roster now
    { r with
      running := some f
      alarm := if f.complete then alarmAfterEvaluation (divergenceHolds d r.roster) now r.alarm else r.alarm }

/-- An evaluation of the running balance (R63); a complete one is followed by the persistence test (R69). -/
def evaluate (n : ParcelNo) (s : State) : State :=
  let t := s.modify n (evaluated s.now)
  match t.working n with
  | some r =>
    match r.running with
    | some f => if f.complete then testPersistence n t else t
    | none => t
  | none => t

/-! ## Phases (R9 to R16) -/

/-- The phases that are legal in a state (file 01, 1.4); REGAUGE also needs the round condition of R13. -/
def phaseLegal (p : Phase) (frameRound : Byte) (r : ParcelRecord) : Bool :=
  match p with
  | .opening => r.state == .declared
  | .start => r.state == .opening
  | .stop => r.state == .transfer
  | .regauge =>
    (r.state == .disputed || r.state == .lapsed) && frameRound.toNat == r.round && decide (r.round < Config.lastRound)
  | .cancel => !(r.state == .agreed || r.state == .void)
  | .release => r.state.isTerminal

/-- The opening value that START substitutes from a usable latest reading (R11). -/
def substituteOpening (i : RosterItem) : RosterItem :=
  match i.opening with
  | some _ => i
  | none =>
    match i.latest with
    | some l =>
      match l.bad, l.std with
      | false, some v =>
        { i with opening := some { value := { reading := .tank l.reading, std := v }, substituted := true } }
      | _, _ => i
    | none => i

/-- The roster indices that still lack an opening value. -/
def missingOpenings : Nat → List RosterItem → List Nat
  | _, [] => []
  | n, i :: rest => if i.opening.isNone then n :: missingOpenings (n + 1) rest else missingOpenings (n + 1) rest

def applyOpen (n : ParcelNo) (reason : Byte) (s : State) : State :=
  changeState n (fun r => { r with state := .opening }) (.phase reason) s

/-- START (R11). -/
def applyStart (n : ParcelNo) (reason : Byte) (s : State) : State :=
  let t := s.modify n (fun r => { r with roster := r.roster.map substituteOpening })
  match t.working n with
  | none => t
  | some r =>
    changeState n (fun r => { r with state := .transfer }) (.phase reason)
      (t.postAll ((missingOpenings 0 r.roster).map (fun i => .openingMissing n i)))

/-- STOP (R12). -/
def applyStop (n : ParcelNo) (reason : Byte) (arrival : Second) (s : State) : State :=
  clearAlarmWithFrame n
    ((changeState n (fun r => { r with state := .closing, windowStart := some arrival }) (.phase reason) s).setHalf n
      false)

def absentVotes (votes : List VoteEntry) : List VoteEntry :=
  votes.map (fun e => { e with status := .absent, vote := none })

/-- The record of a new round (R13 steps 1 to 7). -/
def regauged (arrival : Second) (r : ParcelRecord) : ParcelRecord :=
  { r with
    round := r.round + 1
    state := .closing
    roster := r.roster.map (fun i => { i with closing := none, requestIssued := false })
    votes := absentVotes r.votes
    own := none
    voteOwed := false
    windowStart := some arrival }

/-- REGAUGE (R13, R98); the own VOTE of the old round is withdrawn. -/
def applyRegauge (n : ParcelNo) (reason : Byte) (arrival : Second) (s : State) : State :=
  match s.working n with
  | none => s
  | some r =>
    withdraw (mkKey .vote s.station n (BitVec.ofNat 6 r.round))
      ((changeState n (regauged arrival) (.phase reason) s).setHalf n false)

/-- CANCEL (R14). -/
def applyCancel (n : ParcelNo) (reason : Byte) (s : State) : State :=
  enterVoid n .cancelled (.phase reason) (clearAlarmWithFrame n s)

/-- The effect of an applied phase (R10 to R16). -/
def applyLegal (p : Phase) (n : ParcelNo) (reason : Byte) (arrival : Second) (s : State) : State :=
  match p with
  | .opening => applyOpen n reason s
  | .start => applyStart n reason s
  | .stop => applyStop n reason arrival s
  | .regauge => applyRegauge n reason arrival s
  | .cancel => applyCancel n reason s
  | .release => removeParcel n (.phase reason) s

/-- The phase, round and reason of a PHASE frame of good form (R9 step 2). -/
def parsePhase (e : IntakeEntry) : Option (Phase × Byte × Byte) :=
  match e.payload with
  | [code, round, reason] =>
    match phaseOfCode code with
    | some p => if code == byte6 e.item then some (p, round, reason) else none
    | none => none
  | _ => none

/-- The source check of R9 step 3; VOID(CHECK) takes RELEASE from any station. -/
def phaseSourceOk (p : Phase) (source : Station) (r : ParcelRecord) : Bool :=
  match r.decl with
  | some d => d.nodes.contains source
  | none => p == .release

/-- A PHASE frame taken from the intake queue (R9). -/
def applyPhase (e : IntakeEntry) (s : State) : State :=
  match s.dirFind e.parcel with
  | none => s
  | some _ =>
    match parsePhase e with
    | none => s.bump .ignoredPhases
    | some (p, round, reason) =>
      let t := s.openParcel e.parcel
      match t.working e.parcel with
      | none => t
      | some r =>
        if phaseSourceOk p e.source r && phaseLegal p round r then
          applyLegal p e.parcel reason e.arrival
            (t.modify e.parcel (fun r => { r with
              lastPhase := some { phase := p, source := e.source, reason := reason, arrival := e.arrival } }))
        else t.bump .ignoredPhases

/-! ## Records of gauge, line and meter stations (R18 to R22) -/

/-- The roster directory entries of a pair (R18). -/
def State.holdersOf (s : State) (station : Station) (item : ItemNo) : List RosterEntry :=
  s.eng.rosterDir.filter (fun e => e.station == station && e.item == item)

def State.inBoundState (s : State) (n : ParcelNo) : Bool :=
  match s.dirFind n with
  | some e => e.state.isBound
  | none => false

/-- The role that each kind of record fits (R18). -/
def roleFits (kind : Kind) (role : Role) : Bool :=
  match kind with
  | .snapshot => role.isTank
  | .lineState => role == .line
  | .meter => role == .meter
  | _ => false

def updateItem (n : Nat) (f : RosterItem → RosterItem) (roster : List RosterItem) : List RosterItem :=
  roster.modify n f

def State.setItem (s : State) (n : ParcelNo) (index : Nat) (f : RosterItem → RosterItem) : State :=
  s.modify n (fun r => { r with roster := updateItem index f r.roster })

def openingSeq (i : RosterItem) : Option Byte := i.opening.map (fun o => o.value.reading.seq)
def closingSeq (i : RosterItem) : Option Byte := i.closing.map (fun c => c.reading.seq)
def latestSeq (i : RosterItem) : Option Byte := i.latest.map (fun l => l.reading.seq)

/-- An opening record that passed R18 and R19 (R21). -/
def takeOpening (n : ParcelNo) (index : Nat) (d : Declaration) (rec : Reading) (state : ParcelState) (i : RosterItem)
    (s : State) : State :=
  if state == .opening then
    if newerThanOption rec.seq (openingSeq i) then
      s.setItem n index (fun i => { i with opening := some { value := rec.toValue d, substituted := false } })
    else s.bump .staleReadings
  else s.bump .lateRecords

/-- A closing record that passed R18 and R19 (R22). -/
def takeClosing (n : ParcelNo) (index : Nat) (d : Declaration) (rec : Reading) (state : ParcelState) (i : RosterItem)
    (s : State) : State :=
  if state == .closing then
    if i.opening.isNone then s.bump .unusableRecords
    else if newerThanOption rec.seq (closingSeq i) then
      reconcileIfComplete n (s.setItem n index (fun i => { i with closing := some (rec.toValue d) }))
    else s.bump .staleReadings
  else s.bump .lateRecords

/-- The form of a record: its length, its kind 1 or 2, its temperature (R19). -/
def recordForm (kind : Kind) (payload : List Byte) : Option Reading :=
  match parseRecord kind payload with
  | some r => if (r.kind == 1#8 || r.kind == 2#8) && tempInRange r.temp then some r else none
  | none => none

/-- A record judged for one bound holder (R18 role, R19, R21, R22). -/
def takeRecord (kind : Kind) (payload : List Byte) (h : RosterEntry) (s : State) : State :=
  if !roleFits kind h.role then s.bump .unusableRecords
  else
    match recordForm kind payload with
    | none => s.bump .unusableRecords
    | some rec =>
      let t := s.openParcel h.parcel
      match t.working h.parcel with
      | none => t
      | some r =>
        match r.decl, r.roster[h.index]? with
        | some d, some i =>
          if rec.isBad d.alpha then t.bump .unusableRecords
          else if rec.kind == 1#8 then takeOpening h.parcel h.index d rec r.state i t
          else takeClosing h.parcel h.index d rec r.state i t
        | _, _ => t

/-- A SNAPSHOT, LINE STATE or METER record taken from the intake queue (R18): every bound holder in ascending parcel
number; with none, one late or unusable record. -/
def applyRecord (e : IntakeEntry) (s : State) : State :=
  let holders := s.holdersOf e.source e.item
  let bound := allNumbers.flatMap (fun n => holders.filter (fun h => h.parcel == n && s.inBoundState n))
  if bound.isEmpty then
    if holders.isEmpty then s.bump .unusableRecords else s.bump .lateRecords
  else bound.foldl (fun t h => takeRecord e.kind e.payload h t) s

/-! ## VOTE, FIGURE, ALARM and PRESENCE (R88 to R93, R74, R75, R42, R33) -/

/-- The flags field of a VOTE with its unused bits 15..5, which are not examined, as 0 (R181; file 11, 11.2.3). -/
def usedFlags (w : BitVec 16) : BitVec 16 := w &&& 0x001F#16

/-- The round, status and values of a VOTE of good form (R88). -/
def parseVote (e : IntakeEntry) : Option VoteData :=
  match e.payload with
  | [rd, st, p0, p1, p2, p3, s0, s1, s2, s3, r0, r1, r2, r3, c0, c1, c2, c3, f0, f1] =>
    if decide (1 ≤ rd.toNat) && decide (rd.toNat ≤ Config.lastRound) && rd == byte6 e.item && (verdictOfCode st).isSome then
      some { round := rd.toNat, check := word32 c0 c1 c2 c3, p := word32 p0 p1 p2 p3, s := word32 s0 s1 s2 s3
             ratio := word32 r0 r1 r2 r3, flags := usedFlags (word16 f0 f1) }
    else none
  | _ => none

/-- The states in which a VOTE enters the list (R91). -/
def takesVotes (st : ParcelState) : Bool := st == .closing || st == .reconciled || st == .disputed

/-- A VOTE whose parcel is open, judged by R88 (node set), R89, R90 and R91, then applied by R92 and R93. -/
def judgeVote (e : IntakeEntry) (v : VoteData) (r : ParcelRecord) (s : State) : State :=
  match r.decl with
  | none => s.bump .ignoredVotes
  | some d =>
    if !d.nodes.contains e.source || (e.source == s.station && !e.own) || v.round != r.round then s.bump .ignoredVotes
    else if !takesVotes r.state then s.bump .lateRecords
    else if applyVoteTo e.source v r.votes == r.votes then s
    else decide93 e.parcel (s.modify e.parcel (fun r => { r with votes := applyVoteTo e.source v r.votes }))

/-- A VOTE taken from the intake queue (R88). -/
def applyVote (e : IntakeEntry) (s : State) : State :=
  match s.dirFind e.parcel with
  | none => s
  | some _ =>
    match parseVote e with
    | none => s.bump .ignoredVotes
    | some v =>
      let t := s.openParcel e.parcel
      match t.working e.parcel with
      | none => t
      | some r => judgeVote e v r t

/-- A byte that is 0 or 1. -/
def bit01 (b : Byte) : Option Bool := if b == 0#8 then some false else if b == 1#8 then some true else none

/-- A FIGURE payload of length 14 with its two fields 0 or 1 (R74). -/
def parseFigure (e : IntakeEntry) : Option PeerFigure :=
  match e.payload with
  | [p0, p1, p2, p3, s0, s1, s2, s3, d0, d1, d2, d3, a, c] =>
    match bit01 a, bit01 c with
    | some raised, some complete =>
      some { p := word32 p0 p1 p2 p3, s := word32 s0 s1 s2 s3, delta := word32 d0 d1 d2 d3, raised := raised
             complete := complete, arrival := e.arrival }
    | _, _ => none
  | _ => none

def updatePeer (source : Station) (f : PeerEntry → PeerEntry) (peers : List PeerEntry) : List PeerEntry :=
  peers.map (fun p => if p.node == source then f p else p)

/-- The source is another node of the parcel's node set. -/
def isPeerOf (source : Station) (s : State) (r : ParcelRecord) : Bool :=
  match r.decl with
  | some d => d.nodes.contains source && source != s.station
  | none => false

/-- A FIGURE taken from the intake queue (R74). -/
def applyFigure (e : IntakeEntry) (s : State) : State :=
  if e.own || e.item != 0#6 then s
  else
    match parseFigure e, s.dirFind e.parcel with
    | some f, some _ =>
      let t := s.openParcel e.parcel
      match t.working e.parcel with
      | some r =>
        if isPeerOf e.source t r then
          t.modify e.parcel (fun r => { r with
            peers := updatePeer e.source (fun p => { p with figure := some f }) r.peers })
        else t
      | none => t
    | _, _ => s

/-- A peer divergence alarm of a parcel that is open (R75). -/
def peerDivergence (e : IntakeEntry) (raised : Bool) (value : Word32) (s : State) : State :=
  ((s.modify e.parcel (fun r => { r with
      peers := updatePeer e.source (fun p => { p with alarm := raised }) r.peers })).post
    (.peerAlarm e.parcel e.source raised value)).markWrite e.parcel

/-- The states that a peer refusal voids (R42). -/
def refusalVoids (st : ParcelState) : Bool :=
  st == .declared || st == .opening || st == .transfer || st == .closing || st == .reconciled

/-- A peer refusal of a parcel that is open (R42). -/
def peerRefusal (e : IntakeEntry) (reason : Byte) (r : ParcelRecord) (s : State) : State :=
  match r.decl with
  | some d =>
    if d.nodes.contains e.source && refusalVoids r.state then enterVoid e.parcel .peerRefused (.refusal reason) s
    else s
  | none => s

/-- What an ALARM of good form says (R75, R42). -/
inductive AlarmContent where
  | divergence (raised : Bool) (value : Word32)
  | refusal (reason : Byte)
  deriving DecidableEq, Repr

/-- The content of an ALARM of length 6 whose alarm kind equals the subject item; an alarm kind that is not listed,
or a DIVERGENCE state above 1, has none (R42, R75, R133). -/
def parseAlarm (e : IntakeEntry) : Option AlarmContent :=
  match e.payload with
  | [kind, state, v0, v1, v2, v3] =>
    if kind != byte6 e.item then none
    else if kind == divergenceCode then (bit01 state).map (fun raised => .divergence raised (word32 v0 v1 v2 v3))
    else if kind == declareRefusedCode then some (.refusal state)
    else none
  | _ => none

/-- An ALARM taken from the intake queue: R75 for DIVERGENCE, R42 for DECLARE_REFUSED, no effect otherwise (R133). -/
def applyAlarm (e : IntakeEntry) (s : State) : State :=
  if e.own then s
  else
    match parseAlarm e, s.dirFind e.parcel with
    | some content, some _ =>
      let t := s.openParcel e.parcel
      match t.working e.parcel with
      | none => t
      | some r =>
        match content with
        | .divergence raised value => if isPeerOf e.source t r then peerDivergence e raised value t else t
        | .refusal reason => peerRefusal e reason r t
    | _, _ => s

/-- A station number joins the heard-node set, which is kept in ascending order without duplicates (R33). -/
def insertStation (n : Station) : List Station → List Station
  | [] => [n]
  | m :: rest => if n == m then m :: rest else if n < m then n :: m :: rest else m :: insertStation n rest

/-- A PRESENCE taken from the intake queue (R33). -/
def applyPresence (e : IntakeEntry) (s : State) : State :=
  if e.payload.length == 2 then s.setEng { s.eng with heard := insertStation e.source s.eng.heard } else s

end Sys2Proof.Machine
end

