-- ==== Sys2Proof/Machine/Declare.lean ====
section
/-! DEFINITION. Declarations: assembly, validation, acceptance, amendment and refusal (file 02). -/

namespace Sys2Proof.Machine

/-! ## Validation (R34 to R37) -/

/-- The ranges of the part 0 fields (R34). -/
def part0InRange (p : Part0) : Bool :=
  decide (1 ≤ p.grade.toNat) && (directionOfCode p.direction).isSome &&
    decide (2 ≤ p.count) && decide (p.count ≤ 16) && decide (p.alpha ≤ 2000) &&
    decide (5000 ≤ p.rho) && decide (p.rho ≤ 12000) &&
    decide (-50000 ≤ p.vefOffset) && decide (p.vefOffset ≤ 50000) && decide (p.tolerance ≤ 50000) &&
    decide (1 ≤ p.alarmLimit) && decide (p.alarmLimit ≤ 2147483647) &&
    decide (60 ≤ p.persistence) && decide (p.persistence ≤ 3600) &&
    decide (5 ≤ p.window) && decide (p.window ≤ 240)

def distinct {α : Type} [BEq α] : List α → Bool
  | [] => true
  | a :: rest => !rest.contains a && distinct rest

/-- The node set of R35. -/
def nodeSetOk (nodes : List Station) : Bool :=
  decide (2 ≤ nodes.length) && decide (nodes.length ≤ 4) && distinct nodes && !nodes.contains 63#6

def countRole (role : Role) (items : List DeclaredItem) : Nat := (items.filter (fun i => i.role == role)).length

def tankCount (items : List DeclaredItem) : Nat := (items.filter (fun i => i.role.isTank)).length

/-- The roster of R35. -/
def rosterOk (items : List DeclaredItem) : Bool :=
  items.all (fun i => i.station != 0#6 && i.station != 63#6) && distinct (items.map (fun i => (i.station, i.item))) &&
    decide (2 ≤ tankCount items) && decide (tankCount items ≤ 12) &&
    decide (1 ≤ countRole .shipTank items) && decide (1 ≤ countRole .shoreTank items) &&
    decide (countRole .line items ≤ 3) && decide (countRole .meter items ≤ 1)

/-- FORM passes (R34, R35); the roster holds exactly the item count (R28, R29). -/
def formOk (p : Part0) (items : List DeclaredItem) : Bool :=
  part0InRange p && nodeSetOk p.nodes && items.length == p.count && rosterOk items

/-- TANK_BUSY: a pair stands in the roster of another parcel in a bound state, and one of the two items is a tank
(R36). A parcel's own roster entries are not counted (R40). -/
def tankBusy (n : ParcelNo) (items : List DeclaredItem) (s : State) : Bool :=
  items.any (fun i => (s.holdersOf i.station i.item).any (fun h =>
    h.parcel != n && s.inBoundState h.parcel && (i.role.isTank || h.role.isTank)))

def freeEntries (a : AcceptanceUnit) : Nat := (a.entries.filter entryFree).length
def freeSlots (a : AcceptanceUnit) : Nat := (a.slots.filter slotFree).length

/-- The first check that fails, in the order of R34; none is a pass. -/
def validate (source : Station) (n : ParcelNo) (p : Part0) (items : List DeclaredItem) (s : State) :
    Option RefusalReason :=
  if !formOk p items then some .form
  else if !p.nodes.contains source then some .notMember
  else if !p.nodes.all (fun m => s.eng.heard.contains m) then some .nodeUnheard
  else if tankBusy n items s then some .tankBusy
  else if !s.isHeld n && decide (Config.tableSize ≤ s.eng.directory.length) then some .tableFull
  else if decide (freeEntries s.acc < tankCount items) || decide (freeSlots s.acc < tankCount items) then some .noSlots
  else none

/-! ## Acceptance (R38, R39) -/

/-- The declaration part from part 0 (R3, R38). -/
def declarationOf (source : Station) (p : Part0) : Declaration :=
  { grade := p.grade
    direction := (directionOfCode p.direction).getD .shipToShore
    alpha := p.alpha
    rho := p.rho
    vef := (1000000 + p.vefOffset).toNat
    tolerance := p.tolerance
    alarmLimit := p.alarmLimit
    persistence := p.persistence
    window := p.window
    nodes := p.nodes
    declarer := source }

/-- A roster item as acceptance leaves it, before its binding (R5). -/
def freshItem (i : DeclaredItem) : RosterItem :=
  { station := i.station, item := i.item, role := i.role, binding := none, latest := none, opening := none
    closing := none, requestIssued := false }

/-- The record with every part in its acceptance value (R5, R6), and the given roster. -/
def acceptedRecord (n : ParcelNo) (d : Declaration) (roster : List RosterItem) : ParcelRecord :=
  { number := n, decl := some d, state := .declared, voidReason := none, round := 1, lastPhase := none
    roster := roster, running := none, alarm := quietAlarm, own := none
    votes := d.nodes.map (fun m => { node := m, status := .absent, vote := none })
    peers := d.nodes.map (fun m => { node := m, figure := none, alarm := false })
    windowStart := none, voteOwed := false, alarmOwed := false }

/-- Puts a new record in a context that the service has made ready for it, dirty (R110). -/
def buildInContext (r : ParcelRecord) (i : ContextId) (s : State) : State :=
  ((s.setContext i (some { record := r, dirty := true })).dirUpdate r.number
    (fun e => { e.copyFrom r with context := some i })).touch i

/-- The bindings of a roster and the record with them (R39). -/
def bindNew (n : ParcelNo) (d : Declaration) (items : List DeclaredItem) (a : AcceptanceUnit) :
    ParcelRecord × AcceptanceUnit :=
  let b := bindRoster n 0 (items.map freshItem) a
  (acceptedRecord n d b.1, b.2)

/-- Acceptance (R38). -/
def accept (n : ParcelNo) (d : Declaration) (items : List DeclaredItem) (s : State) : State :=
  let b := bindNew n d items s.acc
  let i := s.eng.victim
  let t := (s.closeContext i).setAcc b.2
  let u := t.setEng { t.eng with directory := insertDir (dirEntryOf b.1) t.eng.directory }
  let v := (buildInContext b.1 i u).setRosterEntries n (rosterEntries n 0 b.1.roster)
  (postState n .other v).markWrite n

/-! ## Refusal (R41) and conflict (R32) -/

/-- A refusal: the ALARM is offered and the notice posted. -/
def refuse (n : ParcelNo) (source : Station) (reason : RefusalReason) (s : State) : State :=
  let o := offer (ownFrame s .alarm n 1#6 ([declareRefusedCode, reason.code] ++ be32 0#32)) false s
  o.2.post (.declareRefused n source reason o.1.isIn)

def declareConflict (n : ParcelNo) (source : Station) (held : ParcelState) (s : State) : State :=
  (s.bump .conflicts).post (.declareConflict n source held)

/-! ## Amendment (R40) -/

/-- An amendment of a parcel that is open. -/
def amend (source : Station) (n : ParcelNo) (p : Part0) (items : List DeclaredItem) (s : State) : State :=
  let t := unbind n s
  match validate source n p items t with
  | none =>
    let b := bindNew n (declarationOf source p) items t.acc
    let u := (t.setAcc b.2).setRosterEntries n (rosterEntries n 0 b.1.roster)
    (changeState n (fun _ => b.1) .other u).setHalf n false
  | some reason => refuse n source reason (enterVoid n .amendRefused .other t)

/-! ## Assembly (R25 to R32) -/

/-- The record of the open parcel is in DECLARED and the source is its declarer (R32). -/
def isAmendment (n : ParcelNo) (source : Station) (s : State) : Bool :=
  match s.working n with
  | some r =>
    r.state == .declared && (match r.decl with | some d => d.declarer == source | none => false)
  | none => false

/-- Opens a held parcel in DECLARED, whose declarer has to be read. -/
def openIfDeclared (n : ParcelNo) (s : State) : State :=
  match s.dirFind n with
  | some e => if e.state == .declared then s.openParcel n else s
  | none => s

/-- A failed assembly (R31). -/
def failAssembly (source : Station) (n : ParcelNo) (s : State) : State :=
  match s.dirFind n with
  | none => refuse n source .assembly s
  | some e =>
    let t := openIfDeclared n s
    if e.state == .declared && isAmendment n source t then refuse n source .assembly (enterVoid n .amendRefused .other t)
    else declareConflict n source e.state t

/-- A completed declaration: the held-number decision, then validation or amendment (R32). -/
def completeDeclaration (source : Station) (n : ParcelNo) (p : Part0) (items : List DeclaredItem) (s : State) : State :=
  match s.dirFind n with
  | none =>
    match validate source n p items s with
    | none => accept n (declarationOf source p) items s
    | some reason => refuse n source reason s
  | some e =>
    let t := openIfDeclared n s
    if e.state == .declared && isAmendment n source t then amend source n p items t
    else declareConflict n source e.state t

def Engine.buffer (e : Engine) : Fin 2 → Option Assembly
  | 0 => e.buf0
  | 1 => e.buf1

def State.setBuffer (s : State) (b : Fin 2) (a : Option Assembly) : State :=
  match b with
  | 0 => s.setEng { s.eng with buf0 := a }
  | 1 => s.setEng { s.eng with buf1 := a }

def keyedTo (source : Station) (n : ParcelNo) : Option Assembly → Bool
  | some a => a.source == source && a.parcel == n
  | none => false

def numberedFor (n : ParcelNo) : Option Assembly → Bool
  | some a => a.parcel == n
  | none => false

/-- The buffer in use for a source and parcel number (R26). -/
def Engine.bufferFor (e : Engine) (source : Station) (n : ParcelNo) : Option (Fin 2) :=
  if keyedTo source n e.buf0 then some 0 else if keyedTo source n e.buf1 then some 1 else none

def Engine.numberAssembled (e : Engine) (n : ParcelNo) : Bool := numberedFor n e.buf0 || numberedFor n e.buf1

/-- The lower-numbered free buffer (R27 step 5). -/
def Engine.freeBuffer (e : Engine) : Option (Fin 2) :=
  if e.buf0.isNone then some 0 else if e.buf1.isNone then some 1 else none

def countOk (p : Part0) : Bool := decide (2 ≤ p.count) && decide (p.count ≤ 16)

/-- Opens or restarts a buffer, or completes at once when the item count lies outside 2..16 (R27, R29). -/
def startAssembly (b : Fin 2) (e : IntakeEntry) (p : Part0) (s : State) : State :=
  if countOk p then
    s.setBuffer b (some
      { source := e.source, parcel := e.parcel, part0 := p, second := e.arrival, nextPart := 1, items := [] })
  else completeDeclaration e.source e.parcel p [] (s.setBuffer b none)

/-- A part 0 that passed the screen (R27). -/
def takePart0 (e : IntakeEntry) (s : State) : State :=
  match parsePart0 e.payload with
  | none => s
  | some p =>
    if !p.nodes.contains s.station then
      match s.eng.bufferFor e.source e.parcel with
      | some b => s.setBuffer b none
      | none => s
    else
      match s.eng.bufferFor e.source e.parcel with
      | some b => startAssembly b e p s
      | none =>
        if s.eng.numberAssembled e.parcel then s.bump .conflicts
        else
          match s.eng.freeBuffer with
          | some b => startAssembly b e p s
          | none => failAssembly e.source e.parcel s

/-- The length that the item count calls for (R24). -/
def partLength (count part : Nat) : Nat :=
  if part == 1 then (if count ≤ 10 then 2 * count else 20) else 2 * (count - 10)

/-- A part 1 or 2 that passed the screen (R28). -/
def takeRosterPart (e : IntakeEntry) (s : State) : State :=
  match s.eng.bufferFor e.source e.parcel with
  | none => if s.eng.numberAssembled e.parcel then s.bump .conflicts else s
  | some b =>
    match s.eng.buffer b with
    | none => s
    | some a =>
      if e.item.toNat != a.nextPart || e.payload.length != partLength a.part0.count a.nextPart then
        failAssembly e.source e.parcel (s.setBuffer b none)
      else
        let items := a.items ++ parseItems e.payload
        if items.length == a.part0.count then
          completeDeclaration e.source e.parcel a.part0 items (s.setBuffer b none)
        else s.setBuffer b (some { a with items := items, nextPart := 2 })

/-- A DECLARE taken from the intake queue (R25). -/
def applyDeclare (e : IntakeEntry) (s : State) : State :=
  if s.line.standing == .unnumbered || e.parcel == 0#4 || decide (2 < e.item.toNat) then s
  else if e.item == 0#6 then takePart0 e s
  else takeRosterPart e s

/-! ## The timeout of an assembly buffer (R30) -/

/-- The buffer is in use and at least 2 s past its part 0. -/
def assemblyDue (b : Fin 2) (s : State) : Bool :=
  match s.eng.buffer b with
  | some a => decide (Config.assemblyLimit ≤ elapsed s.now a.second)
  | none => false

/-- A buffer that is due fails with ASSEMBLY and is freed. -/
def timeoutAssembly (b : Fin 2) (s : State) : State :=
  if assemblyDue b s then
    match s.eng.buffer b with
    | some a => failAssembly a.source a.parcel (s.setBuffer b none)
    | none => s
  else s

end Sys2Proof.Machine
end

