-- ==== Sys2Proof/Machine/Timer.lean ====
section
/-! DEFINITION. The Publication Timer (file 09): the second tick, the cycle, the build moment and the mark end. -/

namespace Sys2Proof.Machine

/-! ## The frames of a cycle start (R162, R163, R73) -/

/-- The 14-byte payload of the own FIGURE (R73). -/
def figurePayload (r : ParcelRecord) : List Byte :=
  match r.running with
  | some f => be32 f.p ++ be32 f.s ++ be32 f.delta ++ [boolByte r.alarm.raised, boolByte f.complete]
  | none => zeros 12 ++ [boolByte r.alarm.raised, boolByte false]

def figureFrame (s : State) (n : ParcelNo) (r : ParcelRecord) : OfferedFrame :=
  ownFrame s .figure n 0#6 (figurePayload r)

/-- The PRESENCE of the part (R162). -/
def presenceFrame (s : State) : OfferedFrame :=
  ownFrame s .presence 0#4 0#6 [byteOf s.eng.directory.length, s.line.standing.code]

/-- The states that a primary cycle publishes (R163). -/
def publishes (st : ParcelState) : Bool := st == .transfer || st == .reconciled || st == .agreed

/-- The numbers in the order of the rotation: after the pointer, wrapping, ending at the pointer (R163). -/
def rotation (pointer : ParcelNo) : List ParcelNo :=
  allNumbers.filter (fun n => decide (pointer < n)) ++ allNumbers.filter (fun n => decide (n ≤ pointer))

def State.publishable (s : State) (n : ParcelNo) : Bool :=
  match s.dirFind n with
  | some e => publishes e.state
  | none => false

/-- The parcel that the rotation chooses, from the directory (R163). -/
def chooseParcel (s : State) : Option ParcelNo := (rotation s.tmr.pointer).find? s.publishable

/-- The frame that publishes a chosen parcel: its FIGURE in TRANSFER, its own VOTE otherwise. The record is read
without opening it (R164). -/
def publicationFrame (s : State) (n : ParcelNo) : Option OfferedFrame :=
  match s.recordOf n with
  | none => none
  | some r =>
    if r.state == .transfer then some (figureFrame s n r)
    else r.own.map (fun o => voteFrame s n r.round o)

/-- An offer of the timer: an admitted frame joins its list, and nothing is retried (R162, R163). -/
def offerListed (f : OfferedFrame) (s : State) : State := (offer f true s).2

/-- The primary publication: the pointer moves to the chosen parcel whatever the queue answers (R163). -/
def publishPrimary (s : State) : State :=
  match chooseParcel s with
  | none => s
  | some n =>
    let t := match publicationFrame s n with
      | some f => offerListed f s
      | none => s
    t.setTmr { t.tmr with pointer := n }

/-- The offers of one cycle start, built from the state of the build moment (R164). -/
def buildOne (s : State) (p : Parity) : State :=
  match p with
  | .secondary => offerListed (presenceFrame s) s
  | .primary => publishPrimary s

/-- The build moment: every cycle start that still waits for it is built, oldest first (R164). -/
def buildAll (s : State) : State := s.tmr.buildsDue.foldl buildOne (s.setTmr { s.tmr with buildsDue := [] })

/-! ## The cycle (R159, R161, R165, R166) -/

def Parity.other : Parity → Parity
  | .secondary => .primary
  | .primary => .secondary

/-- A cycle is quiet when the standing is MUTED or WITHDRAWN at its start (R161). -/
def quietStanding (st : Standing) : Bool := st == .muted || st == .withdrawn

/-- The parity of the next cycle: secondary after a reset, then the other of the two (R161). -/
def nextParity : Option Cycle → Parity
  | none => .secondary
  | some c => c.parity.other

/-- A cycle start at the present second (R159, R161); a loud one has a build moment to come. -/
def startCycle (s : State) : State :=
  let parity := nextParity s.tmr.cycle
  let quiet := quietStanding s.line.standing
  s.setTmr { s.tmr with
    cycle := some { start := s.now, parity := parity, quiet := quiet }
    buildsDue := if quiet then s.tmr.buildsDue else s.tmr.buildsDue ++ [parity] }

/-- A frame on the timer's list stays queued past the mark end only while its attempt is in flight (R165, R156). -/
def withdrawListed (l : List QueuedFrame) : List QueuedFrame :=
  (l.filter (fun q => !q.listed || q.inFlight)).map
    (fun q => if q.listed then { q with withdrawn := true, listed := false } else q)

/-- The mark end: the frames still on the list are withdrawn and the list is empty (R165). -/
def endMark (s : State) : State := s.setOutbound (withdrawListed s.line.outbound)

/-- The cycle end: the checkpoint is requested and the pending lengths are taken (R166, R107). -/
def endCycle (s : State) : State :=
  let t := s.setEng { s.eng with checkpointPending := true }
  match t.tmr.pendingLengths with
  | some (m, p) => t.setTmr { t.tmr with mark := m, space := p, pendingLengths := none }
  | none => t

/-- The strap listen time has been reached (R149). -/
def State.listenReached (s : State) : Bool := decide (s.sup.straps.listen.seconds ≤ s.now.toNat)

def State.firstCycleDue (s : State) : Bool := s.tmr.cycle.isNone && s.listenReached

def State.cycleElapsed (s : State) : Option Nat := s.tmr.cycle.map (fun c => elapsed s.now c.start)

/-- The mark end falls at c + m (R159). -/
def State.markEndDue (s : State) : Bool := s.cycleElapsed == some s.tmr.mark.toNat

/-- The cycle end falls at c + m + s (R159). -/
def State.cycleEndDue (s : State) : Bool := s.cycleElapsed == some (s.tmr.mark.toNat + s.tmr.space.toNat)

def markEndStep (s : State) : State := if s.markEndDue then endMark s else s

/-- The cycle end, which is also the start of the next cycle; or the start of the first cycle (R159). -/
def cycleStep (s : State) : State :=
  if s.firstCycleDue then startCycle s
  else if s.cycleEndDue then startCycle (endCycle s)
  else s

/-- The end of the listen period (R149). -/
def listenStep (s : State) : State :=
  if s.listenReached then s.setLine { s.line with listening := false } else s

/-- The counter rises and the second duty is requested (R158, R107). -/
def tickCounter (s : State) : State :=
  (s.setTmr { s.tmr with seconds := s.tmr.seconds + 1 }).setEng { s.eng with dutyPending := true }

/-- A second tick with every event that falls due at the new count, in the order mark end, cycle end, cycle start
(R158, R159). -/
def tick (s : State) : State := cycleStep (markEndStep (listenStep (tickCounter s)))

/-! ## The commands -/

/-- SECOND_TICK (R158). -/
def execSecondTick (s : State) : Host.Outcome State Fault Refusal := whenReleased tick s

/-- LISTEN_PERIOD_END (R149): the tick that reaches the listen time makes it; alone it acts under that condition. -/
def execListenPeriodEnd (s : State) : Host.Outcome State Fault Refusal := whenReleased listenStep s

/-- CYCLE_START (R159): made by the tick at which it falls due; alone it acts only when it is due. -/
def execCycleStart (s : State) : Host.Outcome State Fault Refusal := whenReleased cycleStep s

/-- BUILD_MOMENT (R164). -/
def execBuildMoment (s : State) : Host.Outcome State Fault Refusal := whenReleased buildAll s

/-- MARK_END (R165): made by the tick at c + m; alone it acts only at that second. -/
def execMarkEnd (s : State) : Host.Outcome State Fault Refusal := whenReleased markEndStep s

/-- CYCLE_END (R166): made by the tick at c + m + s, with the start of the next cycle; alone it acts only at that
second. -/
def execCycleEnd (s : State) : Host.Outcome State Fault Refusal :=
  whenReleased (fun s => if s.cycleEndDue then startCycle (endCycle s) else s) s

end Sys2Proof.Machine
end

