-- ==== Sys2Proof/Machine/Engine.lean ====
section
/-! DEFINITION. The arbiter of the engine, the burst rule, starvation and the frame around every service (file 06). -/

namespace Sys2Proof.Machine

/-! ## The arbiter (R104 to R106) -/

/-- The request that waits for the engine, if any. -/
def State.portWaiting (s : State) : Option EngineRequest :=
  match s.port.state with
  | .waiting r => some r
  | .idle => none
  | .answered _ => none

/-- The outstanding port request stands in place 3 (R105). -/
def State.portStarved (s : State) : Bool :=
  s.portWaiting.isSome && (match s.eng.starvation with | some c => c.ahead | none => false)

/-- The slot indices from the one after the pointer round to the pointer itself (R106). -/
def slotOrder (pointer : Nat) : List Nat :=
  (List.range Config.slotCount).map (fun k => (pointer + 1 + k) % Config.slotCount)

/-- The next full slot in rotation (R106). -/
def State.nextSlot (s : State) : Option Nat := (slotOrder s.eng.slotPointer).find? (fun n => (s.acc.slot n).full)

/-- What the engine can be asked to serve. -/
inductive Service where
  | checkpoint | secondDuty | intake (head : IntakeEntry) | slot (index : Nat) | port (request : EngineRequest)
  deriving DecidableEq, Repr

def State.slotRequest (s : State) : Option Service := if s.acc.pressure then none else s.nextSlot.map .slot

def State.portRequest (s : State) : Option Service := s.portWaiting.map .port

/-- The first waiting requester in the order of R104. -/
def arbiter (s : State) : Option Service :=
  if s.eng.checkpointPending then some .checkpoint
  else if s.eng.dutyPending then some .secondDuty
  else if s.portStarved then s.portRequest
  else
    match s.acc.intake with
    | e :: _ => some (.intake e)
    | [] => s.slotRequest.or s.portRequest

/-! ## What the second duty finds due in a directory entry (R108) -/

def restartDue (s : State) : Bool := s.eng.windowRestart && s.listenReached

def inWindow (e : DirEntry) : Bool := e.state == .closing || e.state == .reconciled

def windowElapsed (now : Second) (e : DirEntry) : Option (Nat × Nat) :=
  match e.windowStart, e.windowLength with
  | some w, some len => some (elapsed now w, len)
  | _, _ => none

/-- The closing window has run out (R78). -/
def expiryDue (now : Second) (e : DirEntry) : Bool :=
  inWindow e && (match windowElapsed now e with | some (t, len) => decide (len ≤ t) | none => false)

/-- Half of the closing window has run (R79): window × 30 s. -/
def halfDue (now : Second) (e : DirEntry) : Bool :=
  e.state == .closing && !e.halfDone &&
    (match windowElapsed now e with | some (t, len) => decide (len / 2 ≤ t) | none => false)

/-- The persistence copy of a parcel in TRANSFER has run out (R69). -/
def persistenceDue (now : Second) (e : DirEntry) : Bool :=
  e.state == .transfer && (match e.persistence with | some c => persistenceRunsOut now c | none => false)

/-- A held parcel that the second duty opens: one of its tests finds something due, or the restart of R121 falls in
this duty and restarts its window; until the restart the window tests are skipped. That the restart counts among the
tests of R112's table is the model's choice (notes/assumptions/35.md). -/
def entryDue (s : State) (e : DirEntry) : Bool :=
  persistenceDue s.now e ||
    (if s.eng.windowRestart then restartDue s && inWindow e else expiryDue s.now e || halfDue s.now e)

/-- The parcels that a second duty opens for a failed assembly: held in DECLARED (R31). -/
def assemblyNeeds (s : State) (b : Fin 2) : List ParcelNo :=
  if assemblyDue b s then
    match s.eng.buffer b with
    | some a => (match s.dirFind a.parcel with | some e => if e.state == .declared then [a.parcel] else [] | none => [])
    | none => []
  else []

def dutyNeeds (s : State) : List ParcelNo :=
  (s.eng.directory.filter (entryDue s)).map (fun e => e.number) ++ assemblyNeeds s 0 ++ assemblyNeeds s 1

/-! ## The burst rule (R112) -/

def heldList (s : State) (n : ParcelNo) : List ParcelNo := if s.isHeld n then [n] else []

/-- The parcels that an intake entry needs (R112). -/
def intakeNeeds (s : State) (e : IntakeEntry) : List ParcelNo :=
  match e.entryIndex with
  | 0 => heldList s e.parcel
  | 1 => heldList s e.parcel
  | 2 => (s.holdersOf e.source e.item).map (fun h => h.parcel)
  | 3 => heldList s e.parcel
  | 4 => heldList s e.parcel
  | 5 => (s.holdersOf e.source e.item).map (fun h => h.parcel)
  | 6 => heldList s e.parcel
  | _ => []

/-- The binding of a slot. -/
def State.slotBinding (s : State) (n : Nat) : Option BoundEntry :=
  match (s.acc.slot n).boundTo with
  | some e => s.acc.entry e
  | none => none

/-- The parcels that a work item needs; none when no requester waits (R112). -/
def needs (s : State) : Option Service → List ParcelNo
  | some (.intake e) => intakeNeeds s e
  | some (.slot n) => (match s.slotBinding n with | some b => [b.parcel] | none => [])
  | some .secondDuty => dutyNeeds s
  | some .checkpoint => []
  | some (.port _) => []
  | none => []

/-- Closes a context whose parcel is not among the needed ones. -/
def closeUnneeded (needed : List ParcelNo) (i : ContextId) (s : State) : State :=
  match s.eng.context i with
  | some c => if needed.contains c.record.number then s else s.closeContext i
  | none => s

/-- The closings of an arbiter choice under CLOSE_AFTER_BURST (R112). No rule orders two closings of one choice; W0
before W1 is the model's choice (notes/assumptions/34.md). -/
def burstClose (s : State) : State :=
  match s.sup.straps.policy with
  | .keepOpen => s
  | .closeAfterBurst =>
    closeUnneeded (needs s (arbiter s)) .w1 (closeUnneeded (needs s (arbiter s)) .w0 s)

/-- The engine falls idle: with no requester waiting, every open context is closed (R112). -/
def idleClose (s : State) : State := if (arbiter s).isNone then burstClose s else s

/-! ## Starvation (R105) -/

/-- At a count of 8 the request moves to place 3. -/
def moveAhead (c : Starvation) : Starvation :=
  if Config.starvationLimit ≤ c.count then { c with ahead := true } else c

def State.setStarvation (s : State) (c : Option Starvation) : State := s.setEng { s.eng with starvation := c }

def starve (s : State) : State := s.setStarvation (s.eng.starvation.map moveAhead)

/-- A completed service of another requester counts once, up to 8. -/
def countService (c : Starvation) : Starvation :=
  moveAhead { c with count := min Config.starvationLimit (c.count + 1) }

/-! ## A service -/

/-- The end of a service: its write-throughs, the build moment of a cycle start that waited for it, and the closings
of an engine that falls idle (R113, R164, R112). -/
def endService (s : State) : State := idleClose (buildAll s.finishWrites)

/-- The count of the waiting port request after a service of another requester (R105). -/
def countOther (s : State) : State := s.setStarvation (s.eng.starvation.map countService)

/-- The same state with these cycle starts waiting for their build moment. -/
def State.withStarts (s : State) (starts : List Parity) : State := s.setTmr { s.tmr with buildsDue := starts }

/-- A service from its choice to its end, with the closings of the choice before it (R112). The cycle starts that wait
for its end are built there (R164); until then they are set aside. -/
def wholeService (body : State → State) (s : State) : State :=
  endService ((body ((burstClose s).withStarts [])).withStarts s.tmr.buildsDue)

/-- A service of another requester than the port, which counts for a waiting port request (R105). -/
def serve (body : State → State) : State → State := wholeService (fun s => countOther (body s))

/-- BURST_END_CLOSE (R112).
Sent alone it closes by the arbiter's choice at this moment and does not bind the next service to that choice.
R112 has the item chosen before; that the row acts so is the model's choice (notes/assumptions/36.md). -/
def execBurstEndClose (s : State) : Host.Outcome State Fault Refusal := asService burstClose s

/-- STARVATION (R105): the end of the eighth service makes it; alone it acts under that condition. -/
def execStarvation (s : State) : Host.Outcome State Fault Refusal := whenReleased starve s

end Sys2Proof.Machine
end

