-- ==== Sys2Proof/Machine/Duty.lean ====
section
/-! DEFINITION. The second duty and the checkpoint (file 06, 6.3 and R114; R30, R69, R78 to R81, R121). -/

namespace Sys2Proof.Machine

/-! ## The window restart (R121, R81) -/

def restartRecord (now : Second) (r : ParcelRecord) : ParcelRecord :=
  { r with windowStart := some now, roster := r.roster.map (fun i => { i with requestIssued := false }) }

def restartWindow (s : State) (n : ParcelNo) : State :=
  match s.dirFind n with
  | some e =>
    if inWindow e then (((s.openParcel n).modify n (restartRecord s.now))).setHalf n false else s
  | none => s

/-- The restart of every window, once after each warm reset. -/
def restartWindows (s : State) : State :=
  if restartDue s then
    let t := allNumbers.foldl restartWindow s
    t.setEng { t.eng with windowRestart := false }
  else s

/-! ## One parcel of the second duty -/

/-- The window expiry (R78). -/
def expireWindow (n : ParcelNo) (s : State) : State :=
  match s.dirFind n with
  | some e =>
    if !s.eng.windowRestart && expiryDue s.now e then enterLapsed n (s.openParcel n) else s
  | none => s

/-- The 4-byte payload of a REQUEST (R80). -/
def requestPayload (round : Nat) (i : RosterItem) : List Byte :=
  [byte6 i.station, byte6 i.item, 2#8, byteOf round]

/-- One REQUEST of the pass; the answer sets the item's request issued flag or leaves it clear (R80). -/
def offerRequest (n : ParcelNo) (s : State) (index : Nat) : State :=
  match s.working n with
  | none => s
  | some r =>
    match r.roster[index]? with
    | none => s
    | some i =>
      if i.closing.isNone && !i.requestIssued then
        let o := offer (ownFrame s .request n (BitVec.ofNat 6 index) (requestPayload r.round i)) false s
        if o.1.isRefused then o.2 else o.2.setItem n index (fun i => { i with requestIssued := true })
      else s

/-- The REQUESTs of a pass, in roster order. -/
def offerRequests (n : ParcelNo) (s : State) : State :=
  match s.working n with
  | none => s
  | some r => (List.range r.roster.length).foldl (offerRequest n) s

/-- The half-window pass (R79), when the parcel does not expire at the same second duty. -/
def passHalf (n : ParcelNo) (s : State) : State :=
  match s.dirFind n with
  | some e =>
    if !s.eng.windowRestart && !expiryDue s.now e && halfDue s.now e then
      offerRequests n ((s.openParcel n).setHalf n true)
    else s
  | none => s

/-- The persistence test of the second duty (R69). -/
def persistenceTest (n : ParcelNo) (s : State) : State :=
  match s.dirFind n with
  | some e => if persistenceDue s.now e then testPersistence n (s.openParcel n) else s
  | none => s

/-- The tests of one parcel (R108 step 3); each acts in its own states alone. -/
def dutyParcel (s : State) (n : ParcelNo) : State := persistenceTest n (passHalf n (expireWindow n s))

/-- A second duty: assembly buffers, window restart, parcels in ascending number (R108). -/
def dutyBody (s : State) : State :=
  allNumbers.foldl dutyParcel
    (restartWindows (timeoutAssembly 1 (timeoutAssembly 0 (s.setEng { s.eng with dutyPending := false }))))

/-- A second duty service, when the arbiter chooses it (R104). -/
def dutyService (s : State) : State :=
  match arbiter s with
  | some .secondDuty => serve dutyBody s
  | _ => s

/-- One part of the second duty, when the arbiter chooses the second duty; the duty stays pending for the rest of
it (notes/assumptions/3.md). The next service is bound to no choice made here: the model's choice
(notes/assumptions/36.md). -/
def dutyPart (part : State → State) (s : State) : State :=
  match arbiter s with
  | some .secondDuty => (part (burstClose s)).finishWrites
  | _ => s

/-! ## The checkpoint (R114) -/

/-- The states in which an owed VOTE is retried (R85). -/
def retriesVote (st : ParcelState) : Bool := st == .reconciled || st == .disputed || st == .lapsed

/-- The owed VOTE retry (R85). -/
def retryVote (n : ParcelNo) (s : State) : State :=
  match s.working n with
  | some r => if r.voteOwed && retriesVote r.state && r.own.isSome then offerVote n s else s
  | none => s

/-- The owed ALARM retry (R71). -/
def retryAlarm (n : ParcelNo) (s : State) : State :=
  match s.working n with
  | some r => if r.alarmOwed then (offerAlarm n s).2 else s
  | none => s

def retryParcel (s : State) (n : ParcelNo) : State :=
  match s.dirFind n with
  | some e => if e.voteOwed || e.alarmOwed then retryAlarm n (retryVote n (s.openParcel n)) else s
  | none => s

/-- A checkpoint: the owed retries in ascending number, then both contexts are closed (R114). No rule orders the two
closings; W0 before W1 is the model's choice (notes/assumptions/34.md). -/
def checkpointBody (s : State) : State :=
  ((allNumbers.foldl retryParcel (s.setEng { s.eng with checkpointPending := false })).closeContext .w0).closeContext
    .w1

def checkpointService (s : State) : State :=
  match arbiter s with
  | some .checkpoint => serve checkpointBody s
  | _ => s

/-! ## The commands -/

/-- SECOND_DUTY (R108). -/
def execSecondDuty (s : State) : Host.Outcome State Fault Refusal := asService dutyService s

/-- ASSEMBLY_TIMEOUT (R30). -/
def execAssemblyTimeout (buffer : Fin 2) (s : State) : Host.Outcome State Fault Refusal :=
  asService (dutyPart (timeoutAssembly buffer)) s

/-- WINDOW_EXPIRY (R78). -/
def execWindowExpiry (parcel : ParcelNo) (s : State) : Host.Outcome State Fault Refusal :=
  asService (dutyPart (expireWindow parcel)) s

/-- HALF_WINDOW_PASS (R79). -/
def execHalfWindowPass (parcel : ParcelNo) (s : State) : Host.Outcome State Fault Refusal :=
  asService (dutyPart (passHalf parcel)) s

/-- PERSISTENCE_RUN_OUT (R69). -/
def execPersistenceRunOut (parcel : ParcelNo) (s : State) : Host.Outcome State Fault Refusal :=
  asService (dutyPart (persistenceTest parcel)) s

/-- CHECKPOINT (R114). -/
def execCheckpoint (s : State) : Host.Outcome State Fault Refusal := asService checkpointService s

end Sys2Proof.Machine
end

