-- ==== Sys2Proof/Machine/Intake.lean ====
section
/-! DEFINITION. The services of the intake queue and of the gauge slots (file 07, 7.4 and 7.5; R23, R133). -/

namespace Sys2Proof.Machine

/-! ## The intake head (R133) -/

/-- The removal of the head; the length 16 ends pressure mode (R134). -/
def takeHead (rest : List IntakeEntry) (s : State) : State :=
  s.setAcc { s.acc with
    intake := rest
    pressure := s.acc.pressure && !decide (rest.length ≤ Config.pressureOff) }

/-- The rule that the entry index selects (R133). -/
def applyEntry (e : IntakeEntry) (s : State) : State :=
  match e.entryIndex with
  | 0 => applyPhase e s
  | 1 => applyVote e s
  | 2 => applyRecord e s
  | 3 => applyDeclare e s
  | 4 => applyAlarm e s
  | 5 => applyRecord e s
  | 6 => applyFigure e s
  | 7 => applyPresence e s
  | _ => s

/-- In UNNUMBERED an entry is removed with no effect (R133). -/
def applyUnlessUnnumbered (e : IntakeEntry) (s : State) : State :=
  if s.line.standing == .unnumbered then s else applyEntry e s

def intakeBody (e : IntakeEntry) (s : State) : State := applyUnlessUnnumbered e (takeHead s.acc.intake.tail s)

/-- An intake service, when the arbiter chooses the intake head (R104). -/
def intakeService (s : State) : State :=
  match arbiter s with
  | some (.intake e) => serve (intakeBody e) s
  | _ => s

/-! ## A gauge slot (R129, R130, R23) -/

/-- The latest reading that a routine reading becomes (R23). -/
def latestOf (alpha : Nat) (arrival : Second) (r : TankReading) : LatestReading :=
  { reading := r
    arrival := arrival
    std := if r.isBad alpha then none else some (holdU (r.exact alpha))
    bad := r.isBad alpha }

/-- A reading of good form, for a tank of a parcel that is open (R130 steps 2 and 3). -/
def takeRoutine (b : BoundEntry) (arrival : Second) (r : TankReading) (s : State) : State :=
  match s.working b.parcel with
  | none => s
  | some rec =>
    match rec.decl, rec.roster[b.index]? with
    | some d, some i =>
      if newerThanOption r.seq (latestSeq i) then
        let t := s.setItem b.parcel b.index (fun i => { i with latest := some (latestOf d.alpha arrival r) })
        if rec.state == .transfer then evaluate b.parcel t else t
      else s.bump .staleReadings
    | _, _ => s

/-- The form of a reading: the length 12 and the temperature range (R130 step 1). -/
def routineForm (payload : List Byte) : Option TankReading :=
  match parseTank payload with
  | some r => if tempInRange r.temp then some r else none
  | none => none

/-- A reading taken from the slot of a binding (R130).
R130 does not say whether a reading that fails its form check opens the bound parcel.
Here it opens nothing, since its payload alone decides it, and a stale reading does open the parcel.
That is the model's reading (notes/assumptions/7.md). -/
def takeReading (b : BoundEntry) (w : WaitingReading) (s : State) : State :=
  match routineForm w.payload with
  | none => s.bump .unusableRecords
  | some r => takeRoutine b w.arrival r (s.openParcel b.parcel)

/-- The slot is emptied and the rotation pointer set to it (R129, R106). -/
def emptySlotAt (n : Nat) (s : State) : State :=
  (s.setAcc (s.acc.setSlot n { s.acc.slot n with waiting := none, overrun := false })).setEng
    { s.eng with slotPointer := n }

def slotBody (n : Nat) (s : State) : State :=
  match s.slotBinding n, (s.acc.slot n).waiting with
  | some b, some w => takeReading b w (emptySlotAt n s)
  | _, _ => emptySlotAt n s

/-- A gauge slot service, when the arbiter chooses a slot (R104). -/
def slotService (s : State) : State :=
  match arbiter s with
  | some (.slot n) => serve (slotBody n) s
  | _ => s

/-! ## The commands -/

/-- INTAKE_SERVICE (R133). -/
def execIntakeService (s : State) : Host.Outcome State Fault Refusal := asService intakeService s

/-- GAUGE_SLOT_SERVICE (R130). -/
def execGaugeSlotService (s : State) : Host.Outcome State Fault Refusal := asService slotService s

end Sys2Proof.Machine
end

