-- ==== Sys2Proof/Machine/Line.lean ====
section
/-! DEFINITION. The Line Interface: reception, attempts, fault counts, the standing and duplicate detection (file 08). -/

namespace Sys2Proof.Machine

/-! ## The standing (R143 to R148) -/

/-- The STANDING notice of the line as it stands; the station heard is 0 unless the standing is DUPLICATE (file 11,
11.5.3). -/
def postStanding (heard : Station) (s : State) : State :=
  s.post (.standing s.line.standing s.line.tfc s.line.rfc heard)

def overMuted (l : LineInterface) : Bool := decide (Config.mutedAt ≤ l.tfc) || decide (Config.mutedAt ≤ l.rfc)

/-- The standing that the fault counts call for (R144, R145, R147). -/
def judgedStanding (l : LineInterface) : Standing :=
  match l.standing with
  | .active => if Config.withdrawnAt ≤ l.tfc then .withdrawn else if overMuted l then .muted else .active
  | .muted => if Config.withdrawnAt ≤ l.tfc then .withdrawn else if overMuted l then .muted else .active
  | .withdrawn => .withdrawn
  | .duplicate => .duplicate
  | .unnumbered => .unnumbered

/-- The judgement after a change of TFC or RFC; a change of the standing posts STANDING, and WITHDRAWN starts its
count of good frames heard (R144, R145). -/
def judgeStanding (s : State) : State :=
  if judgedStanding s.line == s.line.standing then s
  else
    postStanding 0#6 (s.setLine { s.line with
      standing := judgedStanding s.line
      goodHeard := if judgedStanding s.line == .withdrawn then some 0 else s.line.goodHeard })

/-- The end of WITHDRAWN, when 64 good frames have been heard (R145). -/
def recoverStep (s : State) : State :=
  match s.line.standing, s.line.goodHeard with
  | .withdrawn, some n =>
    if Config.recoveryCount ≤ n then
      postStanding 0#6 (s.setLine { s.line with standing := .active, tfc := 0, rfc := 0, goodHeard := none })
    else s
  | _, _ => s

/-! ## Reception (R140, R143) -/

/-- In WITHDRAWN a receive fault sets the count of good frames heard to 0 (R145). -/
def restartHeard (l : LineInterface) : LineInterface :=
  if l.standing == .withdrawn then { l with goodHeard := some 0 } else l

/-- A receive fault: RFC rises by 1 and no mark is driven (R140). -/
def receiveFault (s : State) : State :=
  judgeStanding (s.setLine (restartHeard { s.line with
    rfc := countUp s.line.rfc 1
    markDriven := false }))

/-- In WITHDRAWN each good frame received raises the count of good frames heard (R145). -/
def countHeard (l : LineInterface) : LineInterface :=
  if l.standing == .withdrawn then { l with goodHeard := some (l.goodHeard.getD 0 + 1) } else l

/-- Entry into DUPLICATE (R143): the queue is emptied and STANDING posted with the station heard. -/
def enterDuplicate (heard : Station) (s : State) : State :=
  postStanding heard (s.setLine { s.line with
    standing := .duplicate, outbound := [], driving := none, goodHeard := none })

/-- The good frame carries the part's own station number, and the part has one (R143). -/
def isDuplicateFrame (s : State) (key : FrameKey) : Bool :=
  keySource key == s.station && s.line.standing != .unnumbered

/-- What a good frame of another station does to the line: the mark, RFC, duplicate detection or else the standing
(R140, R143, R145, R147). -/
def goodFrame (key : FrameKey) (s : State) : State :=
  let t := s.setLine { s.line with rfc := countDown s.line.rfc, markDriven := true }
  if isDuplicateFrame t key then
    if t.line.standing == .duplicate then t else enterDuplicate (keySource key) t
  else recoverStep (judgeStanding (t.setLine (countHeard t.line)))

/-- A frame read whole whose length, check and form are good (R140). -/
def goodLineFrame (f : LineFrame) : Bool :=
  decide (f.payload.length ≤ Config.maxPayload) && frameCheckGood f && !formFault f.key

/-- A whole frame on the line that the part did not send (R140); a good one is handed to acceptance with the own flag
clear (R124). -/
def receiveFrame (f : LineFrame) (s : State) : State :=
  if goodLineFrame f then arrive false f.key f.payload (goodFrame f.key s) else receiveFault s

/-! ## Attempts (R138, R139, R141, R142, R150, R152, R154, R156) -/

/-- The classes that the standing allows to the line (R150). -/
def mayOffer (st : Standing) (cls : BitVec 3) : Bool :=
  match st with
  | .active => true
  | .muted => decide (cls ≤ 2#3)
  | .withdrawn => false
  | .duplicate => false
  | .unnumbered => false

/-- The queued frame whose attempt is in flight. -/
def LineInterface.flying (l : LineInterface) : Option QueuedFrame := l.outbound.find? (fun q => q.inFlight)

/-- The frame that the offering order chooses (R152). -/
def LineInterface.chosen (l : LineInterface) : Option QueuedFrame :=
  lowestKey (l.outbound.filter (fun q => mayOffer l.standing (keyClass q.key)))

def mapKey (k : FrameKey) (f : QueuedFrame → QueuedFrame) (l : List QueuedFrame) : List QueuedFrame :=
  l.map (fun q => if q.key == k then f q else q)

/-- An attempt begins, when the conditions of R138 hold; otherwise nothing is begun. -/
def beginAttempt (s : State) : State :=
  if s.line.listening || s.line.flying.isSome then s
  else
    match s.line.chosen with
    | none => s
    | some q =>
      s.setLine { s.line with
        outbound := mapKey q.key (fun q => { q with inFlight := true }) s.line.outbound
        driving := some (wireFrame q.key q.payload) }

/-- The attempt is over: nothing is driven, and a pending payload becomes the payload (R154). -/
def landed (q : QueuedFrame) : QueuedFrame :=
  { q with inFlight := false, payload := q.pendingPayload.getD q.payload, pendingPayload := none }

/-- A frame whose attempt did not carry it: it stays, changed, unless a withdrawal waited for the attempt (R156). -/
def keepUncarried (q : QueuedFrame) (f : QueuedFrame → QueuedFrame) (l : List QueuedFrame) : List QueuedFrame :=
  if q.withdrawn then removeKey q.key l else mapKey q.key f l

/-- A carried frame leaves the queue; with a pending payload it stays as a frame of its own (R141, R154, R156). -/
def keepCarried (q : QueuedFrame) (l : List QueuedFrame) : List QueuedFrame :=
  if q.withdrawn || q.pendingPayload.isNone then removeKey q.key l
  else mapKey q.key (fun q => { landed q with faults := 0 }) l

/-- Contention lost: no fault, and the frame stays queued (R139). -/
def loseContention (s : State) : State :=
  match s.line.flying with
  | none => s
  | some q => s.setLine { s.line with outbound := keepUncarried q landed s.line.outbound, driving := none }

/-- A queued frame with eight faulted attempts and no attempt in flight. -/
def exhausted (q : QueuedFrame) : Bool := !q.inFlight && decide (Config.faultLimit ≤ q.faults)

/-- The drop of a frame at its eighth faulted attempt (R142). -/
def dropExhausted (s : State) : State :=
  match s.line.outbound.find? exhausted with
  | none => s
  | some q =>
    ((s.setOutbound (removeKey q.key s.line.outbound)).bump .outboundDrops).post
      (.frameDropped (keyClass q.key) (keyKind q.key) (keyParcel q.key) (keyItem q.key))

/-- The attempt of q ends faulted: TFC +4, the frame's count +1, the standing and the drop (R141, R142). -/
def endFaulted (q : QueuedFrame) (s : State) : State :=
  dropExhausted (judgeStanding (s.setLine { s.line with
    tfc := countUp s.line.tfc Config.faultStep
    driving := none
    outbound := keepUncarried q (fun q => { landed q with faults := q.faults + 1 }) s.line.outbound }))

/-- The attempt of q ends carried: TFC −1, and the frame sent is handed to acceptance with the own flag set (R141). -/
def endCarried (q : QueuedFrame) (s : State) : State :=
  arrive true q.key q.payload (judgeStanding (s.setLine { s.line with
    tfc := countDown s.line.tfc
    driving := none
    outbound := keepCarried q s.line.outbound }))

def endAttempt (outcome : AttemptOutcome) (s : State) : State :=
  match s.line.flying with
  | none => s
  | some q =>
    match outcome with
    | .carried => endCarried q s
    | .unheard => endFaulted q s
    | .mismatch => endFaulted q s

/-! ## The commands -/

/-- RECEIVE_FRAME (R140). -/
def execReceiveFrame (frame : LineFrame) (s : State) : Host.Outcome State Fault Refusal :=
  whenReleased (receiveFrame frame) s

/-- WITHDRAWN_RECOVERY (R145): the good frame that brings the count to 64 makes it; alone it acts under that
condition. -/
def execWithdrawnRecovery (s : State) : Host.Outcome State Fault Refusal := whenReleased recoverStep s

/-- ATTEMPT (R138). -/
def execAttempt (s : State) : Host.Outcome State Fault Refusal := whenReleased beginAttempt s

/-- CONTENTION_LOST (R139). -/
def execContentionLost (s : State) : Host.Outcome State Fault Refusal := whenReleased loseContention s

/-- ATTEMPT_END (R141). -/
def execAttemptEnd (outcome : AttemptOutcome) (s : State) : Host.Outcome State Fault Refusal :=
  whenReleased (endAttempt outcome) s

/-- OUTBOUND_DROP (R142): the eighth faulted attempt makes it; alone it acts under that condition. -/
def execOutboundDrop (s : State) : Host.Outcome State Fault Refusal := whenReleased dropExhausted s

/-- FRAME_BROKEN_OFF (R140). -/
def execFrameBrokenOff (s : State) : Host.Outcome State Fault Refusal := whenReleased receiveFault s

/-- FRAME_ABANDONED_ON_LENGTH (R140). -/
def execFrameAbandonedOnLength (s : State) : Host.Outcome State Fault Refusal := whenReleased receiveFault s

end Sys2Proof.Machine
end

