-- ==== Sys2Proof/Machine/Port.lean ====
section
/-! DEFINITION. The Report Port: transactions, commands, responses and the service of port requests (file 10; R17,
R60, R115, R135; file 11, 11.5). -/

namespace Sys2Proof.Machine

/-! ## Fields of an absent part are zeros (file 11, 11.5.2) -/

def orZeros {α : Type} (n : Nat) (f : α → List Byte) : Option α → List Byte
  | some a => f a
  | none => zeros n

/-- The first n bytes of a list, with zeros after it. -/
def padTo (n : Nat) (l : List Byte) : List Byte := (l ++ zeros n).take n

/-! ## READ_PARCEL (file 11, 11.5.2) -/

/-- The declaration in the part 0 layout; the node set stands in its fields from the first on. -/
def Declaration.bytes (d : Declaration) (count : Nat) : List Byte :=
  let offset : BitVec 17 := BitVec.ofInt 17 ((d.vef : Int) - 1000000)
  let node (i : Nat) : Station := d.nodes.getD i 0#6
  let nodes : BitVec 24 := node 0 ++ node 1 ++ node 2 ++ node 3
  [d.grade, d.direction.code ++ offset.extractLsb' 16 1 ++ BitVec.ofNat 5 count] ++
    be16 (word16OfNat d.alpha) ++ be16 (word16OfNat d.rho) ++ be16 (offset.extractLsb' 0 16) ++
    be16 (word16OfNat d.tolerance) ++ be32 (word32OfNat d.alarmLimit) ++ be16 (word16OfNat d.persistence) ++
    [byteOf d.window, nodes.extractLsb' 16 8, nodes.extractLsb' 8 8, nodes.extractLsb' 0 8]

/-- Verdict, flags and figure check follow the four quantities. -/
def OwnFigure.bytes (o : OwnFigure) : List Byte :=
  be32 o.p ++ be32 o.s ++ be32 o.delta ++ be32 o.ratio ++ [o.verdict.code] ++ be16 o.flags ++ be32 o.check

def RunningFigure.bytes (f : RunningFigure) : List Byte :=
  be32 f.p ++ be32 f.s ++ be32 f.delta ++ be32 f.second ++ [boolByte f.complete]

def LastPhase.bytes (l : LastPhase) : List Byte := [l.phase.code, byte6 l.source, l.reason] ++ be32 l.arrival

/-- The masses of P, S and Δ (R60). -/
def ownMasses (rho : Nat) (o : OwnFigure) : List Byte :=
  be32 (massOf rho o.p) ++ be32 (massOf rho o.s) ++ be32 (massOf rho o.delta)

/-- The masses of P_run, S_run and Δ_run (R60). -/
def runningMasses (rho : Nat) (f : RunningFigure) : List Byte :=
  be32 (massOf rho f.p) ++ be32 (massOf rho f.s) ++ be32 (massOf rho f.delta)

/-- A peer entry in 18 bytes. -/
def PeerEntry.bytes (p : PeerEntry) : List Byte :=
  match p.figure with
  | some f =>
    [byte6 p.node, flagByte [true, p.alarm, f.raised, f.complete]] ++ be32 f.p ++ be32 f.s ++ be32 f.delta ++
      be32 f.arrival
  | none => [byte6 p.node, flagByte [false, p.alarm]] ++ zeros 16

def presenceByte (r : ParcelRecord) : Byte :=
  flagByte [r.decl.isSome, r.lastPhase.isSome, r.own.isSome, r.running.isSome, r.windowStart.isSome,
    r.alarm.conditionSince.isSome, r.alarm.clearSince.isSome, r.alarm.raised]

/-- The 183 bytes of READ_PARCEL; a parcel in VOID(CHECK) has no declaration and sends offsets 0..3 alone. -/
def parcelBytes (r : ParcelRecord) : List Byte :=
  let head := [byte4 r.number, r.state.code, byteOf r.round, voidCode r.voidReason]
  match r.decl with
  | none => head ++ zeros 179
  | some d =>
    head ++ [presenceByte r, flagByte [r.voteOwed, r.alarmOwed]] ++ d.bytes r.roster.length ++ [byte6 d.declarer] ++
      orZeros 7 LastPhase.bytes r.lastPhase ++ orZeros 23 OwnFigure.bytes r.own ++
      orZeros 17 RunningFigure.bytes r.running ++ orZeros 4 be32 r.windowStart ++
      orZeros 4 be32 r.alarm.conditionSince ++ orZeros 4 be32 r.alarm.clearSince ++
      orZeros 12 (ownMasses d.rho) r.own ++ orZeros 12 (runningMasses d.rho) r.running ++
      [byteOf r.roster.length] ++ padTo 72 (r.peers.flatMap PeerEntry.bytes)

/-! ## READ_ROSTER_ITEM -/

def LatestReading.bytes (l : LatestReading) : List Byte :=
  l.reading.bytes ++ be32 l.arrival ++ orZeros 4 be32 l.std

/-- A value: its record in 12 bytes and its standard quantity. -/
def Value.bytes (v : Value) : List Byte := v.reading.bytes12 ++ be32 v.std

/-- The presence byte of a roster item. -/
def RosterItem.presence (i : RosterItem) : Byte :=
  flagByte [i.latest.isSome, (match i.latest with | some l => l.bad | none => false), i.opening.isSome,
    (match i.opening with | some o => o.substituted | none => false), i.closing.isSome, i.requestIssued,
    i.binding.isSome]

/-- The 60 bytes of READ_ROSTER_ITEM. -/
def rosterItemBytes (n : ParcelNo) (index : Nat) (i : RosterItem) : List Byte :=
  [byte4 n, byteOf index, byte6 i.station, byte6 i.item, i.role.code.setWidth 8, i.presence] ++
    orZeros 2 (fun b : Binding => [byteOf b.entry, byteOf b.slot]) i.binding ++
    orZeros 20 LatestReading.bytes i.latest ++ orZeros 16 (fun o : OpeningValue => o.value.bytes) i.opening ++
    orZeros 16 Value.bytes i.closing

/-! ## READ_VOTES and READ_ACCEPTANCE -/

def VoteData.bytes (v : VoteData) : List Byte :=
  byteOf v.round :: be32 v.check ++ be32 v.p ++ be32 v.s ++ be32 v.ratio ++ be16 v.flags

/-- A vote-list entry in 21 bytes. -/
def VoteEntry.bytes (e : VoteEntry) : List Byte := [byte6 e.node, e.status.code] ++ orZeros 19 VoteData.bytes e.vote

/-- The 3 + 21 n bytes of READ_VOTES. -/
def votesBytes (r : ParcelRecord) : List Byte :=
  [byte4 r.number, byteOf r.round, byteOf r.votes.length] ++ r.votes.flatMap VoteEntry.bytes

/-- The sequence number of a waiting payload of 2 bytes or more (R135). -/
def WaitingReading.seq (w : WaitingReading) : Byte :=
  match w.payload with
  | _ :: q :: _ => q
  | _ => 0#8

/-- The 11 bytes of one bindable entry (R135). -/
def acceptanceRecord (a : AcceptanceUnit) : Option BoundEntry → List Byte
  | none => zeros 11
  | some e =>
    let g := a.slot e.slot
    [flagByte [true, g.full, g.overrun], byte6 e.station, byte6 e.item, byte4 e.parcel, byteOf e.index, byteOf e.slot] ++
      orZeros 5 (fun w : WaitingReading => w.seq :: be32 w.arrival) g.waiting

/-- The 264 bytes of READ_ACCEPTANCE. -/
def acceptanceBytes (a : AcceptanceUnit) : List Byte := a.entries.flatMap (acceptanceRecord a)

/-! ## The service of a port request (R115, R17) -/

def respond (code : ResponseCode) : Response := { code := code, fields := [] }

def done (fields : List Byte) : Response := { code := .done, fields := fields }

/-- The held parcel that a parameter byte names (R175). -/
def State.named (s : State) (b : Byte) : Option ParcelNo :=
  allNumbers.find? (fun n => byte4 n == b && s.isHeld n)

/-- The context of the named parcel is closed before a read (R115). -/
def closeNamed (n : ParcelNo) (s : State) : State :=
  match s.dirFind n with
  | some e => (match e.context with | some i => s.closeContext i | none => s)
  | none => s

/-- A parcel read: the answer is built from the stored record. -/
def readStored (b : Byte) (answer : ParcelRecord → Response) (s : State) : Response × State :=
  match s.named b with
  | none => (respond .unknownParcel, s)
  | some n =>
    let t := closeNamed n s
    match t.stored n with
    | none => (respond .unknownParcel, t)
    | some p => (answer p.record, t)

def rosterAnswer (index : Byte) (r : ParcelRecord) : Response :=
  match r.roster[index.toNat]? with
  | some i => done (rosterItemBytes r.number index.toNat i)
  | none => respond .range

/-- DROP_PARCEL at its service (R17). -/
def dropParcel (b : Byte) (s : State) : Response × State :=
  match s.named b with
  | none => (respond .unknownParcel, s)
  | some n =>
    match s.dirFind n with
    | none => (respond .unknownParcel, s)
    | some e => if e.state.isTerminal then (done [], removeParcel n .other s) else (respond .notNow, s)

def portAnswer (r : EngineRequest) (s : State) : Response × State :=
  match r with
  | .readParcel b => readStored b (fun r => done (parcelBytes r)) s
  | .readRosterItem b i => readStored b (rosterAnswer i) s
  | .readVotes b => readStored b (fun r => done (votesBytes r)) s
  | .readAcceptance => (done (acceptanceBytes s.acc), s)
  | .dropParcel b => dropParcel b s

def State.setPortState (s : State) (p : PortState) : State := s.setPort { s.port with state := p }

/-- The response is placed and the starvation count discarded (R170, R105). -/
def portBody (r : EngineRequest) (s : State) : State :=
  let a := portAnswer r s
  (a.2.setPortState (.answered a.1)).setStarvation none

/-- A port request service, when the arbiter chooses it (R104). -/
def portService (s : State) : State :=
  match arbiter s with
  | some (.port r) => wholeService (portBody r) s
  | _ => s

/-! ## Notice records (file 11, 11.5.3) -/

def FrameFate.code : FrameFate → Byte
  | .noneOffered => 0#8 | .admitted => 1#8 | .refused => 2#8

def noticeStateCode : Option ParcelState → Byte
  | some st => st.code
  | none => removedCode

/-- The cause and reason bytes of PARCEL_STATE. -/
def NoticeCause.bytes : NoticeCause → List Byte
  | .other => [0#8, 0#8]
  | .phase reason => [1#8, reason]
  | .refusal reason => [0#8, reason]

/-- The kind of a notice and its fields before padding. -/
def NoticeBody.encode : NoticeBody → Byte × List Byte
  | .parcelState n st round void cause =>
    (1#8, [byte4 n, noticeStateCode st, byteOf round, voidCode void] ++ cause.bytes)
  | .alarmRaised n fate delta => (2#8, [byte4 n, fate.code] ++ be32 delta)
  | .alarmCleared n fate delta => (3#8, [byte4 n, fate.code] ++ be32 delta)
  | .peerAlarm n source raised value => (4#8, [byte4 n, byte6 source, boolByte raised] ++ be32 value)
  | .declareRefused n source reason admitted => (5#8, [byte4 n, byte6 source, reason.code, boolByte admitted])
  | .declareConflict n source held => (6#8, [byte4 n, byte6 source, held.code])
  | .standing st tfc rfc heard => (7#8, [st.code, byteOf tfc, byteOf rfc, byte6 heard])
  | .intakeLost kind n => (8#8, [kind.code.setWidth 8, byte4 n])
  | .intakePressure len => (9#8, [byteOf len])
  | .frameDropped cls kind n item => (10#8, [cls.setWidth 8, kind.setWidth 8, byte4 n, byte6 item])
  | .openingMissing n index => (11#8, [byte4 n, byteOf index])
  | .restart cause station => (12#8, [cause.code, byte6 station])

/-- The 12 bytes of a notice. -/
def Notice.bytes (x : Notice) : List Byte := x.body.encode.1 :: be32 x.second ++ padTo 7 x.body.encode.2

/-! ## READ_STATUS (R174; file 11, 11.5.1) -/

def pendingBytes : Option (Byte × Byte) → List Byte
  | some (m, p) => [1#8, m, p]
  | none => zeros 3

def statusFields (s : State) : List Byte :=
  [s.line.standing.code, byteOf s.line.tfc, byteOf s.line.rfc, byteOf s.line.outbound.length,
    byteOf s.acc.intake.length, boolByte s.acc.pressure, byteOf s.port.notices.length,
    byteOf s.eng.directory.length] ++ be32 s.tmr.seconds ++ [s.tmr.mark, s.tmr.space] ++
    pendingBytes s.tmr.pendingLengths ++ [parityCode (s.tmr.cycle.map (fun c => c.parity))] ++
    s.counters.toList.flatMap (fun n => be16 (word16OfNat n)) ++
    [s.sup.cause.code, byte6 s.sup.straps.station, byteOf s.sup.straps.listen.seconds, s.sup.straps.rate.code,
      s.sup.straps.policy.code, s.sup.straps.cycle.code, byteOf s.eng.heard.length] ++ s.eng.heard.map byte6

/-! ## Submissions (R173) -/

/-- The response to a submission, from the queue's answer. -/
def submissionCode : Answer → ResponseCode
  | .admitted => .done | .displaced => .done | .replaced => .done
  | .busy => .busy | .queueFull => .queueFull | .silenced => .silenced

def parcelInRange (b : Byte) : Bool := decide (1 ≤ b.toNat) && decide (b.toNat ≤ 15)

/-- SUBMIT_PHASE with its four parameters. -/
def submitPhase (parcel code round reason : Byte) (s : State) : Response × State :=
  if parcelInRange parcel && (phaseOfCode code).isSome && decide (1 ≤ round.toNat) && decide (round.toNat ≤ 4) then
    let o := offer (ownFrame s .phase (parcel.setWidth 4) (code.setWidth 6) [code, round, reason]) false s
    (respond (submissionCode o.1), o.2)
  else (respond .range, s)

/-- A roster item of SUBMIT_DECLARE: station, item, role code; none when a byte is out of its range. -/
def submittedItem (station item role : Byte) : Option DeclaredItem :=
  if decide (station.toNat ≤ 63) && decide (item.toNat ≤ 63) && decide (role.toNat ≤ 3) then
    some { station := station.setWidth 6, item := item.setWidth 6, role := roleOfCode (role.setWidth 2) }
  else none

/-- The roster items of SUBMIT_DECLARE, three bytes each. -/
def submittedItems : List Byte → Option (List DeclaredItem)
  | a :: b :: c :: rest =>
    match submittedItem a b c, submittedItems rest with
    | some i, some l => some (i :: l)
    | _, _ => none
  | _ => some []

/-- The item count that part 0 bytes carry. -/
def countOf (part0 : List Byte) : Nat :=
  match part0 with
  | _ :: d :: _ => (d.extractLsb' 0 5).toNat
  | _ => 0

/-- The parameter bytes after the parcel number and part 0 that the item count calls for (file 11, 11.5). -/
def rosterParams (count : Nat) : Nat := if 2 ≤ count ∧ count ≤ 16 then 3 * count else 0

/-- The frames of a declaration (R24, R181). -/
def declareFrames (s : State) (n : ParcelNo) (part0 : List Byte) (items : List DeclaredItem) : List OfferedFrame :=
  ownFrame s .declare n 0#6 part0 ::
    ownFrame s .declare n 1#6 ((items.take 10).flatMap DeclaredItem.bytes) ::
    (if items.length ≤ 10 then []
     else [ownFrame s .declare n 2#6 ((items.drop 10).flatMap DeclaredItem.bytes)])

/-- SUBMIT_DECLARE with parcel number, part 0 bytes and roster bytes of the right lengths. -/
def submitDeclare (parcel : Byte) (part0 roster : List Byte) (s : State) : Response × State :=
  match parsePart0 part0, submittedItems roster with
  | some p, some items =>
    if parcelInRange parcel && formOk p items then
      let o := offerGroup (declareFrames s (parcel.setWidth 4) part0 items) s
      (respond (submissionCode o.1), o.2)
    else (respond .range, s)
  | _, _ => (respond .range, s)

/-! ## The commands that the port or the timer answers (R169, R172) -/

/-- SUBMIT_DECLARE from its parameter bytes. -/
def takeSubmitDeclare (params : List Byte) (s : State) : Response × State :=
  match params with
  | parcel :: rest =>
    let part0 := rest.take 20
    let need := rosterParams (countOf part0)
    if rest.length < 20 + need then (respond .range, s)
    else submitDeclare parcel part0 ((rest.drop 20).take need) s
  | [] => (respond .range, s)

/-- READ_NOTICE (R174). -/
def takeNotice (s : State) : Response × State :=
  match s.port.notices with
  | [] => (respond .none, s)
  | x :: rest => (done x.bytes, s.setPort { s.port with notices := rest })

/-- SET_CYCLE (R160). -/
def setCycle (mark space : Byte) (s : State) : Response × State :=
  if mark == 0#8 then (respond .range, s)
  else (done [], s.setTmr { s.tmr with pendingLengths := some (mark, space) })

/-- What a taken request becomes: an answer at once, or a request for the engine (R172). -/
inductive Taken where
  | answer (r : Response) (s : State)
  | engine (r : EngineRequest)

def answerNow (a : Response × State) : Taken := .answer a.1 a.2

/-- A taken request: its command code and parameter bytes, of which those beyond the command's are ignored (R169). -/
def takeRequest (code : Byte) (params : List Byte) (s : State) : Taken :=
  if code == 0x10#8 then .answer (done (statusFields s)) s
  else if code == 0x11#8 then answerNow (takeNotice s)
  else if code == 0x12#8 then
    match params with
    | p :: _ => .answer (done [p]) s
    | _ => .answer (respond .range) s
  else if code == 0x20#8 then
    match params with
    | p :: _ => .engine (.readParcel p)
    | _ => .answer (respond .range) s
  else if code == 0x21#8 then
    match params with
    | p :: i :: _ => .engine (.readRosterItem p i)
    | _ => .answer (respond .range) s
  else if code == 0x22#8 then
    match params with
    | p :: _ => .engine (.readVotes p)
    | _ => .answer (respond .range) s
  else if code == 0x23#8 then .engine .readAcceptance
  else if code == 0x30#8 then answerNow (takeSubmitDeclare params s)
  else if code == 0x31#8 then
    match params with
    | p :: c :: r :: x :: _ => answerNow (submitPhase p c r x s)
    | _ => .answer (respond .range) s
  else if code == 0x40#8 then
    match params with
    | m :: p :: _ => answerNow (setCycle m p s)
    | _ => .answer (respond .range) s
  else if code == 0x41#8 then
    match params with
    | p :: _ => .engine (.dropParcel p)
    | _ => .answer (respond .range) s
  else .answer (respond .unknownCommand) s

/-! ## Transactions (R168 to R171) -/

/-- OUTSTANDING: the port is WAITING or ANSWERED (file 10, 10.2). -/
def State.outstanding (s : State) : Bool :=
  match s.port.state with
  | .idle => false
  | .waiting _ => true
  | .answered _ => true

/-- Byte 0 of a transaction (R168). -/
def State.portStatus (s : State) : Byte := statusByte s.ready s.attn s.outstanding s.port.busy

/-- The BUSY flag is cleared once it has been returned. -/
def State.shown (s : State) : State := s.setPort { s.port with busy := false }

/-- Byte 0 of this transaction: the port status at the falling edge of PSEL (R168). With PSEL high it falls now. -/
def State.statusSent (s : State) : Byte :=
  match s.port.select with
  | .low status => status
  | _ => s.portStatus

def State.setSelect (s : State) (x : Select) : State := s.setPort { s.port with select := x }

/-- A part in reset takes no transaction, and one that a reset cut off is over for the port (R168). -/
def State.heeds (s : State) : Bool := !s.sup.held && s.port.select != .unheeded

def State.setPdo (s : State) (l : List Byte) : State := s.setPort { s.port with pdo := l }

/-- A REQUEST of at least two bytes at the end of its transaction (R169, R170). -/
def endRequest (code : Byte) (params : List Byte) (s : State) : State :=
  if s.outstanding then s.setPort { s.port with busy := true }
  else
    match takeRequest code params s with
    | .answer r t => t.setPortState (.answered r)
    | .engine r => (s.setPortState (.waiting r)).setStarvation (some { count := 0, ahead := false })

/-- The bytes of a response: its code, the count of its fields and the fields (file 11, 11.5). -/
def Response.bytes (r : Response) : List Byte := r.code.code :: be16 (word16OfNat r.fields.length) ++ r.fields

/-- A FETCH of at least two bytes: what it returns from byte 1 on, and the state after it. The port state at byte 1
decides (R171), also where a response was placed after the falling edge of PSEL. -/
def fetchBytes (n : Nat) (s : State) : List Byte × State :=
  match s.port.state with
  | .answered r => (padTo n r.bytes, s.setPortState .idle)
  | .idle => (padTo n (respond .none).bytes, s)
  | .waiting _ => (padTo n (respond .none).bytes, s)

/-- The bytes of a transaction that the port heeds, up to its end (R168, R169). -/
def exchange (kind : Byte) (more : List Byte) (s : State) : State :=
  match more with
  | [] => s.shown.setPdo [s.statusSent]
  | code :: rest =>
    if kind == 0x01#8 then (endRequest code rest s.shown).setPdo (s.statusSent :: zeros (rest.length + 1))
    else if kind == 0x02#8 then
      let f := fetchBytes (rest.length + 1) s.shown
      f.2.setPdo (s.statusSent :: f.1)
    else s.shown.setPdo (s.statusSent :: zeros (rest.length + 1))

/-- PSEL falls, and stays low: a transaction begins with the port status of this moment. In a held part it begins none
(R168). -/
def selectFalls (s : State) : State :=
  if s.sup.held then s.setSelect .unheeded else (s.setPdo []).setSelect (.low s.portStatus)

/-- The bytes that the host sends, and the rise of PSEL (R168, R169); with no byte PSEL falls and stays low, and the
next bytes are those of the transaction that it begins (notes/assumptions/13.md). -/
def transaction (sent : List Byte) (s : State) : State :=
  match sent with
  | [] => selectFalls s
  | kind :: more => (if s.heeds then exchange kind more s else s).setSelect .high

/-- A REQUEST transaction of a command code and its parameter bytes. -/
def request (code : Byte) (params : List Byte) (s : State) : State := transaction (0x01#8 :: code :: params) s

/-! ## The commands -/

/-- PORT_REQUEST_SERVICE (R115). -/
def execPortRequestService (s : State) : Host.Outcome State Fault Refusal := asService portService s

/-- STATUS_POLL (R168); with no byte, the falling edge of PSEL with which the next transaction begins. -/
def execStatusPoll (sent : List Byte) (s : State) : Host.Outcome State Fault Refusal :=
  .next (transaction sent s)

/-- FETCH (R171). -/
def execFetch (rest : List Byte) (s : State) : Host.Outcome State Fault Refusal :=
  .next (transaction (0x02#8 :: rest) s)

/-- READ_STATUS (R174). -/
def execReadStatus (params : List Byte) (s : State) : Host.Outcome State Fault Refusal :=
  .next (request 0x10#8 params s)

/-- READ_NOTICE (R174). -/
def execReadNotice (params : List Byte) (s : State) : Host.Outcome State Fault Refusal :=
  .next (request 0x11#8 params s)

/-- ECHO (R182). -/
def execEcho (params : List Byte) (s : State) : Host.Outcome State Fault Refusal :=
  .next (request 0x12#8 params s)

/-- SUBMIT_DECLARE (R173). -/
def execSubmitDeclare (params : List Byte) (s : State) : Host.Outcome State Fault Refusal :=
  .next (request 0x30#8 params s)

/-- SUBMIT_PHASE (R173). -/
def execSubmitPhase (params : List Byte) (s : State) : Host.Outcome State Fault Refusal :=
  .next (request 0x31#8 params s)

/-- SET_CYCLE (R160). -/
def execSetCycle (params : List Byte) (s : State) : Host.Outcome State Fault Refusal :=
  .next (request 0x40#8 params s)

/-- READ_PARCEL (R115), as taken. -/
def execReadParcel (params : List Byte) (s : State) : Host.Outcome State Fault Refusal :=
  .next (request 0x20#8 params s)

/-- READ_ROSTER_ITEM (R115), as taken. -/
def execReadRosterItem (params : List Byte) (s : State) : Host.Outcome State Fault Refusal :=
  .next (request 0x21#8 params s)

/-- READ_VOTES (R115), as taken. -/
def execReadVotes (params : List Byte) (s : State) : Host.Outcome State Fault Refusal :=
  .next (request 0x22#8 params s)

/-- READ_ACCEPTANCE (R135), as taken. -/
def execReadAcceptance (params : List Byte) (s : State) : Host.Outcome State Fault Refusal :=
  .next (request 0x23#8 params s)

/-- DROP_PARCEL (R17), as taken. -/
def execDropParcel (params : List Byte) (s : State) : Host.Outcome State Fault Refusal :=
  .next (request 0x41#8 params s)

/-- UNKNOWN_COMMAND (R169). -/
def execUnknownCommand (code : Byte) (params : List Byte) (s : State) : Host.Outcome State Fault Refusal :=
  .next (request code params s)

end Sys2Proof.Machine
end

