-- ==== Sys2Proof/Machine/Supply.lean ====
section
/-! DEFINITION. The Supply Supervisor: the holds, the release with the reset values of every block, and the restart
from the Record Store (file 10, 10.5 and 10.6; R2, R76, R117 to R121, R136, R157, R167, R180). -/

namespace Sys2Proof.Machine

/-! ## A hold (R178, R179) -/

def emptyStore : List (Option StoredParcel) := List.replicate Config.tableSize none

/-- The part is held: nothing is driven on the line and PDO is at high impedance. -/
def holdWith (sup : Supervisor) (s : State) : State :=
  ((s.setSup sup).setLine { s.line with driving := none, markDriven := false }).setPort { s.port with pdo := [] }

/-- A warm condition begins: its cause, unless the supply was below the retention level in this hold (R179). -/
def holdWarm (cause : ResetCause) (s : State) : State :=
  holdWith { s.sup with held := true, cause := if s.sup.belowRetention then .powerOn else cause } s

/-- The supply rises from below the retention level: the hold is a cold one and the store has lost its contents. -/
def holdCold (s : State) : State :=
  holdWith { s.sup with held := true, cause := .powerOn, belowRetention := true } (s.setStore emptyStore)

/-- A record that holds only the number, the state VOID and the reason CHECK (R15, R119). -/
def voidCheckRecord (n : ParcelNo) : ParcelRecord :=
  { number := n, decl := none, state := .void, voidReason := some .check, round := 0, lastPhase := none, roster := []
    running := none, alarm := quietAlarm, own := none, votes := [], peers := [], windowStart := none
    voteOwed := false, alarmOwed := false }

/-- A position partly written: its store check does not match its contents (R117). A position that was empty holds
the number found there. -/
def tornPosition (number : Byte) : Option StoredParcel → StoredParcel
  | some p => { p with check := ~~~(storeCheck p.number p.record) }
  | none =>
    let r := voidCheckRecord (number.setWidth 4)
    { number := number, record := r, check := ~~~(storeCheck number r) }

/-- The service in progress when a reset falls in one: the arbiter's choice (R104), whole. -/
def serviceInProgress (s : State) : State :=
  match arbiter s with
  | some .checkpoint => serve checkpointBody s
  | some .secondDuty => serve dutyBody s
  | some (.intake e) => serve (intakeBody e) s
  | some (.slot n) => serve (slotBody n) s
  | some (.port r) => wholeService (portBody r) s
  | none => burstClose s

/-- The changes of the store that this service makes, first to last. -/
def storeSteps (s : State) : List StoreStep := (serviceInProgress (s.setStoreLog [])).storeLog

/-- The store after the first k changes of the service in progress. -/
def storeAfter (s : State) (k : Nat) : List (Option StoredParcel) :=
  match ((storeSteps s).take k).getLast? with
  | some x => x.after
  | none => s.store

/-- The store that a reset leaves which cuts the service in progress short: the complete changes, and the next one
partly written if it is a write-back. A removal that was not complete has changed nothing. -/
def cutStore (c : ServiceCut) (s : State) : List (Option StoredParcel) :=
  match c.torn, (storeSteps s)[c.complete]? with
  | some number, some { position := some i, .. } =>
    (storeAfter s c.complete).modify i (fun p => some (tornPosition number p))
  | _, _ => storeAfter s c.complete

/-- The store of a part on which a warm reset begins now (R117); during a hold no service is in progress. -/
def cutShort (cut : Option ServiceCut) (s : State) : State :=
  match cut with
  | none => s
  | some c => if s.sup.held then s else s.setStore (cutStore c s)

/-! ## The release (R177, R179) -/

/-- A PSEL that is low at the release is not the start of a transaction: the port waits for it to rise (R168). -/
def Select.afterReset : Select → Select
  | .high => .high
  | .low _ => .unheeded
  | .unheeded => .unheeded

/-- The reset values of every block, before the restart of the parcels: R118, R136, R157, R167, R180. -/
def freshState (straps : Straps) (cause : ResetCause) (store : List (Option StoredParcel)) (select : Select)
    (pending : List Instr) : State where
  line :=
    { standing := if straps.unnumbered then .unnumbered else .active
      tfc := 0, rfc := 0, goodHeard := none, listening := true, outbound := [], driving := none, markDriven := false }
  acc :=
    { entries := List.replicate Config.slotCount none, slots := List.replicate Config.slotCount emptySlot, intake := []
      pressure := false }
  eng :=
    { directory := [], rosterDir := [], heard := if straps.unnumbered then [] else [straps.station]
      w0 := none, w1 := none, lessRecent := .w0, buf0 := none, buf1 := none, dutyPending := false
      checkpointPending := false, slotPointer := 23, starvation := none, windowRestart := cause != .powerOn
      dueWrites := [] }
  store := store
  storeLog := []
  tmr :=
    { seconds := 0#32
      mark := (match straps.cycle with | .cycleA => 2#8 | .cycleB => 5#8)
      space := (match straps.cycle with | .cycleA => 8#8 | .cycleB => 25#8)
      pendingLengths := none, cycle := none, pointer := 0#4, buildsDue := [] }
  port := { state := .idle, busy := false, notices := [], pdo := [], select := select }
  sup := { held := false, cause := cause, belowRetention := false, straps := straps }
  counters := Counters.zero
  pending := pending

/-! ## Verification (R119) -/

/-- What the verification of the positions so far has made of the store. -/
structure Verified where
  store : List (Option StoredParcel)
  held : List ParcelRecord
  seen : List Byte
  failed : List ParcelNo
  deriving DecidableEq, Repr

def nodeSetHolds (station : Station) (r : ParcelRecord) : Bool :=
  match r.decl with
  | some d => d.nodes.contains station
  | none => false

/-- A record that passes: condition-since and clear-since are discarded, the raised flag is kept (R119 step 3, R76). -/
def restored (n : ParcelNo) (r : ParcelRecord) : ParcelRecord :=
  { r with number := n, alarm := { conditionSince := none, raised := r.alarm.raised, clearSince := none } }

/-- The verification of one position (R119). -/
def verifyPosition (station : Station) (v : Verified) (p : Option StoredParcel) : Verified :=
  match p with
  | none => { v with store := v.store ++ [none] }
  | some q =>
    if q.number.toNat == 0 || decide (15 < q.number.toNat) || v.seen.contains q.number then
      { v with store := v.store ++ [none] }
    else
      let n : ParcelNo := q.number.setWidth 4
      let good := q.check == storeCheck q.number q.record && nodeSetHolds station q.record
      let r := if good then restored n q.record else voidCheckRecord n
      { store := v.store ++ [some (mkStored r)]
        held := v.held ++ [r]
        seen := v.seen ++ [q.number]
        failed := if good then v.failed else v.failed ++ [n] }

def verifyStore (station : Station) (store : List (Option StoredParcel)) : Verified :=
  store.foldl (verifyPosition station) { store := [], held := [], seen := [], failed := [] }

/-- A verified parcel is held: its directory entry and its roster directory entries are made. -/
def holdParcel (s : State) (r : ParcelRecord) : State :=
  s.setEng { s.eng with
    directory := insertDir (dirEntryOf r) s.eng.directory
    rosterDir := s.eng.rosterDir ++ rosterEntries r.number 0 r.roster }

/-- The tanks of a parcel in a bound state are rebound and the stored record is rewritten (R120). -/
def rebindParcel (s : State) (n : ParcelNo) : State :=
  match s.stored n with
  | some p =>
    if s.isHeld n && p.record.state.isBound then
      let b := bindRoster n 0 (clearBindings p.record.roster) s.acc
      (s.setAcc b.2).storePut { p.record with roster := b.1 }
    else s
  | none => s

/-- The restart of the parcels after a warm reset with a station number (R119, R120). -/
def restartParcels (s : State) : State :=
  let v := verifyStore s.station s.store
  let t := allNumbers.foldl rebindParcel (v.held.foldl holdParcel (s.setStore v.store))
  t.postAll ((allNumbers.filter (fun n => v.failed.contains n)).map
    (fun n => .parcelState n (some .void) 0 (some .check) .other))

/-- The release of a reset: straps sampled, reset values, RESTART, and the parcels of a warm reset (R2, R177, R179). -/
def release (pins : StrapPins) (s : State) : State :=
  let straps := strapsOfPins pins
  let store := if s.sup.cause == .powerOn then emptyStore else s.store
  let t := (freshState straps s.sup.cause store s.port.select.afterReset s.pending).post
    (.restart s.sup.cause straps.station)
  if s.sup.cause == .powerOn || straps.unnumbered then t else (restartParcels t).setStoreLog []

/-! ## The commands -/

/-- POWER_ON_RESET (R178). -/
def execPowerOnReset (s : State) : Host.Outcome State Fault Refusal := .next (holdCold s)

/-- PIN_RESET (R178), with the service that it cut short (R117). -/
def execPinReset (cut : Option ServiceCut) (s : State) : Host.Outcome State Fault Refusal :=
  .next (holdWarm .pin (cutShort cut s))

/-- SUPPLY_LOW_RESET (R178), with the service that it cut short (R117). -/
def execSupplyLowReset (cut : Option ServiceCut) (s : State) : Host.Outcome State Fault Refusal :=
  .next (holdWarm .supplyLow (cutShort cut s))

/-- RESET_RELEASE (R179); a part that is not held has nothing to be released from. -/
def execResetRelease (pins : StrapPins) (s : State) : Host.Outcome State Fault Refusal :=
  if s.sup.held then .next (release pins s) else .next s

/-- SUPPLY_BELOW_RETENTION (R179): the store loses its contents; a hold in progress becomes a cold one, and outside a
hold the cause is kept until the hold that follows. -/
def execSupplyBelowRetention (s : State) : Host.Outcome State Fault Refusal :=
  .next ((s.setStore emptyStore).setSup { s.sup with
    belowRetention := true
    cause := if s.sup.held then .powerOn else s.sup.cause })

end Sys2Proof.Machine
end

