-- ==== Sys2Proof/Machine/Dispatch.lean ====
section
/-! DEFINITION. The meaning of each command: one arm per constructor of Instr. -/

namespace Sys2Proof.Machine

def exec (i : Instr) (s : State) : Host.Outcome State Fault Refusal :=
  match i with
  | .receiveFrame frame => Sys2Proof.Machine.execReceiveFrame frame s
  | .withdrawnRecovery => Sys2Proof.Machine.execWithdrawnRecovery s
  | .attempt => Sys2Proof.Machine.execAttempt s
  | .contentionLost => Sys2Proof.Machine.execContentionLost s
  | .attemptEnd outcome => Sys2Proof.Machine.execAttemptEnd outcome s
  | .outboundDrop => Sys2Proof.Machine.execOutboundDrop s
  | .listenPeriodEnd => Sys2Proof.Machine.execListenPeriodEnd s
  | .secondTick => Sys2Proof.Machine.execSecondTick s
  | .cycleStart => Sys2Proof.Machine.execCycleStart s
  | .buildMoment => Sys2Proof.Machine.execBuildMoment s
  | .markEnd => Sys2Proof.Machine.execMarkEnd s
  | .cycleEnd => Sys2Proof.Machine.execCycleEnd s
  | .secondDuty => Sys2Proof.Machine.execSecondDuty s
  | .assemblyTimeout buffer => Sys2Proof.Machine.execAssemblyTimeout buffer s
  | .windowExpiry parcel => Sys2Proof.Machine.execWindowExpiry parcel s
  | .halfWindowPass parcel => Sys2Proof.Machine.execHalfWindowPass parcel s
  | .persistenceRunOut parcel => Sys2Proof.Machine.execPersistenceRunOut parcel s
  | .checkpoint => Sys2Proof.Machine.execCheckpoint s
  | .burstEndClose => Sys2Proof.Machine.execBurstEndClose s
  | .starvation => Sys2Proof.Machine.execStarvation s
  | .intakeService => Sys2Proof.Machine.execIntakeService s
  | .gaugeSlotService => Sys2Proof.Machine.execGaugeSlotService s
  | .portRequestService => Sys2Proof.Machine.execPortRequestService s
  | .statusPoll sent => Sys2Proof.Machine.execStatusPoll sent s
  | .fetch rest => Sys2Proof.Machine.execFetch rest s
  | .readStatus params => Sys2Proof.Machine.execReadStatus params s
  | .readNotice params => Sys2Proof.Machine.execReadNotice params s
  | .echo params => Sys2Proof.Machine.execEcho params s
  | .submitDeclare params => Sys2Proof.Machine.execSubmitDeclare params s
  | .submitPhase params => Sys2Proof.Machine.execSubmitPhase params s
  | .setCycle params => Sys2Proof.Machine.execSetCycle params s
  | .readParcel params => Sys2Proof.Machine.execReadParcel params s
  | .readRosterItem params => Sys2Proof.Machine.execReadRosterItem params s
  | .readVotes params => Sys2Proof.Machine.execReadVotes params s
  | .readAcceptance params => Sys2Proof.Machine.execReadAcceptance params s
  | .dropParcel params => Sys2Proof.Machine.execDropParcel params s
  | .unknownCommand code params => Sys2Proof.Machine.execUnknownCommand code params s
  | .powerOnReset => Sys2Proof.Machine.execPowerOnReset s
  | .pinReset cut => Sys2Proof.Machine.execPinReset cut s
  | .supplyLowReset cut => Sys2Proof.Machine.execSupplyLowReset cut s
  | .resetRelease pins => Sys2Proof.Machine.execResetRelease pins s
  | .frameBrokenOff => Sys2Proof.Machine.execFrameBrokenOff s
  | .frameAbandonedOnLength => Sys2Proof.Machine.execFrameAbandonedOnLength s
  | .supplyBelowRetention => Sys2Proof.Machine.execSupplyBelowRetention s

end Sys2Proof.Machine
end

