-- ==== Sys2Proof/Machine/Step.lean ====
section
/-! DEFINITION. One step: the command at the front of the queue, or nothing when no command waits. -/

namespace Sys2Proof.Machine

/-- The front command runs on the state with the rest of the queue; with an empty queue the part idles
(notes/assumptions/2.md). -/
def step (s : State) : Host.Outcome State Fault Refusal :=
  match s.pending with
  | [] => .next s
  | c :: rest => exec c (s.setPending rest)

/-- The command that a table word spells is put at the front of the queue; no row of the table gives bits, so no word
spells one (notes/assumptions/32.md). -/
def State.withFetchWord (s : State) (nbits w : Nat) : State :=
  match decodeTableWord nbits w with
  | some c => s.setPending (c :: s.pending)
  | none => s

end Sys2Proof.Machine
end

