-- ==== Sys2Proof/Safety.lean ====
section
/-! DEFINITION. The properties of a state that the statements speak of: the limits of its queues and counts, its fixed
sizes, the keys of its outbound queue, its pressure flag, what an engine service leaves alone, and the bytes of the
answers and the notices. -/

namespace Sys2Proof.Machine

/-- Every queue and every count stays within the limit that the manual gives it (R103, R131, R148, R151, R176). -/
def State.Bounded (s : State) : Prop :=
  s.line.outbound.length ≤ 10 ∧ s.acc.intake.length ≤ 32 ∧ s.port.notices.length ≤ 16 ∧ s.line.tfc ≤ 255 ∧
    s.line.rfc ≤ 255 ∧ ∀ n ∈ s.counters.toList, n ≤ 65535

/-- The store has 6 positions, the acceptance table 24 bindable entries, and there are 24 gauge slots, of which the
rotation pointer names one (R106, R116, R122, R128). -/
def State.Shaped (s : State) : Prop :=
  s.store.length = 6 ∧ s.acc.entries.length = 24 ∧ s.acc.slots.length = 24 ∧ s.eng.slotPointer < 24

/-- No two queued frames have the same key (R151). -/
def State.KeysDistinct (s : State) : Prop := (s.line.outbound.map QueuedFrame.key).Nodup

/-- Pressure mode is set only above 16 queued entries and clear only below 24 (R134). -/
def State.PressureAgrees (s : State) : Prop :=
  (s.acc.pressure = true → 16 < s.acc.intake.length) ∧ (s.acc.pressure = false → s.acc.intake.length < 24)

/-- The parcel table holds at most 6 parcels, never two of one number and never the number 0 (R1). -/
def State.TableSound (s : State) : Prop :=
  s.eng.directory.length ≤ 6 ∧ (s.eng.directory.map DirEntry.number).Nodup ∧
    0#4 ∉ s.eng.directory.map DirEntry.number

/-- What no engine service and no build moment changes: the line but for its queue, the clock and the cycle, the straps
and the reset cause, the bytes on PDO, the BUSY flag, PSEL, and the commands that wait. -/
def SameOutside (s t : State) : Prop :=
  t.line.standing = s.line.standing ∧ t.line.tfc = s.line.tfc ∧ t.line.rfc = s.line.rfc ∧
    t.line.goodHeard = s.line.goodHeard ∧ t.line.listening = s.line.listening ∧ t.line.driving = s.line.driving ∧
    t.line.markDriven = s.line.markDriven ∧ t.tmr.seconds = s.tmr.seconds ∧ t.tmr.mark = s.tmr.mark ∧
    t.tmr.space = s.tmr.space ∧ t.tmr.pendingLengths = s.tmr.pendingLengths ∧ t.tmr.cycle = s.tmr.cycle ∧
    t.sup = s.sup ∧ t.port.pdo = s.port.pdo ∧ t.port.busy = s.port.busy ∧
    t.port.select = s.port.select ∧ t.pending = s.pending

/-- The arbiter's choice is the second duty: it is pending and no checkpoint is (R104). -/
def State.DutyChosen (s : State) : Prop := s.eng.checkpointPending = false ∧ s.eng.dutyPending = true

/-- Neither a checkpoint nor a second duty nor a starved port request waits (R104). -/
def State.NoneAhead (s : State) : Prop :=
  s.eng.checkpointPending = false ∧ s.eng.dutyPending = false ∧ s.portStarved = false

/-! ## Commands -/

/-- The five commands of the supply and the reset pin, which act on a part that is held in reset (R178, R179). -/
def isSupplyCommand : Instr → Bool
  | .powerOnReset => true
  | .pinReset _ => true
  | .supplyLowReset _ => true
  | .resetRelease _ => true
  | .supplyBelowRetention => true
  | _ => false

/-- The commands that are services of the engine, parts of one, or a build moment. -/
def isEngineService : Instr → Bool
  | .secondDuty => true
  | .assemblyTimeout _ => true
  | .windowExpiry _ => true
  | .halfWindowPass _ => true
  | .persistenceRunOut _ => true
  | .checkpoint => true
  | .burstEndClose => true
  | .starvation => true
  | .intakeService => true
  | .gaugeSlotService => true
  | .portRequestService => true
  | .buildMoment => true
  | _ => false

/-- The REQUEST transactions: command code and parameter bytes of each (file 11, 11.5). -/
def requestOf : Instr → Option (Byte × List Byte)
  | .readStatus ps => some (0x10#8, ps)
  | .readNotice ps => some (0x11#8, ps)
  | .echo ps => some (0x12#8, ps)
  | .readParcel ps => some (0x20#8, ps)
  | .readRosterItem ps => some (0x21#8, ps)
  | .readVotes ps => some (0x22#8, ps)
  | .readAcceptance ps => some (0x23#8, ps)
  | .submitDeclare ps => some (0x30#8, ps)
  | .submitPhase ps => some (0x31#8, ps)
  | .setCycle ps => some (0x40#8, ps)
  | .dropParcel ps => some (0x41#8, ps)
  | .unknownCommand code ps => some (code, ps)
  | _ => none

/-- The bytes that a port command sends, from byte 0 on; with none, PSEL falls (R168). -/
def bytesOf (c : Instr) : Option (List Byte) :=
  match c with
  | .statusPoll sent => some sent
  | .fetch rest => some (0x02#8 :: rest)
  | _ => (requestOf c).map (fun r => 0x01#8 :: r.1 :: r.2)

/-! ## The line -/

/-- The standing that the fault counts call for: 96 mutes, a transmit count of 200 withdraws (R144, R145, R147). -/
def standingByCounts (st : Standing) (tfc rfc : Nat) : Standing :=
  match st with
  | .active => if 200 ≤ tfc then .withdrawn else if 96 ≤ tfc ∨ 96 ≤ rfc then .muted else .active
  | .muted => if 200 ≤ tfc then .withdrawn else if 96 ≤ tfc ∨ 96 ≤ rfc then .muted else .active
  | .withdrawn => .withdrawn
  | .duplicate => .duplicate
  | .unnumbered => .unnumbered

/-- The standing lets the class go to the line: every class in ACTIVE, classes 0..2 in MUTED (R150). -/
def Offerable (st : Standing) (cls : BitVec 3) : Prop := st = .active ∨ (st = .muted ∧ cls ≤ 2#3)

/-- A whole frame with a good check and no form fault (R140). -/
def GoodFrame (f : LineFrame) : Prop :=
  f.payload.length ≤ 20 ∧ f.check = check16 (coveredBytes f.key f.payload) ∧ formFault f.key = false

/-- The fixed acceptance entry that takes a kind (R122); a REQUEST and a GAUGE have none. -/
def fixedIndex : Kind → Option Nat
  | .phase => some 0 | .vote => some 1 | .snapshot => some 2 | .declare => some 3 | .alarm => some 4
  | .lineState => some 5 | .meter => some 5 | .figure => some 6 | .presence => some 7
  | .request => none | .gauge => none

/-- One frame is in flight, and only one. -/
def State.OnlyFlying (s : State) (q : QueuedFrame) : Prop :=
  q ∈ s.line.outbound ∧ q.inFlight = true ∧ ∀ x ∈ s.line.outbound, x.inFlight = true → x = q

/-- A notice has been posted: appended with the present second while fewer than 16 wait, and otherwise lost and
counted (R176). -/
def Posted (s t : State) (b : NoticeBody) : Prop :=
  (s.port.notices.length < 16 → t.port.notices = s.port.notices ++ [{ second := s.tmr.seconds, body := b }] ∧
      t.counters.noticesLost = s.counters.noticesLost) ∧
    (16 ≤ s.port.notices.length → t.port.notices = s.port.notices ∧
      t.counters.noticesLost = min 65535 (s.counters.noticesLost + 1))

/-! ## Services -/

/-- The starvation count after one more completed service of another requester (R105). -/
def State.starvationCounted (s : State) : Option Starvation :=
  s.eng.starvation.map (fun c => { count := min 8 (c.count + 1), ahead := c.ahead || decide (8 ≤ min 8 (c.count + 1)) })

/-- The head of the intake queue has been removed by a service that did nothing else: the rest waits, the length 16
ends pressure mode, and the service counts for the port request (R133, R134, R105). -/
def State.headTaken (s : State) (rest : List IntakeEntry) : State :=
  { s with
    acc := { s.acc with intake := rest, pressure := s.acc.pressure && decide (16 < rest.length) }
    eng := { s.eng with starvation := s.starvationCounted } }

/-- A service that the arbiter chooses in state s, as a command (R104). -/
def State.Serves (s : State) (c : Instr) : Prop :=
  match c with
  | .checkpoint => arbiter s = some .checkpoint
  | .secondDuty => arbiter s = some .secondDuty
  | .intakeService => ∃ e, arbiter s = some (.intake e)
  | .gaugeSlotService => ∃ m, arbiter s = some (.slot m)
  | .portRequestService => ∃ q, arbiter s = some (.port q)
  | _ => False

/-- The commands that are one part of a second duty (R108). -/
def isDutyPart : Instr → Bool
  | .assemblyTimeout _ => true
  | .windowExpiry _ => true
  | .halfWindowPass _ => true
  | .persistenceRunOut _ => true
  | _ => false

/-- A command acts as it does after the closings of the arbiter's choice, but for the note of the store's changes
(R112; the note is the model's, notes/assumptions/31.md). -/
def BeginsWithTheClosings (c : Instr) (s : State) : Prop :=
  ∃ u note t, exec .burstEndClose s = .next u ∧ exec c { u with storeLog := note } = .next t ∧
    exec c s = .next { t with storeLog := s.storeLog }

/-! ## The parcels -/

/-- Every parcel but n has its directory entry, its stored copy and its working copy as before. -/
def OthersKept (s t : State) (n : ParcelNo) : Prop :=
  ∀ m, m ≠ n → t.dirFind m = s.dirFind m ∧ t.stored m = s.stored m ∧ t.working m = s.working m

/-- Nothing is bound to parcel n any more, and every other entry and slot is as before (R126). -/
def Unbound (s t : State) (n : ParcelNo) : Prop :=
  t.acc.entries = s.acc.entries.map (fun e => match e with
    | some b => if b.parcel = n then none else some b
    | none => none) ∧
  t.acc.slots = s.acc.slots.map (fun g => match g.boundTo with
    | some k => (match s.acc.entry k with
      | some b => if b.parcel = n then { boundTo := none, waiting := none, overrun := false } else g
      | none => g)
    | none => g)

/-- Parcel n is open in context i, with working copy r. -/
def State.OpenIn (s : State) (n : ParcelNo) (i : ContextId) (r : ParcelRecord) : Prop :=
  ∃ e c, s.dirFind n = some e ∧ e.context = some i ∧ s.eng.context i = some c ∧ c.record = r ∧ r.number = n

/-- What is held, open and stored agrees: a held parcel is stored under its number; its directory entry shows the
context that holds it, and only a context that a directory entry shows holds a record; a clean working copy is the
stored record; and the directory's copies are those of the record (R101, R109, R110, R116). -/
structure State.Coherent (s : State) : Prop where
  stored : ∀ n e, s.dirFind n = some e → ∃ p, s.stored n = some p ∧ p.record.number = n
  opened : ∀ n e i, s.dirFind n = some e → e.context = some i → ∃ c, s.eng.context i = some c ∧ c.record.number = n
  shown : ∀ i c, s.eng.context i = some c → ∃ e, s.dirFind c.record.number = some e ∧ e.context = some i
  clean : ∀ i c p, s.eng.context i = some c → c.dirty = false → s.stored c.record.number = some p → p.record = c.record
  copies : ∀ n e r, s.dirFind n = some e → s.recordOf n = some r → e.copyFrom r = e

/-- The victim of a miss: an empty context, W0 before W1, and else the one used less recently (R109). -/
def State.missVictim (s : State) : ContextId :=
  if s.eng.w0 = none then .w0 else if s.eng.w1 = none then .w1 else s.eng.lessRecent

/-- The turnaround of context i to parcel n (R110): the record there goes to the store when it is dirty, with its
check, and its directory entry shows no context; the context then holds record r, clean, shown by the directory entry
of n, and is the one used last. Nothing else changes but the note of the store's changes. -/
def State.Turned (s t : State) (n : ParcelNo) (i : ContextId) (r : ParcelRecord) : Prop :=
  t.eng.context i = some { record := r, dirty := false } ∧
    t.eng.context (otherContext i) = s.eng.context (otherContext i) ∧ t.eng.lessRecent = otherContext i ∧
    (∀ m, t.dirFind m = (s.dirFind m).map (fun e => { e with
      context :=
        if m = n then some i
        else if (s.eng.context i).map (fun c => c.record.number) = some m then none
        else e.context })) ∧
    (∀ m, t.stored m = match s.eng.context i with
      | some c => if c.dirty = true ∧ c.record.number = m then some (mkStored c.record) else s.stored m
      | none => s.stored m) ∧
    t = { s with
      store := t.store
      storeLog := t.storeLog
      eng := { s.eng with
        directory := t.eng.directory, w0 := t.eng.w0, w1 := t.eng.w1, lessRecent := t.eng.lessRecent } }

/-- Context i has been emptied for another parcel than m: what the directory and the store show of m is as before, but
that the record that was in i has gone to the store when it was dirty, with its check, and shows no context (R110). -/
def State.MadeRoom (s t : State) (i : ContextId) (m : ParcelNo) : Prop :=
  t.dirFind m = (s.dirFind m).map (fun e => { e with
    context := if (s.eng.context i).map (fun c => c.record.number) = some m then none else e.context }) ∧
  t.stored m = match s.eng.context i with
    | some c => if c.dirty = true ∧ c.record.number = m then some (mkStored c.record) else s.stored m
    | none => s.stored m

/-- A command that finds parcel n held and stored, and not open, acts as it does after the turnaround of the victim
(R109, R110). -/
def ActsAfterTurnaround (c : Instr) (s : State) (n : ParcelNo) : Prop :=
  ∀ e p, s.dirFind n = some e → e.context = none → s.stored n = some p →
    (∀ v, s.eng.context s.missVictim = some v → v.dirty = true → (s.stored v.record.number).isSome = true) →
    ∃ t u, s.Turned t n s.missVictim p.record ∧ exec c t = .next u ∧ exec c s = .next { u with storeLog := s.storeLog }

/-- The commands of the list, sent one after the other, lead from state s to state t. -/
def RunsTo : List Instr → State → State → Prop
  | [], s, t => t = s
  | c :: rest, s, t => ∃ u, exec c s = .next u ∧ RunsTo rest u t

/-- The tests that a second duty makes of the held parcels, as parts sent one by one in the order of R108. -/
def parcelParts : List Instr :=
  allNumbers.flatMap (fun n => [.windowExpiry n, .halfWindowPass n, .persistenceRunOut n])

/-- No service is in progress and no cycle start waits for its build moment, under KEEP_OPEN: what a service leaves
at its end is what its body made. -/
def State.Quiet (s : State) : Prop :=
  s.sup.straps.policy = .keepOpen ∧ s.tmr.buildsDue = [] ∧ s.eng.dueWrites = []

/-- The arbiter's choice is the head of the intake queue (R104). -/
def State.HeadChosen (s : State) (e : IntakeEntry) (rest : List IntakeEntry) : Prop :=
  s.sup.held = false ∧ s.NoneAhead ∧ s.acc.intake = e :: rest ∧ s.line.standing ≠ .unnumbered

/-- The legal states of each phase (R9). -/
def legalStates : Phase → List ParcelState
  | .opening => [.declared]
  | .start => [.opening]
  | .stop => [.transfer]
  | .regauge => [.disputed, .lapsed]
  | .cancel => [.declared, .opening, .transfer, .closing, .reconciled, .disputed, .lapsed]
  | .release => [.agreed, .disputed, .lapsed, .void]

/-- A PHASE entry of good form: its item is the phase code, its payload the code, a round and a reason (R9). -/
def IsPhaseEntry (e : IntakeEntry) (p : Phase) (round reason : Byte) : Prop :=
  e.entryIndex = 0 ∧ e.payload = [p.code, round, reason] ∧ byte6 e.item = p.code

/-- A VOTE entry of good form: its item is the round, and its payload the round, a verdict, the values of the vote and
a flags field of which bits 4..0 count (R88, R181). -/
def IsVoteEntry (e : IntakeEntry) (v : VoteData) : Prop :=
  e.entryIndex = 1 ∧ 1 ≤ v.round ∧ v.round ≤ 4 ∧ e.item = BitVec.ofNat 6 v.round ∧
    ∃ (verdict : Verdict) (flags : BitVec 16), v.flags = flags &&& 0x001F#16 ∧
      e.payload = [BitVec.ofNat 8 v.round, verdict.code] ++ be32 v.p ++ be32 v.s ++ be32 v.ratio ++ be32 v.check ++
        be16 flags

/-! ## Declarations -/

/-- A declaration has been refused: the ALARM with the reason has been offered, and the notice says whether it was
admitted (R41). -/
def Refused (s t : State) (n : ParcelNo) (source : Station) (reason : RefusalReason) : Prop :=
  let o := offer
    { key := mkKey .alarm s.sup.straps.station n 1#6, payload := [1#8, reason.code, 0#8, 0#8, 0#8, 0#8] } false s
  t.line = o.2.line ∧ Posted s t (.declareRefused n source reason o.1.isIn)

/-- A held parcel in DECLARED with record r has been voided by an amendment that failed, and the amendment refused: its
alarm record is quiet, its tanks are unbound, the record is written through, and the notices of the void and of the
refusal are posted in this order (R15, R40, R41; the order is the model's reading, notes/assumptions/8.md). -/
def AmendmentVoided (s t : State) (n : ParcelNo) (source : Station) (reason : RefusalReason) (r : ParcelRecord) : Prop :=
  let q := { r with
    state := .void, voidReason := some .amendRefused, windowStart := none, voteOwed := false
    alarm := { conditionSince := none, raised := false, clearSince := none }
    roster := r.roster.map (fun x => { x with binding := none }) }
  let o := offer
    { key := mkKey .alarm s.sup.straps.station n 1#6, payload := [1#8, reason.code, 0#8, 0#8, 0#8, 0#8] } false s
  t.working n = some q ∧ t.stored n = some (mkStored q) ∧ Unbound s t n ∧ t.line = o.2.line ∧ OthersKept s t n ∧
    (s.port.notices.length + 2 ≤ 16 → t.port.notices = s.port.notices ++ [
      { second := s.tmr.seconds, body := .parcelState n (some .void) r.round (some .amendRefused) .other },
      { second := s.tmr.seconds, body := .declareRefused n source reason o.1.isIn }])

/-! What an intake service answers whose head e, with the entries of rest behind it, ends a declaration. State s is the
one before the service, and u shows what the engine is after it but for the records: the buffers in question freed. -/

/-- The declaration is refused (R41). -/
def HeadRefused (s u : State) (e : IntakeEntry) (rest : List IntakeEntry) (reason : RefusalReason) : Prop :=
  ∃ t, exec .intakeService s = .next t ∧ t.eng = u.eng ∧ t.store = s.store ∧ t.acc = (s.headTaken rest).acc ∧
    Refused s t e.parcel e.source reason

/-- The declaration makes a conflict with its held number (R32). -/
def HeadConflicts (s u : State) (e : IntakeEntry) (rest : List IntakeEntry) (held : ParcelState) : Prop :=
  ∃ t, exec .intakeService s = .next t ∧ t.eng = u.eng ∧ t.store = s.store ∧ t.acc = (s.headTaken rest).acc ∧
    t.line = s.line ∧ t.counters.conflicts = min 65535 (s.counters.conflicts + 1) ∧
    Posted s t (.declareConflict e.parcel e.source held)

/-- The amendment voids its parcel and is refused (R31, R40). -/
def HeadVoids (s u : State) (e : IntakeEntry) (rest : List IntakeEntry) (r : ParcelRecord) (reason : RefusalReason) :
    Prop :=
  ∃ t, exec .intakeService s = .next t ∧ t.eng.buf0 = u.eng.buf0 ∧ t.eng.buf1 = u.eng.buf1 ∧ t.acc.intake = rest ∧
    AmendmentVoided s t e.parcel e.source reason r

/-- In state t the parcel of entry e is as an acceptance of declaration d leaves it, with its tanks bound from the
Acceptance Unit a (R38, R39). -/
def Accepted (s t : State) (e : IntakeEntry) (rest : List IntakeEntry) (d : Declaration) (items : List DeclaredItem)
    (a : AcceptanceUnit) : Prop :=
  let bound := bindRoster e.parcel 0 (items.map freshItem) a
  let q := acceptedRecord e.parcel d bound.1
  t.working e.parcel = some q ∧ t.stored e.parcel = some (mkStored q) ∧
    t.eng.rosterDir = s.eng.rosterDir.filter (fun x => x.parcel != e.parcel) ++ rosterEntries e.parcel 0 bound.1 ∧
    t.acc.entries = bound.2.entries ∧ t.acc.slots = bound.2.slots ∧ t.acc.intake = rest ∧
    Posted s t (.parcelState e.parcel (some .declared) 1 none .other) ∧ t.line = s.line

/-- Parcel n is open in context i and stored, in DECLARED, with declaration d in its record r. -/
def State.DeclaredIn (s : State) (n : ParcelNo) (i : ContextId) (r : ParcelRecord) (d : Declaration) : Prop :=
  s.OpenIn n i r ∧ (s.stored n).isSome = true ∧ r.state = .declared ∧ r.decl = some d ∧
    ∃ de, s.dirFind n = some de ∧ de.state = .declared

/-- A declaration whose number is held, and that is no amendment, makes a conflict; a parcel in DECLARED that is not
open is opened first, to read its declarer (R32; the opening is the model's reading, notes/assumptions/7.md). -/
def HeldNumberConflicts (s u : State) (e : IntakeEntry) (rest : List IntakeEntry) : Prop :=
  (∀ de, s.dirFind e.parcel = some de → de.state ≠ .declared → HeadConflicts s u e rest de.state) ∧
    (∀ de, s.dirFind e.parcel = some de → de.state = .declared → ActsAfterTurnaround .intakeService s e.parcel) ∧
    ∀ i r d, s.DeclaredIn e.parcel i r d → d.declarer ≠ e.source → HeadConflicts s (u.touch i) e rest .declared

/-- An assembly that fails: refused with ASSEMBLY, a failed amendment, or a conflict (R31). -/
def AssemblyFails (s u : State) (e : IntakeEntry) (rest : List IntakeEntry) : Prop :=
  (s.dirFind e.parcel = none → HeadRefused s u e rest .assembly) ∧ HeldNumberConflicts s u e rest ∧
    ∀ i r d, s.DeclaredIn e.parcel i r d → d.declarer = e.source → r.alarm.raised = false →
      HeadVoids s u e rest r .assembly

/-- A declaration that is complete: accepted in the victim context, or refused with the first check that fails; an
amendment that replaces the record or voids its parcel; or a conflict (R32, R38, R40, R109, R110). -/
def DeclarationCompletes (s u : State) (e : IntakeEntry) (rest : List IntakeEntry) (p : Part0)
    (items : List DeclaredItem) : Prop :=
  (s.dirFind e.parcel = none →
    (validate e.source e.parcel p items s = none → none ∈ s.store → s.stored e.parcel = none →
      (∀ v, s.eng.context s.missVictim = some v → v.dirty = true → (s.stored v.record.number).isSome = true) →
      ∃ t, exec .intakeService s = .next t ∧ t.eng.buf0 = u.eng.buf0 ∧ t.eng.buf1 = u.eng.buf1 ∧
        Accepted s t e rest (declarationOf e.source p) items s.acc ∧
        (∃ de, t.dirFind e.parcel = some de ∧ de.state = .declared ∧ de.round = 1 ∧ de.halfDone = false ∧
          de.context = some s.missVictim) ∧
        t.eng.context (otherContext s.missVictim) = s.eng.context (otherContext s.missVictim) ∧
        ∀ m, m ≠ e.parcel → s.MadeRoom t s.missVictim m) ∧
    ∀ reason, validate e.source e.parcel p items s = some reason → HeadRefused s u e rest reason) ∧
  HeldNumberConflicts s u e rest ∧
  ∀ i r d, s.DeclaredIn e.parcel i r d → d.declarer = e.source → r.alarm.raised = false →
    let w := { s with acc := unbindParcel e.parcel s.acc }
    (validate e.source e.parcel p items w = none →
      ∃ t, exec .intakeService s = .next t ∧ t.eng.buf0 = u.eng.buf0 ∧ t.eng.buf1 = u.eng.buf1 ∧
        Accepted s t e rest (declarationOf e.source p) items w.acc ∧ OthersKept s t e.parcel ∧
        ∃ de, t.dirFind e.parcel = some de ∧ de.state = .declared ∧ de.round = 1 ∧ de.halfDone = false ∧
          de.context = some i) ∧
    ∀ reason, validate e.source e.parcel p items w = some reason → HeadVoids s u e rest r reason

/-- The part that an assembly of some item count expects next: its length (R24). -/
def IsNextPart (e : IntakeEntry) (a : Assembly) : Prop :=
  e.item.toNat = a.nextPart ∧
    e.payload.length = if a.nextPart = 1 then (if a.part0.count ≤ 10 then 2 * a.part0.count else 20)
      else 2 * (a.part0.count - 10)

/-- The last part of a declaration of 2..16 items, for the buffer that collects it (R28, R29). -/
def IsLastPart (e : IntakeEntry) (a : Assembly) : Prop :=
  IsNextPart e a ∧
    ((a.nextPart = 1 ∧ a.items = [] ∧ 2 ≤ a.part0.count ∧ a.part0.count ≤ 10) ∨
      (a.nextPart = 2 ∧ a.items.length = 10 ∧ 11 ≤ a.part0.count ∧ a.part0.count ≤ 16))

/-- FORM passes: every field of part 0, the node set and the roster are in their ranges (R34, R35). -/
def FormPasses (p : Part0) (items : List DeclaredItem) : Prop :=
  let tanks := items.filter (fun x => x.role.isTank)
  let count := fun role => (items.filter (fun x => x.role = role)).length
  (1 ≤ p.grade.toNat ∧ (p.direction = 0#2 ∨ p.direction = 1#2) ∧ 2 ≤ p.count ∧ p.count ≤ 16 ∧ p.alpha ≤ 2000 ∧
      5000 ≤ p.rho ∧ p.rho ≤ 12000 ∧ -50000 ≤ p.vefOffset ∧ p.vefOffset ≤ 50000 ∧ p.tolerance ≤ 50000 ∧
      1 ≤ p.alarmLimit ∧ p.alarmLimit ≤ 2147483647 ∧ 60 ≤ p.persistence ∧ p.persistence ≤ 3600 ∧ 5 ≤ p.window ∧
      p.window ≤ 240) ∧
    (2 ≤ p.nodes.length ∧ p.nodes.length ≤ 4 ∧ p.nodes.Nodup ∧ 63#6 ∉ p.nodes) ∧
    items.length = p.count ∧ (∀ x ∈ items, x.station ≠ 0#6 ∧ x.station ≠ 63#6) ∧
    (items.map (fun x => (x.station, x.item))).Nodup ∧ 2 ≤ tanks.length ∧ tanks.length ≤ 12 ∧
    1 ≤ count .shipTank ∧ 1 ≤ count .shoreTank ∧ count .line ≤ 3 ∧ count .meter ≤ 1

/-- A pair of the declaration stands in the roster of another parcel in a bound state, and one of the two is a tank
(R36, R40). -/
def TankIsBusy (n : ParcelNo) (items : List DeclaredItem) (s : State) : Prop :=
  ∃ x ∈ items, ∃ h ∈ s.eng.rosterDir, h.station = x.station ∧ h.item = x.item ∧ h.parcel ≠ n ∧
    (∃ e, s.dirFind h.parcel = some e ∧ e.state.isBound = true) ∧ (x.role.isTank = true ∨ h.role.isTank = true)

/-- Fewer entries or slots are free than the declaration has tanks (R37). -/
def LacksSlots (items : List DeclaredItem) (a : AcceptanceUnit) : Prop :=
  (a.entries.filter (fun x => x.isNone)).length < (items.filter (fun x => x.role.isTank)).length ∨
    (a.slots.filter (fun g => g.boundTo.isNone)).length < (items.filter (fun x => x.role.isTank)).length

/-! ## The answers and the notices byte by byte (file 11, 11.5.2 and 11.5.3) -/

/-- A byte from its bits, bit 0 first; a bit that the list does not reach is 0. -/
def bits8 (l : List Bool) : Byte := (BitVec.ofBoolListLE l).setWidth 8

/-- The n bytes of an optional part, zeros when it is absent (11.5.2). -/
def partOr {α : Type} (n : Nat) (x : Option α) (bytes : α → List Byte) : List Byte :=
  (x.map bytes).getD (List.replicate n 0#8)

/-- The codes that these bytes hold: the enumerations of section 11.4, the kinds of R140 and the responses of
section 11.5. -/
def CodesOfTheManual : Prop :=
  ([.declared, .opening, .transfer, .closing, .reconciled, .agreed, .disputed, .lapsed, .void].map ParcelState.code =
      [1#8, 2#8, 3#8, 4#8, 5#8, 6#8, 7#8, 8#8, 9#8]) ∧
    [none, some .cancelled, some .peerRefused, some .check, some .amendRefused].map voidCode =
      [0#8, 1#8, 2#8, 3#8, 4#8] ∧
    [Phase.opening, .start, .stop, .regauge, .cancel, .release].map Phase.code = [0#8, 1#8, 2#8, 3#8, 4#8, 5#8] ∧
    [Verdict.none, .within, .outside].map Verdict.code = [0#8, 1#8, 2#8] ∧
    [VoteStatus.absent, .received, .inconsistent].map VoteStatus.code = [0#8, 1#8, 2#8] ∧
    [Role.shipTank, .shoreTank, .line, .meter].map Role.code = [0#2, 1#2, 2#2, 3#2] ∧
    [Direction.shipToShore, .shoreToShip].map Direction.code = [0#2, 1#2] ∧
    [RefusalReason.form, .notMember, .nodeUnheard, .tankBusy, .tableFull, .noSlots, .assembly].map
      RefusalReason.code = [1#8, 2#8, 3#8, 4#8, 5#8, 6#8, 7#8] ∧
    [Standing.active, .muted, .withdrawn, .duplicate, .unnumbered].map Standing.code = [0#8, 1#8, 2#8, 3#8, 4#8] ∧
    [ResetCause.powerOn, .pin, .supplyLow].map ResetCause.code = [1#8, 2#8, 3#8] ∧
    [Kind.phase, .vote, .request, .snapshot, .declare, .alarm, .lineState, .meter, .gauge, .figure, .presence].map
      Kind.code = [0#5, 1#5, 2#5, 3#5, 4#5, 5#5, 6#5, 7#5, 8#5, 9#5, 10#5] ∧
    [ResponseCode.done, .busy, .range, .unknownParcel, .notNow, .queueFull, .silenced, .unknownCommand, .none].map
      ResponseCode.code = [0#8, 1#8, 2#8, 3#8, 4#8, 5#8, 6#8, 7#8, 8#8]

/-- A declaration in the layout of part 0 (11.2.2, R181): the VEF offset in 17 bits, two's complement, and the node
set in the four station fields, first to last (the places of the nodes are the model's, notes/assumptions/14.md). -/
def part0Layout (d : Declaration) (count : Nat) : List Byte :=
  let offset : BitVec 17 := BitVec.ofInt 17 ((d.vef : Int) - 1000000)
  let nodes : BitVec 24 := d.nodes.getD 0 0#6 ++ d.nodes.getD 1 0#6 ++ d.nodes.getD 2 0#6 ++ d.nodes.getD 3 0#6
  [d.grade, d.direction.code ++ BitVec.ofBool (offset.getLsbD 16) ++ BitVec.ofNat 5 count] ++
    be16 (BitVec.ofNat 16 d.alpha) ++ be16 (BitVec.ofNat 16 d.rho) ++ be16 (offset.setWidth 16) ++
    be16 (BitVec.ofNat 16 d.tolerance) ++ be32 (BitVec.ofNat 32 d.alarmLimit) ++
    be16 (BitVec.ofNat 16 d.persistence) ++ [BitVec.ofNat 8 d.window] ++
    [(nodes >>> 16).setWidth 8, (nodes >>> 8).setWidth 8, nodes.setWidth 8]

/-- The masses of three held volumes, of four bytes each (R60). -/
def massLayout (rho : Nat) (p q w : Word32) : List Byte :=
  let mass (v : Word32) : Word32 :=
    BitVec.ofInt 32 (max (-2147483648) (min (roundDiv (v.toInt * rho) 10000) 2147483647))
  be32 (mass p) ++ be32 (mass q) ++ be32 (mass w)

/-- A peer entry of 18 bytes (11.5.2). -/
def peerLayout (x : PeerEntry) : List Byte :=
  [x.node.setWidth 8,
    bits8 [x.figure.isSome, x.alarm, (x.figure.map PeerFigure.raised).getD false,
      (x.figure.map PeerFigure.complete).getD false]] ++
    partOr 16 x.figure (fun f => be32 f.p ++ be32 f.s ++ be32 f.delta ++ be32 f.arrival)

/-- READ_PARCEL: 183 bytes, of which a parcel in VOID(CHECK), which has no declaration, sends the first four with
values (11.5.2). -/
def parcelLayout (r : ParcelRecord) : List Byte :=
  [r.number.setWidth 8, r.state.code, BitVec.ofNat 8 r.round, voidCode r.voidReason] ++
    partOr 179 r.decl (fun d =>
      [bits8 [true, r.lastPhase.isSome, r.own.isSome, r.running.isSome, r.windowStart.isSome,
          r.alarm.conditionSince.isSome, r.alarm.clearSince.isSome, r.alarm.raised],
        bits8 [r.voteOwed, r.alarmOwed]] ++
      part0Layout d r.roster.length ++ [d.declarer.setWidth 8] ++
      partOr 7 r.lastPhase (fun l => [l.phase.code, l.source.setWidth 8, l.reason] ++ be32 l.arrival) ++
      partOr 23 r.own (fun o => be32 o.p ++ be32 o.s ++ be32 o.delta ++ be32 o.ratio ++ [o.verdict.code] ++
        be16 o.flags ++ be32 o.check) ++
      partOr 17 r.running (fun f => be32 f.p ++ be32 f.s ++ be32 f.delta ++ be32 f.second ++ [bits8 [f.complete]]) ++
      partOr 4 r.windowStart be32 ++ partOr 4 r.alarm.conditionSince be32 ++ partOr 4 r.alarm.clearSince be32 ++
      partOr 12 r.own (fun o => massLayout d.rho o.p o.s o.delta) ++
      partOr 12 r.running (fun f => massLayout d.rho f.p f.s f.delta) ++
      [BitVec.ofNat 8 r.roster.length] ++ (r.peers.flatMap peerLayout ++ List.replicate 72 0#8).take 72)

/-- A record in 12 bytes, zero-filled after its own length (11.2.1, 11.5.2). -/
def recordLayout : Reading → List Byte
  | .tank r => [r.kind, r.seq] ++ be32 r.volume ++ be32 r.water ++ be16 r.temp
  | .line r => [r.kind, r.seq, r.grade] ++ be32 r.fill ++ be16 r.temp ++ [0#8, 0#8, 0#8]
  | .meter r => [r.kind, r.seq] ++ be32 r.totaliser ++ be16 r.temp ++ [0#8, 0#8, 0#8, 0#8]

/-- READ_ROSTER_ITEM: 60 bytes (11.5.2). -/
def rosterItemLayout (n : ParcelNo) (index : Nat) (x : RosterItem) : List Byte :=
  [n.setWidth 8, BitVec.ofNat 8 index, x.station.setWidth 8, x.item.setWidth 8, x.role.code.setWidth 8,
    bits8 [x.latest.isSome, (x.latest.map LatestReading.bad).getD false, x.opening.isSome,
      (x.opening.map OpeningValue.substituted).getD false, x.closing.isSome, x.requestIssued, x.binding.isSome]] ++
    partOr 2 x.binding (fun b => [BitVec.ofNat 8 b.entry, BitVec.ofNat 8 b.slot]) ++
    partOr 20 x.latest (fun l => recordLayout (.tank l.reading) ++ be32 l.arrival ++ partOr 4 l.std be32) ++
    partOr 16 x.opening (fun o => recordLayout o.value.reading ++ be32 o.value.std) ++
    partOr 16 x.closing (fun v => recordLayout v.reading ++ be32 v.std)

/-- READ_VOTES: 3 bytes, and 21 for each entry (11.5.2). -/
def votesLayout (r : ParcelRecord) : List Byte :=
  [r.number.setWidth 8, BitVec.ofNat 8 r.round, BitVec.ofNat 8 r.votes.length] ++
    r.votes.flatMap (fun x => [x.node.setWidth 8, x.status.code] ++
      partOr 19 x.vote (fun v => BitVec.ofNat 8 v.round :: be32 v.check ++ be32 v.p ++ be32 v.s ++ be32 v.ratio ++
        be16 v.flags))

/-- READ_ACCEPTANCE: 11 bytes for each bindable entry (11.5.2, R135). -/
def acceptanceLayout (a : AcceptanceUnit) : List Byte :=
  a.entries.flatMap (fun x => partOr 11 x (fun e =>
    [bits8 [true, (a.slot e.slot).waiting.isSome, (a.slot e.slot).overrun], e.station.setWidth 8, e.item.setWidth 8,
      e.parcel.setWidth 8, BitVec.ofNat 8 e.index, BitVec.ofNat 8 e.slot] ++
    partOr 5 (a.slot e.slot).waiting (fun w => (if 2 ≤ w.payload.length then w.payload.getD 1 0#8 else 0#8) ::
      be32 w.arrival)))

/-- A notice: 12 bytes, its kind, its posting second and the fields f0 to f6, of which the unused ones are 0
(11.5.3). -/
def noticeLayout (x : Notice) : List Byte :=
  let fate (f : FrameFate) : Byte := match f with | .noneOffered => 0#8 | .admitted => 1#8 | .refused => 2#8
  let spelt (kind : Byte) (fields : List Byte) : List Byte :=
    kind :: be32 x.second ++ fields ++ List.replicate (7 - fields.length) 0#8
  match x.body with
  | .parcelState n st round void cause => spelt 1#8 [n.setWidth 8, (st.map ParcelState.code).getD 15#8,
      BitVec.ofNat 8 round, voidCode void, (match cause with | .phase _ => 1#8 | .other => 0#8 | .refusal _ => 0#8),
      (match cause with | .phase reason => reason | .other => 0#8 | .refusal reason => reason)]
  | .alarmRaised n f delta => spelt 2#8 ([n.setWidth 8, fate f] ++ be32 delta)
  | .alarmCleared n f delta => spelt 3#8 ([n.setWidth 8, fate f] ++ be32 delta)
  | .peerAlarm n source raised value => spelt 4#8 ([n.setWidth 8, source.setWidth 8, bits8 [raised]] ++ be32 value)
  | .declareRefused n source reason admitted =>
    spelt 5#8 [n.setWidth 8, source.setWidth 8, reason.code, bits8 [admitted]]
  | .declareConflict n source held => spelt 6#8 [n.setWidth 8, source.setWidth 8, held.code]
  | .standing st tfc rfc heard => spelt 7#8 [st.code, BitVec.ofNat 8 tfc, BitVec.ofNat 8 rfc, heard.setWidth 8]
  | .intakeLost kind n => spelt 8#8 [kind.code.setWidth 8, n.setWidth 8]
  | .intakePressure length => spelt 9#8 [BitVec.ofNat 8 length]
  | .frameDropped cls kind n item => spelt 10#8 [cls.setWidth 8, kind.setWidth 8, n.setWidth 8, item.setWidth 8]
  | .openingMissing n index => spelt 11#8 [n.setWidth 8, BitVec.ofNat 8 index]
  | .restart cause station => spelt 12#8 [cause.code, station.setWidth 8]

end Sys2Proof.Machine
end

