-- ==== Sys2Proof/Certificates/Slice0/Obligations.lean ====
section
/-! DEFINITION. The statements for the provers, one Prop each; OBLIGATIONS.json lists them. -/

open Sys2Proof Sys2Proof.Machine

/-- For every command c, every list of further commands and every state s: a step of s with c at the front of its
queue is exec c on s with the rest of the queue. With an empty queue a step answers the same state. The queue and the
idling are the model's own (notes/assumptions/32.md, notes/assumptions/2.md): the manual describes events. -/
def Obligations.StepRunsTheFrontCommand : Prop :=
  (∀ (c : Instr) (rest : List Instr) (s : State),
    step { s with pending := c :: rest } = exec c { s with pending := rest }) ∧
  ∀ s : State, s.pending = [] → step s = .next s

/-- While the part is held in reset, READY and ATTN are low, and every command other than POWER_ON_RESET, PIN_RESET,
SUPPLY_LOW_RESET, RESET_RELEASE and SUPPLY_BELOW_RETENTION leaves the state as it is, but that PSEL falls and rises
with a port command: a fall in the hold begins no transaction, and the bytes of a port command end with PSEL high. The
bytes of a transaction that a reset cut off do nothing after the release either, and end with PSEL high. That such a
command may be sent at all, and is then without effect, is the model's reading (notes/assumptions/16.md) of: no block
changes state; the field for PSEL is the model's (notes/assumptions/13.md). -/
def Obligations.HeldPartIgnoresCommands : Prop :=
  ∀ (c : Instr) (s : State), isSupplyCommand c = false →
    (s.sup.held = true → s.ready = false ∧ s.attn = false ∧ (bytesOf c = none → exec c s = .next s) ∧
      (bytesOf c = some [] → exec c s = .next { s with port := { s.port with select := .unheeded } })) ∧
    ∀ (kind : Byte) (more : List Byte), bytesOf c = some (kind :: more) →
      s.sup.held = true ∨ s.port.select = .unheeded →
      exec c s = .next { s with port := { s.port with select := .high } }

/-- POWER_ON_RESET holds the part with the cause POWER_ON and every store position empty. PIN_RESET and
SUPPLY_LOW_RESET that cut no write-back short hold it with their own cause, or POWER_ON when the supply was below the
retention level in this hold, and keep the store. SUPPLY_BELOW_RETENTION empties the store and, during a hold, makes
the cause POWER_ON. In the three holds nothing is driven on the line and PDO carries nothing. Nothing else changes:
every register of the other blocks stays until the release. That a fall below retention outside a hold leaves the
cause until the next hold is the model's choice (notes/assumptions/12.md), and so are the fields that say what is
driven (notes/assumptions/21.md). -/
def Obligations.ResetConditionsHoldThePart : Prop :=
  ∀ s : State,
    exec .powerOnReset s = .next { s with
      line := { s.line with driving := none, markDriven := false }
      port := { s.port with pdo := [] }
      store := List.replicate 6 none
      sup := { s.sup with held := true, cause := .powerOn, belowRetention := true } } ∧
    exec (.pinReset none) s = .next { s with
      line := { s.line with driving := none, markDriven := false }
      port := { s.port with pdo := [] }
      sup := { s.sup with held := true, cause := if s.sup.belowRetention then .powerOn else .pin } } ∧
    exec (.supplyLowReset none) s = .next { s with
      line := { s.line with driving := none, markDriven := false }
      port := { s.port with pdo := [] }
      sup := { s.sup with held := true, cause := if s.sup.belowRetention then .powerOn else .supplyLow } } ∧
    exec .supplyBelowRetention s = .next { s with
      store := List.replicate 6 none
      sup := { s.sup with
        belowRetention := true
        cause := if s.sup.held then .powerOn else s.sup.cause } }

/-- PIN_RESET or SUPPLY_LOW_RESET that cuts the service of the arbiter's choice short after some changes of the store,
on a part that is not held: the store holds those changes and no later one, and when the next change is a write-back
that was begun, its position holds a record whose store check differs from the check computed over it; its parcel
number is the one it had, or the number found there when it was empty. The rest of the state is as for a reset that
cut nothing short. Each change is a write-back of one record, with its check, to one position, or the removal of one
number; before the first the store is the one before the service, and after the last it is the one that the whole
service leaves, for each of the five services when the store's changes of no earlier service stand noted. During a
hold no service is in progress. The form of the partly written record and that only a chosen service is cut short are
the model's (notes/assumptions/11.md, notes/assumptions/4.md), and so is the note of the changes
(notes/assumptions/31.md). -/
def Obligations.TornWriteFailsItsCheck : Prop :=
  ∀ (c : ServiceCut) (s : State),
    (s.sup.held = true → exec (.pinReset (some c)) s = exec (.pinReset none) s ∧
      exec (.supplyLowReset (some c)) s = exec (.supplyLowReset none) s) ∧
    (s.sup.held = false → ∃ store,
      exec (.pinReset (some c)) s = exec (.pinReset none) { s with store := store } ∧
      exec (.supplyLowReset (some c)) s = exec (.supplyLowReset none) { s with store := store } ∧
      (c.torn = none ∨ ((storeSteps s)[c.complete]?.bind StoreStep.position) = none →
        store = storeAfter s c.complete) ∧
      ∀ number i x, c.torn = some number → (storeSteps s)[c.complete]? = some x → x.position = some i →
        i < s.store.length →
        ∃ p : StoredParcel, store = (storeAfter s c.complete).set i (some p) ∧
          p.check ≠ storeCheck p.number p.record ∧
          ((storeAfter s c.complete)[i]? = some none → p.number = number) ∧
          ∀ q : StoredParcel, (storeAfter s c.complete)[i]? = some (some q) → p.number = q.number) ∧
    storeAfter s 0 = s.store ∧
    (∀ (k : Nat) (x : StoreStep), (storeSteps s)[k]? = some x → storeAfter s (k + 1) = x.after ∧
      ((∃ i r, x.position = some i ∧ x.after = (storeAfter s k).set i (some (mkStored r))) ∨
        ∃ n, x.position = none ∧ x.after = (storeAfter s k).map (fun p => if storedUnder n p then none else p))) ∧
    ∀ k, (storeSteps s).length ≤ k → s.storeLog = [] → s.sup.held = false →
      (arbiter s = some .checkpoint → ∃ t, exec .checkpoint s = .next t ∧ t.store = storeAfter s k) ∧
      (arbiter s = some .secondDuty → ∃ t, exec .secondDuty s = .next t ∧ t.store = storeAfter s k) ∧
      (∀ e, arbiter s = some (.intake e) → ∃ t, exec .intakeService s = .next t ∧ t.store = storeAfter s k) ∧
      (∀ m, arbiter s = some (.slot m) → ∃ t, exec .gaugeSlotService s = .next t ∧ t.store = storeAfter s k) ∧
      (∀ q, arbiter s = some (.port q) → ∃ t, exec .portRequestService s = .next t ∧ t.store = storeAfter s k)

/-- RESET_RELEASE of a held part, whatever the cause of the reset: the straps are sampled, the standing is ACTIVE, or
UNNUMBERED for station 0 or 63, the fault counts are 0, the outbound queue, the intake queue, both contexts and both
assembly buffers are empty, the listen period runs, every counter is 0, the heard-node set holds the own station
alone, the pending flags are clear, the slot rotation pointer is 23, the seconds counter is 0, the cycle lengths are
those of the CYC strap, the port is IDLE with BUSY clear and READY low, the RESTART notice is the first in the queue
and ATTN is high, and the cause is kept. A PSEL that is low is not taken as the start of a transaction. The queue of
commands is kept. A part that is not held is not changed (the model's choice, notes/assumptions/16.md). The fields for
what is driven, the flag of the window restart and the field for PSEL are the model's (notes/assumptions/21.md,
notes/assumptions/24.md, notes/assumptions/13.md). -/
def Obligations.ReleaseStartsEveryBlock : Prop :=
  ∀ (pins : StrapPins) (s : State),
    (s.sup.held = false → exec (.resetRelease pins) s = .next s) ∧
    (s.sup.held = true → ∃ t, exec (.resetRelease pins) s = .next t ∧
      t.line = { standing := if pins.st = 0#6 ∨ pins.st = 63#6 then .unnumbered else .active
                 tfc := 0, rfc := 0, goodHeard := none, listening := true, outbound := [], driving := none
                 markDriven := false } ∧
      t.tmr = { seconds := 0#32, mark := if pins.cyc then 5#8 else 2#8, space := if pins.cyc then 25#8 else 8#8
                pendingLengths := none, cycle := none, pointer := 0#4, buildsDue := [] } ∧
      t.acc.intake = [] ∧ t.acc.pressure = false ∧
      t.eng.heard = (if pins.st = 0#6 ∨ pins.st = 63#6 then [] else [pins.st]) ∧
      t.eng.w0 = none ∧ t.eng.w1 = none ∧ t.eng.lessRecent = .w0 ∧ t.eng.buf0 = none ∧ t.eng.buf1 = none ∧
      t.eng.dutyPending = false ∧ t.eng.checkpointPending = false ∧ t.eng.slotPointer = 23 ∧
      t.eng.starvation = none ∧ t.eng.windowRestart = (s.sup.cause != .powerOn) ∧
      t.counters = Counters.zero ∧
      t.port.state = .idle ∧ t.port.busy = false ∧ t.port.pdo = [] ∧
      t.port.select = (if s.port.select = .high then .high else .unheeded) ∧
      t.port.notices.head? = some { second := 0#32, body := .restart s.sup.cause pins.st } ∧
      t.sup.held = false ∧ t.sup.cause = s.sup.cause ∧ t.sup.belowRetention = false ∧
      t.sup.straps.station = pins.st ∧ t.sup.straps.listen.seconds = 2 ^ pins.lt.toNat ∧
      t.sup.straps.rate = (if pins.rate then .kbit250 else .kbit125) ∧
      t.sup.straps.policy = (if pins.policy then .closeAfterBurst else .keepOpen) ∧
      t.sup.straps.cycle = (if pins.cyc then .cycleB else .cycleA) ∧
      t.ready = false ∧ t.attn = true ∧ t.pending = s.pending)

/-- RESET_RELEASE of a held part whose cause is POWER_ON, or whose strap station is 0 or 63: both directories are
empty, the 24 bindable entries and the 24 slots are free and empty, and the RESTART notice is alone in its queue. With
POWER_ON every store position is empty; otherwise the store is left as it is. -/
def Obligations.ColdOrUnnumberedReleaseHoldsNoParcel : Prop :=
  ∀ (pins : StrapPins) (s : State), s.sup.held = true →
    s.sup.cause = .powerOn ∨ pins.st = 0#6 ∨ pins.st = 63#6 →
    ∃ t, exec (.resetRelease pins) s = .next t ∧ t.eng.directory = [] ∧ t.eng.rosterDir = [] ∧
      t.acc.entries = List.replicate 24 none ∧
      t.acc.slots = List.replicate 24 { boundTo := none, waiting := none, overrun := false } ∧
      t.port.notices = [{ second := 0#32, body := .restart s.sup.cause pins.st }] ∧
      t.store = (if s.sup.cause = .powerOn then List.replicate 6 none else s.store)

/-- RESET_RELEASE after a warm reset with a station in 1..62, from any store. A position whose number lies outside
1..15, or repeats the number of a lower position, is emptied and no parcel is held for it; every other position in use
keeps its number, and only these numbers are held. Of these: a stored record whose store check matches and whose node
set holds the strap station is held: its directory entry has the stored state, round, window start and owed flags, no
persistence copy, the half-window mark clear and no context, and its stored record is as it was but for
condition-since and clear-since, which are discarded, and for the bindings of its roster tanks. Any other record is
held as VOID(CHECK): its position holds a record of the number and that state alone, with a fresh store check. The
RESTART notice is followed by one PARCEL_STATE notice for each failed number, in ascending order. The roster directory
names the roster items of the records that passed, and no other. The tanks of the passed records in a bound state, in
ascending parcel number and then roster order, take the entries 8, 9, 10 and so on with the slots 0, 1, 2 and so on,
up to 24; each stored item shows its own, every other entry and slot is free, every slot is empty, and the roster of a
record in AGREED or VOID is as it was. That verification and rebinding are part of the release is the model's choice
(notes/assumptions/17.md). -/
def Obligations.WarmReleaseVerifiesTheStore : Prop :=
  ∀ (pins : StrapPins) (s : State), s.sup.held = true → s.sup.cause ≠ .powerOn → pins.st ≠ 0#6 → pins.st ≠ 63#6 →
    let treated : List (Option StoredParcel) := s.store.zipIdx.map (fun x => x.1.filter (fun q =>
      decide (1 ≤ q.number.toNat ∧ q.number.toNat ≤ 15) &&
        !((s.store.take x.2).filterMap id).any (fun y => y.number == q.number)))
    let records := treated.filterMap id
    let passes : StoredParcel → Bool := fun q =>
      q.check == storeCheck q.number q.record && nodeSetHolds pins.st q.record
    let tanks : List (ParcelNo × Nat × RosterItem) := allNumbers.flatMap (fun n =>
      (records.filter (fun q => q.number == byte4 n && passes q && q.record.state.isBound)).flatMap
        (fun q => (q.record.roster.zipIdx.filter (fun x => x.1.role.isTank)).map (fun x => (n, x.2, x.1))))
    ∃ t, exec (.resetRelease pins) s = .next t ∧
      (∀ (k : Nat) (q : StoredParcel), s.store[k]? = some (some q) → treated[k]? = some none →
        t.store[k]? = some none) ∧
      (∀ (k : Nat) (q : StoredParcel), treated[k]? = some (some q) →
        ∃ p : StoredParcel, t.store[k]? = some (some p) ∧ p.number = q.number) ∧
      (∀ n e, t.dirFind n = some e → ∃ q ∈ records, q.number = byte4 n) ∧
      (∀ y, y ∈ t.eng.rosterDir ↔ ∃ q ∈ records, passes q = true ∧ ∃ j x, q.record.roster[j]? = some x ∧
        y = { station := x.station, item := x.item, parcel := q.number.setWidth 4, index := j, role := x.role }) ∧
      t.acc.entries = (List.range 24).map (fun k => tanks[k]?.map (fun x =>
        { station := x.2.2.station, item := x.2.2.item, parcel := x.1, index := x.2.1, slot := k })) ∧
      t.acc.slots = (List.range 24).map (fun k =>
        { boundTo := if k < tanks.length then some (8 + k) else none, waiting := none, overrun := false }) ∧
      (∀ k n j x, tanks[k]? = some (n, j, x) → ∃ p y, t.stored n = some p ∧ p.record.roster[j]? = some y ∧
        y.binding = if k < 24 then some { entry := 8 + k, slot := k } else none) ∧
      t.port.notices = { second := 0#32, body := .restart s.sup.cause pins.st } ::
        (allNumbers.filter (fun n => records.any (fun q => q.number == byte4 n &&
          !(q.check == storeCheck q.number q.record && nodeSetHolds pins.st q.record)))).map
          (fun n => { second := 0#32, body := .parcelState n (some .void) 0 (some .check) .other }) ∧
      ∀ q ∈ records,
        if q.check = storeCheck q.number q.record ∧ nodeSetHolds pins.st q.record = true then
          (∃ e, t.dirFind (q.number.setWidth 4) = some e ∧ e.state = q.record.state ∧ e.round = q.record.round ∧
            e.windowStart = q.record.windowStart ∧ e.voteOwed = q.record.voteOwed ∧
            e.alarmOwed = q.record.alarmOwed ∧ e.persistence = none ∧ e.halfDone = false ∧ e.context = none) ∧
          ∃ p, t.stored (q.number.setWidth 4) = some p ∧ p.check = storeCheck p.number p.record ∧
            (q.record.state.isBound = false → p.record.roster = q.record.roster) ∧
            clearBindings p.record.roster = clearBindings q.record.roster ∧
            p.record = { q.record with
              number := q.number.setWidth 4
              roster := p.record.roster
              alarm := { conditionSince := none, raised := q.record.alarm.raised, clearSince := none } }
        else
          (∃ e, t.dirFind (q.number.setWidth 4) = some e ∧ e.state = .void ∧ e.context = none) ∧
            t.stored (q.number.setWidth 4) = some (mkStored (voidCheckRecord (q.number.setWidth 4)))

/-- FRAME_BROKEN_OFF, FRAME_ABANDONED_ON_LENGTH, and RECEIVE_FRAME of a frame with a length above 20, a bad check or a
form fault, on a released part: RFC rises by 1 up to 255, no mark is driven, TFC and the queue stay, the standing
follows the counts, a change of standing posts STANDING and no other notice is posted, and in WITHDRAWN, or on entry
to it, the count of good frames heard is 0. The frame reaches no other block. The field for the mark is the model's
(notes/assumptions/21.md), and that an attempt in flight stays as it is when a frame is received is the model's choice
(notes/assumptions/25.md). -/
def Obligations.ReceiveFaultsRaiseRfc : Prop :=
  ∀ (f : LineFrame) (s : State), s.sup.held = false → ¬ GoodFrame f →
    ∃ t, exec (.receiveFrame f) s = .next t ∧ exec .frameBrokenOff s = .next t ∧
      exec .frameAbandonedOnLength s = .next t ∧
      t.line = { s.line with
        rfc := min 255 (s.line.rfc + 1)
        markDriven := false
        standing := standingByCounts s.line.standing s.line.tfc (min 255 (s.line.rfc + 1))
        goodHeard :=
          if standingByCounts s.line.standing s.line.tfc (min 255 (s.line.rfc + 1)) = .withdrawn then some 0
          else s.line.goodHeard } ∧
      (t.line.standing ≠ s.line.standing →
        Posted s t (.standing t.line.standing s.line.tfc (min 255 (s.line.rfc + 1)) 0#6)) ∧
      (t.line.standing = s.line.standing → t.port = s.port ∧ t.counters = s.counters) ∧
      t.acc = s.acc ∧ t.eng = s.eng ∧ t.store = s.store ∧ t.tmr = s.tmr ∧ t.sup = s.sup ∧ t.pending = s.pending

/-- RECEIVE_FRAME of a good frame that does not carry the part's own number, on a released part: the mark is driven,
the queue and the attempt in flight stay. Outside WITHDRAWN RFC falls by 1 with a floor of 0, TFC stays, and the
standing follows the counts. In WITHDRAWN RFC falls by 1 and the count of good frames heard rises by 1; when it
reaches 64 the standing becomes ACTIVE, both counts are 0 and the count is discarded. A change of the standing, by the
counts or by that recovery, posts STANDING with the new standing and counts before any other notice, when fewer than
16 wait; that it comes before a notice of the same frame's arrival is the model's reading (notes/assumptions/8.md).
The engine, the store, the timer and the supervisor do not change. That the attempt in flight stays as it is when a
frame of another station is received is the model's choice (notes/assumptions/25.md). -/
def Obligations.GoodFrameOfAnotherStationIsMarked : Prop :=
  ∀ (f : LineFrame) (s : State), s.sup.held = false → GoodFrame f →
    (s.line.standing = .unnumbered ∨ keySource f.key ≠ s.sup.straps.station) →
    ∃ t, exec (.receiveFrame f) s = .next t ∧ t.line.markDriven = true ∧ t.line.outbound = s.line.outbound ∧
      t.line.driving = s.line.driving ∧ t.line.listening = s.line.listening ∧
      (s.line.standing ≠ .withdrawn → t.line.rfc = s.line.rfc - 1 ∧ t.line.tfc = s.line.tfc ∧
        t.line.standing = standingByCounts s.line.standing s.line.tfc (s.line.rfc - 1)) ∧
      (∀ k, s.line.standing = .withdrawn → s.line.goodHeard = some k →
        if 64 ≤ k + 1 then
          t.line.standing = .active ∧ t.line.tfc = 0 ∧ t.line.rfc = 0 ∧ t.line.goodHeard = none
        else
          t.line.standing = .withdrawn ∧ t.line.tfc = s.line.tfc ∧ t.line.rfc = s.line.rfc - 1 ∧
            t.line.goodHeard = some (k + 1)) ∧
      (t.line.standing ≠ s.line.standing → s.port.notices.length < 16 → ∃ l,
        t.port.notices = s.port.notices ++
          { second := s.tmr.seconds, body := .standing t.line.standing t.line.tfc t.line.rfc 0#6 } :: l) ∧
      t.eng = s.eng ∧ t.store = s.store ∧ t.tmr = s.tmr ∧ t.sup = s.sup ∧ t.pending = s.pending

/-- RECEIVE_FRAME of a good frame whose source is the part's own number, on a released part that is not UNNUMBERED:
the standing is DUPLICATE, RFC falls by 1, the frame is marked, TFC stays. On entry the outbound queue is emptied with
no drop and no displacement counted, nothing is in flight, and STANDING is posted with the station heard. In DUPLICATE
already, nothing else of the line changes. The engine, the store, the timer and the supervisor do not change. That
duplicate detection wins over another change of standing in the same event is the model's reading
(notes/assumptions/9.md). -/
def Obligations.OwnNumberHeardMakesDuplicate : Prop :=
  ∀ (f : LineFrame) (s : State), s.sup.held = false → GoodFrame f → s.line.standing ≠ .unnumbered →
    keySource f.key = s.sup.straps.station →
    ∃ t, exec (.receiveFrame f) s = .next t ∧
      (s.line.standing = .duplicate →
        t.line = { s.line with rfc := s.line.rfc - 1, markDriven := true }) ∧
      (s.line.standing ≠ .duplicate →
        t.line = { s.line with
          standing := .duplicate, rfc := s.line.rfc - 1, markDriven := true, outbound := [], driving := none
          goodHeard := none } ∧
        (s.port.notices.length < 16 → ∃ l, t.port.notices = s.port.notices ++
          { second := s.tmr.seconds
            body := .standing .duplicate s.line.tfc (s.line.rfc - 1) s.sup.straps.station } :: l)) ∧
      t.counters.outboundDrops = s.counters.outboundDrops ∧
      t.counters.displacements = s.counters.displacements ∧
      t.eng = s.eng ∧ t.store = s.store ∧ t.tmr = s.tmr ∧ t.sup = s.sup ∧ t.pending = s.pending

/-- RECEIVE_FRAME of a good frame of a kind that a fixed entry takes, on a released part: with fewer than 32 entries
it is appended at the tail with the index of its entry, the arrival second and the own flag clear, and pressure mode
is set if the length reaches 24; with 32 entries the queue and the slots do not change and the intake lost count rises
by 1. INTAKE_PRESSURE is posted on entry to pressure mode, and INTAKE_LOST for a lost frame of class 0..4. The notice
clauses suppose room for two notices, since STANDING may be posted before. -/
def Obligations.ControlFrameJoinsTheIntakeQueue : Prop :=
  ∀ (f : LineFrame) (k : Kind) (i : Nat) (s : State), s.sup.held = false → GoodFrame f →
    keyKind f.key = k.code → fixedIndex k = some i →
    ∃ t, exec (.receiveFrame f) s = .next t ∧
      (s.acc.intake.length < 32 →
        t.acc = { s.acc with
          intake := s.acc.intake ++ [
            { cls := keyClass f.key, kind := k, source := keySource f.key, parcel := keyParcel f.key
              item := keyItem f.key, payload := f.payload, entryIndex := i, arrival := s.tmr.seconds
              own := false }]
          pressure := s.acc.pressure || decide (24 ≤ s.acc.intake.length + 1) } ∧
        t.counters.intakeLost = s.counters.intakeLost) ∧
      (32 ≤ s.acc.intake.length →
        t.acc = s.acc ∧ t.counters.intakeLost = min 65535 (s.counters.intakeLost + 1)) ∧
      (s.acc.pressure = false → s.acc.intake.length = 23 → s.port.notices.length < 15 →
        { second := s.tmr.seconds, body := .intakePressure 24 } ∈ t.port.notices) ∧
      (32 ≤ s.acc.intake.length → keyClass f.key ≤ 4#3 → s.port.notices.length < 15 →
        { second := s.tmr.seconds, body := .intakeLost k (keyParcel f.key) } ∈ t.port.notices)

/-- RECEIVE_FRAME of a good REQUEST, or of a good GAUGE whose source and item no bound entry names, on a released
part: the Acceptance Unit does not change. A good GAUGE whose source and item a bound entry names: the slot of the
first such entry holds the payload with the arrival second; if it was full the reading is replaced, overrun is set and
the slot overruns count rises by 1; the entries, the other slots, the intake queue and pressure mode do not change. -/
def Obligations.GaugeFillsItsSlotAndRequestIsNotTaken : Prop :=
  ∀ (f : LineFrame) (s : State), s.sup.held = false → GoodFrame f →
    ∃ t, exec (.receiveFrame f) s = .next t ∧
      (keyKind f.key = Kind.request.code → t.acc = s.acc) ∧
      (keyKind f.key = Kind.gauge.code →
        (∀ b, some b ∈ s.acc.entries → ¬ (b.station = keySource f.key ∧ b.item = keyItem f.key)) → t.acc = s.acc) ∧
      (∀ b, keyKind f.key = Kind.gauge.code →
        (s.acc.entries.filterMap id).find? (fun x => x.station == keySource f.key && x.item == keyItem f.key) = some b →
        t.acc = { s.acc with
          slots := s.acc.slots.set b.slot { s.acc.slot b.slot with
            waiting := some { payload := f.payload, arrival := s.tmr.seconds }
            overrun := (s.acc.slot b.slot).overrun || (s.acc.slot b.slot).waiting.isSome } } ∧
        t.counters.slotOverruns =
          if (s.acc.slot b.slot).waiting.isSome then min 65535 (s.counters.slotOverruns + 1)
          else s.counters.slotOverruns)

/-- ATTEMPT on a released part whose listen period has ended, with no attempt in flight and no two queued frames of
one key: the frame of the lowest key among those whose class the standing allows goes in flight and is driven with its
frame check, and nothing else changes. -/
def Obligations.AttemptTakesTheLowestKey : Prop :=
  ∀ (q : QueuedFrame) (s : State), s.sup.held = false → s.line.listening = false → s.KeysDistinct →
    (∀ x ∈ s.line.outbound, x.inFlight = false) → q ∈ s.line.outbound →
    Offerable s.line.standing (keyClass q.key) →
    (∀ x ∈ s.line.outbound, Offerable s.line.standing (keyClass x.key) → q.key ≤ x.key) →
    exec .attempt s = .next { s with line := { s.line with
      outbound := s.line.outbound.map (fun x => if x.key = q.key then { x with inFlight := true } else x)
      driving := some
        { key := q.key, payload := q.payload, check := check16 (coveredBytes q.key q.payload) } } }

/-- ATTEMPT on a released part during the listen period, or in WITHDRAWN, DUPLICATE or UNNUMBERED, begins nothing. In
MUTED every frame that an ATTEMPT puts in flight has a class of 0..2. -/
def Obligations.NothingIsOfferedOutOfStanding : Prop :=
  ∀ s : State, s.sup.held = false →
    (s.line.listening = true ∨ s.line.standing = .withdrawn ∨ s.line.standing = .duplicate ∨
      s.line.standing = .unnumbered → exec .attempt s = .next s) ∧
    (s.line.standing = .muted → ∃ t, exec .attempt s = .next t ∧
      ∀ x ∈ t.line.outbound, x.inFlight = true →
        (∃ y ∈ s.line.outbound, y.key = x.key ∧ y.inFlight = true) ∨ keyClass x.key ≤ 2#3)

/-- CONTENTION_LOST on a released part with one attempt in flight, no two queued frames of one key: the part stops
driving and no count changes. The frame stays queued, with a pending payload now its payload; a frame whose withdrawal
waited for the attempt is removed. With no attempt in flight nothing changes. -/
def Obligations.LostContentionKeepsTheFrame : Prop :=
  ∀ s : State, s.sup.held = false →
    ((∀ x ∈ s.line.outbound, x.inFlight = false) → exec .contentionLost s = .next s) ∧
    (∀ q, s.KeysDistinct → s.OnlyFlying q →
      exec .contentionLost s = .next { s with line := { s.line with
        driving := none
        outbound :=
          if q.withdrawn then s.line.outbound.filter (fun x => x.key != q.key)
          else s.line.outbound.map (fun x =>
            if x.key = q.key then
              { x with inFlight := false, payload := x.pendingPayload.getD x.payload, pendingPayload := none }
            else x) } })

/-- ATTEMPT_END carried, on a released part with one attempt in flight, no two queued frames of one key: TFC falls by
1 with a floor of 0, RFC stays, the standing follows the counts, the part stops driving. The frame leaves the queue,
or, with a pending payload and no withdrawal waiting, stays with that payload and no faulted attempt. A frame of a
kind that a fixed entry takes, and of its class, is appended to the intake queue with its old payload and the own flag
set, if fewer than 32 entries wait; at 32 it is lost, the Acceptance Unit stays and the intake lost count rises by 1.
The append that brings the queue to 24 sets pressure mode and posts INTAKE_PRESSURE, and a lost frame of class 0..4
posts INTAKE_LOST (these two clauses suppose room for two notices); a change of the standing posts STANDING before
them (the order is the model's reading, notes/assumptions/8.md). A carried REQUEST is not taken. The engine, the
store, the timer and the supervisor do not change. With no attempt in flight nothing changes. That a frame which stays
queued with its pending payload stays on the Publication Timer's list is the model's reading
(notes/assumptions/15.md). -/
def Obligations.CarriedAttemptLeavesTheQueue : Prop :=
  ∀ s : State, s.sup.held = false →
    ((∀ x ∈ s.line.outbound, x.inFlight = false) → exec (.attemptEnd .carried) s = .next s) ∧
    (∀ q, s.KeysDistinct → s.OnlyFlying q →
      ∃ t, exec (.attemptEnd .carried) s = .next t ∧ t.line.tfc = s.line.tfc - 1 ∧ t.line.rfc = s.line.rfc ∧
        t.line.standing = standingByCounts s.line.standing (s.line.tfc - 1) s.line.rfc ∧ t.line.driving = none ∧
        (q.withdrawn = true ∨ q.pendingPayload = none →
          t.line.outbound = s.line.outbound.filter (fun x => x.key != q.key)) ∧
        (∀ p, q.withdrawn = false → q.pendingPayload = some p →
          t.line.outbound = s.line.outbound.map (fun x =>
            if x.key = q.key then { x with inFlight := false, payload := p, pendingPayload := none, faults := 0 }
            else x)) ∧
        (∀ k i, keyKind q.key = k.code → keyClass q.key = k.cls → fixedIndex k = some i →
            s.acc.intake.length < 32 →
          t.acc.intake = s.acc.intake ++ [
            { cls := keyClass q.key, kind := k, source := keySource q.key, parcel := keyParcel q.key
              item := keyItem q.key, payload := q.payload, entryIndex := i, arrival := s.tmr.seconds
              own := true }] ∧
          t.acc.pressure = (s.acc.pressure || decide (24 ≤ s.acc.intake.length + 1)) ∧
          t.acc.entries = s.acc.entries ∧ t.acc.slots = s.acc.slots ∧
          t.counters.intakeLost = s.counters.intakeLost ∧
          (s.acc.pressure = false → s.acc.intake.length = 23 → s.port.notices.length < 15 →
            { second := s.tmr.seconds, body := .intakePressure 24 } ∈ t.port.notices)) ∧
        (∀ k i, keyKind q.key = k.code → keyClass q.key = k.cls → fixedIndex k = some i →
            32 ≤ s.acc.intake.length →
          t.acc = s.acc ∧ t.counters.intakeLost = min 65535 (s.counters.intakeLost + 1) ∧
          (k.cls ≤ 4#3 → s.port.notices.length < 15 →
            { second := s.tmr.seconds, body := .intakeLost k (keyParcel q.key) } ∈ t.port.notices)) ∧
        (t.line.standing ≠ s.line.standing → s.port.notices.length < 16 → ∃ l,
          t.port.notices = s.port.notices ++
            { second := s.tmr.seconds, body := .standing t.line.standing t.line.tfc t.line.rfc 0#6 } :: l) ∧
        (keyKind q.key = Kind.request.code → keyClass q.key = Kind.request.cls → t.acc = s.acc) ∧
        t.eng = s.eng ∧ t.store = s.store ∧ t.tmr = s.tmr ∧ t.sup = s.sup ∧ t.pending = s.pending)

/-- ATTEMPT_END unheard or mismatch, on a released part with one attempt in flight, no two queued frames of one key
and every faulted-attempt count below 8: TFC rises by 4 up to 255, RFC stays, the standing follows the counts, the
part stops driving. On entry to WITHDRAWN the count of good frames heard is 0. A change of the standing posts STANDING
before any other notice, when fewer than 16 wait (the order is the model's reading, notes/assumptions/8.md). A frame
whose withdrawal waited is removed and no drop is counted. Otherwise its faulted-attempt count rises by 1 and a
pending payload becomes its payload; at the eighth it is dropped, the outbound drops count rises by 1 and
FRAME_DROPPED is posted (the notice clause supposes room for two notices, since STANDING may be posted before).
Nothing is handed to acceptance, and the engine, the store, the timer and the supervisor do not change. -/
def Obligations.FaultedAttemptStaysOrDrops : Prop :=
  ∀ (o : AttemptOutcome) (q : QueuedFrame) (s : State), o ≠ .carried → s.sup.held = false → s.KeysDistinct →
    s.OnlyFlying q → (∀ x ∈ s.line.outbound, x.faults < 8) →
    ∃ t, exec (.attemptEnd o) s = .next t ∧ t.line.tfc = min 255 (s.line.tfc + 4) ∧ t.line.rfc = s.line.rfc ∧
      t.line.standing = standingByCounts s.line.standing (min 255 (s.line.tfc + 4)) s.line.rfc ∧
      t.line.driving = none ∧
      t.line.goodHeard =
        (if t.line.standing = .withdrawn ∧ s.line.standing ≠ .withdrawn then some 0 else s.line.goodHeard) ∧
      (t.line.standing ≠ s.line.standing → s.port.notices.length < 16 → ∃ l,
        t.port.notices = s.port.notices ++
          { second := s.tmr.seconds, body := .standing t.line.standing t.line.tfc t.line.rfc 0#6 } :: l) ∧
      (t.line.standing = s.line.standing → q.withdrawn = true ∨ q.faults < 7 → t.port = s.port) ∧
      (q.withdrawn = true → t.line.outbound = s.line.outbound.filter (fun x => x.key != q.key) ∧
        t.counters.outboundDrops = s.counters.outboundDrops) ∧
      (q.withdrawn = false → q.faults < 7 →
        t.line.outbound = s.line.outbound.map (fun x =>
          if x.key = q.key then
            { x with
              inFlight := false
              payload := x.pendingPayload.getD x.payload
              pendingPayload := none
              faults := q.faults + 1 }
          else x) ∧
        t.counters.outboundDrops = s.counters.outboundDrops) ∧
      (q.withdrawn = false → q.faults = 7 →
        t.line.outbound = s.line.outbound.filter (fun x => x.key != q.key) ∧
        t.counters.outboundDrops = min 65535 (s.counters.outboundDrops + 1) ∧
        (s.port.notices.length < 15 →
          { second := s.tmr.seconds
            body := .frameDropped (keyClass q.key) (keyKind q.key) (keyParcel q.key) (keyItem q.key) } ∈
            t.port.notices)) ∧
      t.acc = s.acc ∧ t.eng = s.eng ∧ t.store = s.store ∧ t.tmr = s.tmr ∧ t.sup = s.sup ∧ t.pending = s.pending

/-- OUTBOUND_DROP on a released part: with no queued frame of eight faulted attempts that is not in flight, nothing
changes; with one such frame, and no two queued frames of one key, it leaves the queue, the outbound drops count rises
by 1 and FRAME_DROPPED is posted. WITHDRAWN_RECOVERY: in WITHDRAWN with a count of good frames heard of 64 or more the
standing becomes ACTIVE, both counts are 0, the count is discarded and STANDING is posted; otherwise nothing changes.
That these two events may be sent alone, beside the event that makes them, is the model's reading
(notes/assumptions/3.md). -/
def Obligations.DropAndRecoveryActOnlyWhenDue : Prop :=
  ∀ s : State, s.sup.held = false →
    ((∀ x ∈ s.line.outbound, ¬ (x.inFlight = false ∧ 8 ≤ x.faults)) → exec .outboundDrop s = .next s) ∧
    (∀ q ∈ s.line.outbound, q.inFlight = false → 8 ≤ q.faults → s.KeysDistinct →
      (∀ x ∈ s.line.outbound, x.inFlight = false ∧ 8 ≤ x.faults → x = q) →
      ∃ t, exec .outboundDrop s = .next t ∧
        t.line = { s.line with outbound := s.line.outbound.filter (fun x => x.key != q.key) } ∧
        t.counters.outboundDrops = min 65535 (s.counters.outboundDrops + 1) ∧
        Posted s t (.frameDropped (keyClass q.key) (keyKind q.key) (keyParcel q.key) (keyItem q.key)) ∧
        t.acc = s.acc ∧ t.eng = s.eng ∧ t.store = s.store ∧ t.tmr = s.tmr ∧ t.sup = s.sup) ∧
    (∀ k, s.line.standing = .withdrawn → s.line.goodHeard = some k → 64 ≤ k →
      ∃ t, exec .withdrawnRecovery s = .next t ∧
        t.line = { s.line with standing := .active, tfc := 0, rfc := 0, goodHeard := none } ∧
        Posted s t (.standing .active 0 0 0#6) ∧
        t.acc = s.acc ∧ t.eng = s.eng ∧ t.store = s.store ∧ t.tmr = s.tmr ∧ t.sup = s.sup) ∧
    (s.line.standing ≠ .withdrawn ∨ (∀ k, s.line.goodHeard = some k → k < 64) →
      exec .withdrawnRecovery s = .next s)

/-- The answer of the outbound queue to one offer, with listed telling whether the offer is the Publication Timer's,
and its effect: SILENCED in DUPLICATE and UNNUMBERED; for a key already queued, replacement of the payload (kept as
pending payload while an attempt is in flight) for FIGURE, PRESENCE and ALARM and BUSY for every other kind; admission
with fewer than 10 frames queued; with 10 or more queued and an offered class of 0..4, displacement of the highest key
among the frames not in flight when its class is 5 or above, the displacements count rising by 1, and QUEUE_FULL
otherwise; QUEUE_FULL for an offered class of 5 or above. In SILENCED, BUSY and QUEUE_FULL nothing changes. -/
def Obligations.OfferIsJudgedInOrder : Prop :=
  ∀ (f : OfferedFrame) (listed : Bool) (s : State),
    ((s.line.standing = .duplicate ∨ s.line.standing = .unnumbered) → offer f listed s = (.silenced, s)) ∧
    (s.line.standing ≠ .duplicate → s.line.standing ≠ .unnumbered →
      (f.key ∈ s.line.outbound.map QueuedFrame.key →
        ((keyKind f.key = Kind.figure.code ∨ keyKind f.key = Kind.presence.code ∨ keyKind f.key = Kind.alarm.code) →
          offer f listed s = (.replaced, { s with line := { s.line with
            outbound := s.line.outbound.map (fun q =>
              if q.key = f.key then
                if q.inFlight then
                  { q with pendingPayload := some f.payload, listed := q.listed || listed }
                else { q with payload := f.payload, listed := q.listed || listed }
              else q) } })) ∧
        (¬ (keyKind f.key = Kind.figure.code ∨ keyKind f.key = Kind.presence.code ∨
            keyKind f.key = Kind.alarm.code) →
          offer f listed s = (.busy, s))) ∧
      (f.key ∉ s.line.outbound.map QueuedFrame.key →
        (s.line.outbound.length < 10 →
          offer f listed s = (.admitted, { s with line := { s.line with
            outbound := s.line.outbound ++ [newQueued f listed] } })) ∧
        (10 ≤ s.line.outbound.length →
          (5#3 ≤ keyClass f.key → offer f listed s = (.queueFull, s)) ∧
          (keyClass f.key ≤ 4#3 →
            ((∀ q ∈ s.line.outbound, q.inFlight = true) → offer f listed s = (.queueFull, s)) ∧
            ∀ h ∈ s.line.outbound, h.inFlight = false →
              (∀ q ∈ s.line.outbound, q.inFlight = false → q.key ≤ h.key) →
              (keyClass h.key ≤ 4#3 → offer f listed s = (.queueFull, s)) ∧
              (5#3 ≤ keyClass h.key →
                offer f listed s = (.displaced, { s with
                  line := { s.line with
                    outbound := s.line.outbound.filter (fun q => q.key != h.key) ++ [newQueued f listed] }
                  counters := { s.counters with
                    displacements := min 65535 (s.counters.displacements + 1) } }))))))

/-- The answer of the outbound queue to a group of frames of different keys, when no two queued frames have one key.
SILENCED in DUPLICATE and UNNUMBERED, BUSY when one of the keys is queued, QUEUE_FULL when the free places and the
queued frames of class 5 or above not in flight do not suffice; in these nothing changes. Otherwise every frame of the
group is added with no faulted attempt, as many frames of class 5 or above not in flight are displaced as places were
missing, those with the highest keys, every other frame stays, and the displacements count rises by 1 for each, up to
65,535. -/
def Obligations.DeclarationPartsAreAdmittedWhole : Prop :=
  ∀ (fs : List OfferedFrame) (s : State), (fs.map OfferedFrame.key).Nodup → s.KeysDistinct →
    ((s.line.standing = .duplicate ∨ s.line.standing = .unnumbered) → offerGroup fs s = (.silenced, s)) ∧
    (s.line.standing ≠ .duplicate → s.line.standing ≠ .unnumbered →
      ((∃ f ∈ fs, f.key ∈ s.line.outbound.map QueuedFrame.key) → offerGroup fs s = (.busy, s)) ∧
      ((∀ f ∈ fs, f.key ∉ s.line.outbound.map QueuedFrame.key) →
        ((10 - s.line.outbound.length) + (s.line.outbound.filter displaceable).length < fs.length →
          offerGroup fs s = (.queueFull, s)) ∧
        (fs.length ≤ (10 - s.line.outbound.length) + (s.line.outbound.filter displaceable).length →
          ∃ kept : List QueuedFrame, kept.Sublist s.line.outbound ∧
            kept.length + (fs.length - (10 - s.line.outbound.length)) = s.line.outbound.length ∧
            (∀ x ∈ s.line.outbound, displaceable x = false → x ∈ kept) ∧
            (∀ x ∈ s.line.outbound, ∀ y ∈ kept, x ∉ kept → displaceable y = true → y.key < x.key) ∧
            offerGroup fs s =
              (if 10 - s.line.outbound.length < fs.length then .displaced else .admitted, { s with
                line := { s.line with outbound := kept ++ fs.map (fun f => newQueued f false) }
                counters := { s.counters with
                  displacements :=
                    if fs.length ≤ 10 - s.line.outbound.length then s.counters.displacements
                    else min 65535
                      (s.counters.displacements + (fs.length - (10 - s.line.outbound.length))) } }))))

/-- SECOND_TICK on a released part: the seconds counter rises by 1 modulo 2^32, the second duty pending flag is set,
and the listen period ends if the new count reaches the listen time. The fault counts, the standing, the attempt in
flight, the rotation pointer, the rest of the engine but the checkpoint flag, the Acceptance Unit, the store, the
port, the supervisor and the counters do not change. -/
def Obligations.SecondTickCountsAndAsksForTheDuty : Prop :=
  ∀ s : State, s.sup.held = false →
    ∃ t, exec .secondTick s = .next t ∧ t.tmr.seconds = s.tmr.seconds + 1 ∧
      t.eng = { s.eng with dutyPending := true, checkpointPending := t.eng.checkpointPending } ∧
      t.line = { s.line with
        listening := s.line.listening &&
          decide ((s.tmr.seconds + 1).toNat < s.sup.straps.listen.seconds)
        outbound := t.line.outbound } ∧
      t.tmr.pointer = s.tmr.pointer ∧ t.acc = s.acc ∧ t.store = s.store ∧ t.port = s.port ∧ t.sup = s.sup ∧
      t.counters = s.counters ∧ t.pending = s.pending

/-- SECOND_TICK on a released part, with now the new count. With no cycle: at the listen time the first cycle starts,
secondary, and before it nothing of the cycle changes; the queue stays. With a cycle that started at c, mark m and
space s: at c + m the frames on the timer's list are withdrawn, those with an attempt in flight when it ends, and the
list is empty; at c + m + s the checkpoint is requested, pending lengths are taken, and the next cycle starts with the
other parity; at any other second the cycle, the lengths, the checkpoint flag and the queue stay. A cycle that starts
in MUTED or WITHDRAWN is quiet and makes no offer; any other waits for its build moment (the list of waiting starts is
the model's, notes/assumptions/6.md). -/
def Obligations.TickMakesTheCycleEventsDue : Prop :=
  ∀ s : State, s.sup.held = false →
    ∃ t, exec .secondTick s = .next t ∧
      (s.tmr.cycle = none →
        t.line.outbound = s.line.outbound ∧ t.eng.checkpointPending = s.eng.checkpointPending ∧
        t.tmr.mark = s.tmr.mark ∧ t.tmr.space = s.tmr.space ∧ t.tmr.pendingLengths = s.tmr.pendingLengths ∧
        ((s.tmr.seconds + 1).toNat < s.sup.straps.listen.seconds →
          t.tmr.cycle = none ∧ t.tmr.buildsDue = s.tmr.buildsDue) ∧
        (s.sup.straps.listen.seconds ≤ (s.tmr.seconds + 1).toNat →
          t.tmr.cycle = some
            { start := s.tmr.seconds + 1, parity := .secondary, quiet := quietStanding s.line.standing } ∧
          t.tmr.buildsDue =
            if s.line.standing = .muted ∨ s.line.standing = .withdrawn then s.tmr.buildsDue
            else s.tmr.buildsDue ++ [.secondary])) ∧
      (∀ c, s.tmr.cycle = some c →
        ((s.tmr.seconds + 1 - c.start).toNat = s.tmr.mark.toNat + s.tmr.space.toNat →
          t.eng.checkpointPending = true ∧ t.tmr.pendingLengths = none ∧
          (t.tmr.mark, t.tmr.space) = s.tmr.pendingLengths.getD (s.tmr.mark, s.tmr.space) ∧
          t.tmr.cycle = some
            { start := s.tmr.seconds + 1
              parity := if c.parity = .secondary then .primary else .secondary
              quiet := quietStanding s.line.standing } ∧
          t.tmr.buildsDue =
            if s.line.standing = .muted ∨ s.line.standing = .withdrawn then s.tmr.buildsDue
            else s.tmr.buildsDue ++ [if c.parity = .secondary then .primary else .secondary]) ∧
        ((s.tmr.seconds + 1 - c.start).toNat ≠ s.tmr.mark.toNat + s.tmr.space.toNat →
          t.eng.checkpointPending = s.eng.checkpointPending ∧ t.tmr.mark = s.tmr.mark ∧
          t.tmr.space = s.tmr.space ∧ t.tmr.pendingLengths = s.tmr.pendingLengths ∧ t.tmr.cycle = s.tmr.cycle ∧
          t.tmr.buildsDue = s.tmr.buildsDue) ∧
        ((s.tmr.seconds + 1 - c.start).toNat = s.tmr.mark.toNat →
          t.line.outbound = (s.line.outbound.filter (fun q => !q.listed || q.inFlight)).map
            (fun q => if q.listed then { q with withdrawn := true, listed := false } else q)) ∧
        ((s.tmr.seconds + 1 - c.start).toNat ≠ s.tmr.mark.toNat → t.line.outbound = s.line.outbound))

/-- On a released part: LISTEN_PERIOD_END ends the listen period if the count has reached the listen time; MARK_END
withdraws the timer's list at c + m; CYCLE_END at c + m + s requests the checkpoint, takes pending lengths and starts
the next cycle; CYCLE_START does the same at c + m + s, and starts the first cycle if none has started and the listen
time is reached. At any other moment each changes nothing. A cycle that starts in MUTED or WITHDRAWN is quiet; any
other start joins the list of starts that wait for their build moment, which is the model's choice
(notes/assumptions/6.md). That these events may be sent alone, beside the tick that makes them, is the model's reading
(notes/assumptions/3.md). -/
def Obligations.CycleCommandsActOnlyWhenDue : Prop :=
  ∀ s : State, s.sup.held = false →
    exec .listenPeriodEnd s = .next (
      if s.sup.straps.listen.seconds ≤ s.tmr.seconds.toNat then
        { s with line := { s.line with listening := false } } else s) ∧
    (s.tmr.cycle = none →
      exec .markEnd s = .next s ∧ exec .cycleEnd s = .next s ∧
      (s.tmr.seconds.toNat < s.sup.straps.listen.seconds → exec .cycleStart s = .next s) ∧
      (s.sup.straps.listen.seconds ≤ s.tmr.seconds.toNat →
        exec .cycleStart s = .next { s with tmr := { s.tmr with
          cycle := some { start := s.tmr.seconds, parity := .secondary, quiet := quietStanding s.line.standing }
          buildsDue :=
            if quietStanding s.line.standing then s.tmr.buildsDue else s.tmr.buildsDue ++ [.secondary] } })) ∧
    (∀ c, s.tmr.cycle = some c →
      exec .markEnd s = .next (
        if (s.tmr.seconds - c.start).toNat = s.tmr.mark.toNat then
          { s with line := { s.line with
            outbound := (s.line.outbound.filter (fun q => !q.listed || q.inFlight)).map
              (fun q => if q.listed then { q with withdrawn := true, listed := false } else q) } }
        else s) ∧
      exec .cycleStart s = exec .cycleEnd s ∧
      exec .cycleEnd s = .next (
        if (s.tmr.seconds - c.start).toNat = s.tmr.mark.toNat + s.tmr.space.toNat then
          { s with
            eng := { s.eng with checkpointPending := true }
            tmr := { s.tmr with
              mark := (s.tmr.pendingLengths.getD (s.tmr.mark, s.tmr.space)).1
              space := (s.tmr.pendingLengths.getD (s.tmr.mark, s.tmr.space)).2
              pendingLengths := none
              cycle := some
                { start := s.tmr.seconds
                  parity := if c.parity = .secondary then .primary else .secondary
                  quiet := quietStanding s.line.standing }
              buildsDue :=
                if quietStanding s.line.standing then s.tmr.buildsDue
                else s.tmr.buildsDue ++ [if c.parity = .secondary then .primary else .secondary] } }
        else s))

/-- BUILD_MOMENT on a released part. With no start waiting nothing changes. With one secondary start waiting the
PRESENCE of the part, with the number of parcels held and the standing, is offered and an admitted frame is on the
timer's list. With one primary start waiting and a parcel chosen by the rotation: the pointer is set to it; in
TRANSFER its FIGURE, and in RECONCILED or AGREED its own VOTE, is offered, built from the working copy if the parcel
is open and the stored copy otherwise; a FIGURE with no running figure held carries zeros, the raised flag and 0; with
no parcel chosen nothing is offered and the pointer stays. Several waiting starts are built one after another, oldest
first. Whatever waits, the engine, the store and the Acceptance Unit do not change. A service that the arbiter chooses
builds the waiting starts at its end: it leaves what BUILD_MOMENT leaves of the same service's next state with those
starts waiting (an engine that falls idle under CLOSE_AFTER_BURST closes its contexts after the build, so there it is
said of a PRESENCE; in every case the list is empty, and the engine, the store and the Acceptance Unit are those of
the service). The list of waiting starts, and that a BUILD_MOMENT with none waiting changes nothing, are the model's
choice (notes/assumptions/6.md). -/
def Obligations.BuildMomentOffersWithoutTouchingTheEngine : Prop :=
  ∀ s : State, s.sup.held = false →
    (∃ t, exec .buildMoment s = .next t ∧ t.eng = s.eng ∧ t.store = s.store ∧ t.acc = s.acc ∧
      t.tmr.buildsDue = [] ∧
      (s.tmr.buildsDue = [] → t = s) ∧
      (s.tmr.buildsDue = [.secondary] →
        t = (offer
          { key := mkKey .presence s.sup.straps.station 0#4 0#6
            payload := [BitVec.ofNat 8 s.eng.directory.length, s.line.standing.code] }
          true { s with tmr := { s.tmr with buildsDue := [] } }).2) ∧
      (s.tmr.buildsDue = [.primary] → chooseParcel s = none → t = { s with tmr := { s.tmr with buildsDue := [] } }) ∧
      (∀ n r f, s.tmr.buildsDue = [.primary] → chooseParcel s = some n → s.recordOf n = some r →
        r.state = .transfer → r.running = some f →
        t = (offer
          { key := mkKey .figure s.sup.straps.station n 0#6
            payload := be32 f.p ++ be32 f.s ++ be32 f.delta ++
              [if r.alarm.raised then 1#8 else 0#8, if f.complete then 1#8 else 0#8] }
          true { s with tmr := { s.tmr with buildsDue := [], pointer := n } }).2) ∧
      (∀ n r, s.tmr.buildsDue = [.primary] → chooseParcel s = some n → s.recordOf n = some r →
        r.state = .transfer → r.running = none →
        t = (offer
          { key := mkKey .figure s.sup.straps.station n 0#6
            payload := List.replicate 12 0#8 ++ [if r.alarm.raised then 1#8 else 0#8, 0#8] }
          true { s with tmr := { s.tmr with buildsDue := [], pointer := n } }).2) ∧
      (∀ p rest, s.tmr.buildsDue = p :: rest →
        ∃ u, exec .buildMoment { s with tmr := { s.tmr with buildsDue := [p] } } = .next u ∧
          exec .buildMoment { u with tmr := { u.tmr with buildsDue := rest } } = .next t) ∧
      (∀ n r o, s.tmr.buildsDue = [.primary] → chooseParcel s = some n → s.recordOf n = some r →
        r.state ≠ .transfer → r.own = some o →
        t = (offer
          { key := mkKey .vote s.sup.straps.station n (BitVec.ofNat 6 r.round)
            payload := [BitVec.ofNat 8 r.round, o.verdict.code] ++ be32 o.p ++ be32 o.s ++ be32 o.ratio ++
              be32 o.check ++ be16 o.flags }
          true { s with tmr := { s.tmr with buildsDue := [], pointer := n } }).2)) ∧
    ∀ (c : Instr) (t₀ : State), s.Serves c → exec c { s with tmr := { s.tmr with buildsDue := [] } } = .next t₀ →
      ∃ t, exec c s = .next t ∧ t.tmr.buildsDue = [] ∧ t.eng = t₀.eng ∧ t.store = t₀.store ∧ t.acc = t₀.acc ∧
        (s.sup.straps.policy = .keepOpen ∨ arbiter t₀ ≠ none ∨ s.tmr.buildsDue = [.secondary] →
          exec .buildMoment { t₀ with tmr := { t₀.tmr with buildsDue := s.tmr.buildsDue } } = .next t)

/-- The parcel that a primary cycle publishes is a held parcel in TRANSFER, RECONCILED or AGREED that comes first in
the order of the numbers after the pointer, wrapping from 15 to 1 and ending at the pointer. None is picked exactly
when no number of 1..15 is held in one of these states. The number 0 is never picked. -/
def Obligations.RotationPicksTheNextParcel : Prop :=
  ∀ s : State,
    let eligible : ParcelNo → Prop := fun n => n ≠ 0#4 ∧ ∃ e, s.dirFind n = some e ∧
      (e.state = .transfer ∨ e.state = .reconciled ∨ e.state = .agreed)
    let place : ParcelNo → Nat := fun n => (n.toNat + 29 - s.tmr.pointer.toNat) % 15
    (∀ n, chooseParcel s = some n ↔ eligible n ∧ ∀ m, eligible m → place n ≤ place m) ∧
      (chooseParcel s = none ↔ ∀ n, ¬ eligible n)

/-- The arbiter's choice, for a rotation pointer in 0..23: a pending checkpoint; else a pending second duty; else a
port request that has moved to place 3; else the head of the intake queue; else, when pressure mode does not hold, the
full slot that comes first after the pointer, wrapping from 23 to 0; else the waiting port request; else nothing. -/
def Obligations.ArbiterTakesTheFirstRequester : Prop :=
  ∀ s : State, s.eng.slotPointer < 24 →
    let place : Nat → Nat := fun n => (n + 23 - s.eng.slotPointer) % 24
    let fullSlot : Nat → Prop := fun n => n < 24 ∧ (s.acc.slot n).waiting.isSome = true
    (s.eng.checkpointPending = true → arbiter s = some .checkpoint) ∧
    (s.eng.checkpointPending = false → s.eng.dutyPending = true → arbiter s = some .secondDuty) ∧
    (∀ r c, s.eng.checkpointPending = false → s.eng.dutyPending = false → s.port.state = .waiting r →
      s.eng.starvation = some c → c.ahead = true → arbiter s = some (.port r)) ∧
    (s.NoneAhead →
      (∀ e rest, s.acc.intake = e :: rest → arbiter s = some (.intake e)) ∧
      (s.acc.intake = [] →
        (∀ n, s.acc.pressure = false → fullSlot n → (∀ m, fullSlot m → place n ≤ place m) →
          arbiter s = some (.slot n)) ∧
        (s.acc.pressure = true ∨ (∀ n, ¬ fullSlot n) →
          (∀ r, s.port.state = .waiting r → arbiter s = some (.port r)) ∧
          ((∀ r, s.port.state ≠ .waiting r) → arbiter s = none))))

/-- SECOND_DUTY, its four parts, CHECKPOINT, BURST_END_CLOSE, STARVATION, INTAKE_SERVICE, GAUGE_SLOT_SERVICE,
PORT_REQUEST_SERVICE and BUILD_MOMENT always answer a next state, and in it the standing, the fault counts, the listen
period, the attempt in flight, the seconds counter, the cycle and its lengths, the straps and the reset cause, PDO,
the BUSY flag, PSEL and the queue of commands are as before. -/
def Obligations.EngineServicesLeaveTheRestAlone : Prop :=
  ∀ (c : Instr) (s : State), isEngineService c = true → ∃ t, exec c s = .next t ∧ SameOutside s t

/-- A CHECKPOINT, SECOND_DUTY, INTAKE_SERVICE or GAUGE_SLOT_SERVICE that the arbiter chooses, on a released part,
raises the starvation count by 1 up to 8, and at 8 the request is in place 3; with no count there is none after.
STARVATION sent alone moves the request to place 3 if the count is 8 and changes nothing else (that it may be sent
alone is the model's reading, notes/assumptions/3.md). None of the four services has an effect when the arbiter does
not choose it (the model's choice, notes/assumptions/5.md). -/
def Obligations.CompletedServiceCountsForThePortRequest : Prop :=
  ∀ s : State, s.sup.held = false →
    let counted := s.starvationCounted
    (arbiter s = some .checkpoint → ∃ t, exec .checkpoint s = .next t ∧ t.eng.starvation = counted) ∧
    (arbiter s = some .secondDuty → ∃ t, exec .secondDuty s = .next t ∧ t.eng.starvation = counted) ∧
    (∀ e, arbiter s = some (.intake e) → ∃ t, exec .intakeService s = .next t ∧ t.eng.starvation = counted) ∧
    (∀ n, arbiter s = some (.slot n) → ∃ t, exec .gaugeSlotService s = .next t ∧ t.eng.starvation = counted) ∧
    exec .starvation s = .next { s with eng := { s.eng with
      starvation := s.eng.starvation.map (fun c => { c with ahead := c.ahead || decide (8 ≤ c.count) }) } } ∧
    (arbiter s ≠ some .checkpoint → exec .checkpoint s = .next s) ∧
    (arbiter s ≠ some .secondDuty → exec .secondDuty s = .next s) ∧
    ((∀ e, arbiter s ≠ some (.intake e)) → exec .intakeService s = .next s) ∧
    ((∀ n, arbiter s ≠ some (.slot n)) → exec .gaugeSlotService s = .next s)

/-- CHECKPOINT on a released part with a checkpoint pending: the flag is clear, both contexts are empty, and the
second duty flag stays. When no directory entry shows an owed VOTE or ALARM, the dirty working copy of each open
parcel, of a number that no other context holds and that has a store position, is the stored record afterwards, with
its store check. Under KEEP_OPEN with no other work waiting, where directory, contexts and store agree: each held
parcel whose directory entry shows an owed frame, in ascending number, retries first its VOTE, if it is owed and the
parcel is in RECONCILED, DISPUTED or LAPSED with an own figure, and then its ALARM, if it is owed; each answer of the
queue sets the owed flag on QUEUE_FULL and SILENCED and clears it otherwise. Afterwards the store holds the record of
every held parcel as it then stands, with a fresh check where it was changed, the directory shows its owed flags and
no context, and nothing is posted. -/
def Obligations.CheckpointClosesBothContexts : Prop :=
  ∀ s : State, s.sup.held = false → s.eng.checkpointPending = true →
    ∃ t, exec .checkpoint s = .next t ∧ t.eng.checkpointPending = false ∧ t.eng.w0 = none ∧ t.eng.w1 = none ∧
      t.eng.dutyPending = s.eng.dutyPending ∧
      ((∀ e ∈ s.eng.directory, e.voteOwed = false ∧ e.alarmOwed = false) →
        ∀ i c, s.eng.context i = some c → c.dirty = true → (s.stored c.record.number).isSome = true →
          (∀ d, s.eng.context (otherContext i) = some d → d.record.number ≠ c.record.number) →
          t.stored c.record.number = some
            { number := byte4 c.record.number, record := c.record
              check := storeCheck (byte4 c.record.number) c.record }) ∧
      (s.Quiet → s.Coherent → s.dirFind 0#4 = none →
        let refused : Answer → Bool := fun a => decide (a = .queueFull ∨ a = .silenced)
        let voteOf : ParcelRecord → OwnFigure → OfferedFrame := fun r o =>
          { key := mkKey .vote s.sup.straps.station r.number (BitVec.ofNat 6 r.round)
            payload := [BitVec.ofNat 8 r.round, o.verdict.code] ++ be32 o.p ++ be32 o.s ++ be32 o.ratio ++
              be32 o.check ++ be16 o.flags }
        let alarmOf : ParcelRecord → OfferedFrame := fun r =>
          { key := mkKey .alarm s.sup.straps.station r.number 0#6
            payload := [0#8, if r.alarm.raised then 1#8 else 0#8] ++
              be32 ((r.running.map RunningFigure.delta).getD 0#32) }
        let retryVote : State × ParcelRecord → State × ParcelRecord := fun x =>
          match x.2.own with
          | some o =>
            if x.2.voteOwed ∧ (x.2.state = .reconciled ∨ x.2.state = .disputed ∨ x.2.state = .lapsed) then
              ((offer (voteOf x.2 o) false x.1).2,
                { x.2 with voteOwed := refused (offer (voteOf x.2 o) false x.1).1 })
            else x
          | none => x
        let retryAlarm : State × ParcelRecord → State × ParcelRecord := fun x =>
          if x.2.alarmOwed then
            ((offer (alarmOf x.2) false x.1).2, { x.2 with alarmOwed := refused (offer (alarmOf x.2) false x.1).1 })
          else x
        let retried : State × List ParcelRecord := allNumbers.foldl (fun x n =>
          match s.recordOf n, s.isHeld n with
          | some r, true =>
            let y := if r.voteOwed || r.alarmOwed then retryAlarm (retryVote (x.1, r)) else (x.1, r)
            (y.1, x.2 ++ [y.2])
          | _, _ => x) (s, [])
        t.line = retried.1.line ∧ t.counters = retried.1.counters ∧ t.port = s.port ∧ t.acc = s.acc ∧
          ∀ r ∈ retried.2, ∃ p e, t.stored r.number = some p ∧ p.record = r ∧
            (s.recordOf r.number ≠ some r → p = mkStored r) ∧ t.dirFind r.number = some e ∧
            e.voteOwed = r.voteOwed ∧ e.alarmOwed = r.alarmOwed ∧ e.context = none)

/-- SECOND_DUTY on a released part with a second duty pending and no checkpoint: its flag is clear, and the restart of
the windows is no longer to come once the listen time has been reached. Under KEEP_OPEN, with no build moment waiting
and no service in progress, when no assembly buffer is 2 s old, the windows are not to be restarted, and no directory
entry has an expired window, a half-window point or a run-out persistence, only the pending flag and the starvation
count change: no parcel is loaded and no recency changes. When the windows are to be restarted, with nothing else due,
directory, contexts and store in agreement and every closing window at least a minute: each held parcel in CLOSING or
RECONCILED has its window start at now, its half-window mark clear and its request issued flags clear, in its record
and in the directory; its state and every other parcel's record stay, nothing is posted and no frame is offered. In
every such state with no parcel held under number 0, whatever is due, the second duty leaves what its parts leave when
they are sent one after the other, each with its write-throughs: ASSEMBLY_TIMEOUT of buffer 0 and then 1, the restart
of the windows when it is due, and for each parcel number in ascending order WINDOW_EXPIRY, HALF_WINDOW_PASS and
PERSISTENCE_RUN_OUT; but that the flag is clear and the service is counted. That its parts may be sent alone is the
model's reading (notes/assumptions/3.md). -/
def Obligations.SecondDutyClearsItsFlag : Prop :=
  ∀ s : State, s.sup.held = false → s.DutyChosen →
    (∃ t, exec .secondDuty s = .next t ∧ t.eng.dutyPending = false ∧
      t.eng.windowRestart = (s.eng.windowRestart && decide (s.tmr.seconds.toNat < s.sup.straps.listen.seconds))) ∧
    (s.Quiet → restartDue s = false →
      (∀ b a, s.eng.buffer b = some a → (s.tmr.seconds - a.second).toNat < 2) →
      (∀ e ∈ s.eng.directory, expiryDue s.tmr.seconds e = false ∧ halfDue s.tmr.seconds e = false ∧
        persistenceDue s.tmr.seconds e = false) →
      exec .secondDuty s = .next { s with eng := { s.eng with
        dutyPending := false, starvation := s.starvationCounted } }) ∧
    (s.Quiet → s.Coherent → restartDue s = true →
      (∀ b a, s.eng.buffer b = some a → (s.tmr.seconds - a.second).toNat < 2) →
      (∀ e ∈ s.eng.directory, persistenceDue s.tmr.seconds e = false) →
      (∀ n r, s.recordOf n = some r → ∀ d, r.decl = some d → 1 ≤ d.window) →
      ∃ t, exec .secondDuty s = .next t ∧ t.eng.windowRestart = false ∧ t.line = s.line ∧ t.acc = s.acc ∧
        t.port = s.port ∧ t.counters = s.counters ∧
        ∀ n e r, n ≠ 0#4 → s.dirFind n = some e → s.recordOf n = some r →
          (r.state = .closing ∨ r.state = .reconciled →
            t.recordOf n = some { r with
              windowStart := some s.tmr.seconds
              roster := r.roster.map (fun x => { x with requestIssued := false }) } ∧
            ∃ d, t.dirFind n = some d ∧ d.windowStart = some s.tmr.seconds ∧ d.halfDone = false ∧ d.state = r.state) ∧
          (r.state ≠ .closing → r.state ≠ .reconciled → t.recordOf n = some r ∧
            ∃ d, t.dirFind n = some d ∧ { d with context := e.context } = e)) ∧
    (s.Quiet → s.Coherent → s.dirFind 0#4 = none →
      ∃ u v, RunsTo [.assemblyTimeout 0, .assemblyTimeout 1] s u ∧ (restartDue s = false → restartWindows u = u) ∧
        RunsTo parcelParts (restartWindows u) v ∧
        exec .secondDuty s = .next { v with
          storeLog := s.storeLog
          eng := { v.eng with dutyPending := false, starvation := s.starvationCounted } })

/-- ASSEMBLY_TIMEOUT of a buffer on a released part when the arbiter chooses the second duty and no service is in
progress. A buffer in use whose part 0 second is at least 2 s past is freed, and the second duty stays pending for its
other parts. Its parcel number not held: the refusal ALARM with the reason ASSEMBLY is offered and DECLARE_REFUSED
posted, with whether the frame was admitted. Under KEEP_OPEN: held in DECLARED, open and stored, with the source as
its declarer, the parcel enters VOID(AMEND_REFUSED), written through, and the same refusal is made; held in DECLARED
of another declarer, or held in any other state, a conflict: its count rises by 1, DECLARE_CONFLICT is posted and no
record, queue or binding changes; held in DECLARED and not open, it acts as after the turnaround that reads the
declarer (notes/assumptions/7.md). The notice order of the void is log 8's. Under KEEP_OPEN, a free buffer or one that
is not due is left with no effect. That the parts of a second duty may be sent one by one is the model's reading
(notes/assumptions/3.md). -/
def Obligations.AssemblyTimeoutFreesTheBuffer : Prop :=
  ∀ (b : Fin 2) (s : State), s.sup.held = false → s.DutyChosen → s.eng.dueWrites = [] →
    ((∀ a, s.eng.buffer b = some a → (s.tmr.seconds - a.second).toNat < 2) → s.sup.straps.policy = .keepOpen →
      exec (.assemblyTimeout b) s = .next s) ∧
    (∀ a, s.eng.buffer b = some a → 2 ≤ (s.tmr.seconds - a.second).toNat →
      (∃ t, exec (.assemblyTimeout b) s = .next t ∧ t.eng.buffer b = none ∧ t.eng.dutyPending = true ∧
        (s.dirFind a.parcel = none →
          let o := offer
            { key := mkKey .alarm s.sup.straps.station a.parcel 1#6
              payload := [1#8, 7#8, 0#8, 0#8, 0#8, 0#8] } false s
          t.line = o.2.line ∧ Posted s t (.declareRefused a.parcel a.source .assembly o.1.isIn))) ∧
      (s.sup.straps.policy = .keepOpen →
        let freed := s.setBuffer b none
        let conflicts (u : State) (held : ParcelState) : Prop := ∃ t, exec (.assemblyTimeout b) s = .next t ∧
          t.eng = u.eng ∧ t.store = s.store ∧ t.acc = s.acc ∧ t.line = s.line ∧
          t.counters.conflicts = min 65535 (s.counters.conflicts + 1) ∧
          Posted s t (.declareConflict a.parcel a.source held)
        (∀ de, s.dirFind a.parcel = some de → de.state ≠ .declared → conflicts freed de.state) ∧
        (∀ de, s.dirFind a.parcel = some de → de.state = .declared →
          ActsAfterTurnaround (.assemblyTimeout b) s a.parcel) ∧
        ∀ i r d de, s.OpenIn a.parcel i r → s.dirFind a.parcel = some de → de.state = .declared →
          r.state = .declared → r.decl = some d →
          (d.declarer ≠ a.source → conflicts (freed.touch i) .declared) ∧
          (d.declarer = a.source → a.parcel ≠ 0#4 → (s.stored a.parcel).isSome = true → r.alarm.raised = false →
            ∃ t, exec (.assemblyTimeout b) s = .next t ∧ t.eng.buf0 = freed.eng.buf0 ∧
              t.eng.buf1 = freed.eng.buf1 ∧ t.acc.intake = s.acc.intake ∧ t.eng.dutyPending = true ∧
              AmendmentVoided s t a.parcel a.source .assembly r)))

/-- WINDOW_EXPIRY of a parcel on a released part, when the arbiter chooses the second duty, no service is in progress
and no restart of the windows is to come, for a parcel open in a context and stored, in CLOSING or RECONCILED, whose
window start is at least the window length past: its state is LAPSED and its window start is gone, everything else of
its record is kept, the directory shows LAPSED with the half-window mark clear, the stored copy is the same record
with its check, PARCEL_STATE is posted and the second duty stays pending. That the part may be sent alone, with the
second duty left pending, is the model's reading (notes/assumptions/3.md). A parcel that is due and not open is opened
first, under KEEP_OPEN. When the parcel is not held, or its window is not due, or the restart is still to come,
nothing changes under KEEP_OPEN. -/
def Obligations.WindowExpiryLapsesTheParcel : Prop :=
  ∀ (n : ParcelNo) (i : ContextId) (r : ParcelRecord) (e : DirEntry) (s : State), s.sup.held = false →
    s.DutyChosen → s.eng.dueWrites = [] →
    (s.sup.straps.policy = .keepOpen →
      (s.dirFind n = none → exec (.windowExpiry n) s = .next s) ∧
      (s.dirFind n = some e →
        (s.eng.windowRestart = true ∨ (e.state ≠ .closing ∧ e.state ≠ .reconciled) ∨ e.windowStart = none ∨
          ∃ w len, e.windowStart = some w ∧ e.windowLength = some len ∧ (s.tmr.seconds - w).toNat < len) →
        exec (.windowExpiry n) s = .next s) ∧
      (s.dirFind n = some e → s.eng.windowRestart = false → expiryDue s.tmr.seconds e = true →
        ActsAfterTurnaround (.windowExpiry n) s n)) ∧
    (∀ w len, s.eng.windowRestart = false → n ≠ 0#4 → s.dirFind n = some e → s.OpenIn n i r →
      (s.stored n).isSome = true →
      e.state = .closing ∨ e.state = .reconciled → e.windowStart = some w → e.windowLength = some len →
      len ≤ (s.tmr.seconds - w).toNat →
      ∃ t, exec (.windowExpiry n) s = .next t ∧
        t.working n = some { r with state := .lapsed, windowStart := none } ∧
        t.stored n = some (mkStored { r with state := .lapsed, windowStart := none }) ∧
        (∃ d, t.dirFind n = some d ∧ d.state = .lapsed ∧ d.round = r.round ∧ d.windowStart = none ∧
          d.halfDone = false) ∧
        Posted s t (.parcelState n (some .lapsed) r.round none .other) ∧ t.line = s.line ∧ t.acc = s.acc ∧
        t.eng.dutyPending = true)

/-- HALF_WINDOW_PASS of a parcel on a released part, when the arbiter chooses the second duty, no service is in
progress and no restart of the windows is to come, for a parcel open in a context and in CLOSING with its mark clear,
its window not expired and at least half run, with at most 16 roster items: one REQUEST for each item without a
closing value whose flag is clear is offered, in roster order, with the item's station and item, the kind 2 and the
round; the answer QUEUE_FULL or SILENCED leaves the item's request issued flag clear, and any other, BUSY among them,
sets it; the mark is done, no notice is posted and the second duty stays pending. In a standing that is not silenced,
from an empty outbound queue with at most 10 items asked for, the queue holds the REQUESTs and every such flag is set.
A parcel that is due and not open is opened first, under KEEP_OPEN. When the parcel is not held, or the restart is
still to come, or the state is another, the mark done, the half not reached or the window expired, nothing changes
under KEEP_OPEN. That the part may be sent alone, with the second duty left pending, is the model's reading
(notes/assumptions/3.md). -/
def Obligations.HalfWindowPassAsksForTheMissing : Prop :=
  ∀ (n : ParcelNo) (e : DirEntry) (s : State), s.sup.held = false → s.DutyChosen → s.eng.dueWrites = [] →
    (s.sup.straps.policy = .keepOpen →
      (s.dirFind n = none → exec (.halfWindowPass n) s = .next s) ∧
      (s.dirFind n = some e →
        s.eng.windowRestart = true ∨ e.state ≠ .closing ∨ e.halfDone = true ∨ e.windowStart = none ∨
          e.windowLength = none ∨
          (∃ w len, e.windowStart = some w ∧ e.windowLength = some len ∧
            ((s.tmr.seconds - w).toNat < len / 2 ∨ len ≤ (s.tmr.seconds - w).toNat)) →
        exec (.halfWindowPass n) s = .next s)) ∧
    ∀ (w : Second) (len : Nat), s.eng.windowRestart = false →
    s.dirFind n = some e → e.state = .closing → e.halfDone = false →
    e.windowStart = some w → e.windowLength = some len → (s.tmr.seconds - w).toNat < len →
    len / 2 ≤ (s.tmr.seconds - w).toNat →
    (s.sup.straps.policy = .keepOpen → ActsAfterTurnaround (.halfWindowPass n) s n) ∧
    ∀ (i : ContextId) (r : ParcelRecord), s.OpenIn n i r → r.state = .closing → r.roster.length ≤ 16 →
      let missing := (List.range r.roster.length).filter (fun k => match r.roster[k]? with
        | some x => x.closing.isNone && !x.requestIssued
        | none => false)
      let request : Nat → OfferedFrame := fun k =>
        { key := mkKey .request s.sup.straps.station n (BitVec.ofNat 6 k)
          payload := (match r.roster[k]? with
            | some x => [byte6 x.station, byte6 x.item, 2#8, BitVec.ofNat 8 r.round]
            | none => []) }
      let asked : State × List Nat := missing.foldl (fun x k =>
        let o := offer (request k) false x.1
        (o.2, if o.1 = .queueFull ∨ o.1 = .silenced then x.2 else x.2 ++ [k])) (s, [])
      ∃ t, exec (.halfWindowPass n) s = .next t ∧ t.line = asked.1.line ∧ t.counters = asked.1.counters ∧
        t.working n = some { r with roster := r.roster.mapIdx (fun k x =>
          if k ∈ asked.2 then { x with requestIssued := true } else x) } ∧
        (∃ d, t.dirFind n = some d ∧ d.halfDone = true ∧ d.state = r.state) ∧ t.port = s.port ∧ t.acc = s.acc ∧
        t.eng.dutyPending = true ∧
        (s.line.standing ≠ .duplicate → s.line.standing ≠ .unnumbered → s.line.outbound = [] →
          missing.length ≤ 10 →
          t.line = { s.line with outbound := missing.map (fun k => newQueued (request k) false) } ∧
          t.counters = s.counters ∧
          t.working n = some { r with
            roster := r.roster.map (fun x => if x.closing.isNone then { x with requestIssued := true } else x) })

/-- PERSISTENCE_RUN_OUT of a parcel on a released part, when the arbiter chooses the second duty and no service is in
progress, for a parcel open in a context and stored, in TRANSFER by its directory entry, whose persistence copy has
run out: the alarm is raised for a run-out condition-since and cleared for a run-out clear-since, both seconds are
discarded, an ALARM DIVERGENCE with the new state and the held Δ_run is offered, ALARM_OWED is set exactly when the
queue refuses it, the notice is posted with the fate of the frame, the record is written through and the second duty
stays pending. A parcel that is not open is opened first, under KEEP_OPEN. When the parcel is not held, or its state
is another, or no second is held or none has run out, nothing changes under KEEP_OPEN. That the part may be sent
alone, with the second duty left pending, is the model's reading (notes/assumptions/3.md). -/
def Obligations.PersistenceRunOutMovesTheAlarm : Prop :=
  ∀ (n : ParcelNo) (e : DirEntry) (s : State), s.sup.held = false → s.DutyChosen → s.eng.dueWrites = [] →
    (s.sup.straps.policy = .keepOpen →
      (s.dirFind n = none → exec (.persistenceRunOut n) s = .next s) ∧
      (s.dirFind n = some e →
        e.state ≠ .transfer ∨ e.persistence = none ∨
          (∃ c, e.persistence = some c ∧ (s.tmr.seconds - c.since).toNat < c.persistence) →
        exec (.persistenceRunOut n) s = .next s)) ∧
    ∀ c : PersistenceCopy, n ≠ 0#4 → s.dirFind n = some e →
    e.state = .transfer → e.persistence = some c → c.persistence ≤ (s.tmr.seconds - c.since).toNat →
    (s.sup.straps.policy = .keepOpen → ActsAfterTurnaround (.persistenceRunOut n) s n) ∧
    ∀ (i : ContextId) (r : ParcelRecord), s.OpenIn n i r → (s.stored n).isSome = true →
    let raised := decide (c.tag = .condition)
    let delta := (r.running.map RunningFigure.delta).getD 0#32
    let o := offer
      { key := mkKey .alarm s.sup.straps.station n 0#6
        payload := [0#8, if raised then 1#8 else 0#8] ++ be32 delta } false s
    let refused := decide (o.1 = .queueFull) || decide (o.1 = .silenced)
    let record := { r with
      alarm := { conditionSince := none, raised := raised, clearSince := none }
      alarmOwed := refused }
    ∃ t, exec (.persistenceRunOut n) s = .next t ∧ t.working n = some record ∧
      t.stored n = some (mkStored record) ∧ t.line = o.2.line ∧
      Posted s t (if raised then .alarmRaised n (if refused then .refused else .admitted) delta
        else .alarmCleared n (if refused then .refused else .admitted) delta) ∧
      t.acc = s.acc ∧ t.eng.dutyPending = true

/-- BURST_END_CLOSE on a released part. Under KEEP_OPEN nothing changes. Under CLOSE_AFTER_BURST each open context
whose parcel the next work does not need is empty afterwards, and its dirty record, of a number that the other context
does not hold and that has a store position, is the stored one with its check; a context whose parcel is needed is
left as it is. The queues, the port, the timer, the counters and the Acceptance Unit do not change. Every service that
the arbiter chooses, and every part of a second duty that it chooses, begins with these closings: it acts as it does
on the state after them, but for the note of the store's changes (the model's, notes/assumptions/31.md). A service
under CLOSE_AFTER_BURST after which no requester waits leaves both contexts empty. That the row, sent alone, goes by
the arbiter's choice in the present state is the model's choice (notes/assumptions/36.md). What a chosen second duty
needs holds two cases that section 6.4 does not settle: that the parcels of the coming window restart count as needed
is the model's choice (notes/assumptions/35.md), and that a held parcel in DECLARED whose assembly timed out does is
the model's reading (notes/assumptions/7.md). -/
def Obligations.BurstEndClosesTheUnneeded : Prop :=
  ∀ s : State, s.sup.held = false →
    (s.sup.straps.policy = .keepOpen → exec .burstEndClose s = .next s) ∧
    (s.sup.straps.policy = .closeAfterBurst → ∃ t, exec .burstEndClose s = .next t ∧
      (∀ i c, s.eng.context i = some c →
        (c.record.number ∈ needs s (arbiter s) → t.eng.context i = some c) ∧
        (c.record.number ∉ needs s (arbiter s) → t.eng.context i = none ∧
          (c.dirty = true → (s.stored c.record.number).isSome = true →
            (∀ d, s.eng.context (otherContext i) = some d → d.record.number ≠ c.record.number) →
            t.stored c.record.number = some
              { number := byte4 c.record.number, record := c.record
                check := storeCheck (byte4 c.record.number) c.record }))) ∧
      t.line = s.line ∧ t.acc = s.acc ∧ t.tmr = s.tmr ∧ t.port = s.port ∧ t.counters = s.counters) ∧
    ∀ c : Instr, (s.Serves c → BeginsWithTheClosings c s) ∧
      (isDutyPart c = true → arbiter s = some .secondDuty → BeginsWithTheClosings c s) ∧
      (s.Serves c → s.sup.straps.policy = .closeAfterBurst →
        ∃ t, exec c s = .next t ∧ (arbiter t = none → t.eng.w0 = none ∧ t.eng.w1 = none))

/-- INTAKE_SERVICE on a released part when the arbiter chooses the intake head: the head is removed, and pressure mode
stays set only while more than 16 entries remain. With no other work waiting under KEEP_OPEN: in UNNUMBERED the
removal is all; a PHASE, VOTE, ALARM or FIGURE whose parcel the part does not hold is removed with no effect and no
counter; a PRESENCE of length 2 puts its source in the heard-node set, and any other PRESENCE has no effect. -/
def Obligations.IntakeServiceRemovesTheHead : Prop :=
  ∀ (e : IntakeEntry) (rest : List IntakeEntry) (s : State), s.sup.held = false → s.NoneAhead →
    s.acc.intake = e :: rest →
    (∃ t, exec .intakeService s = .next t ∧ t.acc.intake = rest ∧
      t.acc.pressure = (s.acc.pressure && decide (16 < rest.length))) ∧
    (s.Quiet →
      (s.line.standing = .unnumbered → exec .intakeService s = .next (s.headTaken rest)) ∧
      (e.entryIndex = 0 ∨ e.entryIndex = 1 ∨ e.entryIndex = 4 ∨ e.entryIndex = 6 → s.dirFind e.parcel = none →
        exec .intakeService s = .next (s.headTaken rest)) ∧
      (e.entryIndex = 7 → e.payload.length ≠ 2 → exec .intakeService s = .next (s.headTaken rest)) ∧
      (e.entryIndex = 7 → e.payload.length = 2 → s.line.standing ≠ .unnumbered →
        ∃ heard, exec .intakeService s = .next { s.headTaken rest with
            eng := { (s.headTaken rest).eng with heard := heard } } ∧
          ∀ m, m ∈ heard ↔ m = e.source ∨ m ∈ s.eng.heard))

/-- INTAKE_SERVICE under KEEP_OPEN with no other work waiting, whose head is a PHASE of good form from a node of an
open, stored parcel. OPEN in DECLARED: OPENING. START in OPENING: each missing opening value is taken from a usable
latest reading, with the substituted flag, and OPENING_MISSING is posted for each item still without one; then
TRANSFER. STOP in TRANSFER: CLOSING, the window start is the arrival second, condition-since and clear-since are
discarded; a raised alarm is cleared, the cleared ALARM with the held Δ_run is offered, ALARM_OWED is set exactly when
the queue refuses it, and ALARM_CLEARED is posted. Each sets the last phase, writes the record through with its check
and posts PARCEL_STATE with the reason; nothing else is offered, and the acceptance table and every other parcel stay.
The notice clauses suppose room in the notice queue. The order of the notices, OPENING_MISSING before the PARCEL_STATE
of START among them, is the model's reading (notes/assumptions/8.md). A PHASE of good form for a parcel that is held
and stored, and not open, acts after the turnaround of the victim: its write-back when dirty, and the load. That a
phase which turns out illegal opens the parcel too is the model's reading (notes/assumptions/7.md). -/
def Obligations.OpenStartAndStopMoveTheParcel : Prop :=
  ∀ (e : IntakeEntry) (rest : List IntakeEntry) (p : Phase) (round reason : Byte) (i : ContextId) (r : ParcelRecord)
      (d : Declaration) (s : State),
    s.HeadChosen e rest → s.Quiet → IsPhaseEntry e p round reason → e.parcel ≠ 0#4 →
    ActsAfterTurnaround .intakeService s e.parcel ∧ (s.OpenIn e.parcel i r →
    (s.stored e.parcel).isSome = true → r.decl = some d → e.source ∈ d.nodes →
    let last := some { phase := p, source := e.source, reason := reason, arrival := e.arrival : LastPhase }
    let opened := r.roster.map (fun x => match x.opening, x.latest with
      | none, some l => (match l.bad, l.std with
        | false, some v =>
          { x with opening := some { value := { reading := .tank l.reading, std := v }, substituted := true } }
        | _, _ => x)
      | _, _ => x)
    let missing := (List.range opened.length).filter (fun k => match opened[k]? with
      | some x => x.opening.isNone
      | none => false)
    let moved (q : ParcelRecord) (notices : List NoticeBody) (line : LineInterface) : Prop :=
      ∃ t, exec .intakeService s = .next t ∧ t.working e.parcel = some q ∧ t.stored e.parcel = some (mkStored q) ∧
        (∃ de, t.dirFind e.parcel = some de ∧ de.state = q.state ∧ de.round = q.round ∧
          de.windowStart = q.windowStart ∧ de.context = some i) ∧
        (s.port.notices.length + notices.length ≤ 16 →
          t.port.notices = s.port.notices ++ notices.map (fun b => { second := s.tmr.seconds, body := b })) ∧
        t.line = line ∧ t.acc = (s.headTaken rest).acc ∧ OthersKept s t e.parcel
    (p = .opening → r.state = .declared →
      moved { r with lastPhase := last, state := .opening }
        [.parcelState e.parcel (some .opening) r.round none (.phase reason)] s.line) ∧
    (p = .start → r.state = .opening →
      moved { r with lastPhase := last, roster := opened, state := .transfer }
        (missing.map (fun k => .openingMissing e.parcel k) ++
          [.parcelState e.parcel (some .transfer) r.round none (.phase reason)]) s.line) ∧
    (p = .stop → r.state = .transfer → r.alarm.raised = false →
      moved { r with
          lastPhase := last, state := .closing, windowStart := some e.arrival
          alarm := { conditionSince := none, raised := false, clearSince := none } }
        [.parcelState e.parcel (some .closing) r.round none (.phase reason)] s.line) ∧
    (p = .stop → r.state = .transfer → r.alarm.raised = true →
      let delta := (r.running.map RunningFigure.delta).getD 0#32
      let o := offer
        { key := mkKey .alarm s.sup.straps.station e.parcel 0#6, payload := [0#8, 0#8] ++ be32 delta } false s
      let refused := decide (o.1 = .queueFull) || decide (o.1 = .silenced)
      moved { r with
          lastPhase := last, state := .closing, windowStart := some e.arrival, alarmOwed := refused
          alarm := { conditionSince := none, raised := false, clearSince := none } }
        [.parcelState e.parcel (some .closing) r.round none (.phase reason),
          .alarmCleared e.parcel (if refused then .refused else .admitted) delta] o.2.line))

/-- INTAKE_SERVICE under KEEP_OPEN with no other work waiting, whose head is a PHASE of good form for an open, stored
parcel. REGAUGE from a node in DISPUTED or LAPSED, with the round field equal to the round, which is below 4: CLOSING
in the next round, closing values, request flags, votes, own figure and VOTE_OWED cleared, the window start at the
arrival second, the own VOTE of the old round withdrawn from the queue. CANCEL from a node, in any state but AGREED
and VOID: VOID(CANCELLED), unbound, with no window start and no VOTE owed; a raised alarm is cleared first, with the
cleared ALARM offered, ALARM_OWED by its answer and ALARM_CLEARED posted. RELEASE from a node in AGREED, DISPUTED,
LAPSED or VOID: removed from both directories and from the store, its context emptied, unbound. From a station that is
no node, in an illegal state, or with the round condition not met: the ignored phases count rises by 1 and the parcel
stays. In VOID(CHECK), which has no declaration, RELEASE from any station removes and any other phase is counted
ignored. A PHASE of bad form for a held parcel is counted ignored. That an ignored phase of good form makes its
context the one used last is the model's reading (notes/assumptions/7.md). The order of the two notices of CANCEL is
the model's reading (notes/assumptions/8.md), and its clause supposes room for both. -/
def Obligations.RegaugeCancelAndReleaseEndARound : Prop :=
  (∀ (e : IntakeEntry) (rest : List IntakeEntry) (p : Phase) (round reason : Byte) (i : ContextId) (r : ParcelRecord)
      (d : Declaration) (s : State),
    s.HeadChosen e rest → s.Quiet → IsPhaseEntry e p round reason → e.parcel ≠ 0#4 → s.OpenIn e.parcel i r →
    (s.stored e.parcel).isSome = true → r.decl = some d →
    let last := some { phase := p, source := e.source, reason := reason, arrival := e.arrival : LastPhase }
    (e.source ∈ d.nodes → p = .regauge → r.state = .disputed ∨ r.state = .lapsed → round.toNat = r.round → r.round < 4 →
      let q := { r with
        lastPhase := last, round := r.round + 1, state := .closing, own := none, voteOwed := false
        windowStart := some e.arrival
        roster := r.roster.map (fun x => { x with closing := none, requestIssued := false })
        votes := r.votes.map (fun v => { v with status := .absent, vote := none }) }
      let key := mkKey .vote s.sup.straps.station e.parcel (BitVec.ofNat 6 r.round)
      ∃ t, exec .intakeService s = .next t ∧ t.working e.parcel = some q ∧ t.stored e.parcel = some (mkStored q) ∧
        t.line = { s.line with
          outbound := (s.line.outbound.filter (fun x => x.key != key || x.inFlight)).map
            (fun x => if x.key = key then { x with withdrawn := true } else x) } ∧
        (∃ de, t.dirFind e.parcel = some de ∧ de.state = .closing ∧ de.round = r.round + 1 ∧ de.halfDone = false) ∧
        Posted s t (.parcelState e.parcel (some .closing) (r.round + 1) none (.phase reason)) ∧
        t.acc = (s.headTaken rest).acc ∧ OthersKept s t e.parcel) ∧
    (e.source ∈ d.nodes → p = .cancel → r.state ∈ legalStates .cancel → r.alarm.raised = false →
      let q := { r with
        lastPhase := last, state := .void, voidReason := some .cancelled, windowStart := none, voteOwed := false
        alarm := { conditionSince := none, raised := false, clearSince := none }
        roster := r.roster.map (fun x => { x with binding := none }) }
      ∃ t, exec .intakeService s = .next t ∧ t.working e.parcel = some q ∧ t.stored e.parcel = some (mkStored q) ∧
        Unbound s t e.parcel ∧ t.acc.intake = rest ∧
        Posted s t (.parcelState e.parcel (some .void) r.round (some .cancelled) (.phase reason)) ∧
        t.line = s.line ∧ OthersKept s t e.parcel) ∧
    (e.source ∈ d.nodes → p = .cancel → r.state ∈ legalStates .cancel → r.alarm.raised = true →
      let delta := (r.running.map RunningFigure.delta).getD 0#32
      let o := offer
        { key := mkKey .alarm s.sup.straps.station e.parcel 0#6, payload := [0#8, 0#8] ++ be32 delta } false s
      let refused := decide (o.1 = .queueFull) || decide (o.1 = .silenced)
      let q := { r with
        lastPhase := last, state := .void, voidReason := some .cancelled, windowStart := none, voteOwed := false
        alarmOwed := refused
        alarm := { conditionSince := none, raised := false, clearSince := none }
        roster := r.roster.map (fun x => { x with binding := none }) }
      ∃ t, exec .intakeService s = .next t ∧ t.working e.parcel = some q ∧ t.stored e.parcel = some (mkStored q) ∧
        Unbound s t e.parcel ∧ t.acc.intake = rest ∧ t.line = o.2.line ∧ OthersKept s t e.parcel ∧
        (s.port.notices.length + 2 ≤ 16 → t.port.notices = s.port.notices ++ [
          { second := s.tmr.seconds
            body := .alarmCleared e.parcel (if refused then .refused else .admitted) delta },
          { second := s.tmr.seconds
            body := .parcelState e.parcel (some .void) r.round (some .cancelled) (.phase reason) }])) ∧
    (e.source ∈ d.nodes → p = .release → r.state ∈ legalStates .release →
      ∃ t, exec .intakeService s = .next t ∧ t.dirFind e.parcel = none ∧ t.stored e.parcel = none ∧
        (∀ x ∈ t.eng.rosterDir, x.parcel ≠ e.parcel) ∧ t.eng.context i = none ∧
        Unbound s t e.parcel ∧ t.acc.intake = rest ∧
        Posted s t (.parcelState e.parcel none r.round none (.phase reason)) ∧
        t.line = s.line ∧ OthersKept s t e.parcel) ∧
    (e.source ∉ d.nodes ∨ r.state ∉ legalStates p ∨ p = .regauge ∧ (round.toNat ≠ r.round ∨ 4 ≤ r.round) →
      exec .intakeService s = .next { s.headTaken rest with
        eng := { (s.headTaken rest).eng with lessRecent := otherContext i }
        counters := { s.counters with ignoredPhases := min 65535 (s.counters.ignoredPhases + 1) } })) ∧
  (∀ (e : IntakeEntry) (rest : List IntakeEntry) (p : Phase) (round reason : Byte) (i : ContextId) (r : ParcelRecord)
      (s : State),
    s.HeadChosen e rest → s.Quiet → IsPhaseEntry e p round reason → e.parcel ≠ 0#4 → s.OpenIn e.parcel i r →
    (s.stored e.parcel).isSome = true → r.decl = none →
    (p = .release → r.state ∈ legalStates .release →
      ∃ t, exec .intakeService s = .next t ∧ t.dirFind e.parcel = none ∧ t.stored e.parcel = none ∧
        (∀ x ∈ t.eng.rosterDir, x.parcel ≠ e.parcel) ∧ t.eng.context i = none ∧
        Unbound s t e.parcel ∧ t.acc.intake = rest ∧
        Posted s t (.parcelState e.parcel none r.round none (.phase reason)) ∧
        t.line = s.line ∧ OthersKept s t e.parcel) ∧
    (p ≠ .release ∨ r.state ∉ legalStates .release →
      exec .intakeService s = .next { s.headTaken rest with
        eng := { (s.headTaken rest).eng with lessRecent := otherContext i }
        counters := { s.counters with ignoredPhases := min 65535 (s.counters.ignoredPhases + 1) } })) ∧
  ∀ (e : IntakeEntry) (rest : List IntakeEntry) (s : State),
    s.HeadChosen e rest → s.Quiet → e.entryIndex = 0 → s.isHeld e.parcel = true →
    (¬ ∃ p round reason, IsPhaseEntry e p round reason) →
    exec .intakeService s = .next { s.headTaken rest with
      counters := { s.counters with ignoredPhases := min 65535 (s.counters.ignoredPhases + 1) } }

/-- INTAKE_SERVICE under KEEP_OPEN with no other work waiting, whose head is a VOTE of good form for an open, stored
parcel. From a station that is no node, from the own number without the own flag, or of another round: the ignored
votes count rises by 1. Else, outside CLOSING, RECONCILED and DISPUTED: the late records count rises by 1. Else an
ABSENT entry of the source becomes RECEIVED with the vote's values, a RECEIVED one with another check becomes
INCONSISTENT with its values kept, and any other case changes nothing. After a change: DISPUTED if an entry is
INCONSISTENT in CLOSING or RECONCILED; in RECONCILED with every entry RECEIVED, AGREED (unbound, no VOTE owed) on
equal checks and DISPUTED otherwise; else the state stays. AGREED and DISPUTED clear the window start, write the
record through and post PARCEL_STATE. The flags of a vote are stored with their unused bits 15..5 as 0. A VOTE for a
parcel in VOID(CHECK), which has no declaration, and a VOTE of bad form for a held parcel are counted ignored. A VOTE
of good form for a parcel that is not open acts after the turnaround. That an ignored, late or repeated vote makes its
context the one used last is the model's reading (notes/assumptions/7.md). -/
def Obligations.VotesDecideTheParcel : Prop :=
  (∀ (e : IntakeEntry) (rest : List IntakeEntry) (v : VoteData) (i : ContextId) (r : ParcelRecord) (d : Declaration)
      (s : State),
    s.HeadChosen e rest → s.Quiet → IsVoteEntry e v → e.parcel ≠ 0#4 →
    ActsAfterTurnaround .intakeService s e.parcel ∧ (s.OpenIn e.parcel i r →
    (s.stored e.parcel).isSome = true → r.decl = some d →
    let used := { (s.headTaken rest).eng with lessRecent := otherContext i }
    let votes := r.votes.map (fun x =>
      if x.node = e.source then
        (match x.status, x.vote with
        | .absent, _ => { x with status := .received, vote := some v }
        | .received, some w => if w.check = v.check then x else { x with status := .inconsistent }
        | _, _ => x)
      else x)
    let odd := ∃ x ∈ votes, x.status = .inconsistent
    let full := ∀ x ∈ votes, x.status = .received
    let same := ∀ x ∈ votes, ∀ y ∈ votes, x.vote.map VoteData.check = y.vote.map VoteData.check
    let ended (q : ParcelRecord) : Prop := ∃ t, exec .intakeService s = .next t ∧ t.working e.parcel = some q ∧
      t.stored e.parcel = some (mkStored q) ∧
      (∃ de, t.dirFind e.parcel = some de ∧ de.state = q.state ∧ de.windowStart = none ∧ de.halfDone = false) ∧
      Posted s t (.parcelState e.parcel (some q.state) r.round none .other) ∧ t.line = s.line ∧
      t.acc.intake = rest ∧ (q.state = .agreed → Unbound s t e.parcel) ∧
      (q.state = .disputed → t.acc = (s.headTaken rest).acc) ∧ OthersKept s t e.parcel
    let judged := e.source ∈ d.nodes ∧ (e.source = s.sup.straps.station → e.own = true) ∧ v.round = r.round
    (¬ judged → exec .intakeService s = .next { s.headTaken rest with
      eng := used
      counters := { s.counters with ignoredVotes := min 65535 (s.counters.ignoredVotes + 1) } }) ∧
    (judged → r.state ≠ .closing → r.state ≠ .reconciled → r.state ≠ .disputed →
      exec .intakeService s = .next { s.headTaken rest with
        eng := used
        counters := { s.counters with lateRecords := min 65535 (s.counters.lateRecords + 1) } }) ∧
    (judged → r.state = .closing ∨ r.state = .reconciled ∨ r.state = .disputed →
      (votes = r.votes → exec .intakeService s = .next { s.headTaken rest with eng := used }) ∧
      (votes ≠ r.votes → odd → r.state = .closing ∨ r.state = .reconciled →
        ended { r with votes := votes, state := .disputed, windowStart := none }) ∧
      (votes ≠ r.votes → full → r.state = .reconciled → ¬ same →
        ended { r with votes := votes, state := .disputed, windowStart := none }) ∧
      (votes ≠ r.votes → full → r.state = .reconciled → same →
        ended { r with
          votes := votes, state := .agreed, windowStart := none, voteOwed := false
          roster := r.roster.map (fun x => { x with binding := none }) }) ∧
      (votes ≠ r.votes → r.state = .disputed ∨ (¬ odd ∧ (r.state = .reconciled → ¬ full)) →
        ∃ t, exec .intakeService s = .next t ∧ t.working e.parcel = some { r with votes := votes } ∧
          t.store = s.store ∧ t.port = s.port ∧ t.line = s.line ∧ t.acc = (s.headTaken rest).acc ∧
          OthersKept s t e.parcel)))) ∧
  (∀ (e : IntakeEntry) (rest : List IntakeEntry) (v : VoteData) (i : ContextId) (r : ParcelRecord) (s : State),
    s.HeadChosen e rest → s.Quiet → IsVoteEntry e v → s.OpenIn e.parcel i r → r.decl = none →
    exec .intakeService s = .next { s.headTaken rest with
      eng := { (s.headTaken rest).eng with lessRecent := otherContext i }
      counters := { s.counters with ignoredVotes := min 65535 (s.counters.ignoredVotes + 1) } }) ∧
  ∀ (e : IntakeEntry) (rest : List IntakeEntry) (s : State),
    s.HeadChosen e rest → s.Quiet → e.entryIndex = 1 → s.isHeld e.parcel = true → (¬ ∃ v, IsVoteEntry e v) →
    exec .intakeService s = .next { s.headTaken rest with
      counters := { s.counters with ignoredVotes := min 65535 (s.counters.ignoredVotes + 1) } }

/-- INTAKE_SERVICE under KEEP_OPEN with no other work waiting, whose head is a SNAPSHOT, LINE STATE or METER record of
good form, not BAD, for the one roster item that holds its source and item, of a fitting role, in an open, stored
parcel in a bound state. Kind 1 in OPENING: the opening value, not substituted, if none is held or its sequence number
is 1..127 ahead, and one stale reading otherwise. Kind 2 in CLOSING: one unusable record with no opening value held;
the closing value if none is held or its number is ahead, and one stale reading otherwise. Any other state: one late
record. When the new closing value leaves no item without a value, the own figure is computed, the parcel enters
RECONCILED, its VOTE is offered, VOTE_OWED is set exactly when the queue refuses it, and the record is written
through; that a BUSY answer, for a VOTE of the same key that a removed parcel left, clears it is the model's choice
(notes/assumptions/27.md), for R84's table gives BUSY at an owed retry alone. A BAD record counts one unusable record.
A record that no roster item holds counts one unusable record, and one that only parcels in AGREED or VOID hold counts
one late record. Of a bad form, or of a role it does not fit, it counts one unusable record for each bound holder.
When two bound parcels hold it, both open in OPENING and with nothing newer held, both take the opening value. The
form for one holder that is not open acts after the turnaround. That a late, stale or unusable record of good form
makes its context the one used last is the model's reading (notes/assumptions/7.md). -/
def Obligations.RecordsBecomeOpeningAndClosingValues : Prop :=
  (∀ (e : IntakeEntry) (rest : List IntakeEntry) (h : RosterEntry) (x : RosterItem) (rec : Reading) (i : ContextId)
      (r : ParcelRecord) (d : Declaration) (de : DirEntry) (s : State),
    s.HeadChosen e rest → s.Quiet → e.entryIndex = 2 ∨ e.entryIndex = 5 → h.parcel ≠ 0#4 →
    s.eng.rosterDir.filter (fun y => y.station == e.source && y.item == e.item) = [h] →
    s.dirFind h.parcel = some de → de.state.isBound = true → roleFits e.kind h.role = true →
    recordForm e.kind e.payload = some rec →
    ActsAfterTurnaround .intakeService s h.parcel ∧ (s.OpenIn h.parcel i r → (s.stored h.parcel).isSome = true →
    r.decl = some d → r.roster[h.index]? = some x →
    let ahead (held : Option Byte) : Prop :=
      ∀ q, held = some q → 1 ≤ (rec.seq - q).toNat ∧ (rec.seq - q).toNat ≤ 127
    let value := { reading := rec, std := holdU (rec.exact d) : Value }
    let counted (c : Counters) : Prop := exec .intakeService s = .next { s.headTaken rest with
      eng := { (s.headTaken rest).eng with lessRecent := otherContext i }, counters := c }
    let kept (q : ParcelRecord) : Prop := ∃ t, exec .intakeService s = .next t ∧ t.working h.parcel = some q ∧
      t.store = s.store ∧ t.port = s.port ∧ t.line = s.line ∧ t.counters = s.counters ∧
      t.acc = (s.headTaken rest).acc ∧ OthersKept s t h.parcel
    let late := { s.counters with lateRecords := min 65535 (s.counters.lateRecords + 1) }
    let stale := { s.counters with staleReadings := min 65535 (s.counters.staleReadings + 1) }
    (rec.isBad d.alpha = true →
      counted { s.counters with unusableRecords := min 65535 (s.counters.unusableRecords + 1) }) ∧
    (rec.isBad d.alpha = false → rec.kind = 1#8 →
      (r.state ≠ .opening → counted late) ∧
      (r.state = .opening → ¬ ahead (x.opening.map (fun o => o.value.reading.seq)) → counted stale) ∧
      (r.state = .opening → ahead (x.opening.map (fun o => o.value.reading.seq)) →
        kept { r with roster :=
          r.roster.set h.index { x with opening := some { value := value, substituted := false } } })) ∧
    (rec.isBad d.alpha = false → rec.kind = 2#8 →
      (r.state ≠ .closing → counted late) ∧
      (r.state = .closing → x.opening = none →
        counted { s.counters with unusableRecords := min 65535 (s.counters.unusableRecords + 1) }) ∧
      (r.state = .closing → x.opening ≠ none → ¬ ahead (x.closing.map (fun c => c.reading.seq)) → counted stale) ∧
      (r.state = .closing → x.opening ≠ none → ahead (x.closing.map (fun c => c.reading.seq)) →
        let roster := r.roster.set h.index { x with closing := some value }
        let own := ownFigure h.parcel r.round d roster
        let o := offer
          { key := mkKey .vote s.sup.straps.station h.parcel (BitVec.ofNat 6 r.round)
            payload := [BitVec.ofNat 8 r.round, own.verdict.code] ++ be32 own.p ++ be32 own.s ++ be32 own.ratio ++
              be32 own.check ++ be16 own.flags } false s
        let q := { r with
          roster := roster, own := some own, state := .reconciled
          voteOwed := decide (o.1 = .queueFull ∨ o.1 = .silenced) }
        ((∃ y ∈ roster, y.opening = none ∨ y.closing = none) → kept { r with roster := roster }) ∧
        ((∀ y ∈ roster, y.opening ≠ none ∧ y.closing ≠ none) →
          ∃ t, exec .intakeService s = .next t ∧ t.working h.parcel = some q ∧
            t.stored h.parcel = some (mkStored q) ∧ t.line = o.2.line ∧
            Posted s t (.parcelState h.parcel (some .reconciled) r.round none .other) ∧
            t.acc = (s.headTaken rest).acc ∧ OthersKept s t h.parcel))))) ∧
  (∀ (e : IntakeEntry) (rest : List IntakeEntry) (s : State),
    s.HeadChosen e rest → s.Quiet → e.entryIndex = 2 ∨ e.entryIndex = 5 →
    let holders := s.eng.rosterDir.filter (fun y => y.station == e.source && y.item == e.item)
    let bound := holders.filter (fun h => h.parcel != 0#4 &&
      (match s.dirFind h.parcel with | some de => de.state.isBound | none => false))
    let counted (c : Counters) : Prop := exec .intakeService s = .next { s.headTaken rest with counters := c }
    (holders = [] →
      counted { s.counters with unusableRecords := min 65535 (s.counters.unusableRecords + 1) }) ∧
    (holders ≠ [] → bound = [] →
      counted { s.counters with lateRecords := min 65535 (s.counters.lateRecords + 1) }) ∧
    (bound ≠ [] → (∀ h ∈ bound, recordForm e.kind e.payload = none ∨ roleFits e.kind h.role = false) →
      counted { s.counters with unusableRecords := min 65535 (s.counters.unusableRecords + bound.length) })) ∧
  ∀ (e : IntakeEntry) (rest : List IntakeEntry) (rec : Reading) (h₁ h₂ : RosterEntry) (i : ContextId)
      (r₁ r₂ : ParcelRecord) (d₁ d₂ : Declaration) (x₁ x₂ : RosterItem) (s : State),
    s.HeadChosen e rest → s.Quiet → e.entryIndex = 2 ∨ e.entryIndex = 5 → h₁.parcel ≠ 0#4 → h₁.parcel < h₂.parcel →
    (s.eng.rosterDir.filter (fun y => y.station == e.source && y.item == e.item) = [h₁, h₂] ∨
      s.eng.rosterDir.filter (fun y => y.station == e.source && y.item == e.item) = [h₂, h₁]) →
    roleFits e.kind h₁.role = true → roleFits e.kind h₂.role = true → recordForm e.kind e.payload = some rec →
    rec.kind = 1#8 → s.OpenIn h₁.parcel i r₁ → s.OpenIn h₂.parcel (otherContext i) r₂ →
    (∃ e₁ e₂, s.dirFind h₁.parcel = some e₁ ∧ s.dirFind h₂.parcel = some e₂ ∧ e₁.state = .opening ∧
      e₂.state = .opening) → r₁.state = .opening → r₂.state = .opening →
    r₁.decl = some d₁ → r₂.decl = some d₂ → r₁.roster[h₁.index]? = some x₁ → r₂.roster[h₂.index]? = some x₂ →
    rec.isBad d₁.alpha = false → rec.isBad d₂.alpha = false → x₁.opening = none → x₂.opening = none →
    let taken (r : ParcelRecord) (h : RosterEntry) (x : RosterItem) (d : Declaration) : ParcelRecord := { r with
      roster := r.roster.set h.index { x with
        opening := some { value := { reading := rec, std := holdU (rec.exact d) }, substituted := false } } }
    ∃ t, exec .intakeService s = .next t ∧ t.working h₁.parcel = some (taken r₁ h₁ x₁ d₁) ∧
      t.working h₂.parcel = some (taken r₂ h₂ x₂ d₂) ∧ t.eng.lessRecent = i ∧ t.store = s.store ∧ t.port = s.port ∧
      t.line = s.line ∧ t.counters = s.counters ∧ t.acc = (s.headTaken rest).acc

/-- INTAKE_SERVICE under KEEP_OPEN with no other work waiting, whose head is a FIGURE or an ALARM without the own
flag, for an open, stored parcel, from another node of its node set. A FIGURE of subject item 0 and of good form
becomes the peer running figure of its source, with the arrival second, and posts nothing. An ALARM DIVERGENCE sets
the peer alarm of its source, posts PEER_ALARM and writes the record through. A DECLARE_REFUSED ALARM moves a parcel
in DECLARED, OPENING, TRANSFER, CLOSING or RECONCILED to VOID(PEER_REFUSED), unbound, with the reason in its notice,
and leaves it in any other state; a raised alarm is cleared with no frame offered, ALARM_OWED stays, and ALARM_CLEARED
is posted before it (the order is the model's reading, notes/assumptions/8.md; the clause supposes room). For a parcel
that is held and stored, and not open, each of the three acts after the turnaround. A frame that carries the own flag,
or is of none of the three forms, is removed with no other effect and opens nothing; for an open parcel, a FIGURE or
an ALARM DIVERGENCE from a station outside the node set or of the own number, a refusal from outside the node set, and
any of the three for a parcel with no declaration, change no record, queue, notice or count. That such a frame, and a
refusal with no effect, opens the parcel or makes its context the one used last is the model's reading
(notes/assumptions/7.md). -/
def Obligations.PeerFramesEnterThePeerData : Prop :=
  ∀ (e : IntakeEntry) (rest : List IntakeEntry) (i : ContextId) (r : ParcelRecord) (d : Declaration) (s : State),
    s.HeadChosen e rest → s.Quiet → e.parcel ≠ 0#4 →
    let figureForm := e.entryIndex = 6 ∧ e.item = 0#6 ∧ ∃ (p q w : Word32) (raised complete : Bool),
      e.payload = be32 p ++ be32 q ++ be32 w ++ [if raised then 1#8 else 0#8, if complete then 1#8 else 0#8]
    let divergenceForm := e.entryIndex = 4 ∧ e.item = 0#6 ∧ ∃ (raised : Bool) (w : Word32),
      e.payload = [0#8, if raised then 1#8 else 0#8] ++ be32 w
    let refusalForm := e.entryIndex = 4 ∧ e.item = 1#6 ∧ ∃ (reason : Byte) (w : Word32),
      e.payload = [1#8, reason] ++ be32 w
    let ofForm := figureForm ∨ divergenceForm ∨ refusalForm
    let touched := { s.headTaken rest with eng := { (s.headTaken rest).eng with lessRecent := otherContext i } }
    (e.entryIndex = 6 ∨ e.entryIndex = 4 → e.own = true ∨ ¬ ofForm →
      exec .intakeService s = .next (s.headTaken rest)) ∧
    (e.own = false → ofForm → ActsAfterTurnaround .intakeService s e.parcel) ∧
    (e.own = false → s.OpenIn e.parcel i r →
      (r.decl = none → ofForm → exec .intakeService s = .next touched) ∧
      (r.decl = some d →
        (figureForm ∨ divergenceForm → e.source ∉ d.nodes ∨ e.source = s.sup.straps.station →
          exec .intakeService s = .next touched) ∧
        (refusalForm → e.source ∉ d.nodes → exec .intakeService s = .next touched))) ∧
    (e.own = false → s.OpenIn e.parcel i r →
    (s.stored e.parcel).isSome = true → r.decl = some d → e.source ∈ d.nodes → e.source ≠ s.sup.straps.station →
    (∀ (p q w : Word32) (raised complete : Bool), e.entryIndex = 6 → e.item = 0#6 →
      e.payload = be32 p ++ be32 q ++ be32 w ++ [if raised then 1#8 else 0#8, if complete then 1#8 else 0#8] →
      ∃ t, exec .intakeService s = .next t ∧
        t.working e.parcel = some { r with peers := r.peers.map (fun x => if x.node = e.source then
          { x with figure := some { p := p, s := q, delta := w, raised := raised, complete := complete
                                    arrival := e.arrival } }
          else x) } ∧
        t.port = s.port ∧ t.line = s.line ∧ t.counters = s.counters ∧ t.acc = (s.headTaken rest).acc ∧
        OthersKept s t e.parcel) ∧
    (∀ (raised : Bool) (w : Word32), e.entryIndex = 4 → e.item = 0#6 →
      e.payload = [0#8, if raised then 1#8 else 0#8] ++ be32 w →
      let q := { r with peers := r.peers.map (fun x => if x.node = e.source then { x with alarm := raised } else x) }
      ∃ t, exec .intakeService s = .next t ∧ t.working e.parcel = some q ∧ t.stored e.parcel = some (mkStored q) ∧
        Posted s t (.peerAlarm e.parcel e.source raised w) ∧ t.line = s.line ∧ t.acc = (s.headTaken rest).acc ∧
        OthersKept s t e.parcel) ∧
    (∀ (reason : Byte) (w : Word32), e.entryIndex = 4 → e.item = 1#6 → e.payload = [1#8, reason] ++ be32 w →
      (r.state = .agreed ∨ r.state = .disputed ∨ r.state = .lapsed ∨ r.state = .void →
        exec .intakeService s = .next touched) ∧
      (r.state = .declared ∨ r.state = .opening ∨ r.state = .transfer ∨ r.state = .closing ∨ r.state = .reconciled →
        let q := { r with
          state := .void, voidReason := some .peerRefused, windowStart := none, voteOwed := false
          alarm := { conditionSince := none, raised := false, clearSince := none }
          roster := r.roster.map (fun x => { x with binding := none }) }
        ∃ t, exec .intakeService s = .next t ∧ t.working e.parcel = some q ∧ t.stored e.parcel = some (mkStored q) ∧
          Unbound s t e.parcel ∧
          (r.alarm.raised = false →
            Posted s t (.parcelState e.parcel (some .void) r.round (some .peerRefused) (.refusal reason))) ∧
          (r.alarm.raised = true → s.port.notices.length + 2 ≤ 16 → t.port.notices = s.port.notices ++ [
            { second := s.tmr.seconds
              body := .alarmCleared e.parcel .noneOffered ((r.running.map RunningFigure.delta).getD 0#32) },
            { second := s.tmr.seconds
              body := .parcelState e.parcel (some .void) r.round (some .peerRefused) (.refusal reason) }]) ∧
          t.line = s.line ∧ OthersKept s t e.parcel)))

/-- INTAKE_SERVICE under KEEP_OPEN with no other work waiting, whose head is a DECLARE. Subject 0 or a part above 2:
removed. Part 0: no effect when its length is not 20; not a member: the buffer of the source and number is freed; else
that buffer restarts, or one of another source makes a conflict, or the lower free buffer opens, or with both in use
the assembly fails. An item count outside 2..16 completes at once and fails FORM. Part 1 or 2: with no buffer of its
source, a conflict or no effect; out of order or of a wrong length, the buffer is freed and the assembly fails; part 1
of 11..16 items is collected; the last part completes, with 2..16 items, and frees the buffer. Completed, not held,
all checks passed, with a store position free and the number not stored: the victim context is emptied, its dirty
record written back, and it holds the parcel in DECLARED with the record of acceptance, its tanks bound in roster
order, its roster directory entries made, stored with its check, PARCEL_STATE posted; a check fails: refused with its
reason. Held in DECLARED, open, of the same declarer: its tanks are unbound, then the record is replaced as at
acceptance, or enters VOID(AMEND_REFUSED) and is refused; an assembly that fails voids it so too, and one of a number
not held is refused with ASSEMBLY. In DECLARED and not open: as after the turnaround. Held otherwise: conflict, which
raises its count and with a held number posts DECLARE_CONFLICT. A refusal offers the ALARM and posts DECLARE_REFUSED
with whether it was admitted. The checks are FORM, NOT_MEMBER, NODE_UNHEARD, TANK_BUSY, TABLE_FULL and NO_SLOTS, the
first that fails deciding. A parcel in DECLARED is opened to read its declarer (notes/assumptions/7.md); the notice
order of an amendment is log 8's. -/
def Obligations.CompletedDeclarationIsJudged : Prop :=
  (∀ (e : IntakeEntry) (rest : List IntakeEntry) (s : State), s.HeadChosen e rest → s.Quiet → e.entryIndex = 3 →
    let plain := s.headTaken rest
    let conflict := { plain with counters := { s.counters with conflicts := min 65535 (s.counters.conflicts + 1) } }
    (e.parcel = 0#4 ∨ 2 < e.item.toNat → exec .intakeService s = .next plain) ∧
    (e.parcel ≠ 0#4 → e.item = 0#6 →
      (e.payload.length ≠ 20 → exec .intakeService s = .next plain) ∧
      ∀ p, parsePart0 e.payload = some p →
        let fresh : Assembly :=
          { source := e.source, parcel := e.parcel, part0 := p, second := e.arrival, nextPart := 1, items := [] }
        (s.sup.straps.station ∉ p.nodes →
          (∀ b, s.eng.bufferFor e.source e.parcel = some b → exec .intakeService s = .next (plain.setBuffer b none)) ∧
          (s.eng.bufferFor e.source e.parcel = none → exec .intakeService s = .next plain)) ∧
        (s.sup.straps.station ∈ p.nodes → s.eng.bufferFor e.source e.parcel = none →
          (∃ a, (s.eng.buf0 = some a ∨ s.eng.buf1 = some a) ∧ a.parcel = e.parcel) →
          exec .intakeService s = .next conflict) ∧
        (s.sup.straps.station ∈ p.nodes → s.eng.bufferFor e.source e.parcel = none →
          (∀ a, s.eng.buf0 = some a ∨ s.eng.buf1 = some a → a.parcel ≠ e.parcel) →
          s.eng.buf0 ≠ none → s.eng.buf1 ≠ none → AssemblyFails s plain e rest) ∧
        ∀ b : Fin 2, s.sup.straps.station ∈ p.nodes →
          s.eng.bufferFor e.source e.parcel = some b ∨
            (s.eng.bufferFor e.source e.parcel = none ∧
              (∀ a, s.eng.buf0 = some a ∨ s.eng.buf1 = some a → a.parcel ≠ e.parcel) ∧
              (if s.eng.buf0 = none then b = 0 else s.eng.buf1 = none ∧ b = 1)) →
          (2 ≤ p.count → p.count ≤ 16 → exec .intakeService s = .next (plain.setBuffer b (some fresh))) ∧
          (p.count < 2 ∨ 16 < p.count → validate e.source e.parcel p [] s = some .form ∧
            DeclarationCompletes s (plain.setBuffer b none) e rest p [])) ∧
    (e.parcel ≠ 0#4 → e.item = 1#6 ∨ e.item = 2#6 →
      (s.eng.bufferFor e.source e.parcel = none →
        ((∃ a, (s.eng.buf0 = some a ∨ s.eng.buf1 = some a) ∧ a.parcel = e.parcel) →
          exec .intakeService s = .next conflict) ∧
        ((∀ a, s.eng.buf0 = some a ∨ s.eng.buf1 = some a → a.parcel ≠ e.parcel) →
          exec .intakeService s = .next plain)) ∧
      ∀ b a, s.eng.bufferFor e.source e.parcel = some b → s.eng.buffer b = some a →
        let items := a.items ++ parseItems e.payload
        let freed := plain.setBuffer b none
        (¬ IsNextPart e a → AssemblyFails s freed e rest) ∧
        (IsNextPart e a → a.nextPart = 1 → a.items = [] → 11 ≤ a.part0.count → a.part0.count ≤ 16 →
          exec .intakeService s = .next (plain.setBuffer b (some { a with items := items, nextPart := 2 }))) ∧
        (IsLastPart e a → DeclarationCompletes s freed e rest a.part0 items))) ∧
  ∀ (source : Station) (n : ParcelNo) (p : Part0) (items : List DeclaredItem) (s : State),
    let v := validate source n p items s
    let unheard := ∃ m ∈ p.nodes, m ∉ s.eng.heard
    let full := s.dirFind n = none ∧ 6 ≤ s.eng.directory.length
    let c₁ := FormPasses p items
    let c₂ := source ∈ p.nodes
    (v = some .form ↔ ¬ c₁) ∧ (v = some .notMember ↔ c₁ ∧ ¬ c₂) ∧ (v = some .nodeUnheard ↔ c₁ ∧ c₂ ∧ unheard) ∧
      (v = some .tankBusy ↔ c₁ ∧ c₂ ∧ ¬ unheard ∧ TankIsBusy n items s) ∧
      (v = some .tableFull ↔ c₁ ∧ c₂ ∧ ¬ unheard ∧ ¬ TankIsBusy n items s ∧ full) ∧
      (v = some .noSlots ↔ c₁ ∧ c₂ ∧ ¬ unheard ∧ ¬ TankIsBusy n items s ∧ ¬ full ∧ LacksSlots items s.acc) ∧
      (v = none ↔ c₁ ∧ c₂ ∧ ¬ unheard ∧ ¬ TankIsBusy n items s ∧ ¬ full ∧ ¬ LacksSlots items s.acc)

/-- GAUGE_SLOT_SERVICE on a released part when the arbiter chooses slot m: the slot is empty with overrun clear, the
rotation pointer is m, and the rest of the Acceptance Unit stays. Under KEEP_OPEN with no other work waiting, for a
bound slot: a payload of a wrong length or temperature counts one unusable record. A good reading for an open parcel
whose sequence number is not 1..127 ahead of the latest reading counts one stale reading. Otherwise it is the latest
reading with its arrival second, and with no standard volume when BAD; outside TRANSFER that is all. In TRANSFER the
running figure is evaluated; when every tank counts, condition-since and clear-since follow the divergence condition,
and the alarm stays while no persistence has run out; one that runs out at the evaluation raises or clears the alarm,
with the ALARM offered, ALARM_OWED by its answer, its notice posted and the record written through. A good reading for
a parcel that is held and stored, and not open, acts after the turnaround. That a reading of bad form opens no parcel
and that a stale reading makes its context the one used last are the model's reading (notes/assumptions/7.md). -/
def Obligations.SlotServiceStoresTheReading : Prop :=
  ∀ (m : Nat) (s : State), s.sup.held = false → arbiter s = some (.slot m) →
    let emptied := { s.acc with slots := s.acc.slots.set m { s.acc.slot m with waiting := none, overrun := false } }
    (∃ t, exec .gaugeSlotService s = .next t ∧ t.acc = emptied ∧ t.eng.slotPointer = m) ∧
    ∀ (b : BoundEntry) (w : WaitingReading), s.Quiet → s.slotBinding m = some b → (s.acc.slot m).waiting = some w →
      (routineForm w.payload = none → exec .gaugeSlotService s = .next { s with
        acc := emptied
        eng := { s.eng with slotPointer := m, starvation := s.starvationCounted }
        counters := { s.counters with unusableRecords := min 65535 (s.counters.unusableRecords + 1) } }) ∧
      ∀ rd : TankReading, routineForm w.payload = some rd → ActsAfterTurnaround .gaugeSlotService s b.parcel ∧
      ∀ (i : ContextId) (r : ParcelRecord) (d : Declaration) (x : RosterItem), s.OpenIn b.parcel i r →
        r.decl = some d → r.roster[b.index]? = some x →
        let ahead := ∀ l, x.latest = some l → 1 ≤ (rd.seq - l.reading.seq).toNat ∧ (rd.seq - l.reading.seq).toNat ≤ 127
        let latest := { reading := rd, arrival := w.arrival, bad := rd.isBad d.alpha
                        std := if rd.isBad d.alpha then none else some (holdU (rd.exact d.alpha)) : LatestReading }
        let q := { r with roster := r.roster.set b.index { x with latest := some latest } }
        let run := runningFigure d q.roster s.tmr.seconds
        let diverges := d.alarmLimit < ((runningExact d q.roster).1 - (runningExact d q.roster).2).natAbs
        let alarm := if r.alarm.raised then
            { r.alarm with clearSince := if diverges then none else some (r.alarm.clearSince.getD s.tmr.seconds) }
          else
            { r.alarm with
              conditionSince := if diverges then some (r.alarm.conditionSince.getD s.tmr.seconds) else none }
        let kept (q : ParcelRecord) : Prop := ∃ t, exec .gaugeSlotService s = .next t ∧
          t.working b.parcel = some q ∧ t.store = s.store ∧ t.port = s.port ∧ t.line = s.line ∧
          t.counters = s.counters ∧ OthersKept s t b.parcel
        (¬ ahead → exec .gaugeSlotService s = .next { s with
          acc := emptied
          eng := { s.eng with
            slotPointer := m, starvation := s.starvationCounted, lessRecent := otherContext i }
          counters := { s.counters with staleReadings := min 65535 (s.counters.staleReadings + 1) } }) ∧
        (ahead → r.state ≠ .transfer → kept q) ∧
        (ahead → r.state = .transfer → run.complete = false → kept { q with running := some run }) ∧
        (ahead → r.state = .transfer → run.complete = true →
          (∀ c, persistenceCopy { q with alarm := alarm } = some c →
            (s.tmr.seconds - c.since).toNat < c.persistence) →
          kept { q with running := some run, alarm := alarm }) ∧
        (∀ c, ahead → r.state = .transfer → run.complete = true → b.parcel ≠ 0#4 →
          (s.stored b.parcel).isSome = true → persistenceCopy { q with alarm := alarm } = some c →
          c.persistence ≤ (s.tmr.seconds - c.since).toNat →
          let raised := decide (c.tag = .condition)
          let o := offer
            { key := mkKey .alarm s.sup.straps.station b.parcel 0#6
              payload := [0#8, if raised then 1#8 else 0#8] ++ be32 run.delta } false s
          let refused := decide (o.1 = .queueFull) || decide (o.1 = .silenced)
          let z := { q with
            running := some run
            alarm := { conditionSince := none, raised := raised, clearSince := none }
            alarmOwed := refused }
          ∃ t, exec .gaugeSlotService s = .next t ∧ t.working b.parcel = some z ∧
            t.stored b.parcel = some (mkStored z) ∧ t.line = o.2.line ∧
            Posted s t (if raised then .alarmRaised b.parcel (if refused then .refused else .admitted) run.delta
              else .alarmCleared b.parcel (if refused then .refused else .admitted) run.delta) ∧
            OthersKept s t b.parcel)

/-- PORT_REQUEST_SERVICE on a released part when the arbiter chooses the waiting request: the port is ANSWERED and the
starvation count is discarded. A read or drop of a number that is not held is answered UNKNOWN_PARCEL. READ_ACCEPTANCE
is answered with 11 bytes for each bindable entry, 264 for 24, in the layout of section 11.5.2. Under KEEP_OPEN with
no other work waiting, a read of a held, stored parcel, whose open working copy is first closed with its write-back,
is answered from the stored record: READ_PARCEL with 183 bytes; READ_ROSTER_ITEM with 60 bytes, or RANGE for an index
that the roster does not have; READ_VOTES with 3 bytes and 21 for each entry; each byte of them as the layout of
section 11.5.2 has it, with the codes of section 11.4, and an absent part as zeros. The parcel is then not open, and
the line and the Acceptance Unit stay. The places of the node fields in READ_PARCEL are the model's
(notes/assumptions/14.md). -/
def Obligations.PortRequestIsAnswered : Prop :=
  CodesOfTheManual ∧ ∀ (q : EngineRequest) (s : State), s.sup.held = false → arbiter s = some (.port q) →
    (∃ t a, exec .portRequestService s = .next t ∧ t.port.state = .answered a ∧ t.eng.starvation = none ∧
      (∀ b k, q = .readParcel b ∨ q = .readRosterItem b k ∨ q = .readVotes b ∨ q = .dropParcel b →
        (∀ n, n ≠ 0#4 → n.setWidth 8 = b → s.dirFind n = none) → a = { code := .unknownParcel, fields := [] }) ∧
      (q = .readAcceptance → a.code = .done ∧ a.fields = acceptanceLayout s.acc ∧
        a.fields.length = 11 * s.acc.entries.length)) ∧
    ∀ (n : ParcelNo) (de : DirEntry) (r : ParcelRecord) (b k : Byte), s.Quiet → n ≠ 0#4 → b = n.setWidth 8 →
      s.dirFind n = some de →
      ((de.context = none ∧ ∃ p, s.stored n = some p ∧ p.record = r) ∨
        (∃ i p c, s.OpenIn n i c.record ∧ s.eng.context i = some c ∧ c.dirty = false ∧ s.stored n = some p ∧
          p.record = r) ∨
        (s.stored n).isSome = true ∧ ∃ i, s.OpenIn n i r ∧ s.eng.context i = some { record := r, dirty := true }) →
      q = .readParcel b ∨ q = .readRosterItem b k ∨ q = .readVotes b →
      ∃ t a, exec .portRequestService s = .next t ∧ t.port = { s.port with state := .answered a } ∧
        t.working n = none ∧ (∃ p, t.stored n = some p ∧ p.record = r) ∧ t.line = s.line ∧ t.acc = s.acc ∧
        (q = .readParcel b → a.code = .done ∧ a.fields = parcelLayout r ∧ a.fields.length = 183) ∧
        (q = .readVotes b → a.code = .done ∧ a.fields = votesLayout r ∧ a.fields.length = 3 + 21 * r.votes.length) ∧
        (q = .readRosterItem b k →
          (∀ x, r.roster[k.toNat]? = some x →
            a = { code := .done, fields := rosterItemLayout r.number k.toNat x } ∧ a.fields.length = 60) ∧
          (r.roster.length ≤ k.toNat → a = { code := .range, fields := [] }))

/-- PORT_REQUEST_SERVICE under KEEP_OPEN with no other work waiting, for a waiting DROP_PARCEL of a held parcel. In
AGREED, DISPUTED, LAPSED or VOID: the answer is DONE and the parcel is removed from both directories and from the
store, unbound, with PARCEL_STATE REMOVED; the outbound queue and every other parcel stay. In any other state the
answer is NOT_NOW and nothing else changes. -/
def Obligations.DropParcelRemovesOrAnswersNotNow : Prop :=
  ∀ (n : ParcelNo) (de : DirEntry) (s : State), s.sup.held = false →
    arbiter s = some (.port (.dropParcel (n.setWidth 8))) → s.Quiet → n ≠ 0#4 → s.dirFind n = some de →
    (∀ i, de.context = some i → ∃ c, s.eng.context i = some c ∧ c.record.number = n) →
    (de.state = .agreed ∨ de.state = .disputed ∨ de.state = .lapsed ∨ de.state = .void →
      ∃ t, exec .portRequestService s = .next t ∧ t.port.state = .answered { code := .done, fields := [] } ∧
        t.dirFind n = none ∧ t.stored n = none ∧ (∀ x ∈ t.eng.rosterDir, x.parcel ≠ n) ∧ Unbound s t n ∧
        Posted s t (.parcelState n none de.round none .other) ∧ t.line = s.line ∧ OthersKept s t n) ∧
    (de.state ≠ .agreed → de.state ≠ .disputed → de.state ≠ .lapsed → de.state ≠ .void →
      exec .portRequestService s = .next { s with
        port := { s.port with state := .answered { code := .notNow, fields := [] } }
        eng := { s.eng with starvation := none } })

/-- On a released part, with the status byte READY, ATTN, OUTSTANDING, BUSY and four zeros from the top. A fall of
PSEL alone begins a transaction with the present status. A command that sends bytes, in a transaction that no reset
cut off, returns the status at the fall of PSEL, which is the present one when it is sent whole, and ends with PSEL
high. A status poll returns the status and then zeros; it clears BUSY and changes nothing else. A FETCH of one byte
does the same. A longer FETCH decides by the port state at byte 1, also when it differs from that at the fall: in
ANSWERED it returns after the status the response code, the field count in two bytes and the fields, as many as are
clocked and then zeros, and the port is IDLE; in IDLE and WAITING it returns the code NONE, 8, and zeros, and the port
state stays. So a FETCH sends a response that is placed after the fall of PSEL and before byte 1, though byte 0 showed
READY clear. That the fall can be a command of its own, a STATUS_POLL of no byte, is the model's choice
(notes/assumptions/13.md), and so is the field of the bytes last returned (notes/assumptions/21.md). -/
def Obligations.PollsAndFetchesReturnTheBuffer : Prop :=
  ∀ s : State, s.sup.held = false →
    let present : Byte := BitVec.ofBool s.ready ++ BitVec.ofBool s.attn ++ BitVec.ofBool s.outstanding ++
      BitVec.ofBool s.port.busy ++ 0#4
    exec (.statusPoll []) s = .next { s with port := { s.port with pdo := [], select := .low present } } ∧
    ∀ status : Byte, (s.port.select = .high ∧ status = present) ∨ s.port.select = .low status →
      (∀ sent, isStatusPoll sent = true → exec (.statusPoll sent) s = .next { s with port := { s.port with
        busy := false
        pdo := status :: List.replicate (sent.length - 1) 0#8
        select := .high } }) ∧
      exec (.fetch []) s = .next { s with port := { s.port with busy := false, pdo := [status], select := .high } } ∧
      ∀ (b : Byte) (rest : List Byte),
        (∀ a, s.port.state = .answered a → exec (.fetch (b :: rest)) s = .next { s with port := { s.port with
          state := .idle
          busy := false
          pdo := status :: (a.code.code :: be16 (BitVec.ofNat 16 a.fields.length) ++ a.fields ++
            List.replicate (rest.length + 1) 0#8).take (rest.length + 1)
          select := .high } }) ∧
        ((∀ a, s.port.state ≠ .answered a) → exec (.fetch (b :: rest)) s = .next { s with port := { s.port with
          busy := false
          pdo := status :: 8#8 :: List.replicate rest.length 0#8
          select := .high } })

/-- ECHO on a released part with the port IDLE, in a transaction that no reset cut off: with a parameter byte the
response is DONE with that one byte, and with none it is RANGE with no field. Nothing outside the port changes, and no
notice is taken or posted. The BUSY flag, shown in this transaction, is clear, and the bytes returned are the status
at the fall of PSEL and zeros (the fields that hold them and PSEL are the model's, notes/assumptions/21.md and 13.md).
-/
def Obligations.EchoReturnsItsByte : Prop :=
  ∀ s : State, s.sup.held = false → s.port.select ≠ .unheeded →
    s.port.state = .idle →
    (∀ (x : Byte) (more : List Byte), exec (.echo (x :: more)) s = .next { s with port := { s.port with
      state := .answered { code := .done, fields := [x] }
      busy := false
      pdo := s.statusSent :: List.replicate (more.length + 2) 0#8
      select := .high } }) ∧
    exec (.echo []) s = .next { s with port := { s.port with
      state := .answered { code := .range, fields := [] }
      busy := false
      pdo := [s.statusSent, 0#8]
      select := .high } }

/-- READ_STATUS on a released part with the port IDLE, in a transaction that no reset cut off: the response is DONE
with 47 bytes and one more for each member of the heard-node set: standing, TFC, RFC, the lengths of the outbound and
the intake queue, pressure mode, the length of the notice queue, the count of held parcels, the seconds counter, the
lengths, the pending lengths, the parity, the eleven counters, the reset cause, the straps and the heard-node set.
Nothing outside the port changes. Byte 0 returned is the status at the fall of PSEL, which is high afterwards (fields
of the model, notes/assumptions/13.md and 21.md). -/
def Obligations.ReadStatusReportsTheRegisters : Prop :=
  ∀ (more : List Byte) (s : State), s.sup.held = false → s.port.select ≠ .unheeded →
    s.port.state = .idle →
    let fields : List Byte :=
      [s.line.standing.code, BitVec.ofNat 8 s.line.tfc, BitVec.ofNat 8 s.line.rfc,
        BitVec.ofNat 8 s.line.outbound.length, BitVec.ofNat 8 s.acc.intake.length,
        if s.acc.pressure then 1#8 else 0#8, BitVec.ofNat 8 s.port.notices.length,
        BitVec.ofNat 8 s.eng.directory.length] ++ be32 s.tmr.seconds ++ [s.tmr.mark, s.tmr.space] ++
      (match s.tmr.pendingLengths with | some (m, p) => [1#8, m, p] | none => [0#8, 0#8, 0#8]) ++
      [match s.tmr.cycle with
        | none => 0#8
        | some c => if c.parity = .secondary then 1#8 else 2#8] ++
      [s.counters.slotOverruns, s.counters.intakeLost, s.counters.staleReadings, s.counters.lateRecords,
        s.counters.unusableRecords, s.counters.ignoredPhases, s.counters.ignoredVotes, s.counters.conflicts,
        s.counters.outboundDrops, s.counters.displacements, s.counters.noticesLost].flatMap
          (fun n => be16 (BitVec.ofNat 16 n)) ++
      [s.sup.cause.code, s.sup.straps.station.setWidth 8, BitVec.ofNat 8 s.sup.straps.listen.seconds,
        if s.sup.straps.rate = .kbit125 then 0#8 else 1#8,
        if s.sup.straps.policy = .keepOpen then 0#8 else 1#8,
        if s.sup.straps.cycle = .cycleA then 0#8 else 1#8,
        BitVec.ofNat 8 s.eng.heard.length] ++ s.eng.heard.map (fun n => n.setWidth 8)
    fields.length = 47 + s.eng.heard.length ∧
    exec (.readStatus more) s = .next { s with port := { s.port with
      state := .answered { code := .done, fields := fields }
      busy := false
      pdo := s.statusSent :: List.replicate (more.length + 1) 0#8
      select := .high } }

/-- READ_NOTICE on a released part with the port IDLE, in a transaction that no reset cut off: from an empty queue the
response is NONE with no field; otherwise the oldest notice leaves the queue and its 12 bytes are the fields of a DONE
response, in the layout of section 11.5.3: the kind, the posting second and the fields of that kind, with the codes of
section 11.4, and zeros in the unused bytes. Nothing else outside the port changes, and ATTN is low exactly when the
queue is empty afterwards. Byte 0 returned is the status at the fall of PSEL, which is high afterwards (fields of the
model, notes/assumptions/13.md and 21.md). -/
def Obligations.ReadNoticeTakesTheOldest : Prop :=
  ∀ (more : List Byte) (s : State), s.sup.held = false → s.port.select ≠ .unheeded →
    s.port.state = .idle →
    (s.port.notices = [] → exec (.readNotice more) s = .next { s with port := { s.port with
      state := .answered { code := .none, fields := [] }
      busy := false
      pdo := s.statusSent :: List.replicate (more.length + 1) 0#8
      select := .high } }) ∧
    ∀ x rest, s.port.notices = x :: rest →
      (noticeLayout x).length = 12 ∧ CodesOfTheManual ∧
      ∃ t, exec (.readNotice more) s = .next t ∧ (t.attn = false ↔ rest = []) ∧
        t = { s with port := { s.port with
          state := .answered { code := .done, fields := noticeLayout x }
          busy := false
          notices := rest
          pdo := s.statusSent :: List.replicate (more.length + 1) 0#8
          select := .high } }

/-- Each of the five engine commands, with its parameters, on a released part with the port IDLE, in a transaction
that no reset cut off: the port is WAITING with the request, the starvation count starts at 0, and nothing outside the
port and this count changes. Parameter bytes beyond the command's are ignored. Byte 0 returned is the status at the
fall of PSEL, which is high afterwards (fields of the model, notes/assumptions/13.md and 21.md). -/
def Obligations.EngineCommandsWait : Prop :=
  ∀ s : State, s.sup.held = false → s.port.select ≠ .unheeded →
    s.port.state = .idle →
    let waits (q : EngineRequest) (n : Nat) : Host.Outcome State Fault Refusal := .next { s with
      port := { s.port with
        state := .waiting q, busy := false, pdo := s.statusSent :: List.replicate n 0#8, select := .high }
      eng := { s.eng with starvation := some { count := 0, ahead := false } } }
    ∀ (p k : Byte) (more : List Byte),
      exec (.readParcel (p :: more)) s = waits (.readParcel p) (more.length + 2) ∧
      exec (.readRosterItem (p :: k :: more)) s = waits (.readRosterItem p k) (more.length + 3) ∧
      exec (.readVotes (p :: more)) s = waits (.readVotes p) (more.length + 2) ∧
      exec (.readAcceptance more) s = waits .readAcceptance (more.length + 1) ∧
      exec (.dropParcel (p :: more)) s = waits (.dropParcel p) (more.length + 2)

/-- SUBMIT_PHASE with its four parameters on a released part with the port IDLE, in a transaction that no reset cut
off. With a parcel of 1..15, a phase code of 0..5 and a round of 1..4, a PHASE of the own station with the subject
parcel and code and the payload code, round and reason is offered: the response is BUSY, QUEUE_FULL or SILENCED as the
queue refuses it, and DONE otherwise, with no field. Otherwise the response is RANGE and no frame is offered. No
parcel is looked at, and nothing but the queue, the displacements count and the port changes. Byte 0 returned is the
status at the fall of PSEL, which is high afterwards (fields of the model, notes/assumptions/13.md and 21.md). -/
def Obligations.SubmitPhaseAnswersByTheQueue : Prop :=
  ∀ (p c r x : Byte) (more : List Byte) (s : State), s.sup.held = false → s.port.select ≠ .unheeded →
    s.port.state = .idle →
    let answered (code : ResponseCode) (t : State) : Host.Outcome State Fault Refusal := .next { t with
      port := { s.port with
        state := .answered { code := code, fields := [] }
        busy := false
        pdo := s.statusSent :: List.replicate (more.length + 5) 0#8
        select := .high } }
    let inRange := 1 ≤ p.toNat ∧ p.toNat ≤ 15 ∧ c.toNat ≤ 5 ∧ 1 ≤ r.toNat ∧ r.toNat ≤ 4
    let o := offer
      { key := mkKey .phase s.sup.straps.station (p.setWidth 4) (c.setWidth 6), payload := [c, r, x] } false s
    (inRange → exec (.submitPhase (p :: c :: r :: x :: more)) s = answered
      (if o.1 = .busy then .busy else if o.1 = .queueFull then .queueFull
        else if o.1 = .silenced then .silenced else .done) o.2) ∧
    (¬ inRange → exec (.submitPhase (p :: c :: r :: x :: more)) s = answered .range s)

/-- SUBMIT_DECLARE on a released part with the port IDLE, in a transaction that no reset cut off. With a parcel of
1..15, a part 0 and as many roster items as it counts, 2..16, all of good form: part 0 as sent, part 1 with the first
ten items and, above ten items, part 2 with the others, two bytes an item with the unused bits 0, are offered as one
group, and the response is BUSY, QUEUE_FULL or SILENCED as the queue refuses it, and DONE otherwise. A parcel out of
range, a part 0 or roster that fails FORM, an item count outside 2..16, a roster byte out of its range, or too few
bytes: RANGE, and no frame is offered. Nothing but the queue, the displacements count and the port changes. Byte 0
returned is the status at the fall of PSEL, which is high afterwards (fields of the model, notes/assumptions/13.md and
21.md). -/
def Obligations.SubmitDeclareOffersItsParts : Prop :=
  ∀ s : State, s.sup.held = false → s.port.select ≠ .unheeded →
    s.port.state = .idle →
    let answered (n : Nat) (code : ResponseCode) (t : State) : Host.Outcome State Fault Refusal := .next { t with
      port := { s.port with
        state := .answered { code := code, fields := [] }
        busy := false
        pdo := s.statusSent :: List.replicate (n + 1) 0#8
        select := .high } }
    let sent (x : DeclaredItem) : List Byte :=
      [x.station.setWidth 8, x.item.setWidth 8, x.role.code.setWidth 8]
    let packed (l : List DeclaredItem) : List Byte :=
      l.flatMap (fun x => be16 (x.station ++ x.item ++ x.role.code ++ 0#2))
    (∀ params : List Byte, params.length < 21 → exec (.submitDeclare params) s = answered params.length .range s) ∧
    ∀ (p : Byte) (part0 rest : List Byte) (f : Part0), parsePart0 part0 = some f →
      let ended := exec (.submitDeclare (p :: part0 ++ rest)) s
      let n := rest.length + 21
      (f.count < 2 ∨ 16 < f.count ∨ rest.length < 3 * f.count → ended = answered n .range s) ∧
      (∀ (j : Nat) (a b c : Byte), j < f.count → rest[3 * j]? = some a → rest[3 * j + 1]? = some b →
        rest[3 * j + 2]? = some c → 63 < a.toNat ∨ 63 < b.toNat ∨ 3 < c.toNat → ended = answered n .range s) ∧
      ∀ (items : List DeclaredItem) (more : List Byte), items.length = f.count → rest = items.flatMap sent ++ more →
        let own := s.sup.straps.station
        let o := offerGroup
          ({ key := mkKey .declare own (p.setWidth 4) 0#6, payload := part0 } ::
            { key := mkKey .declare own (p.setWidth 4) 1#6, payload := packed (items.take 10) } ::
            (if items.length ≤ 10 then []
              else [{ key := mkKey .declare own (p.setWidth 4) 2#6, payload := packed (items.drop 10) }])) s
        (1 ≤ p.toNat → p.toNat ≤ 15 → formOk f items = true → ended = answered n
          (if o.1 = .busy then .busy else if o.1 = .queueFull then .queueFull
            else if o.1 = .silenced then .silenced else .done) o.2) ∧
        (p.toNat = 0 ∨ 15 < p.toNat ∨ formOk f items = false → ended = answered n .range s)

/-- SET_CYCLE with its two parameters on a released part with the port IDLE, in a transaction that no reset cut off: a
mark of 0 is answered RANGE and any pending lengths stay; a mark of 1..255 with any space is answered DONE and
replaces the pending lengths. The current lengths, the cycle in progress and everything else outside the port do not
change. Byte 0 returned is the status at the fall of PSEL, which is high afterwards (fields of the model,
notes/assumptions/13.md and 21.md). -/
def Obligations.SetCycleKeepsPendingLengths : Prop :=
  ∀ (m p : Byte) (more : List Byte) (s : State), s.sup.held = false → s.port.select ≠ .unheeded →
    s.port.state = .idle →
    let answered (code : ResponseCode) : ReportPort := { s.port with
      state := .answered { code := code, fields := [] }
      busy := false
      pdo := s.statusSent :: List.replicate (more.length + 3) 0#8
      select := .high }
    (m = 0#8 → exec (.setCycle (m :: p :: more)) s = .next { s with port := answered .range }) ∧
    (m ≠ 0#8 → exec (.setCycle (m :: p :: more)) s = .next { s with
      port := answered .done
      tmr := { s.tmr with pendingLengths := some (m, p) } })

/-- For each of the twelve REQUEST commands on a released part, in a transaction that no reset cut off. With the port
WAITING or ANSWERED: the request is discarded, BUSY is set, and nothing changes but BUSY, PSEL and the bytes returned,
whatever the command and its parameters. With the port IDLE: a code that is none of the eleven is answered
UNKNOWN_COMMAND, and fewer parameter bytes than the command calls for are answered RANGE, with no field, and nothing
outside the port changes. Byte 0 returned is the status at the fall of PSEL, which is high afterwards (fields of the
model, notes/assumptions/13.md and 21.md). -/
def Obligations.RequestsAreTakenOnlyWhenIdle : Prop :=
  ∀ (c : Instr) (code : Byte) (params : List Byte) (s : State), s.sup.held = false →
    s.port.select ≠ .unheeded → requestOf c = some (code, params) →
    let returned := s.statusSent :: List.replicate (params.length + 1) 0#8
    let need : Nat :=
      if code = 0x12#8 ∨ code = 0x20#8 ∨ code = 0x22#8 ∨ code = 0x41#8 then 1
      else if code = 0x21#8 ∨ code = 0x40#8 then 2
      else if code = 0x31#8 then 4
      else if code = 0x30#8 then 21
      else 0
    (s.port.state ≠ .idle → exec c s = .next { s with port := { s.port with
      busy := true, pdo := returned, select := .high } }) ∧
    (s.port.state = .idle → code ∉ commandCodes → exec c s = .next { s with port := { s.port with
      state := .answered { code := .unknownCommand, fields := [] }
      busy := false, pdo := returned, select := .high } }) ∧
    (s.port.state = .idle → params.length < need → exec c s = .next { s with port := { s.port with
      state := .answered { code := .range, fields := [] }
      busy := false, pdo := returned, select := .high } })

/-- For every whole dividend and every positive divisor, the result of the division is at most half away from the
exact quotient, and when it is exactly half away it is the whole number farther from zero. So it is in each division
of the arithmetic, from the exact product or sum: the volume correction factor (by 100); the standard volume, the line
value of the parcel's grade, the standardised totaliser and the meter movement (by 1,000,000); the ship figure (by the
VEF); the ratio and the meter deviation (by S); the mass (by 10,000). A range test or a clamp is applied to the value
after its division has been rounded: the stored standard quantity is clamped to unsigned and P, S, the difference, the
ratio, the running figures and the masses to signed 32 bits, OVERFLOW and RANGE are judged on the rounded values, and
so is the meter check against the tolerance. -/
def Obligations.DivisionRoundsHalfAway : Prop :=
  let Rounds (x : Int) (d : Nat) (q : Int) : Prop :=
    2 * (q * d - x).natAbs ≤ d ∧ (2 * (q * d - x).natAbs = d → x.natAbs < (q * d).natAbs)
  let unsigned (x : Int) : Word32 := BitVec.ofInt 32 (max 0 (min x 4294967295))
  let signed (x : Int) : Word32 := BitVec.ofInt 32 (max (-2147483648) (min x 2147483647))
  let outside (x : Int) : Prop := x < -2147483648 ∨ 2147483647 < x
  let beyond (x : Int) : Prop := 4294967295 < x.natAbs
  (∀ (x : Int) (d : Nat), 0 < d → Rounds x d (roundDiv x d)) ∧
    (∀ (alpha : Nat) (temp : BitVec 16), Rounds ((alpha : Int) * (temp.toInt - 1500)) 100 (1000000 - vcf alpha temp)) ∧
    (∀ (alpha : Nat) (r : TankReading),
      Rounds (((r.volume.toNat : Int) - r.water.toNat) * vcf alpha r.temp) 1000000 (r.exact alpha)) ∧
    (∀ (alpha : Nat) (r : LineReading),
      Rounds ((r.fill.toNat : Int) * vcf alpha r.temp) 1000000 (r.exact alpha r.grade)) ∧
    (∀ (d : Declaration) (x : RosterItem) (o c : MeterReading), x.pair = some (.meter o, .meter c) →
      let f := vcf d.alpha c.temp
      Rounds ((o.totaliser.toNat : Int) * f) 1000000 (itemQuantities d x).1 ∧
        Rounds ((c.totaliser.toNat : Int) * f) 1000000 (itemQuantities d x).2 ∧
        Rounds (((c.totaliser.toNat : Int) - o.totaliser.toNat) * f) 1000000 (meterMovement d x)) ∧
    (∀ (vef : Nat) (ship : Int), 0 < vef → Rounds (ship * 1000000) vef (shipFigure vef ship)) ∧
    (∀ delta s : Int, 0 < s → Rounds (delta * 1000000) s.toNat (ratioOf delta s)) ∧
    (∀ (d : Declaration) (roster rest : List RosterItem) (m : RosterItem) (s : Int),
      roster.filter (fun x => x.role == .meter) = m :: rest → 0 < s →
      ∃ q, Rounds ((meterMovement d m - s) * 1000000) s.toNat q ∧
        (meterDisagrees d roster s = true ↔ d.tolerance < q.natAbs)) ∧
    (∀ (rho : Nat) (v : Word32), ∃ q, Rounds (v.toInt * rho) 10000 q ∧ massOf rho v = signed q) ∧
    (∀ (d : Declaration) (r : Reading), (r.toValue d).std = unsigned (r.exact d)) ∧
    (∀ (d : Declaration) (roster : List RosterItem), rangeExceeded d roster = true ↔
      (∃ x ∈ roster, beyond (itemQuantities d x).1 ∨ beyond (itemQuantities d x).2 ∨ beyond (meterMovement d x)) ∨
        beyond (movements d roster).1 ∨ beyond (movements d roster).2 ∨ beyond (lineChange d roster)) ∧
    (∀ (d : Declaration) (roster : List RosterItem) (now : Second),
      let x := runningExact d roster
      let f := runningFigure d roster now
      f.p = signed x.1 ∧ f.s = signed x.2 ∧ f.delta = signed (x.1 - x.2)) ∧
    ∀ (n : ParcelNo) (round : Nat) (d : Declaration) (roster : List RosterItem),
      let f := ownFigure n round d roster
      let p := shipFigure d.vef (movements d roster).1
      let s := shoreFigure d.direction (movements d roster).2 (lineChange d roster)
      f.p = signed p ∧ f.s = signed s ∧ f.delta = signed (p - s) ∧ f.ratio = signed (ratioOf (p - s) s) ∧
        (f.flags.getLsbD 2 = true ↔ outside p ∨ outside s ∨ outside (p - s) ∨ outside (ratioOf (p - s) s)) ∧
        f.flags.getLsbD 4 = rangeExceeded d roster

/-- For every declaration and roster, with the exact ship and shore movements and line change: S is the shore movement
plus the line change in a discharge and less it in a loading; P is the ship movement divided by the VEF; P, S, the
difference and the ratio are held clamped to signed 32 bits, and the ratio is 0 when S is 0 or below. ZERO_BASE is bit
3, and set exactly when S is 0 or below; OVERFLOW is bit 2, and set exactly when one of the four exact values is
outside the signed 32-bit range; RANGE is bit 4, METER_DISAGREE bit 1, SUBSTITUTED bit 0, and the others are 0. The
verdict is NONE with ZERO_BASE, OVERFLOW or RANGE, else WITHIN exactly when the magnitude of the held ratio is at most
the tolerance, else OUTSIDE. -/
def Obligations.OwnFigureFollowsItsRules : Prop :=
  ∀ (n : ParcelNo) (round : Nat) (d : Declaration) (roster : List RosterItem),
    let f := ownFigure n round d roster
    let moves := movements d roster
    let shore := if d.direction = .shipToShore then moves.2 + lineChange d roster else moves.2 - lineChange d roster
    let ship := roundDiv (moves.1 * 1000000) d.vef
    let ratio := if 0 < shore then roundDiv ((ship - shore) * 1000000) shore.toNat else 0
    let clamp (x : Int) : Word32 := BitVec.ofInt 32 (max (-2147483648) (min x 2147483647))
    let outside (x : Int) : Prop := x < -2147483648 ∨ 2147483647 < x
    f.p = clamp ship ∧ f.s = clamp shore ∧ f.delta = clamp (ship - shore) ∧ f.ratio = clamp ratio ∧
      (f.flags.getLsbD 3 = true ↔ shore ≤ 0) ∧
      (f.flags.getLsbD 2 = true ↔ outside ship ∨ outside shore ∨ outside (ship - shore) ∨ outside ratio) ∧
      f.flags.getLsbD 4 = rangeExceeded d roster ∧ f.flags.getLsbD 1 = meterDisagrees d roster shore ∧
      f.flags.getLsbD 0 = anySubstituted roster ∧ f.flags.toNat < 32 ∧
      f.verdict = (if f.flags.getLsbD 3 ∨ f.flags.getLsbD 2 ∨ f.flags.getLsbD 4 then .none
        else if f.ratio.toInt.natAbs ≤ d.tolerance then .within else .outside) ∧
      f.check = check32 (canonicalBytes n round d roster f.p f.s f.flags)

/-- The machine right after the release of a POWER_ON reset is within the limits, has its fixed sizes, no two queued
frames of one key, pressure mode in agreement with the intake queue, and a sound parcel table. Its strap values are
the model's choice (notes/assumptions/1.md). -/
def Obligations.ResetMeetsTheInvariants : Prop :=
  State.reset.Bounded ∧ State.reset.PressureAgrees ∧ State.reset.KeysDistinct ∧ State.reset.Shaped ∧
    State.reset.TableSound

/-- From every state within the limits (at most 10 outbound frames, 32 intake entries and 16 notices, fault counts of
at most 255 and engine counters of at most 65,535) whose pressure flag agrees with the intake queue (set only above 16
entries, clear only below 24), a step answers a next state, never a fault or a refusal, and that state is again within
the limits, with the pressure flag in agreement. -/
def Obligations.StepKeepsTheLimits : Prop :=
  ∀ s : State, s.Bounded → s.PressureAgrees → ∃ t, step s = .next t ∧ t.Bounded ∧ t.PressureAgrees

/-- From every state in which no two queued frames have the same key, every step leads to a state in which no two
have. -/
def Obligations.StepKeepsKeysDistinct : Prop :=
  ∀ s t : State, s.KeysDistinct → step s = .next t → t.KeysDistinct

/-- From every state with the fixed sizes (6 store positions, 24 bindable entries, 24 slots, a rotation pointer below
24) whose directory holds at most 6 parcels, never two of one number and never the number 0, every step leads to such
a state. -/
def Obligations.StepKeepsTheParcelTable : Prop :=
  ∀ s t : State, s.Shaped → s.TableSound → step s = .next t → t.Shaped ∧ t.TableSound
end

