-- ==== Sys2Proof/Laws/Key.lean ====
section
/-! SUPPORT. The fields of a built key are the fields it was built from (file 11, 11.1). -/

namespace Sys2Proof.Machine

variable (k : Kind) (s : Station) (p : ParcelNo) (i : ItemNo)

@[simp] theorem keyClass_mkKey : keyClass (mkKey k s p i) = k.cls := by
  unfold keyClass mkKey
  ext j hj
  simp only [BitVec.getElem_extractLsb', BitVec.getLsbD_append]
  repeat' split
  all_goals first | omega | (rw [← BitVec.getLsbD_eq_getElem]; congr 1; omega)

@[simp] theorem keyKind_mkKey : keyKind (mkKey k s p i) = k.code := by
  unfold keyKind mkKey
  ext j hj
  simp only [BitVec.getElem_extractLsb', BitVec.getLsbD_append]
  repeat' split
  all_goals first | omega | (rw [← BitVec.getLsbD_eq_getElem]; congr 1; omega)

@[simp] theorem keySource_mkKey : keySource (mkKey k s p i) = s := by
  unfold keySource mkKey
  ext j hj
  simp only [BitVec.getElem_extractLsb', BitVec.getLsbD_append]
  repeat' split
  all_goals first | omega | (rw [← BitVec.getLsbD_eq_getElem]; congr 1; omega)

@[simp] theorem keyParcel_mkKey : keyParcel (mkKey k s p i) = p := by
  unfold keyParcel mkKey
  ext j hj
  simp only [BitVec.getElem_extractLsb', BitVec.getLsbD_append]
  repeat' split
  all_goals first | omega | (rw [← BitVec.getLsbD_eq_getElem]; congr 1; omega)

@[simp] theorem keyItem_mkKey : keyItem (mkKey k s p i) = i := by
  unfold keyItem mkKey
  ext j hj
  simp only [BitVec.getElem_extractLsb', BitVec.getLsbD_append]
  repeat' split
  all_goals first | omega | (rw [← BitVec.getLsbD_eq_getElem]; congr 1; omega)

end Sys2Proof.Machine
end

