-- ==== Sys2Proof/Laws/State.lean ====
section
/-! SUPPORT. What each update of a block leaves in each field of the state. -/

namespace Sys2Proof.Machine.State

/-! ## setLine -/

@[simp] theorem setLine_line (s : State) (x : LineInterface) : (s.setLine x).line = x := rfl
@[simp] theorem setLine_acc (s : State) (x : LineInterface) : (s.setLine x).acc = s.acc := rfl
@[simp] theorem setLine_eng (s : State) (x : LineInterface) : (s.setLine x).eng = s.eng := rfl
@[simp] theorem setLine_store (s : State) (x : LineInterface) : (s.setLine x).store = s.store := rfl
@[simp] theorem setLine_storeLog (s : State) (x : LineInterface) :
    (s.setLine x).storeLog = s.storeLog := rfl
@[simp] theorem setLine_tmr (s : State) (x : LineInterface) : (s.setLine x).tmr = s.tmr := rfl
@[simp] theorem setLine_port (s : State) (x : LineInterface) : (s.setLine x).port = s.port := rfl
@[simp] theorem setLine_sup (s : State) (x : LineInterface) : (s.setLine x).sup = s.sup := rfl
@[simp] theorem setLine_counters (s : State) (x : LineInterface) : (s.setLine x).counters = s.counters := rfl
@[simp] theorem setLine_pending (s : State) (x : LineInterface) : (s.setLine x).pending = s.pending := rfl
@[simp] theorem setLine_setLine (s : State) (x y : LineInterface) : (s.setLine x).setLine y = s.setLine y := rfl
@[simp] theorem setLine_self (s : State) : s.setLine s.line = s := rfl

/-! ## setAcc -/

@[simp] theorem setAcc_line (s : State) (x : AcceptanceUnit) : (s.setAcc x).line = s.line := rfl
@[simp] theorem setAcc_acc (s : State) (x : AcceptanceUnit) : (s.setAcc x).acc = x := rfl
@[simp] theorem setAcc_eng (s : State) (x : AcceptanceUnit) : (s.setAcc x).eng = s.eng := rfl
@[simp] theorem setAcc_store (s : State) (x : AcceptanceUnit) : (s.setAcc x).store = s.store := rfl
@[simp] theorem setAcc_storeLog (s : State) (x : AcceptanceUnit) :
    (s.setAcc x).storeLog = s.storeLog := rfl
@[simp] theorem setAcc_tmr (s : State) (x : AcceptanceUnit) : (s.setAcc x).tmr = s.tmr := rfl
@[simp] theorem setAcc_port (s : State) (x : AcceptanceUnit) : (s.setAcc x).port = s.port := rfl
@[simp] theorem setAcc_sup (s : State) (x : AcceptanceUnit) : (s.setAcc x).sup = s.sup := rfl
@[simp] theorem setAcc_counters (s : State) (x : AcceptanceUnit) : (s.setAcc x).counters = s.counters := rfl
@[simp] theorem setAcc_pending (s : State) (x : AcceptanceUnit) : (s.setAcc x).pending = s.pending := rfl
@[simp] theorem setAcc_setAcc (s : State) (x y : AcceptanceUnit) : (s.setAcc x).setAcc y = s.setAcc y := rfl
@[simp] theorem setAcc_self (s : State) : s.setAcc s.acc = s := rfl

/-! ## setEng -/

@[simp] theorem setEng_line (s : State) (x : Engine) : (s.setEng x).line = s.line := rfl
@[simp] theorem setEng_acc (s : State) (x : Engine) : (s.setEng x).acc = s.acc := rfl
@[simp] theorem setEng_eng (s : State) (x : Engine) : (s.setEng x).eng = x := rfl
@[simp] theorem setEng_store (s : State) (x : Engine) : (s.setEng x).store = s.store := rfl
@[simp] theorem setEng_storeLog (s : State) (x : Engine) :
    (s.setEng x).storeLog = s.storeLog := rfl
@[simp] theorem setEng_tmr (s : State) (x : Engine) : (s.setEng x).tmr = s.tmr := rfl
@[simp] theorem setEng_port (s : State) (x : Engine) : (s.setEng x).port = s.port := rfl
@[simp] theorem setEng_sup (s : State) (x : Engine) : (s.setEng x).sup = s.sup := rfl
@[simp] theorem setEng_counters (s : State) (x : Engine) : (s.setEng x).counters = s.counters := rfl
@[simp] theorem setEng_pending (s : State) (x : Engine) : (s.setEng x).pending = s.pending := rfl
@[simp] theorem setEng_setEng (s : State) (x y : Engine) : (s.setEng x).setEng y = s.setEng y := rfl
@[simp] theorem setEng_self (s : State) : s.setEng s.eng = s := rfl

/-! ## setStore -/

@[simp] theorem setStore_line (s : State) (x : List (Option StoredParcel)) : (s.setStore x).line = s.line := rfl
@[simp] theorem setStore_acc (s : State) (x : List (Option StoredParcel)) : (s.setStore x).acc = s.acc := rfl
@[simp] theorem setStore_eng (s : State) (x : List (Option StoredParcel)) : (s.setStore x).eng = s.eng := rfl
@[simp] theorem setStore_store (s : State) (x : List (Option StoredParcel)) : (s.setStore x).store = x := rfl
@[simp] theorem setStore_storeLog (s : State) (x : List (Option StoredParcel)) :
    (s.setStore x).storeLog = s.storeLog := rfl
@[simp] theorem setStore_tmr (s : State) (x : List (Option StoredParcel)) : (s.setStore x).tmr = s.tmr := rfl
@[simp] theorem setStore_port (s : State) (x : List (Option StoredParcel)) : (s.setStore x).port = s.port := rfl
@[simp] theorem setStore_sup (s : State) (x : List (Option StoredParcel)) : (s.setStore x).sup = s.sup := rfl
@[simp] theorem setStore_counters (s : State) (x : List (Option StoredParcel)) : (s.setStore x).counters = s.counters := rfl
@[simp] theorem setStore_pending (s : State) (x : List (Option StoredParcel)) : (s.setStore x).pending = s.pending := rfl
@[simp] theorem setStore_setStore (s : State) (x y : List (Option StoredParcel)) : (s.setStore x).setStore y = s.setStore y := rfl
@[simp] theorem setStore_self (s : State) : s.setStore s.store = s := rfl

/-! ## setStoreLog -/

@[simp] theorem setStoreLog_line (s : State) (x : List StoreStep) : (s.setStoreLog x).line = s.line := rfl
@[simp] theorem setStoreLog_acc (s : State) (x : List StoreStep) : (s.setStoreLog x).acc = s.acc := rfl
@[simp] theorem setStoreLog_eng (s : State) (x : List StoreStep) : (s.setStoreLog x).eng = s.eng := rfl
@[simp] theorem setStoreLog_store (s : State) (x : List StoreStep) : (s.setStoreLog x).store = s.store := rfl
@[simp] theorem setStoreLog_tmr (s : State) (x : List StoreStep) : (s.setStoreLog x).tmr = s.tmr := rfl
@[simp] theorem setStoreLog_port (s : State) (x : List StoreStep) : (s.setStoreLog x).port = s.port := rfl
@[simp] theorem setStoreLog_sup (s : State) (x : List StoreStep) : (s.setStoreLog x).sup = s.sup := rfl
@[simp] theorem setStoreLog_counters (s : State) (x : List StoreStep) : (s.setStoreLog x).counters = s.counters := rfl
@[simp] theorem setStoreLog_pending (s : State) (x : List StoreStep) : (s.setStoreLog x).pending = s.pending := rfl
@[simp] theorem setStoreLog_storeLog (s : State) (x : List StoreStep) : (s.setStoreLog x).storeLog = x := rfl
@[simp] theorem setStoreLog_setStoreLog (s : State) (x y : List StoreStep) :
    (s.setStoreLog x).setStoreLog y = s.setStoreLog y := rfl
@[simp] theorem setStoreLog_self (s : State) : s.setStoreLog s.storeLog = s := rfl

/-! ## setTmr -/

@[simp] theorem setTmr_line (s : State) (x : PublicationTimer) : (s.setTmr x).line = s.line := rfl
@[simp] theorem setTmr_acc (s : State) (x : PublicationTimer) : (s.setTmr x).acc = s.acc := rfl
@[simp] theorem setTmr_eng (s : State) (x : PublicationTimer) : (s.setTmr x).eng = s.eng := rfl
@[simp] theorem setTmr_store (s : State) (x : PublicationTimer) : (s.setTmr x).store = s.store := rfl
@[simp] theorem setTmr_storeLog (s : State) (x : PublicationTimer) :
    (s.setTmr x).storeLog = s.storeLog := rfl
@[simp] theorem setTmr_tmr (s : State) (x : PublicationTimer) : (s.setTmr x).tmr = x := rfl
@[simp] theorem setTmr_port (s : State) (x : PublicationTimer) : (s.setTmr x).port = s.port := rfl
@[simp] theorem setTmr_sup (s : State) (x : PublicationTimer) : (s.setTmr x).sup = s.sup := rfl
@[simp] theorem setTmr_counters (s : State) (x : PublicationTimer) : (s.setTmr x).counters = s.counters := rfl
@[simp] theorem setTmr_pending (s : State) (x : PublicationTimer) : (s.setTmr x).pending = s.pending := rfl
@[simp] theorem setTmr_setTmr (s : State) (x y : PublicationTimer) : (s.setTmr x).setTmr y = s.setTmr y := rfl
@[simp] theorem setTmr_self (s : State) : s.setTmr s.tmr = s := rfl

/-! ## setPort -/

@[simp] theorem setPort_line (s : State) (x : ReportPort) : (s.setPort x).line = s.line := rfl
@[simp] theorem setPort_acc (s : State) (x : ReportPort) : (s.setPort x).acc = s.acc := rfl
@[simp] theorem setPort_eng (s : State) (x : ReportPort) : (s.setPort x).eng = s.eng := rfl
@[simp] theorem setPort_store (s : State) (x : ReportPort) : (s.setPort x).store = s.store := rfl
@[simp] theorem setPort_storeLog (s : State) (x : ReportPort) :
    (s.setPort x).storeLog = s.storeLog := rfl
@[simp] theorem setPort_tmr (s : State) (x : ReportPort) : (s.setPort x).tmr = s.tmr := rfl
@[simp] theorem setPort_port (s : State) (x : ReportPort) : (s.setPort x).port = x := rfl
@[simp] theorem setPort_sup (s : State) (x : ReportPort) : (s.setPort x).sup = s.sup := rfl
@[simp] theorem setPort_counters (s : State) (x : ReportPort) : (s.setPort x).counters = s.counters := rfl
@[simp] theorem setPort_pending (s : State) (x : ReportPort) : (s.setPort x).pending = s.pending := rfl
@[simp] theorem setPort_setPort (s : State) (x y : ReportPort) : (s.setPort x).setPort y = s.setPort y := rfl
@[simp] theorem setPort_self (s : State) : s.setPort s.port = s := rfl

/-! ## setSup -/

@[simp] theorem setSup_line (s : State) (x : Supervisor) : (s.setSup x).line = s.line := rfl
@[simp] theorem setSup_acc (s : State) (x : Supervisor) : (s.setSup x).acc = s.acc := rfl
@[simp] theorem setSup_eng (s : State) (x : Supervisor) : (s.setSup x).eng = s.eng := rfl
@[simp] theorem setSup_store (s : State) (x : Supervisor) : (s.setSup x).store = s.store := rfl
@[simp] theorem setSup_storeLog (s : State) (x : Supervisor) :
    (s.setSup x).storeLog = s.storeLog := rfl
@[simp] theorem setSup_tmr (s : State) (x : Supervisor) : (s.setSup x).tmr = s.tmr := rfl
@[simp] theorem setSup_port (s : State) (x : Supervisor) : (s.setSup x).port = s.port := rfl
@[simp] theorem setSup_sup (s : State) (x : Supervisor) : (s.setSup x).sup = x := rfl
@[simp] theorem setSup_counters (s : State) (x : Supervisor) : (s.setSup x).counters = s.counters := rfl
@[simp] theorem setSup_pending (s : State) (x : Supervisor) : (s.setSup x).pending = s.pending := rfl
@[simp] theorem setSup_setSup (s : State) (x y : Supervisor) : (s.setSup x).setSup y = s.setSup y := rfl
@[simp] theorem setSup_self (s : State) : s.setSup s.sup = s := rfl

/-! ## setCounters -/

@[simp] theorem setCounters_line (s : State) (x : Counters) : (s.setCounters x).line = s.line := rfl
@[simp] theorem setCounters_acc (s : State) (x : Counters) : (s.setCounters x).acc = s.acc := rfl
@[simp] theorem setCounters_eng (s : State) (x : Counters) : (s.setCounters x).eng = s.eng := rfl
@[simp] theorem setCounters_store (s : State) (x : Counters) : (s.setCounters x).store = s.store := rfl
@[simp] theorem setCounters_storeLog (s : State) (x : Counters) :
    (s.setCounters x).storeLog = s.storeLog := rfl
@[simp] theorem setCounters_tmr (s : State) (x : Counters) : (s.setCounters x).tmr = s.tmr := rfl
@[simp] theorem setCounters_port (s : State) (x : Counters) : (s.setCounters x).port = s.port := rfl
@[simp] theorem setCounters_sup (s : State) (x : Counters) : (s.setCounters x).sup = s.sup := rfl
@[simp] theorem setCounters_counters (s : State) (x : Counters) : (s.setCounters x).counters = x := rfl
@[simp] theorem setCounters_pending (s : State) (x : Counters) : (s.setCounters x).pending = s.pending := rfl
@[simp] theorem setCounters_setCounters (s : State) (x y : Counters) : (s.setCounters x).setCounters y = s.setCounters y := rfl
@[simp] theorem setCounters_self (s : State) : s.setCounters s.counters = s := rfl

/-! ## setPending -/

@[simp] theorem setPending_line (s : State) (x : List Instr) : (s.setPending x).line = s.line := rfl
@[simp] theorem setPending_acc (s : State) (x : List Instr) : (s.setPending x).acc = s.acc := rfl
@[simp] theorem setPending_eng (s : State) (x : List Instr) : (s.setPending x).eng = s.eng := rfl
@[simp] theorem setPending_store (s : State) (x : List Instr) : (s.setPending x).store = s.store := rfl
@[simp] theorem setPending_storeLog (s : State) (x : List Instr) :
    (s.setPending x).storeLog = s.storeLog := rfl
@[simp] theorem setPending_tmr (s : State) (x : List Instr) : (s.setPending x).tmr = s.tmr := rfl
@[simp] theorem setPending_port (s : State) (x : List Instr) : (s.setPending x).port = s.port := rfl
@[simp] theorem setPending_sup (s : State) (x : List Instr) : (s.setPending x).sup = s.sup := rfl
@[simp] theorem setPending_counters (s : State) (x : List Instr) : (s.setPending x).counters = s.counters := rfl
@[simp] theorem setPending_pending (s : State) (x : List Instr) : (s.setPending x).pending = x := rfl
@[simp] theorem setPending_setPending (s : State) (x y : List Instr) : (s.setPending x).setPending y = s.setPending y := rfl
@[simp] theorem setPending_self (s : State) : s.setPending s.pending = s := rfl

end Sys2Proof.Machine.State
end

