-- ==== Sys2Proof/Laws/Closed.lean ====
section
/-! SUPPORT. What an engine service can do, said once: every operation of a service is a chain of offers, withdrawals,
notices, counter raises, and changes of the engine's own records, of the store and of the bindings. A property that
each of these keeps is kept by the whole service. -/

namespace Sys2Proof.Machine

/-- An update of the engine that leaves its pending flags, its rotation pointer, its starvation count, its assembly
buffers, its heard-node set and its restart flag: it touches records and directories alone. -/
def SameFlags (x y : Engine) : Prop :=
  x.dutyPending = y.dutyPending ∧ x.checkpointPending = y.checkpointPending ∧ x.slotPointer = y.slotPointer ∧
    x.starvation = y.starvation ∧ x.buf0 = y.buf0 ∧ x.buf1 = y.buf1 ∧ x.heard = y.heard ∧
    x.windowRestart = y.windowRestart

/-- The parcel numbers of the directory, in its order. -/
def Engine.numbers (e : Engine) : List ParcelNo := e.directory.map DirEntry.number

/-- An update of the Acceptance Unit that touches bindings alone. -/
def SameIntake (a b : AcceptanceUnit) : Prop :=
  a.intake = b.intake ∧ a.pressure = b.pressure ∧ a.entries.length = b.entries.length ∧
    a.slots.length = b.slots.length

/-- All that a write-back can do: nothing, or the record with its check at one position, noted in the log (R116). -/
theorem storePut_cases (s : State) (r : ParcelRecord) : s.storePut r = s ∨ ∃ i, s.storePut r = s.storeSet i r := by
  unfold State.storePut
  split
  · exact .inr ⟨_, rfl⟩
  · exact .inl rfl

/-- What a write-back changes: the store, of the same length, and the log. -/
theorem storePut_eq (s : State) (r : ParcelRecord) :
    ∃ x l, s.storePut r = (s.setStore x).setStoreLog l ∧ x.length = s.store.length := by
  rcases storePut_cases s r with h | ⟨i, h⟩
  · exact ⟨s.store, s.storeLog, h, rfl⟩
  · exact ⟨_, _, h, by simp⟩

/-- What a removal changes: the store, of the same length, and the log. -/
theorem storeDelete_eq (s : State) (n : ParcelNo) :
    ∃ x l, s.storeDelete n = (s.setStore x).setStoreLog l ∧ x.length = s.store.length := ⟨_, _, rfl, by simp⟩

/-- A property that the primitive changes of work on a parcel keep. -/
structure RecordClosed (P : State → Prop) : Prop where
  eng : ∀ {s : State} (x : Engine), SameFlags x s.eng → x.numbers = s.eng.numbers → P s → P (s.setEng x)
  removed : ∀ {s : State} (n : ParcelNo), P s → P (dropDirectory n s)
  admitted : ∀ {s : State} (e : DirEntry), e.number ≠ 0#4 → e.number ∉ s.eng.numbers → s.eng.numbers.length < 6 →
    P s → P (s.setEng { s.eng with directory := insertDir e s.eng.directory })
  put : ∀ {s : State} (r : ParcelRecord), P s → P (s.storePut r)
  delete : ∀ {s : State} (n : ParcelNo), P s → P (s.storeDelete n)
  acc : ∀ {s : State} (a : AcceptanceUnit), SameIntake a s.acc → P s → P (s.setAcc a)
  post : ∀ {s : State} (b : NoticeBody), P s → P (s.post b)
  bump : ∀ {s : State} (c : Counter), P s → P (s.bump c)
  offer : ∀ {s : State} (f : OfferedFrame) (listed : Bool), P s → P (Machine.offer f listed s).2
  withdraw : ∀ {s : State} (k : FrameKey), P s → P (Machine.withdraw k s)

/-- A property that another store of as many positions keeps, and another note of the changes of the store. -/
structure StoreClosed (P : State → Prop) : Prop where
  store : ∀ {s : State} (x : List (Option StoredParcel)), x.length = s.store.length → P s → P (s.setStore x)
  log : ∀ {s t : State}, P s → P t → P (t.setStoreLog s.storeLog)

/-- A property that every change of an engine service's body keeps: the assembly buffers, the heard-node set and the
restart flag change too. -/
structure EngineClosed (P : State → Prop) : Prop extends RecordClosed P where
  buffer : ∀ {s : State} (b : Fin 2) (a : Option Assembly), P s → P (s.setBuffer b a)
  hear : ∀ {s : State} (l : List Station), P s → P (s.setEng { s.eng with heard := l })
  restart : ∀ {s : State}, P s → P (s.setEng { s.eng with windowRestart := false })

theorem sameFlags_refl (x : Engine) : SameFlags x x := ⟨rfl, rfl, rfl, rfl, rfl, rfl, rfl, rfl⟩

theorem sameIntake_refl (a : AcceptanceUnit) : SameIntake a a := ⟨rfl, rfl, rfl, rfl⟩

theorem SameIntake.trans {a b c : AcceptanceUnit} (h : SameIntake a b) (g : SameIntake b c) : SameIntake a c :=
  ⟨h.1.trans g.1, h.2.1.trans g.2.1, h.2.2.1.trans g.2.2.1, h.2.2.2.trans g.2.2.2⟩

theorem sameFlags_setContext (x : Engine) (i : ContextId) (c : Option OpenContext) :
    SameFlags (x.setContext i c) x := by
  cases i <;> exact ⟨rfl, rfl, rfl, rfl, rfl, rfl, rfl, rfl⟩

theorem numbers_setContext (x : Engine) (i : ContextId) (c : Option OpenContext) :
    (x.setContext i c).numbers = x.numbers := by
  cases i <;> rfl

/-- An update of directory entries that keeps their numbers. -/
theorem numbers_update (n : ParcelNo) (f : DirEntry → DirEntry) (hf : ∀ e, (f e).number = e.number) (l : List DirEntry) :
    (l.map (fun e => if e.number == n then f e else e)).map DirEntry.number = l.map DirEntry.number := by
  rw [List.map_map]
  refine List.map_congr_left (fun e _ => ?_)
  simp only [Function.comp]
  split
  · exact hf e
  · rfl

theorem insertDir_numbers (e : DirEntry) (l : List DirEntry) :
    ((insertDir e l).map DirEntry.number).Perm (e.number :: l.map DirEntry.number) := by
  induction l with
  | nil => exact List.Perm.refl _
  | cons d rest ih =>
    unfold insertDir
    split
    · exact List.Perm.refl _
    · exact (ih.cons _).trans (List.Perm.swap _ _ _)

theorem numbers_dirUpdate (s : State) (n : ParcelNo) (f : DirEntry → DirEntry) (hf : ∀ e, (f e).number = e.number) :
    (s.dirUpdate n f).eng.numbers = s.eng.numbers := numbers_update n f hf s.eng.directory

theorem numbers_writeBack (s : State) (i : ContextId) : (s.writeBack i).eng.numbers = s.eng.numbers := by
  unfold State.writeBack State.storePut State.setContext
  repeat' split
  all_goals first | rfl | exact numbers_setContext _ _ _

theorem numbers_closeContext (s : State) (i : ContextId) : (s.closeContext i).eng.numbers = s.eng.numbers := by
  unfold State.closeContext
  split
  · rename_i c _
    exact (numbers_dirUpdate ((s.writeBack i).setContext i none) c.record.number (fun e => { e with context := none })
      (fun _ => rfl)).trans ((numbers_setContext _ _ _).trans (numbers_writeBack s i))
  · rfl

theorem dirFind_none {s : State} {n : ParcelNo} (h : s.dirFind n = none) : n ∉ s.eng.numbers := by
  intro hm
  obtain ⟨e, he, rfl⟩ := List.mem_map.mp hm
  have := List.find?_eq_none.mp h e he
  simp at this

/-- A declaration that passes validation for a free number finds room in the table (R34). -/
theorem room_of_validate {src : Station} {n : ParcelNo} {p : Part0} {items : List DeclaredItem} {s : State}
    (hf : s.dirFind n = none) (hv : validate src n p items s = none) : s.eng.numbers.length < 6 := by
  unfold Engine.numbers
  rw [List.length_map]
  by_contra hlt
  have ht : (!s.isHeld n && decide (Config.tableSize ≤ s.eng.directory.length)) = true := by
    unfold State.isHeld
    rw [hf]
    exact decide_eq_true (Nat.le_of_not_lt hlt)
  unfold validate at hv
  rw [ht] at hv
  repeat' split at hv
  all_goals simp_all

theorem copyFrom_number (e : DirEntry) (r : ParcelRecord) : (e.copyFrom r).number = e.number := rfl

theorem sameIntake_bindTank (st : Station) (it : ItemNo) (n : ParcelNo) (k : Nat) (a : AcceptanceUnit) :
    SameIntake (bindTank st it n k a).2 a := by
  unfold bindTank
  split
  · exact ⟨rfl, rfl, by simp, by simp⟩
  · exact sameIntake_refl a

theorem sameIntake_bindRoster (n : ParcelNo) (roster : List RosterItem) (k : Nat) (a : AcceptanceUnit) :
    SameIntake (bindRoster n k roster a).2 a := by
  induction roster generalizing k a with
  | nil => exact sameIntake_refl a
  | cons i rest ih =>
    unfold bindRoster
    by_cases hi : i.role.isTank
    · simp only [hi, if_true]
      exact (ih _ _).trans (sameIntake_bindTank _ _ _ _ _)
    · simp only [hi]
      exact ih _ _

theorem sameIntake_unbindParcel (n : ParcelNo) (a : AcceptanceUnit) : SameIntake (unbindParcel n a) a :=
  ⟨rfl, rfl, by simp [unbindParcel], by simp [unbindParcel]⟩

/-- A property that one step keeps is kept by a fold of steps. -/
theorem fold_keeps {P : State → Prop} {α : Type} (f : State → α → State) (hf : ∀ t a, P t → P (f t a)) (l : List α)
    {s : State} (hs : P s) : P (l.foldl f s) := by
  induction l generalizing s with
  | nil => exact hs
  | cons a rest ih => exact ih (hf _ _ hs)

namespace RecordClosed

variable {P : State → Prop} (h : RecordClosed P) {s : State}

include h

/-! ## Contexts, directories and the store -/

theorem setContext (i : ContextId) (c : Option OpenContext) (hs : P s) : P (s.setContext i c) :=
  h.eng _ (sameFlags_setContext _ _ _) (numbers_setContext _ _ _) hs

theorem touch (i : ContextId) (hs : P s) : P (s.touch i) :=
  h.eng _ ⟨rfl, rfl, rfl, rfl, rfl, rfl, rfl, rfl⟩ rfl hs

theorem dirUpdate (n : ParcelNo) (f : DirEntry → DirEntry) (hf : ∀ e, (f e).number = e.number) (hs : P s) :
    P (s.dirUpdate n f) :=
  h.eng _ ⟨rfl, rfl, rfl, rfl, rfl, rfl, rfl, rfl⟩ (numbers_update n f hf s.eng.directory) hs

theorem setRosterEntries (n : ParcelNo) (l : List RosterEntry) (hs : P s) : P (s.setRosterEntries n l) :=
  h.eng _ ⟨rfl, rfl, rfl, rfl, rfl, rfl, rfl, rfl⟩ rfl hs

theorem setHalf (n : ParcelNo) (b : Bool) (hs : P s) : P (s.setHalf n b) := h.dirUpdate _ _ (fun _ => rfl) hs

theorem markWrite (n : ParcelNo) (hs : P s) : P (s.markWrite n) :=
  h.eng _ ⟨rfl, rfl, rfl, rfl, rfl, rfl, rfl, rfl⟩ rfl hs

theorem writeBack (i : ContextId) (hs : P s) : P (s.writeBack i) := by
  unfold State.writeBack
  split
  · split
    · exact h.setContext _ _ (h.put _ hs)
    · exact hs
  · exact hs

theorem closeContext (i : ContextId) (hs : P s) : P (s.closeContext i) := by
  unfold State.closeContext
  split
  · exact h.dirUpdate _ _ (fun _ => rfl) (h.setContext _ _ (h.writeBack _ hs))
  · exact hs

theorem openParcel (n : ParcelNo) (hs : P s) : P (s.openParcel n) := by
  unfold State.openParcel
  split
  · exact hs
  · split
    · exact h.touch _ hs
    · split
      · exact hs
      · exact h.touch _ (h.dirUpdate _ _ (fun _ => rfl) (h.setContext _ _ (h.closeContext _ hs)))

theorem modify (n : ParcelNo) (f : ParcelRecord → ParcelRecord) (hs : P s) : P (s.modify n f) := by
  unfold State.modify
  split
  · exact hs
  · split
    · exact hs
    · split
      · exact hs
      · split
        · exact h.touch _ (h.dirUpdate _ _ (fun _ => rfl) (h.setContext _ _ hs))
        · exact hs

theorem setItem (n : ParcelNo) (k : Nat) (f : RosterItem → RosterItem) (hs : P s) : P (s.setItem n k f) :=
  h.modify _ _ hs

theorem writeThrough (n : ParcelNo) (hs : P s) : P (s.writeThrough n) := by
  unfold State.writeThrough
  split
  · split
    · exact h.writeBack _ hs
    · exact hs
  · exact hs

theorem finishWrites (hs : P s) : P s.finishWrites :=
  h.eng _ ⟨rfl, rfl, rfl, rfl, rfl, rfl, rfl, rfl⟩ rfl (fold_keeps _ (fun _ _ ht => h.writeThrough _ ht) _ hs)

theorem postAll (l : List NoticeBody) (hs : P s) : P (s.postAll l) := fold_keeps _ (fun _ _ ht => h.post _ ht) _ hs

/-! ## The life of a parcel -/

theorem postState (n : ParcelNo) (c : NoticeCause) (hs : P s) : P (postState n c s) := by
  unfold Machine.postState
  split
  · exact h.post _ hs
  · exact hs

theorem changeState (n : ParcelNo) (f : ParcelRecord → ParcelRecord) (c : NoticeCause) (hs : P s) :
    P (changeState n f c s) := h.markWrite _ (h.postState _ _ (h.modify _ _ hs))

theorem offerAlarm (n : ParcelNo) (hs : P s) : P (offerAlarm n s).2 := by
  unfold Machine.offerAlarm
  split
  · exact hs
  · dsimp only
    exact h.modify _ _ (h.offer _ _ hs)

theorem setAlarm (n : ParcelNo) (a : AlarmRecord) (hs : P s) : P (setAlarm n a s) := h.modify _ _ hs

theorem postAlarm (n : ParcelNo) (r : Bool) (f : FrameFate) (hs : P s) : P (postAlarm n r f s) := by
  unfold Machine.postAlarm
  split
  · exact hs
  · exact h.post _ hs

theorem moveAlarm (n : ParcelNo) (r : Bool) (hs : P s) : P (moveAlarm n r s) :=
  h.markWrite _ (h.postAlarm _ _ _ (h.offerAlarm _ (h.setAlarm _ _ hs)))

theorem clearAlarmWithFrame (n : ParcelNo) (hs : P s) : P (clearAlarmWithFrame n s) := by
  unfold Machine.clearAlarmWithFrame
  split
  · exact hs
  · split
    · exact h.moveAlarm _ _ hs
    · exact h.setAlarm _ _ hs

theorem clearAlarmSilently (n : ParcelNo) (hs : P s) : P (clearAlarmSilently n s) := by
  unfold Machine.clearAlarmSilently
  split
  · exact hs
  · split
    · exact h.markWrite _ (h.postAlarm _ _ _ (h.setAlarm _ _ hs))
    · exact h.setAlarm _ _ hs

theorem unbind (n : ParcelNo) (hs : P s) : P (unbind n s) :=
  h.modify _ _ (h.acc _ (sameIntake_unbindParcel _ _) hs)

theorem unbindIfBound (n : ParcelNo) (hs : P s) : P (unbindIfBound n s) := by
  unfold Machine.unbindIfBound
  split
  · split
    · exact h.unbind _ hs
    · exact hs
  · exact hs

theorem enterVoid (n : ParcelNo) (w : VoidReason) (c : NoticeCause) (hs : P s) : P (enterVoid n w c s) :=
  h.setHalf _ _ (h.changeState _ _ _ (h.unbindIfBound _ (h.clearAlarmSilently _ hs)))

theorem discardContext (n : ParcelNo) (hs : P s) : P (discardContext n s) := by
  unfold Machine.discardContext
  split
  · split
    · exact h.setContext _ _ hs
    · exact hs
  · exact hs

theorem removeParcel (n : ParcelNo) (c : NoticeCause) (hs : P s) : P (removeParcel n c s) := by
  unfold Machine.removeParcel
  split
  · exact hs
  · exact h.post _ (h.removed _
      (h.discardContext _ (h.delete _ (h.acc _ (sameIntake_unbindParcel _ _) hs))))

theorem offerVote (n : ParcelNo) (hs : P s) : P (offerVote n s) := by
  unfold Machine.offerVote
  split
  · exact hs
  · split
    · exact hs
    · exact h.modify _ _ (h.offer _ _ hs)

theorem reconcileIfComplete (n : ParcelNo) (hs : P s) : P (reconcileIfComplete n s) := by
  unfold Machine.reconcileIfComplete
  split
  · split
    · exact h.offerVote _ (h.changeState _ _ _ hs)
    · exact hs
  · exact hs

theorem enterDisputed (n : ParcelNo) (hs : P s) : P (enterDisputed n s) := h.setHalf _ _ (h.changeState _ _ _ hs)

theorem enterLapsed (n : ParcelNo) (hs : P s) : P (enterLapsed n s) := h.setHalf _ _ (h.changeState _ _ _ hs)

theorem enterAgreed (n : ParcelNo) (hs : P s) : P (enterAgreed n s) :=
  h.setHalf _ _ (h.changeState _ _ _ (h.unbind _ hs))

theorem decide93 (n : ParcelNo) (hs : P s) : P (decide93 n s) := by
  unfold Machine.decide93
  split
  · exact hs
  · split
    · exact h.enterDisputed _ hs
    · split
      · split
        · exact h.enterAgreed _ hs
        · exact h.enterDisputed _ hs
      · exact hs

theorem testPersistence (n : ParcelNo) (hs : P s) : P (testPersistence n s) := by
  unfold Machine.testPersistence
  split
  · exact hs
  · split
    · exact hs
    · split
      · exact h.moveAlarm _ _ hs
      · exact hs

theorem evaluate (n : ParcelNo) (hs : P s) : P (evaluate n s) := by
  unfold Machine.evaluate
  have ht := h.modify n (evaluated s.now) hs
  dsimp only
  split
  · split
    · split
      · exact h.testPersistence _ ht
      · exact ht
    · exact ht
  · exact ht

/-! ## Intake entries -/

theorem applyLegal (p : Phase) (n : ParcelNo) (reason : Byte) (t : Second) (hs : P s) :
    P (applyLegal p n reason t s) := by
  cases p with
  | opening => exact h.changeState _ _ _ hs
  | start =>
    show P (applyStart n reason s)
    unfold applyStart
    have ht := h.modify n (fun r => { r with roster := r.roster.map substituteOpening }) hs
    dsimp only
    split
    · exact ht
    · exact h.changeState _ _ _ (h.postAll _ ht)
  | stop => exact h.clearAlarmWithFrame _ (h.setHalf _ _ (h.changeState _ _ _ hs))
  | regauge =>
    show P (applyRegauge n reason t s)
    unfold applyRegauge
    split
    · exact hs
    · exact h.withdraw _ (h.setHalf _ _ (h.changeState _ _ _ hs))
  | cancel => exact h.enterVoid _ _ _ (h.clearAlarmWithFrame _ hs)
  | release => exact h.removeParcel _ _ hs

theorem applyPhase (e : IntakeEntry) (hs : P s) : P (applyPhase e s) := by
  unfold Machine.applyPhase
  have ht := h.openParcel e.parcel hs
  split
  · exact hs
  · split
    · exact h.bump _ hs
    · dsimp only
      split
      · exact ht
      · split
        · exact h.applyLegal _ _ _ _ (h.modify _ _ ht)
        · exact h.bump _ ht

theorem takeOpening (n : ParcelNo) (k : Nat) (d : Declaration) (r : Reading) (st : ParcelState) (i : RosterItem)
    (hs : P s) : P (takeOpening n k d r st i s) := by
  unfold Machine.takeOpening
  split
  · split
    · exact h.setItem _ _ _ hs
    · exact h.bump _ hs
  · exact h.bump _ hs

theorem takeClosing (n : ParcelNo) (k : Nat) (d : Declaration) (r : Reading) (st : ParcelState) (i : RosterItem)
    (hs : P s) : P (takeClosing n k d r st i s) := by
  unfold Machine.takeClosing
  split
  · split
    · exact h.bump _ hs
    · split
      · exact h.reconcileIfComplete _ (h.setItem _ _ _ hs)
      · exact h.bump _ hs
  · exact h.bump _ hs

theorem takeRecord (k : Kind) (p : List Byte) (e : RosterEntry) (hs : P s) : P (takeRecord k p e s) := by
  unfold Machine.takeRecord
  split
  · exact h.bump _ hs
  · split
    · exact h.bump _ hs
    · have ht := h.openParcel e.parcel hs
      dsimp only
      split
      · exact ht
      · split
        · split
          · exact h.bump _ ht
          · split
            · exact h.takeOpening _ _ _ _ _ _ ht
            · exact h.takeClosing _ _ _ _ _ _ ht
        · exact ht

theorem applyRecord (e : IntakeEntry) (hs : P s) : P (applyRecord e s) := by
  unfold Machine.applyRecord
  dsimp only
  split
  · split
    · exact h.bump _ hs
    · exact h.bump _ hs
  · exact fold_keeps _ (fun _ _ ht => h.takeRecord _ _ _ ht) _ hs

theorem judgeVote (e : IntakeEntry) (v : VoteData) (r : ParcelRecord) (hs : P s) : P (judgeVote e v r s) := by
  unfold Machine.judgeVote
  split
  · exact h.bump _ hs
  · split
    · exact h.bump _ hs
    · split
      · exact h.bump _ hs
      · split
        · exact hs
        · exact h.decide93 _ (h.modify _ _ hs)

theorem applyVote (e : IntakeEntry) (hs : P s) : P (applyVote e s) := by
  unfold Machine.applyVote
  have ht := h.openParcel e.parcel hs
  split
  · exact hs
  · split
    · exact h.bump _ hs
    · dsimp only
      split
      · exact ht
      · exact h.judgeVote _ _ _ ht

theorem applyFigure (e : IntakeEntry) (hs : P s) : P (applyFigure e s) := by
  unfold Machine.applyFigure
  have ht := h.openParcel e.parcel hs
  dsimp only
  repeat' split
  all_goals first | exact hs | exact ht | exact h.modify _ _ ht

theorem peerRefusal (e : IntakeEntry) (reason : Byte) (r : ParcelRecord) (hs : P s) :
    P (peerRefusal e reason r s) := by
  unfold Machine.peerRefusal
  split
  · split
    · exact h.enterVoid _ _ _ hs
    · exact hs
  · exact hs

theorem applyAlarm (e : IntakeEntry) (hs : P s) : P (applyAlarm e s) := by
  unfold Machine.applyAlarm
  have ht := h.openParcel e.parcel hs
  dsimp only
  repeat' split
  all_goals first
    | exact hs | exact ht | exact h.peerRefusal _ _ _ ht
    | exact h.markWrite _ (h.post _ (h.modify _ _ ht))

/-! ## Declarations -/

/-- Acceptance, of a parcel number that is free while the table has room. -/
theorem accept (n : ParcelNo) (d : Declaration) (items : List DeclaredItem) (h0 : n ≠ 0#4) (hn : n ∉ s.eng.numbers)
    (hl : s.eng.numbers.length < 6) (hs : P s) : P (accept n d items s) := by
  unfold Machine.accept
  have hb : SameIntake (bindNew n d items s.acc).2 (s.closeContext s.eng.victim).acc := by
    have : (s.closeContext s.eng.victim).acc = s.acc := by
      unfold State.closeContext State.writeBack State.storePut
      repeat' split
      all_goals rfl
    rw [this]
    exact sameIntake_bindRoster _ _ _ _
  have hk := numbers_closeContext s s.eng.victim
  refine h.markWrite _ (h.postState _ _ (h.setRosterEntries _ _ ?_))
  refine h.touch _ (h.dirUpdate _ _ (fun _ => rfl) (h.setContext _ _ (h.admitted _ h0 ?_ ?_ ?_)))
  · exact fun hm => hn (hk ▸ hm)
  · exact lt_of_eq_of_lt (congrArg List.length hk) hl
  · exact h.acc _ hb (h.closeContext _ hs)

theorem refuse (n : ParcelNo) (src : Station) (r : RefusalReason) (hs : P s) : P (refuse n src r s) :=
  h.post _ (h.offer _ _ hs)

theorem declareConflict (n : ParcelNo) (src : Station) (st : ParcelState) (hs : P s) :
    P (declareConflict n src st s) := h.post _ (h.bump _ hs)

theorem amend (src : Station) (n : ParcelNo) (p : Part0) (items : List DeclaredItem) (hs : P s) :
    P (amend src n p items s) := by
  unfold Machine.amend
  have ht := h.unbind n hs
  dsimp only
  split
  · exact h.setHalf _ _ (h.changeState _ _ _ (h.setRosterEntries _ _ (h.acc _ (sameIntake_bindRoster _ _ _ _) ht)))
  · exact h.refuse _ _ _ (h.enterVoid _ _ _ ht)

theorem openIfDeclared (n : ParcelNo) (hs : P s) : P (openIfDeclared n s) := by
  unfold Machine.openIfDeclared
  split
  · split
    · exact h.openParcel _ hs
    · exact hs
  · exact hs

theorem failAssembly (src : Station) (n : ParcelNo) (hs : P s) : P (failAssembly src n s) := by
  unfold Machine.failAssembly
  have ht := h.openIfDeclared n hs
  dsimp only
  split
  · exact h.refuse _ _ _ hs
  · split
    · exact h.refuse _ _ _ (h.enterVoid _ _ _ ht)
    · exact h.declareConflict _ _ _ ht

theorem completeDeclaration (src : Station) (n : ParcelNo) (p : Part0) (items : List DeclaredItem) (h0 : n ≠ 0#4)
    (hs : P s) : P (completeDeclaration src n p items s) := by
  unfold Machine.completeDeclaration
  have ht := h.openIfDeclared n hs
  dsimp only
  split
  · rename_i hf
    split
    · rename_i hv
      exact h.accept _ _ _ h0 (dirFind_none hf) (room_of_validate hf hv) hs
    · exact h.refuse _ _ _ hs
  · split
    · exact h.amend _ _ _ _ ht
    · exact h.declareConflict _ _ _ ht

/-! ## The bodies of the services -/

theorem takeRoutine (b : BoundEntry) (a : Second) (r : TankReading) (hs : P s) : P (takeRoutine b a r s) := by
  unfold Machine.takeRoutine
  dsimp only
  repeat' split
  all_goals first
    | exact hs | exact h.evaluate _ (h.setItem _ _ _ hs) | exact h.setItem _ _ _ hs | exact h.bump _ hs

theorem takeReading (b : BoundEntry) (w : WaitingReading) (hs : P s) : P (takeReading b w s) := by
  unfold Machine.takeReading
  split
  · exact h.bump _ hs
  · exact h.takeRoutine _ _ _ (h.openParcel _ hs)

theorem restartWindow (n : ParcelNo) (hs : P s) : P (restartWindow s n) := by
  unfold Machine.restartWindow
  split
  · split
    · exact h.setHalf _ _ (h.modify _ _ (h.openParcel _ hs))
    · exact hs
  · exact hs

theorem expireWindow (n : ParcelNo) (hs : P s) : P (expireWindow n s) := by
  unfold Machine.expireWindow
  split
  · split
    · exact h.enterLapsed _ (h.openParcel _ hs)
    · exact hs
  · exact hs

theorem offerRequest (n : ParcelNo) (k : Nat) (hs : P s) : P (offerRequest n s k) := by
  unfold Machine.offerRequest
  dsimp only
  repeat' split
  all_goals first | exact hs | exact h.offer _ _ hs | exact h.setItem _ _ _ (h.offer _ _ hs)

theorem offerRequests (n : ParcelNo) (hs : P s) : P (offerRequests n s) := by
  unfold Machine.offerRequests
  split
  · exact hs
  · exact fold_keeps _ (fun _ _ ht => h.offerRequest _ _ ht) _ hs

theorem passHalf (n : ParcelNo) (hs : P s) : P (passHalf n s) := by
  unfold Machine.passHalf
  split
  · split
    · exact h.offerRequests _ (h.setHalf _ _ (h.openParcel _ hs))
    · exact hs
  · exact hs

theorem persistenceTest (n : ParcelNo) (hs : P s) : P (persistenceTest n s) := by
  unfold Machine.persistenceTest
  split
  · split
    · exact h.testPersistence _ (h.openParcel _ hs)
    · exact hs
  · exact hs

theorem dutyParcel (n : ParcelNo) (hs : P s) : P (dutyParcel s n) :=
  h.persistenceTest _ (h.passHalf _ (h.expireWindow _ hs))

theorem retryVote (n : ParcelNo) (hs : P s) : P (retryVote n s) := by
  unfold Machine.retryVote
  split
  · split
    · exact h.offerVote _ hs
    · exact hs
  · exact hs

theorem retryAlarm (n : ParcelNo) (hs : P s) : P (retryAlarm n s) := by
  unfold Machine.retryAlarm
  split
  · split
    · exact h.offerAlarm _ hs
    · exact hs
  · exact hs

theorem retryParcel (n : ParcelNo) (hs : P s) : P (retryParcel s n) := by
  unfold Machine.retryParcel
  split
  · split
    · exact h.retryAlarm _ (h.retryVote _ (h.openParcel _ hs))
    · exact hs
  · exact hs

/-- Every retry and both closings of a checkpoint, after its flag is cleared. -/
theorem checkpointWork (hs : P s) : P (((allNumbers.foldl Machine.retryParcel s).closeContext .w0).closeContext .w1) :=
  h.closeContext _ (h.closeContext _ (fold_keeps _ (fun _ _ ht => h.retryParcel _ ht) _ hs))

theorem closeNamed (n : ParcelNo) (hs : P s) : P (closeNamed n s) := by
  unfold Machine.closeNamed
  split
  · split
    · exact h.closeContext _ hs
    · exact hs
  · exact hs

theorem readStored (b : Byte) (f : ParcelRecord → Response) (hs : P s) : P (readStored b f s).2 := by
  unfold Machine.readStored
  dsimp only
  repeat' split
  all_goals first | exact hs | exact h.closeNamed _ hs

theorem dropParcel (b : Byte) (hs : P s) : P (dropParcel b s).2 := by
  unfold Machine.dropParcel
  repeat' split
  all_goals first | exact hs | exact h.removeParcel _ _ hs

theorem portAnswer (r : EngineRequest) (hs : P s) : P (portAnswer r s).2 := by
  cases r with
  | readParcel b => exact h.readStored _ _ hs
  | readRosterItem b i => exact h.readStored _ _ hs
  | readVotes b => exact h.readStored _ _ hs
  | readAcceptance => exact hs
  | dropParcel b => exact h.dropParcel _ hs

theorem closeUnneeded (l : List ParcelNo) (i : ContextId) (hs : P s) : P (closeUnneeded l i s) := by
  unfold Machine.closeUnneeded
  split
  · split
    · exact hs
    · exact h.closeContext _ hs
  · exact hs

theorem burstClose (hs : P s) : P (burstClose s) := by
  unfold Machine.burstClose
  split
  · exact hs
  · exact h.closeUnneeded _ _ (h.closeUnneeded _ _ hs)

theorem idleClose (hs : P s) : P (idleClose s) := by
  unfold Machine.idleClose
  split
  · exact h.burstClose hs
  · exact hs

/-- The end of a service, for a property that the build moment keeps too. -/
theorem endService (hb : ∀ t, P t → P (buildAll t)) (hs : P s) : P (endService s) :=
  h.idleClose (hb _ (h.finishWrites hs))

/-- One part of the second duty. -/
theorem dutyPart (part : State → State) (hp : ∀ t, P t → P (part t)) (hs : P s) : P (dutyPart part s) := by
  unfold Machine.dutyPart
  split
  · exact h.finishWrites (hp _ (h.burstClose hs))
  · exact hs

end RecordClosed

namespace EngineClosed

variable {P : State → Prop} (h : EngineClosed P) {s : State}

include h

theorem applyPresence (e : IntakeEntry) (hs : P s) : P (applyPresence e s) := by
  unfold Machine.applyPresence
  split
  · exact h.hear _ hs
  · exact hs

theorem startAssembly (b : Fin 2) (e : IntakeEntry) (p : Part0) (h0 : e.parcel ≠ 0#4) (hs : P s) :
    P (startAssembly b e p s) := by
  unfold Machine.startAssembly
  split
  · exact h.buffer _ _ hs
  · exact h.completeDeclaration _ _ _ _ h0 (h.buffer _ _ hs)

theorem takePart0 (e : IntakeEntry) (h0 : e.parcel ≠ 0#4) (hs : P s) : P (takePart0 e s) := by
  unfold Machine.takePart0
  repeat' split
  all_goals first
    | exact hs | exact h.buffer _ _ hs | exact h.startAssembly _ _ _ h0 hs | exact h.bump _ hs
    | exact h.failAssembly _ _ hs

theorem takeRosterPart (e : IntakeEntry) (h0 : e.parcel ≠ 0#4) (hs : P s) : P (takeRosterPart e s) := by
  unfold Machine.takeRosterPart
  dsimp only
  repeat' split
  all_goals first
    | exact hs | exact h.bump _ hs | exact h.buffer _ _ hs
    | exact h.failAssembly _ _ (h.buffer _ _ hs) | exact h.completeDeclaration _ _ _ _ h0 (h.buffer _ _ hs)

theorem applyDeclare (e : IntakeEntry) (hs : P s) : P (applyDeclare e s) := by
  unfold Machine.applyDeclare
  split
  · exact hs
  · rename_i hc
    have h0 : e.parcel ≠ 0#4 := fun he => hc (by simp [he])
    split
    · exact h.takePart0 _ h0 hs
    · exact h.takeRosterPart _ h0 hs

theorem timeoutAssembly (b : Fin 2) (hs : P s) : P (timeoutAssembly b s) := by
  unfold Machine.timeoutAssembly
  split
  · split
    · exact h.failAssembly _ _ (h.buffer _ _ hs)
    · exact hs
  · exact hs

theorem applyEntry (e : IntakeEntry) (hs : P s) : P (applyEntry e s) := by
  unfold Machine.applyEntry
  split
  · exact h.applyPhase _ hs
  · exact h.applyVote _ hs
  · exact h.applyRecord _ hs
  · exact h.applyDeclare _ hs
  · exact h.applyAlarm _ hs
  · exact h.applyRecord _ hs
  · exact h.applyFigure _ hs
  · exact h.applyPresence _ hs
  · exact hs

theorem applyUnlessUnnumbered (e : IntakeEntry) (hs : P s) : P (applyUnlessUnnumbered e s) := by
  unfold Machine.applyUnlessUnnumbered
  split
  · exact hs
  · exact h.applyEntry _ hs

theorem restartWindows (hs : P s) : P (restartWindows s) := by
  unfold Machine.restartWindows
  split
  · have ht : P (allNumbers.foldl Machine.restartWindow s) := fold_keeps _ (fun _ _ ht => h.restartWindow _ ht) _ hs
    revert ht
    generalize allNumbers.foldl Machine.restartWindow s = t
    intro ht
    exact h.restart ht
  · exact hs

/-- Every part of a second duty, after its flag is cleared. -/
theorem dutyWork (hs : P s) :
    P (allNumbers.foldl Machine.dutyParcel
      (Machine.restartWindows (Machine.timeoutAssembly 1 (Machine.timeoutAssembly 0 s)))) :=
  fold_keeps _ (fun _ _ ht => h.dutyParcel _ ht) _
    (h.restartWindows (h.timeoutAssembly _ (h.timeoutAssembly _ hs)))

end EngineClosed

end Sys2Proof.Machine
end

