-- ==== Sys2Proof/Laws/Queue.lean ====
section
/-! SUPPORT. What an offer, a withdrawal, a notice, an arrival and a build moment do to the queues and counts. -/

namespace Sys2Proof.Machine

/-! ## Counters and notices -/

theorem saturate_le (n : Nat) : saturate n ≤ 65535 := Nat.min_le_left _ _

theorem raise_le (c : Counters) (k : Counter) (h : ∀ n ∈ c.toList, n ≤ 65535) :
    ∀ n ∈ (c.raise k).toList, n ≤ 65535 := by
  simp only [Counters.toList, List.mem_cons, List.not_mem_nil, or_false, forall_eq_or_imp, forall_eq] at h
  obtain ⟨h1, h2, h3, h4, h5, h6, h7, h8, h9, h10, h11⟩ := h
  cases k <;> simp [Counters.toList, Counters.raise, saturate_le, h1, h2, h3, h4, h5, h6, h7, h8, h9, h10, h11]

@[simp] theorem bump_line (s : State) (c : Counter) : (s.bump c).line = s.line := rfl
@[simp] theorem bump_acc (s : State) (c : Counter) : (s.bump c).acc = s.acc := rfl
@[simp] theorem bump_eng (s : State) (c : Counter) : (s.bump c).eng = s.eng := rfl
@[simp] theorem bump_store (s : State) (c : Counter) : (s.bump c).store = s.store := rfl
@[simp] theorem bump_storeLog (s : State) (c : Counter) : (s.bump c).storeLog = s.storeLog := rfl
@[simp] theorem bump_tmr (s : State) (c : Counter) : (s.bump c).tmr = s.tmr := rfl
@[simp] theorem bump_port (s : State) (c : Counter) : (s.bump c).port = s.port := rfl
@[simp] theorem bump_sup (s : State) (c : Counter) : (s.bump c).sup = s.sup := rfl
@[simp] theorem bump_pending (s : State) (c : Counter) : (s.bump c).pending = s.pending := rfl
@[simp] theorem bump_counters (s : State) (c : Counter) : (s.bump c).counters = s.counters.raise c := rfl

@[simp] theorem post_line (s : State) (b : NoticeBody) : (s.post b).line = s.line := by
  unfold State.post; split <;> rfl
@[simp] theorem post_acc (s : State) (b : NoticeBody) : (s.post b).acc = s.acc := by
  unfold State.post; split <;> rfl
@[simp] theorem post_eng (s : State) (b : NoticeBody) : (s.post b).eng = s.eng := by
  unfold State.post; split <;> rfl
@[simp] theorem post_store (s : State) (b : NoticeBody) : (s.post b).store = s.store := by
  unfold State.post; split <;> rfl
@[simp] theorem post_storeLog (s : State) (b : NoticeBody) : (s.post b).storeLog = s.storeLog := by
  unfold State.post; split <;> rfl
@[simp] theorem post_tmr (s : State) (b : NoticeBody) : (s.post b).tmr = s.tmr := by
  unfold State.post; split <;> rfl
@[simp] theorem post_sup (s : State) (b : NoticeBody) : (s.post b).sup = s.sup := by
  unfold State.post; split <;> rfl
@[simp] theorem post_pending (s : State) (b : NoticeBody) : (s.post b).pending = s.pending := by
  unfold State.post; split <;> rfl
@[simp] theorem post_portState (s : State) (b : NoticeBody) : (s.post b).port.state = s.port.state := by
  unfold State.post; split <;> rfl
@[simp] theorem post_busy (s : State) (b : NoticeBody) : (s.post b).port.busy = s.port.busy := by
  unfold State.post; split <;> rfl
@[simp] theorem post_select (s : State) (b : NoticeBody) : (s.post b).port.select = s.port.select := by
  unfold State.post; split <;> rfl
@[simp] theorem post_pdo (s : State) (b : NoticeBody) : (s.post b).port.pdo = s.port.pdo := by
  unfold State.post; split <;> rfl

/-- A notice that finds fewer than 16 is appended with the present second, and no counter moves. -/
theorem post_room (s : State) (b : NoticeBody) (h : s.port.notices.length < 16) :
    (s.post b).port.notices = s.port.notices ++ [{ second := s.tmr.seconds, body := b }] ∧
      (s.post b).counters = s.counters := by
  have h' : s.port.notices.length < Config.noticeSize := h
  simp [State.post, h']

theorem bounded_bump {s : State} (c : Counter) (h : s.Bounded) : (s.bump c).Bounded :=
  ⟨h.1, h.2.1, h.2.2.1, h.2.2.2.1, h.2.2.2.2.1, raise_le _ _ h.2.2.2.2.2⟩

theorem bounded_post {s : State} (b : NoticeBody) (h : s.Bounded) : (s.post b).Bounded := by
  unfold State.post
  split
  · rename_i hl
    refine ⟨h.1, h.2.1, ?_, h.2.2.2.1, h.2.2.2.2.1, h.2.2.2.2.2⟩
    have : s.port.notices.length < 16 := hl
    simp only [State.setPort_port, List.length_append, List.length_cons, List.length_nil]
    omega
  · exact bounded_bump _ h

/-! ## The outbound queue -/

/-- A change of the queue alone keeps the limits if the queue stays within its own. -/
theorem bounded_setOutbound {s : State} (l : List QueuedFrame) (hl : l.length ≤ 10) (h : s.Bounded) :
    (s.setOutbound l).Bounded := ⟨hl, h.2⟩

theorem hasKey_iff (k : FrameKey) (l : List QueuedFrame) : hasKey k l = true ↔ k ∈ l.map QueuedFrame.key := by
  simp [hasKey]

theorem removeKey_keys (k : FrameKey) (l : List QueuedFrame) :
    (removeKey k l).map QueuedFrame.key = (l.map QueuedFrame.key).filter (fun x => x != k) := by
  simp [removeKey, List.filter_map, Function.comp_def]

theorem highestKey_mem (l : List QueuedFrame) (h : QueuedFrame) (hh : highestKey l = some h) : h ∈ l := by
  induction l generalizing h with
  | nil => simp [highestKey] at hh
  | cons q rest ih =>
    unfold highestKey at hh
    split at hh
    · cases hh; exact List.mem_cons_self
    · rename_i g hg
      split at hh
      · cases hh; exact List.mem_cons_self
      · cases hh; exact List.mem_cons_of_mem _ (ih _ hg)

theorem removeKey_length_lt (l : List QueuedFrame) (q : QueuedFrame) (hq : q ∈ l) :
    (removeKey q.key l).length < l.length := by
  unfold removeKey
  apply List.length_filter_lt_length_iff_exists.mpr
  exact ⟨q, hq, by simp⟩

theorem removeKey_length_le (k : FrameKey) (l : List QueuedFrame) : (removeKey k l).length ≤ l.length :=
  List.length_filter_le _ _

/-- The keys of a mapped queue, when the map keeps keys. -/
theorem map_keys (f : QueuedFrame → QueuedFrame) (hf : ∀ q, (f q).key = q.key) (l : List QueuedFrame) :
    (l.map f).map QueuedFrame.key = l.map QueuedFrame.key := by
  simp [hf]

theorem replacePayload_key (p : List Byte) (b : Bool) (q : QueuedFrame) : (replacePayload p b q).key = q.key := by
  unfold replacePayload; split <;> rfl

theorem bounded_offer {s : State} (f : OfferedFrame) (listed : Bool) (h : s.Bounded) :
    (offer f listed s).2.Bounded := by
  unfold offer
  split
  · exact h
  split
  · split
    · exact bounded_setOutbound _ (by simpa using h.1) h
    · exact h
  split
  · rename_i hl
    have : s.line.outbound.length < 10 := hl
    exact bounded_setOutbound _ (by simp only [List.length_append, List.length_cons, List.length_nil]; omega) h
  split
  · split
    · rename_i q hq
      have hm : q ∈ s.line.outbound := List.mem_of_mem_filter (highestKey_mem _ _ hq)
      have := removeKey_length_lt _ _ hm
      have := h.1
      split
      · refine bounded_bump _ (bounded_setOutbound _ ?_ h)
        simp only [List.length_append, List.length_cons, List.length_nil]
        omega
      · exact h
    · exact h
  · exact h

theorem nodup_removeKey_append (l : List QueuedFrame) (q : QueuedFrame) (k : FrameKey)
    (h : (l.map QueuedFrame.key).Nodup) (hk : q.key ∉ l.map QueuedFrame.key) :
    ((removeKey k l ++ [q]).map QueuedFrame.key).Nodup := by
  rw [List.map_append, removeKey_keys, List.nodup_append]
  refine ⟨h.filter _, by simp, ?_⟩
  intro a ha b hb hab
  simp only [List.map_cons, List.map_nil, List.mem_singleton] at hb
  exact hk (hb ▸ hab ▸ (List.mem_filter.mp ha).1)

theorem nodup_append_one (l : List QueuedFrame) (q : QueuedFrame)
    (h : (l.map QueuedFrame.key).Nodup) (hk : q.key ∉ l.map QueuedFrame.key) :
    ((l ++ [q]).map QueuedFrame.key).Nodup := by
  rw [List.map_append, List.nodup_append]
  refine ⟨h, by simp, ?_⟩
  intro a ha b hb hab
  simp only [List.map_cons, List.map_nil, List.mem_singleton] at hb
  exact hk (hb ▸ hab ▸ ha)

theorem keysDistinct_offer {s : State} (f : OfferedFrame) (listed : Bool) (h : s.KeysDistinct) :
    (offer f listed s).2.KeysDistinct := by
  unfold offer
  split
  · exact h
  split
  · split
    · show ((s.line.outbound.map _).map QueuedFrame.key).Nodup
      rw [map_keys _ (fun q => by split; exact replacePayload_key _ _ _; rfl)]
      exact h
    · exact h
  rename_i hk
  have hk' : (newQueued f listed).key ∉ s.line.outbound.map QueuedFrame.key := by
    intro hc
    exact hk ((hasKey_iff _ _).mpr hc)
  split
  · exact nodup_append_one _ _ h hk'
  split
  · split
    · split
      · exact nodup_removeKey_append _ _ _ h hk'
      · exact h
    · exact h
  · exact h

theorem withdraw_length (k : FrameKey) (s : State) : (withdraw k s).line.outbound.length ≤ s.line.outbound.length := by
  simp only [withdraw, State.setOutbound, State.setLine_line, List.length_map]
  exact List.length_filter_le _ _

theorem bounded_withdraw {s : State} (k : FrameKey) (h : s.Bounded) : (withdraw k s).Bounded :=
  bounded_setOutbound _ (le_trans (withdraw_length k s) h.1) h

theorem nodup_filter_keys (p : QueuedFrame → Bool) (l : List QueuedFrame) (h : (l.map QueuedFrame.key).Nodup) :
    ((l.filter p).map QueuedFrame.key).Nodup :=
  h.sublist (List.filter_sublist.map _)

theorem keysDistinct_withdraw {s : State} (k : FrameKey) (h : s.KeysDistinct) : (withdraw k s).KeysDistinct := by
  show (((s.line.outbound.filter _).map _).map QueuedFrame.key).Nodup
  rw [map_keys _ (fun q => by split <;> rfl)]
  exact nodup_filter_keys _ _ h

/-! ## What an offer leaves alone -/

@[simp] theorem offer_acc (f : OfferedFrame) (b : Bool) (s : State) : (offer f b s).2.acc = s.acc := by
  unfold offer; repeat' split
  all_goals rfl
@[simp] theorem offer_eng (f : OfferedFrame) (b : Bool) (s : State) : (offer f b s).2.eng = s.eng := by
  unfold offer; repeat' split
  all_goals rfl
@[simp] theorem offer_store (f : OfferedFrame) (b : Bool) (s : State) : (offer f b s).2.store = s.store := by
  unfold offer; repeat' split
  all_goals rfl
@[simp] theorem offer_storeLog (f : OfferedFrame) (b : Bool) (s : State) : (offer f b s).2.storeLog = s.storeLog := by
  unfold offer; repeat' split
  all_goals rfl
@[simp] theorem offer_tmr (f : OfferedFrame) (b : Bool) (s : State) : (offer f b s).2.tmr = s.tmr := by
  unfold offer; repeat' split
  all_goals rfl
@[simp] theorem offer_port (f : OfferedFrame) (b : Bool) (s : State) : (offer f b s).2.port = s.port := by
  unfold offer; repeat' split
  all_goals rfl
@[simp] theorem offer_sup (f : OfferedFrame) (b : Bool) (s : State) : (offer f b s).2.sup = s.sup := by
  unfold offer; repeat' split
  all_goals rfl
@[simp] theorem offer_pending (f : OfferedFrame) (b : Bool) (s : State) : (offer f b s).2.pending = s.pending := by
  unfold offer; repeat' split
  all_goals rfl

/-- An offer changes of the line its queue alone. -/
theorem offer_line (f : OfferedFrame) (b : Bool) (s : State) :
    ∃ l, (offer f b s).2.line = { s.line with outbound := l } := by
  unfold offer
  repeat' split
  all_goals exact ⟨_, rfl⟩

/-! ## A group (R155) -/

/-- Taking out one key takes out at least one frame that had it, and no more displaceable frames than frames. -/
theorem removeKey_displaceable (k : FrameKey) (l : List QueuedFrame) :
    (l.filter displaceable).length + (removeKey k l).length ≤
      ((removeKey k l).filter displaceable).length + l.length := by
  unfold removeKey
  induction l with
  | nil => simp
  | cons q rest ih =>
    by_cases hk : (q.key != k) = true <;> by_cases hd : displaceable q = true <;>
      simp only [List.filter_cons, hk, hd, if_true, List.length_cons, Bool.false_eq_true, if_false] at ih ⊢ <;> omega

/-- Displacing n frames shortens the queue by n, or by every displaceable frame there is. -/
theorem displaceHighest_length (n : Nat) (s : State) :
    (displaceHighest n s).line.outbound.length + min n (s.line.outbound.filter displaceable).length ≤
      s.line.outbound.length := by
  induction n generalizing s with
  | zero => simp [displaceHighest]
  | succ n ih =>
    unfold displaceHighest
    split
    · rename_i hn
      have : s.line.outbound.filter displaceable = [] := by
        cases hl : s.line.outbound.filter displaceable with
        | nil => rfl
        | cons a rest =>
          rw [hl] at hn
          unfold highestKey at hn
          split at hn
          · cases hn
          · split at hn <;> cases hn
      rw [this]
      simp
    · rename_i h hh
      have hm : h ∈ s.line.outbound := List.mem_of_mem_filter (highestKey_mem _ _ hh)
      have h1 := removeKey_length_lt _ _ hm
      have h2 := removeKey_displaceable h.key s.line.outbound
      have h3 := ih ((s.setOutbound (removeKey h.key s.line.outbound)).bump .displacements)
      simp only [bump_line, State.setOutbound, State.setLine_line] at h3 ⊢
      omega

/-- Displacing keeps what a removal and a raise of the displacements count keep. -/
theorem displaceHighest_keeps {P : State → Prop}
    (hr : ∀ (s : State) (k : FrameKey), P s → P ((s.setOutbound (removeKey k s.line.outbound)).bump .displacements))
    (n : Nat) {s : State} (hs : P s) : P (displaceHighest n s) := by
  induction n generalizing s with
  | zero => exact hs
  | succ n ih =>
    unfold displaceHighest
    split
    · exact hs
    · exact ih (hr _ _ hs)

theorem bounded_offerGroup {s : State} (fs : List OfferedFrame) (h : s.Bounded) : (offerGroup fs s).2.Bounded := by
  unfold offerGroup
  split
  · exact h
  split
  · exact h
  dsimp only
  split
  · exact h
  · rename_i hroom
    have hd : (displaceHighest (fs.length - (10 - s.line.outbound.length)) s).Bounded :=
      displaceHighest_keeps (P := State.Bounded)
        (fun s k h => bounded_bump _ (bounded_setOutbound _ (le_trans (removeKey_length_le _ _) h.1) h)) _ h
    have hl := displaceHighest_length (fs.length - (10 - s.line.outbound.length)) s
    have := h.1
    simp only [Config.outboundSize] at hroom ⊢
    refine bounded_setOutbound _ ?_ hd
    simp only [List.length_append, List.length_map]
    omega

theorem displaceHighest_sublist (n : Nat) (s : State) :
    ((displaceHighest n s).line.outbound.map QueuedFrame.key).Sublist (s.line.outbound.map QueuedFrame.key) := by
  induction n generalizing s with
  | zero => exact List.Sublist.refl _
  | succ n ih =>
    unfold displaceHighest
    split
    · exact List.Sublist.refl _
    · exact (ih _).trans (List.filter_sublist.map _)

theorem keysDistinct_offerGroup {s : State} (fs : List OfferedFrame) (hf : (fs.map OfferedFrame.key).Nodup)
    (h : s.KeysDistinct) : (offerGroup fs s).2.KeysDistinct := by
  unfold offerGroup
  split
  · exact h
  split
  · exact h
  rename_i hk
  dsimp only
  split
  · exact h
  · unfold State.KeysDistinct
    simp only [State.setOutbound, State.setLine_line, List.map_append, List.map_map, Function.comp_def, newQueued]
    rw [List.nodup_append]
    refine ⟨h.sublist (displaceHighest_sublist _ _), hf, ?_⟩
    intro a ha b hb hab
    have ha' := (displaceHighest_sublist _ _).subset ha
    obtain ⟨f, hfm, rfl⟩ := List.mem_map.mp hb
    refine hk (List.any_eq_true.mpr ⟨f, hfm, (hasKey_iff _ _).mpr (hab ▸ ha')⟩)

/-! ## The properties of Safety.lean are kept by the primitive changes of a service -/

theorem setBuffer_eq (s : State) (b : Fin 2) (a : Option Assembly) :
    ∃ x y, s.setBuffer b a = s.setEng { s.eng with buf0 := x, buf1 := y } := by
  unfold State.setBuffer
  split
  · exact ⟨_, _, rfl⟩
  · exact ⟨_, _, rfl⟩

/-- A property of a state that says nothing of the engine is kept by every service whose offers and notices keep it. -/
theorem engineClosed_of_record {P : State → Prop} (h : RecordClosed P) (he : ∀ (s : State) (x : Engine), P s → P (s.setEng x)) :
    EngineClosed P where
  toRecordClosed := h
  buffer {s} b a hs := by
    obtain ⟨x, y, e⟩ := setBuffer_eq s b a
    rw [e]
    exact he _ _ hs
  hear _ hs := he _ _ hs
  restart hs := he _ _ hs

theorem bounded_recordClosed : RecordClosed State.Bounded where
  eng _ _ _ h := h
  removed _ h := h
  admitted _ _ _ _ h := h
  put {s} r h := by obtain ⟨x, l, e, -⟩ := storePut_eq s r; rw [e]; exact h
  delete _ h := h
  acc _ ha h := ⟨h.1, ha.1 ▸ h.2.1, h.2.2⟩
  post b h := bounded_post b h
  bump c h := bounded_bump c h
  offer f l h := bounded_offer f l h
  withdraw k h := bounded_withdraw k h

theorem bounded_engineClosed : EngineClosed State.Bounded :=
  engineClosed_of_record bounded_recordClosed (fun _ _ h => h)

theorem keysDistinct_recordClosed : RecordClosed State.KeysDistinct where
  eng _ _ _ h := h
  removed _ h := h
  admitted _ _ _ _ h := h
  put {s} r h := by obtain ⟨x, l, e, -⟩ := storePut_eq s r; rw [e]; exact h
  delete _ h := h
  acc _ _ h := h
  post b h := by unfold State.KeysDistinct; rw [post_line]; exact h
  bump _ h := h
  offer f l h := keysDistinct_offer f l h
  withdraw k h := keysDistinct_withdraw k h

theorem keysDistinct_engineClosed : EngineClosed State.KeysDistinct :=
  engineClosed_of_record keysDistinct_recordClosed (fun _ _ h => h)

theorem pressureAgrees_recordClosed : RecordClosed State.PressureAgrees where
  eng _ _ _ h := h
  removed _ h := h
  admitted _ _ _ _ h := h
  put {s} r h := by obtain ⟨x, l, e, -⟩ := storePut_eq s r; rw [e]; exact h
  delete _ h := h
  acc a ha h := by
    obtain ⟨h1, h2, _, _⟩ := ha
    exact ⟨fun hp => h1 ▸ h.1 (h2 ▸ hp), fun hp => h1 ▸ h.2 (h2 ▸ hp)⟩
  post b h := by unfold State.PressureAgrees; rw [post_acc]; exact h
  bump _ h := h
  offer f l h := by unfold State.PressureAgrees; rw [offer_acc]; exact h
  withdraw _ h := h

theorem pressureAgrees_engineClosed : EngineClosed State.PressureAgrees :=
  engineClosed_of_record pressureAgrees_recordClosed (fun _ _ h => h)

theorem shaped_recordClosed : RecordClosed State.Shaped where
  eng x hx _ h := ⟨h.1, h.2.1, h.2.2.1, hx.2.2.1 ▸ h.2.2.2⟩
  removed _ h := h
  admitted _ _ _ _ h := h
  put {s} r h := by obtain ⟨x, l, e, hx⟩ := storePut_eq s r; rw [e]; exact ⟨hx.trans h.1, h.2⟩
  delete {s} n h := by obtain ⟨x, l, e, hx⟩ := storeDelete_eq s n; rw [e]; exact ⟨hx.trans h.1, h.2⟩
  acc a ha h := ⟨h.1, ha.2.2.1.trans h.2.1, ha.2.2.2.trans h.2.2.1, h.2.2.2⟩
  post b h := by unfold State.Shaped; rw [post_acc, post_eng, post_store]; exact h
  bump _ h := h
  offer f l h := by unfold State.Shaped; rw [offer_acc, offer_eng, offer_store]; exact h
  withdraw _ h := h

theorem shaped_engineClosed : EngineClosed State.Shaped where
  toRecordClosed := shaped_recordClosed
  buffer {s} b a hs := by
    obtain ⟨x, y, e⟩ := setBuffer_eq s b a
    rw [e]
    exact hs
  hear _ hs := hs
  restart hs := hs

/-- What stands outside the engine stays as it is through every service. -/
theorem sameOutside_recordClosed (s₀ : State) : RecordClosed (SameOutside s₀) where
  eng _ _ _ h := h
  removed _ h := h
  admitted _ _ _ _ h := h
  put {s} r h := by obtain ⟨x, l, e, -⟩ := storePut_eq s r; rw [e]; exact h
  delete _ h := h
  acc _ _ h := h
  post b h := by
    unfold SameOutside at *
    rw [post_line, post_tmr, post_sup, post_pdo, post_busy, post_select, post_pending]
    exact h
  bump _ h := h
  offer {s} f l h := by
    obtain ⟨q, hq⟩ := offer_line f l s
    unfold SameOutside at *
    rw [hq, offer_tmr, offer_sup, offer_port, offer_pending]
    exact h
  withdraw _ h := h

theorem sameOutside_engineClosed (s₀ : State) : EngineClosed (SameOutside s₀) :=
  engineClosed_of_record (sameOutside_recordClosed s₀) (fun _ _ h => h)

/-- The work of every service leaves the timer as it is. -/
theorem sameClock_recordClosed (s₀ : State) : RecordClosed (fun s => s.tmr = s₀.tmr) where
  eng _ _ _ h := h
  removed _ h := h
  admitted _ _ _ _ h := h
  put {s} r h := by obtain ⟨x, l, e, -⟩ := storePut_eq s r; rw [e]; exact h
  delete _ h := h
  acc _ _ h := h
  post {s} b h := by rw [post_tmr]; exact h
  bump _ h := h
  offer {s} f l h := by rw [offer_tmr]; exact h
  withdraw _ h := h

theorem sameClock_engineClosed (s₀ : State) : EngineClosed (fun s => s.tmr = s₀.tmr) :=
  engineClosed_of_record (sameClock_recordClosed s₀) (fun _ _ h => h)

/-- Work on a parcel leaves the flags of the engine as they are. -/
theorem sameFlags_recordClosed (e : Engine) : RecordClosed (fun s => SameFlags s.eng e) where
  removed _ h := h
  admitted _ _ _ _ h := h
  eng x hx _ h := by
    obtain ⟨h1, h2, h3, h4, h5, h6, h7, h8⟩ := hx
    obtain ⟨g1, g2, g3, g4, g5, g6, g7, g8⟩ := h
    exact ⟨h1.trans g1, h2.trans g2, h3.trans g3, h4.trans g4, h5.trans g5, h6.trans g6, h7.trans g7, h8.trans g8⟩
  put {s} r h := by obtain ⟨x, l, e, -⟩ := storePut_eq s r; rw [e]; exact h
  delete _ h := h
  acc _ _ h := h
  post b h := by rw [post_eng]; exact h
  bump _ h := h
  offer f l h := by rw [offer_eng]; exact h
  withdraw _ h := h

/-- The pending flags, the slot pointer and the starvation count stay as they are through the body of a service once it
has begun. -/
theorem flags_engineClosed (d c : Bool) (k : Nat) (v : Option Starvation) :
    EngineClosed (fun s => s.eng.dutyPending = d ∧ s.eng.checkpointPending = c ∧ s.eng.slotPointer = k ∧
      s.eng.starvation = v) where
  eng x hx _ h := ⟨hx.1.trans h.1, hx.2.1.trans h.2.1, hx.2.2.1.trans h.2.2.1, hx.2.2.2.1.trans h.2.2.2⟩
  removed _ h := h
  admitted _ _ _ _ h := h
  put {s} r h := by obtain ⟨x, l, e, -⟩ := storePut_eq s r; rw [e]; exact h
  delete _ h := h
  acc _ _ h := h
  post b h := by rw [post_eng]; exact h
  bump _ h := h
  offer f l h := by rw [offer_eng]; exact h
  withdraw _ h := h
  buffer {s} b a hs := by
    obtain ⟨x, y, e⟩ := setBuffer_eq s b a
    rw [e]
    exact hs
  hear _ hs := hs
  restart hs := hs

/-! ## The build moment -/

theorem buildOne_eng (s : State) (p : Parity) : (buildOne s p).eng = s.eng := by
  cases p with
  | secondary => simp [buildOne, offerListed]
  | primary =>
    simp only [buildOne, publishPrimary]
    split
    · rfl
    · split <;> simp [offerListed]

/-- A build moment keeps what an offer and a move of the pointer keep. -/
theorem buildOne_keeps {P : State → Prop} (h : RecordClosed P)
    (ht : ∀ (s : State) (x : ParcelNo), P s → P (s.setTmr { s.tmr with pointer := x })) {s : State} (p : Parity)
    (hs : P s) : P (buildOne s p) := by
  cases p with
  | secondary => exact h.offer _ _ hs
  | primary =>
    show P (publishPrimary s)
    unfold publishPrimary
    split
    · exact hs
    · refine ht _ _ ?_
      split
      · exact h.offer _ _ hs
      · exact hs

theorem buildAll_keeps {P : State → Prop} (h : RecordClosed P)
    (ht : ∀ (s : State) (x : ParcelNo) (l : List Parity),
      P s → P (s.setTmr { s.tmr with pointer := x, buildsDue := l })) {s : State} (hs : P s) : P (buildAll s) :=
  fold_keeps _ (fun _ _ hp => buildOne_keeps h (fun u x hu => ht u x u.tmr.buildsDue hu) _ hp) _
    (ht s s.tmr.pointer [] hs)

/-- A build moment changes nothing of the engine, the store or the Acceptance Unit: the read does not close, load or
mark any context (R164). -/
theorem buildAll_eng (s : State) : (buildAll s).eng = s.eng := by
  unfold buildAll
  have : ∀ (l : List Parity) (t : State), (l.foldl buildOne t).eng = t.eng := by
    intro l
    induction l with
    | nil => intro t; rfl
    | cons p rest ih => intro t; rw [List.foldl_cons, ih, buildOne_eng]
  rw [this]
  rfl

/-! ## Arrivals -/

theorem fillSlot_intake (n : Nat) (p : List Byte) (s : State) :
    (fillSlot n p s).acc.intake = s.acc.intake ∧ (fillSlot n p s).acc.pressure = s.acc.pressure := by
  unfold fillSlot
  dsimp only
  split <;> exact ⟨rfl, rfl⟩

theorem bounded_fillSlot {s : State} (n : Nat) (p : List Byte) (h : s.Bounded) : (fillSlot n p s).Bounded := by
  unfold fillSlot
  dsimp only
  split
  · exact bounded_bump _ ⟨h.1, h.2.1, h.2.2⟩
  · exact ⟨h.1, h.2.1, h.2.2⟩

theorem bounded_appendIntake {s : State} (e : IntakeEntry) (h : s.Bounded) : (appendIntake e s).Bounded := by
  unfold appendIntake
  dsimp only
  split
  · rename_i hl
    have hl' : s.acc.intake.length < 32 := hl
    have hb : ∀ b, (s.setAcc { s.acc with intake := s.acc.intake ++ [e], pressure := b }).Bounded := fun b =>
      ⟨h.1, by simp only [State.setAcc_acc, List.length_append, List.length_cons, List.length_nil]; omega, h.2.2⟩
    split
    · exact bounded_post _ (hb true)
    · exact hb s.acc.pressure
  · split
    · exact bounded_post _ (bounded_bump _ h)
    · exact bounded_bump _ h

theorem pressureAgrees_appendIntake {s : State} (e : IntakeEntry) (h : s.PressureAgrees) :
    (appendIntake e s).PressureAgrees := by
  unfold appendIntake
  dsimp only
  split
  · split
    · rename_i hc
      simp only [Bool.and_eq_true, decide_eq_true_eq, Config.pressureOn, List.length_append, List.length_cons,
        List.length_nil] at hc
      refine pressureAgrees_engineClosed.post _ ⟨fun _ => ?_, fun hp => by simp at hp⟩
      simp only [State.setAcc_acc, List.length_append, List.length_cons, List.length_nil]
      omega
    · rename_i hc
      simp only [Bool.and_eq_true, Bool.not_eq_true', decide_eq_true_eq, Config.pressureOn, List.length_append,
        List.length_cons, List.length_nil, not_and, not_le] at hc
      refine ⟨fun hp => ?_, fun hp => ?_⟩
      · have := h.1 hp
        simp only [State.setAcc_acc, List.length_append, List.length_cons, List.length_nil]
        omega
      · have := hc hp
        simp only [State.setAcc_acc, List.length_append, List.length_cons, List.length_nil]
        omega
  · split
    · exact pressureAgrees_engineClosed.post _ (pressureAgrees_engineClosed.bump _ h)
    · exact pressureAgrees_engineClosed.bump _ h

/-- A property that an append and a slot fill keep is kept by an arrival. -/
theorem arrive_keeps {P : State → Prop} {s : State} (own : Bool) (k : FrameKey) (p : List Byte)
    (ha : ∀ e, P (appendIntake e s)) (hf : ∀ n, P (fillSlot n p s)) (hs : P s) : P (arrive own k p s) := by
  unfold arrive
  repeat' split
  all_goals first | exact hs | exact ha _ | exact hf _

/-! ## What an append, a fill and a group of offers leave alone -/

@[simp] theorem appendIntake_line (e : IntakeEntry) (s : State) : (appendIntake e s).line = s.line := by
  unfold appendIntake; dsimp only; repeat' split
  all_goals simp
@[simp] theorem appendIntake_eng (e : IntakeEntry) (s : State) : (appendIntake e s).eng = s.eng := by
  unfold appendIntake; dsimp only; repeat' split
  all_goals simp
@[simp] theorem appendIntake_store (e : IntakeEntry) (s : State) : (appendIntake e s).store = s.store := by
  unfold appendIntake; dsimp only; repeat' split
  all_goals simp

theorem appendIntake_lengths (e : IntakeEntry) (s : State) :
    (appendIntake e s).acc.entries.length = s.acc.entries.length ∧
      (appendIntake e s).acc.slots.length = s.acc.slots.length := by
  unfold appendIntake; dsimp only; repeat' split
  all_goals simp

@[simp] theorem fillSlot_line (n : Nat) (p : List Byte) (s : State) : (fillSlot n p s).line = s.line := by
  unfold fillSlot; dsimp only; split <;> rfl
@[simp] theorem fillSlot_eng (n : Nat) (p : List Byte) (s : State) : (fillSlot n p s).eng = s.eng := by
  unfold fillSlot; dsimp only; split <;> rfl
@[simp] theorem fillSlot_store (n : Nat) (p : List Byte) (s : State) : (fillSlot n p s).store = s.store := by
  unfold fillSlot; dsimp only; split <;> rfl

theorem fillSlot_lengths (n : Nat) (p : List Byte) (s : State) :
    (fillSlot n p s).acc.entries.length = s.acc.entries.length ∧
      (fillSlot n p s).acc.slots.length = s.acc.slots.length := by
  unfold fillSlot; dsimp only; split <;> simp [AcceptanceUnit.setSlot]

theorem displaceHighest_rest (n : Nat) (s : State) :
    (displaceHighest n s).acc = s.acc ∧ (displaceHighest n s).eng = s.eng ∧ (displaceHighest n s).store = s.store :=
  displaceHighest_keeps (P := fun t => t.acc = s.acc ∧ t.eng = s.eng ∧ t.store = s.store) (fun _ _ h => h) n
    ⟨rfl, rfl, rfl⟩

theorem offerGroup_rest (fs : List OfferedFrame) (s : State) :
    (offerGroup fs s).2.acc = s.acc ∧ (offerGroup fs s).2.eng = s.eng ∧ (offerGroup fs s).2.store = s.store := by
  unfold offerGroup; dsimp only; repeat' split
  all_goals first | exact ⟨rfl, rfl, rfl⟩ | exact displaceHighest_rest _ _

theorem offerGroup_acc (fs : List OfferedFrame) (s : State) : (offerGroup fs s).2.acc = s.acc := (offerGroup_rest fs s).1
theorem offerGroup_eng (fs : List OfferedFrame) (s : State) : (offerGroup fs s).2.eng = s.eng :=
  (offerGroup_rest fs s).2.1
theorem offerGroup_store (fs : List OfferedFrame) (s : State) : (offerGroup fs s).2.store = s.store :=
  (offerGroup_rest fs s).2.2

end Sys2Proof.Machine
end

