-- ==== Sys2Proof/Laws/Step.lean ====
section
/-! SUPPORT. What a command can do, said once: a property that the primitive changes of the blocks keep is kept by every
command but the release of a reset, and by the release if it keeps it. -/

namespace Sys2Proof.Machine

/-- A property that the primitive changes of a whole engine service keep: its choice, its body and its end. -/
structure ServiceClosed (P : State → Prop) : Prop extends EngineClosed P where
  clock : ∀ {s : State} (x : PublicationTimer), P s → P (s.setTmr x)
  flags : ∀ {s : State} (d c : Bool) (v : Option Starvation),
    P s → P (s.setEng { s.eng with dutyPending := d, checkpointPending := c, starvation := v })
  portState : ∀ {s : State} (x : PortState) (b : Bool) (p : List Byte) (e : Select),
    P s → P (s.setPort { s.port with state := x, busy := b, pdo := p, select := e })
  headTaken : ∀ {s : State} (e : IntakeEntry) (l : List IntakeEntry), s.acc.intake = e :: l →
    P s → P (takeHead l s)
  slotTaken : ∀ {s : State} (n : Nat), n < 24 → P s → P (emptySlotAt n s)

/-- A property that the primitive changes of every block keep. -/
structure BlockClosed (P : State → Prop) : Prop extends ServiceClosed P, StoreClosed P where
  noticeTaken : ∀ {s : State} (x : Notice) (l : List Notice), s.port.notices = x :: l →
    P s → P (s.setPort { s.port with notices := l })
  line : ∀ {s : State} (x : LineInterface), x.outbound.length ≤ s.line.outbound.length →
    (x.outbound.map QueuedFrame.key).Sublist (s.line.outbound.map QueuedFrame.key) →
    (s.line.tfc ≤ 255 → x.tfc ≤ 255) → (s.line.rfc ≤ 255 → x.rfc ≤ 255) → P s → P (s.setLine x)
  group : ∀ {s : State} (fs : List OfferedFrame), (fs.map OfferedFrame.key).Nodup → P s → P (offerGroup fs s).2
  append : ∀ {s : State} (e : IntakeEntry), P s → P (appendIntake e s)
  fill : ∀ {s : State} (n : Nat) (p : List Byte), P s → P (fillSlot n p s)
  supply : ∀ {s : State} (x : Supervisor), P s → P (s.setSup x)
  cleared : ∀ {s : State}, P s → P (s.setStore emptyStore)

theorem mapKey_keys (k : FrameKey) (f : QueuedFrame → QueuedFrame) (hf : ∀ q, (f q).key = q.key)
    (l : List QueuedFrame) : (mapKey k f l).map QueuedFrame.key = l.map QueuedFrame.key :=
  map_keys _ (fun q => by split; exact hf q; rfl) l

/-- After an attempt that carried nothing, no frame and no key is new. -/
theorem keepUncarried_keys (q : QueuedFrame) (f : QueuedFrame → QueuedFrame) (hf : ∀ q : QueuedFrame, (f q).key = q.key)
    (l : List QueuedFrame) :
    (keepUncarried q f l).length ≤ l.length ∧
      ((keepUncarried q f l).map QueuedFrame.key).Sublist (l.map QueuedFrame.key) := by
  unfold keepUncarried
  split
  · exact ⟨removeKey_length_le _ _, List.filter_sublist.map _⟩
  · exact ⟨by simp [mapKey], by rw [mapKey_keys _ _ hf]⟩

/-- After a carried attempt no frame and no key is new. -/
theorem keepCarried_keys (q : QueuedFrame) (l : List QueuedFrame) :
    (keepCarried q l).length ≤ l.length ∧
      ((keepCarried q l).map QueuedFrame.key).Sublist (l.map QueuedFrame.key) := by
  unfold keepCarried
  split
  · exact ⟨removeKey_length_le _ _, List.filter_sublist.map _⟩
  · exact ⟨by simp [mapKey], by rw [mapKey_keys _ _ (by intro q; rfl)]⟩

@[simp] theorem closeContext_acc (s : State) (i : ContextId) : (s.closeContext i).acc = s.acc := by
  unfold State.closeContext State.writeBack State.storePut
  repeat' split
  all_goals rfl

@[simp] theorem burstClose_acc (s : State) : (burstClose s).acc = s.acc := by
  unfold burstClose closeUnneeded
  repeat' split
  all_goals simp

/-- The arbiter names an intake entry only when it is the head of the queue. -/
theorem arbiter_intake {s : State} {e : IntakeEntry} (h : arbiter s = some (.intake e)) :
    ∃ l, s.acc.intake = e :: l := by
  unfold arbiter State.portRequest State.slotRequest at h
  repeat' split at h
  all_goals simp_all

/-- The arbiter names a slot only among the 24. -/
theorem arbiter_slot {s : State} {n : Nat} (h : arbiter s = some (.slot n)) : n < 24 := by
  have hn : s.nextSlot = some n := by
    unfold arbiter State.portRequest State.slotRequest at h
    repeat' split at h
    all_goals simp_all
  unfold State.nextSlot slotOrder at hn
  have := List.mem_of_find?_eq_some hn
  simp only [Config.slotCount, List.mem_map, List.mem_range] at this
  obtain ⟨k, _, hk⟩ := this
  omega

/-- The parts of one declaration have different keys. -/
theorem declareFrames_keys (s : State) (n : ParcelNo) (p : List Byte) (l : List DeclaredItem) :
    ((declareFrames s n p l).map OfferedFrame.key).Nodup := by
  have hne : ∀ a b : ItemNo, a ≠ b → mkKey .declare s.station n a ≠ mkKey .declare s.station n b := by
    intro a b hab he
    exact hab (by rw [← keyItem_mkKey .declare s.station n a, he, keyItem_mkKey])
  unfold declareFrames ownFrame
  split
  · simp [hne 0#6 1#6 (by decide)]
  · simp [hne 0#6 1#6 (by decide), hne 0#6 2#6 (by decide), hne 1#6 2#6 (by decide)]

/-- What a taken request leaves, when it is answered at once. -/
def TakenKeeps (P : State → Prop) : Taken → Prop
  | .answer _ t => P t
  | .engine _ => True

theorem takenKeeps_ite {P : State → Prop} {b : Bool} {x y : Taken} (hx : TakenKeeps P x) (hy : TakenKeeps P y) :
    TakenKeeps P (if b then x else y) := by
  cases b
  · exact hy
  · exact hx

namespace ServiceClosed

variable {P : State → Prop} (h : ServiceClosed P) {s : State}

include h

theorem buildAll (hs : P s) : P (buildAll s) := buildAll_keeps h.toRecordClosed (fun _ _ _ hs => h.clock _ hs) hs

theorem endOfService (hs : P s) : P (endService s) :=
  h.toRecordClosed.endService (fun _ ht => h.buildAll ht) hs

theorem wholeService (b : State → State) (hs : P s)
    (hb : P ((Machine.burstClose s).withStarts []) → P (b ((Machine.burstClose s).withStarts []))) :
    P (wholeService b s) :=
  h.endOfService (h.clock _ (hb (h.clock _ (h.burstClose hs))))

theorem serve (b : State → State) (hb : ∀ t, P t → P (b t)) (hs : P s) : P (serve b s) :=
  h.wholeService _ hs (fun ht => h.flags _ _ _ (hb _ ht))

/-- The whole service that the arbiter chooses. -/
theorem serviceInProgress (hs : P s) : P (serviceInProgress s) := by
  unfold Machine.serviceInProgress
  split
  · exact h.serve _ (fun t ht => h.checkpointWork (h.flags t.eng.dutyPending false t.eng.starvation ht)) hs
  · exact h.serve _ (fun t ht => h.dutyWork (h.flags false t.eng.checkpointPending t.eng.starvation ht)) hs
  · rename_i e ha
    obtain ⟨l, hl⟩ := arbiter_intake ha
    have hb : ((Machine.burstClose s).withStarts []).acc.intake = e :: l := by
      show (Machine.burstClose s).acc.intake = _
      rw [burstClose_acc]; exact hl
    refine h.wholeService _ hs (fun ht => ?_)
    unfold countOther State.setStarvation intakeBody
    rw [hb]
    exact h.flags _ _ _ (h.applyUnlessUnnumbered _ (h.headTaken e l hb ht))
  · rename_i n ha
    refine h.serve _ (fun t ht => ?_) hs
    have ht' := h.slotTaken n (arbiter_slot ha) ht
    unfold slotBody
    split
    · exact h.takeReading _ _ ht'
    · exact ht'
  · rename_i r _
    refine h.wholeService _ hs (fun ht => ?_)
    have ha := h.portAnswer r ht
    unfold portBody
    revert ha
    generalize Machine.portAnswer r _ = a
    intro ha
    exact (h.flags _ _ none (h.portState (.answered a.1) a.2.port.busy a.2.port.pdo a.2.port.select ha))
  · exact h.burstClose hs

theorem dutyService (hs : P s) : P (dutyService s) := by
  by_cases ha : arbiter s = some .secondDuty
  · simpa [Machine.serviceInProgress, Machine.dutyService, ha] using h.serviceInProgress hs
  · unfold Machine.dutyService; split <;> simp_all

theorem checkpointService (hs : P s) : P (checkpointService s) := by
  by_cases ha : arbiter s = some .checkpoint
  · simpa [Machine.serviceInProgress, Machine.checkpointService, ha] using h.serviceInProgress hs
  · unfold Machine.checkpointService; split <;> simp_all

theorem intakeService (hs : P s) : P (intakeService s) := by
  have := h.serviceInProgress hs
  unfold Machine.serviceInProgress at this
  unfold Machine.intakeService
  split
  · rename_i e ha; simpa [ha] using this
  · exact hs

theorem slotService (hs : P s) : P (slotService s) := by
  have := h.serviceInProgress hs
  unfold Machine.serviceInProgress at this
  unfold Machine.slotService
  split
  · rename_i n ha; simpa [ha] using this
  · exact hs

theorem portService (hs : P s) : P (portService s) := by
  have := h.serviceInProgress hs
  unfold Machine.serviceInProgress at this
  unfold Machine.portService
  split
  · rename_i r ha; simpa [ha] using this
  · exact hs

end ServiceClosed

namespace BlockClosed

variable {P : State → Prop} (h : BlockClosed P) {s : State}

include h

/-- A change of the line that leaves its queue. -/
theorem lineSameQueue (x : LineInterface) (hx : x.outbound = s.line.outbound) (ht : s.line.tfc ≤ 255 → x.tfc ≤ 255)
    (hr : s.line.rfc ≤ 255 → x.rfc ≤ 255) (hs : P s) : P (s.setLine x) := h.line x (by rw [hx]) (by rw [hx]) ht hr hs

/-! ## The line -/

theorem judgeStanding (hs : P s) : P (judgeStanding s) := by
  unfold Machine.judgeStanding
  split
  · exact hs
  · exact h.post _ (h.lineSameQueue _ rfl id id hs)

theorem recoverStep (hs : P s) : P (recoverStep s) := by
  unfold Machine.recoverStep
  split
  · split
    · exact h.post _ (h.lineSameQueue _ rfl (by simp) (by simp) hs)
    · exact hs
  · exact hs

theorem receiveFault (hs : P s) : P (receiveFault s) := by
  refine h.judgeStanding (h.lineSameQueue _ ?_ ?_ ?_ hs)
  · unfold restartHeard; split <;> rfl
  · unfold restartHeard; split <;> exact id
  · unfold restartHeard; split <;> exact fun _ => Nat.min_le_left _ _

theorem goodFrame (k : FrameKey) (hs : P s) : P (goodFrame k s) := by
  have hr : s.line.rfc ≤ 255 → countDown s.line.rfc ≤ 255 := fun hl => by unfold countDown; omega
  unfold Machine.goodFrame
  have ht := h.lineSameQueue (s := s) { s.line with rfc := countDown s.line.rfc, markDriven := true } rfl id hr hs
  dsimp only
  split
  · split
    · exact ht
    · exact h.post _ (h.line _ (by simp) (by simp) id id ht)
  · refine h.recoverStep (h.judgeStanding (h.lineSameQueue _ ?_ ?_ ?_ ht))
    · unfold countHeard; split <;> rfl
    · unfold countHeard; split <;> exact id
    · unfold countHeard; split <;> exact id

theorem arrive (own : Bool) (k : FrameKey) (p : List Byte) (hs : P s) : P (arrive own k p s) :=
  arrive_keeps own k p (fun e => h.append e hs) (fun n => h.fill n p hs) hs

theorem receiveFrame (f : LineFrame) (hs : P s) : P (receiveFrame f s) := by
  unfold Machine.receiveFrame
  split
  · exact h.arrive _ _ _ (h.goodFrame _ hs)
  · exact h.receiveFault hs

theorem beginAttempt (hs : P s) : P (beginAttempt s) := by
  unfold Machine.beginAttempt
  split
  · exact hs
  · split
    · exact hs
    · exact h.line _ (by simp [mapKey]) (by simp only []; rw [mapKey_keys _ _ (by intro q; rfl)]) id id hs

theorem loseContention (hs : P s) : P (loseContention s) := by
  unfold Machine.loseContention
  split
  · exact hs
  · exact h.line _ (keepUncarried_keys _ _ (by intro q; rfl) _).1 (keepUncarried_keys _ _ (by intro q; rfl) _).2
      id id hs

theorem dropExhausted (hs : P s) : P (dropExhausted s) := by
  unfold Machine.dropExhausted
  split
  · exact hs
  · exact h.post _ (h.bump _ (h.line _ (removeKey_length_le _ _) (List.filter_sublist.map _) id id hs))

theorem endFaulted (q : QueuedFrame) (hs : P s) : P (endFaulted q s) := by
  unfold Machine.endFaulted
  refine h.dropExhausted (h.judgeStanding (h.line _ ?_ ?_ ?_ id hs))
  · exact (keepUncarried_keys q _ (by intro q; rfl) _).1
  · exact (keepUncarried_keys q _ (by intro q; rfl) _).2
  · exact fun _ => Nat.min_le_left _ _

theorem endCarried (q : QueuedFrame) (hs : P s) : P (endCarried q s) := by
  have ht : s.line.tfc ≤ 255 → countDown s.line.tfc ≤ 255 := fun hl => by unfold countDown; omega
  unfold Machine.endCarried
  exact h.arrive _ _ _ (h.judgeStanding (h.line _ (keepCarried_keys _ _).1 (keepCarried_keys _ _).2 ht id hs))

theorem endAttempt (o : AttemptOutcome) (hs : P s) : P (endAttempt o s) := by
  unfold Machine.endAttempt
  repeat' split
  all_goals first | exact hs | exact h.endCarried _ hs | exact h.endFaulted _ hs

/-! ## The timer -/

theorem markEndStep (hs : P s) : P (markEndStep s) := by
  unfold Machine.markEndStep
  split
  · refine h.line _ ?_ ?_ id id hs
    · simp only [withdrawListed, List.length_map]
      exact List.length_filter_le _ _
    · simp only [withdrawListed]
      rw [map_keys _ (fun q => by split <;> rfl)]
      exact List.filter_sublist.map _
  · exact hs

theorem endCycle (hs : P s) : P (endCycle s) := by
  unfold Machine.endCycle
  have ht := h.flags s.eng.dutyPending true s.eng.starvation hs
  dsimp only
  split
  · exact h.clock _ ht
  · exact ht

theorem startCycle (hs : P s) : P (startCycle s) := h.clock _ hs

theorem cycleStep (hs : P s) : P (cycleStep s) := by
  unfold Machine.cycleStep
  repeat' split
  all_goals first | exact hs | exact h.startCycle hs | exact h.startCycle (h.endCycle hs)

theorem listenStep (hs : P s) : P (listenStep s) := by
  unfold Machine.listenStep
  split
  · exact h.lineSameQueue _ rfl id id hs
  · exact hs

theorem tick (hs : P s) : P (tick s) :=
  h.cycleStep (h.markEndStep (h.listenStep (h.flags true s.eng.checkpointPending s.eng.starvation (h.clock _ hs))))

/-! ## The port -/

theorem submitPhase (p c r x : Byte) (hs : P s) : P (submitPhase p c r x s).2 := by
  unfold Machine.submitPhase
  split
  · exact h.offer _ _ hs
  · exact hs

theorem setCycle (m p : Byte) (hs : P s) : P (setCycle m p s).2 := by
  unfold Machine.setCycle
  split
  · exact hs
  · exact h.clock _ hs

theorem takeNotice (hs : P s) : P (takeNotice s).2 := by
  unfold Machine.takeNotice
  split
  · exact hs
  · rename_i x l hx
    exact h.noticeTaken x l hx hs

theorem takeSubmitDeclare (ps : List Byte) (hs : P s) : P (takeSubmitDeclare ps s).2 := by
  unfold Machine.takeSubmitDeclare
  split
  · dsimp only
    split
    · exact hs
    · unfold submitDeclare
      split
      · split
        · exact h.group _ (declareFrames_keys _ _ _ _) hs
        · exact hs
      · exact hs
  · exact hs

/-- What a request answered at once leaves. -/
theorem takeRequest (c : Byte) (ps : List Byte) (hs : P s) (r : Response) (t : State) :
    takeRequest c ps s = .answer r t → P t := by
  have hn := h.takeNotice hs
  have hd := h.takeSubmitDeclare ps hs
  have hp : ∀ p c r x, P (Machine.submitPhase p c r x s).2 := fun p c r x => h.submitPhase p c r x hs
  have hc : ∀ m p, P (Machine.setCycle m p s).2 := fun m p => h.setCycle m p hs
  have key : TakenKeeps P (Machine.takeRequest c ps s) := by
    unfold Machine.takeRequest
    refine takenKeeps_ite hs (takenKeeps_ite hn (takenKeeps_ite ?_ (takenKeeps_ite ?_ (takenKeeps_ite ?_
      (takenKeeps_ite ?_ (takenKeeps_ite trivial (takenKeeps_ite hd (takenKeeps_ite ?_ (takenKeeps_ite ?_
        (takenKeeps_ite ?_ hs))))))))))
    all_goals
      split
      · first
        | exact hs
        | exact trivial
        | exact hp _ _ _ _
        | exact hc _ _
      · exact hs
  intro he
  rw [he] at key
  exact key

theorem setPdo (l : List Byte) (hs : P s) : P (s.setPdo l) :=
  h.portState s.port.state s.port.busy l s.port.select hs

theorem setSelect (x : Select) (hs : P s) : P (s.setSelect x) := h.portState s.port.state s.port.busy s.port.pdo x hs

theorem shown (hs : P s) : P s.shown := h.portState s.port.state false s.port.pdo s.port.select hs

theorem endRequest (c : Byte) (ps : List Byte) (hs : P s) : P (endRequest c ps s) := by
  unfold Machine.endRequest
  split
  · exact h.portState s.port.state true s.port.pdo s.port.select hs
  · split
    · rename_i r t ht
      exact h.portState (.answered r) t.port.busy t.port.pdo t.port.select (h.takeRequest c ps hs r t ht)
    · rename_i r _
      exact h.flags _ _ (some { count := 0, ahead := false }) 
        (h.portState (.waiting r) s.port.busy s.port.pdo s.port.select hs)

theorem exchange (k : Byte) (l : List Byte) (hs : P s) : P (exchange k l s) := by
  unfold Machine.exchange
  split
  · exact h.setPdo _ (h.shown hs)
  · split
    · exact h.setPdo _ (h.endRequest _ _ (h.shown hs))
    · split
      · refine h.setPdo _ ?_
        unfold fetchBytes
        split
        · exact h.portState .idle s.shown.port.busy s.shown.port.pdo s.shown.port.select (h.shown hs)
        · exact h.shown hs
        · exact h.shown hs
      · exact h.setPdo _ (h.shown hs)

theorem transaction (l : List Byte) (hs : P s) : P (transaction l s) := by
  unfold Machine.transaction
  split
  · unfold selectFalls
    split
    · exact h.setSelect _ hs
    · exact h.setSelect _ (h.setPdo _ hs)
  · refine h.setSelect _ ?_
    split
    · exact h.exchange _ _ hs
    · exact hs

/-! ## The supply -/

theorem holdWith (x : Supervisor) (hs : P s) : P (holdWith x s) :=
  h.portState _ _ [] _ (h.lineSameQueue { s.line with driving := none, markDriven := false } rfl id
    id (h.supply x hs) : P ((s.setSup x).setLine { s.line with driving := none, markDriven := false }))

theorem holdWarm (c : ResetCause) (hs : P s) : P (holdWarm c s) := h.holdWith _ hs

theorem holdCold (hs : P s) : P (holdCold s) := h.holdWith _ (h.cleared hs)

end BlockClosed

/-- A command other than a supply command, on a released part, is a change of state by one function. -/
theorem whenReleased_keeps {P : State → Prop} (f : State → State) {s t : State} (hf : P s → P (f s)) (hs : P s)
    (ht : whenReleased f s = .next t) : P t := by
  unfold whenReleased at ht
  split at ht
  · cases ht; exact hs
  · cases ht; exact hf hs

/-- A command of the engine is its service with the log as it was. -/
theorem asService_keeps {P : State → Prop} (h : StoreClosed P) (f : State → State) {s t : State} (hf : P s → P (f s))
    (hs : P s) (ht : asService f s = .next t) : P t :=
  whenReleased_keeps _ (fun hs => h.log hs (hf hs)) hs ht

/-! ## A reset that falls in a service (R117) -/

/-- The store before the change that follows the noted ones. -/
def storeBefore (x₀ : List (Option StoredParcel)) (log : List StoreStep) : List (Option StoredParcel) :=
  match log.getLast? with
  | some x => x.after
  | none => x₀

/-- One noted change of a store: a write-back of one record to one position, or the removal of one number. -/
def StoreStep.From (x : StoreStep) (before : List (Option StoredParcel)) : Prop :=
  (∃ i r, x.position = some i ∧ x.after = before.set i (some (mkStored r))) ∨
    ∃ n, x.position = none ∧ x.after = before.map (fun p => if storedUnder n p then none else p)

/-- The noted changes lead from a store to the present one, each from the store that the one before it left. -/
def StoreChain (x₀ : List (Option StoredParcel)) (s : State) : Prop :=
  storeBefore x₀ s.storeLog = s.store ∧
    ∀ k (x : StoreStep), s.storeLog[k]? = some x → x.From (storeBefore x₀ (s.storeLog.take k))

theorem storeChain_step {x₀ : List (Option StoredParcel)} {s : State} (p : Option Nat) (x : List (Option StoredParcel))
    (hx : StoreStep.From { position := p, after := x } s.store) (h : StoreChain x₀ s) :
    StoreChain x₀ (s.storeStep p x) := by
  obtain ⟨h1, h2⟩ := h
  refine ⟨by simp [State.storeStep, storeBefore], fun k y hy => ?_⟩
  simp only [State.storeStep, State.setStoreLog_storeLog] at hy ⊢
  rcases Nat.lt_trichotomy k s.storeLog.length with hk | hk | hk
  · rw [List.getElem?_append_left hk] at hy
    rw [List.take_append_of_le_length hk.le]
    exact h2 k y hy
  · subst hk
    simp only [List.getElem?_concat_length, Option.some.injEq] at hy
    subst hy
    rw [List.take_left, h1]
    exact hx
  · rw [List.getElem?_eq_none (by simp; omega)] at hy
    cases hy

theorem storeChain_closed (x₀ : List (Option StoredParcel)) : ServiceClosed (StoreChain x₀) where
  eng _ _ _ h := h
  removed _ h := h
  admitted _ _ _ _ h := h
  put {s} r h := by
    rcases storePut_cases s r with e | ⟨i, e⟩
    · rw [e]; exact h
    · rw [e]; exact storeChain_step _ _ (.inl ⟨i, r, rfl, rfl⟩) h
  delete n h := storeChain_step _ _ (.inr ⟨n, rfl, rfl⟩) h
  acc _ _ h := h
  post b h := by unfold StoreChain; rw [post_store, post_storeLog]; exact h
  bump _ h := h
  offer f l h := by unfold StoreChain; rw [offer_store, offer_storeLog]; exact h
  withdraw _ h := h
  buffer {s} b a hs := by
    obtain ⟨x, y, e⟩ := setBuffer_eq s b a
    rw [e]
    exact hs
  hear _ hs := hs
  restart hs := hs
  clock _ h := h
  flags _ _ _ h := h
  portState _ _ _ _ h := h
  headTaken _ _ _ h := h
  slotTaken _ _ h := h

/-- The changes of the store that the service in progress makes lead from the store to the one it leaves. -/
theorem storeSteps_chain (s : State) :
    storeBefore s.store (storeSteps s) = (serviceInProgress (s.setStoreLog [])).store ∧
      ∀ k (x : StoreStep), (storeSteps s)[k]? = some x → x.From (storeAfter s k) :=
  (storeChain_closed s.store).serviceInProgress (s := s.setStoreLog []) ⟨rfl, by simp⟩

/-- Cut after its last change, the service has left the store that it leaves when it is not cut. -/
theorem storeAfter_all (s : State) (k : Nat) (h : (storeSteps s).length ≤ k) :
    storeAfter s k = (serviceInProgress (s.setStoreLog [])).store := by
  rw [← (storeSteps_chain s).1]
  unfold storeAfter
  rw [List.take_of_length_le h]
  rfl

/-- Cut after one more change, the store is what that change left. -/
theorem storeAfter_succ (s : State) (k : Nat) (x : StoreStep) (h : (storeSteps s)[k]? = some x) :
    storeAfter s (k + 1) = x.after := by
  unfold storeAfter
  rw [List.take_add_one, h]
  simp

theorem StoreStep.From.length {x : StoreStep} {y : List (Option StoredParcel)} (h : x.From y) :
    x.after.length = y.length := by
  rcases h with ⟨i, r, -, h⟩ | ⟨n, -, h⟩ <;> simp [h]

theorem storeAfter_length (s : State) (k : Nat) : (storeAfter s k).length = s.store.length := by
  induction k with
  | zero => simp [storeAfter]
  | succ k ih =>
    cases h : (storeSteps s)[k]? with
    | some x => rw [storeAfter_succ s k x h, ((storeSteps_chain s).2 k x h).length, ih]
    | none =>
      rw [← ih]
      unfold storeAfter
      rw [List.take_add_one, h]
      simp

theorem cutStore_length (c : ServiceCut) (s : State) : (cutStore c s).length = s.store.length := by
  unfold cutStore
  split
  · rw [List.length_modify, storeAfter_length]
  · exact storeAfter_length s _

/-- A reset that falls in a service changes the store alone, and keeps its positions. -/
theorem StoreClosed.cutShort {P : State → Prop} (h : StoreClosed P) (c : Option ServiceCut) {s : State} (hs : P s) :
    P (cutShort c s) := by
  unfold Machine.cutShort
  repeat' split
  · exact hs
  · exact hs
  · exact h.store _ (cutStore_length _ s) hs

/-! ## The release -/

theorem verifyPosition_length (st : Station) (v : Verified) (p : Option StoredParcel) :
    (verifyPosition st v p).store.length = v.store.length + 1 := by
  unfold verifyPosition
  repeat' split
  all_goals simp

theorem verifyStore_length (st : Station) (l : List (Option StoredParcel)) :
    (verifyStore st l).store.length = l.length := by
  unfold verifyStore
  have : ∀ (l : List (Option StoredParcel)) (v : Verified),
      (l.foldl (verifyPosition st) v).store.length = v.store.length + l.length := by
    intro l
    induction l with
    | nil => intro v; rfl
    | cons p rest ih =>
      intro v
      rw [List.foldl_cons, ih, verifyPosition_length, List.length_cons]
      omega
  rw [this]
  exact Nat.zero_add _

/-- After the verified parcels are held, the restart is work on records, bindings and notices. -/
theorem RecordClosed.restartParcels {P : State → Prop} (h : RecordClosed P) {s : State}
    (hs : P ((verifyStore s.station s.store).held.foldl holdParcel (s.setStore (verifyStore s.station s.store).store))) :
    P (restartParcels s) := by
  unfold Machine.restartParcels
  dsimp only
  refine h.postAll _ (fold_keeps _ (fun t n ht => ?_) _ hs)
  unfold rebindParcel
  repeat' split
  · exact h.put _ (h.acc _ (sameIntake_bindRoster _ _ _ _) ht)
  · exact ht
  · exact ht

/-- A release leaves what holds of the reset values, with the store kept or empty, and is kept by work on records and
by the holding of a parcel. -/
theorem RecordClosed.release {P : State → Prop} (h : RecordClosed P) (g : StoreClosed P) (hh : ∀ t r, P t → P (holdParcel t r)) {s : State}
    (hf : ∀ straps cause store e, store = emptyStore ∨ store = s.store → P (freshState straps cause store e s.pending))
    (pins : StrapPins) : P (release pins s) := by
  unfold Machine.release
  dsimp only
  have h6 : (if s.sup.cause == .powerOn then emptyStore else s.store) = emptyStore ∨
      (if s.sup.cause == .powerOn then emptyStore else s.store) = s.store := by
    split
    · exact Or.inl rfl
    · exact Or.inr rfl
  split
  · exact h.post _ (hf _ _ _ _ h6)
  · have hs := h.post (.restart s.sup.cause (strapsOfPins pins).station) (hf (strapsOfPins pins) s.sup.cause _
      s.port.select.afterReset h6)
    have hl : ((freshState (strapsOfPins pins) s.sup.cause
        (if s.sup.cause == .powerOn then emptyStore else s.store)
        s.port.select.afterReset s.pending).post
        (.restart s.sup.cause (strapsOfPins pins).station)).storeLog = [] := by rw [post_storeLog]; rfl
    have := g.log hs (h.restartParcels (fold_keeps _ hh _ (g.store _ (verifyStore_length _ _) hs)))
    rw [hl] at this
    exact this

/-- The commands of a released part keep what the primitive changes keep; the release of a reset is left to the
property. -/
theorem exec_keeps {P : State → Prop} (h : BlockClosed P) (hrel : ∀ s pins, P s → P (release pins s)) (c : Instr)
    {s t : State} (hs : P s) (ht : exec c s = .next t) : P t := by
  cases c <;> simp only [exec] at ht
  case receiveFrame f => exact whenReleased_keeps _ (h.receiveFrame f) hs ht
  case withdrawnRecovery => exact whenReleased_keeps _ h.recoverStep hs ht
  case attempt => exact whenReleased_keeps _ h.beginAttempt hs ht
  case contentionLost => exact whenReleased_keeps _ h.loseContention hs ht
  case attemptEnd o => exact whenReleased_keeps _ (h.endAttempt o) hs ht
  case outboundDrop => exact whenReleased_keeps _ h.dropExhausted hs ht
  case listenPeriodEnd => exact whenReleased_keeps _ h.listenStep hs ht
  case secondTick => exact whenReleased_keeps _ h.tick hs ht
  case cycleStart => exact whenReleased_keeps _ h.cycleStep hs ht
  case buildMoment => exact whenReleased_keeps _ h.buildAll hs ht
  case markEnd => exact whenReleased_keeps _ h.markEndStep hs ht
  case cycleEnd =>
    refine whenReleased_keeps _ (fun hs => ?_) hs ht
    split
    · exact h.startCycle (h.endCycle hs)
    · exact hs
  case secondDuty => exact asService_keeps h.toStoreClosed _ h.dutyService hs ht
  case assemblyTimeout b => exact asService_keeps h.toStoreClosed _ (h.dutyPart _ (fun _ ht => h.timeoutAssembly b ht)) hs ht
  case windowExpiry n => exact asService_keeps h.toStoreClosed _ (h.dutyPart _ (fun _ ht => h.expireWindow n ht)) hs ht
  case halfWindowPass n => exact asService_keeps h.toStoreClosed _ (h.dutyPart _ (fun _ ht => h.passHalf n ht)) hs ht
  case persistenceRunOut n => exact asService_keeps h.toStoreClosed _ (h.dutyPart _ (fun _ ht => h.persistenceTest n ht)) hs ht
  case checkpoint => exact asService_keeps h.toStoreClosed _ h.checkpointService hs ht
  case burstEndClose => exact asService_keeps h.toStoreClosed _ h.burstClose hs ht
  case starvation => exact whenReleased_keeps _ (fun hs => h.flags _ _ _ hs) hs ht
  case intakeService => exact asService_keeps h.toStoreClosed _ h.intakeService hs ht
  case gaugeSlotService => exact asService_keeps h.toStoreClosed _ h.slotService hs ht
  case portRequestService => exact asService_keeps h.toStoreClosed _ h.portService hs ht
  case powerOnReset => cases ht; exact h.holdCold hs
  case pinReset t => cases ht; exact h.holdWarm _ (h.toStoreClosed.cutShort _ hs)
  case supplyLowReset t => cases ht; exact h.holdWarm _ (h.toStoreClosed.cutShort _ hs)
  case resetRelease pins =>
    unfold execResetRelease at ht
    split at ht
    · cases ht; exact hrel _ _ hs
    · cases ht; exact hs
  case frameBrokenOff => exact whenReleased_keeps _ h.receiveFault hs ht
  case frameAbandonedOnLength => exact whenReleased_keeps _ h.receiveFault hs ht
  case supplyBelowRetention => cases ht; exact h.supply _ (h.cleared hs)
  all_goals cases ht; exact h.transaction _ hs

/-! ## The properties of Safety.lean -/

theorem bounded_blockClosed : BlockClosed State.Bounded where
  toEngineClosed := bounded_engineClosed
  clock _ h := h
  flags _ _ _ h := h
  portState _ _ _ _ h := h
  noticeTaken {s} x l hl h := by
    refine ⟨h.1, h.2.1, ?_, h.2.2.2⟩
    have := h.2.2.1
    rw [hl] at this
    exact le_trans (Nat.le_succ _) this
  headTaken {s} e l hl h := by
    refine ⟨h.1, ?_, h.2.2⟩
    have := h.2.1
    rw [hl] at this
    exact le_trans (Nat.le_succ _) this
  slotTaken _ _ h := h
  line x hl _ ht hr h := ⟨le_trans hl h.1, h.2.1, h.2.2.1, ht h.2.2.2.1, hr h.2.2.2.2.1, h.2.2.2.2.2⟩
  group fs _ h := bounded_offerGroup fs h
  append e h := bounded_appendIntake e h
  fill n p h := bounded_fillSlot n p h
  supply _ h := h
  cleared h := h
  store _ _ h := h
  log _ h := h

theorem keysDistinct_blockClosed : BlockClosed State.KeysDistinct where
  toEngineClosed := keysDistinct_engineClosed
  clock _ h := h
  flags _ _ _ h := h
  portState _ _ _ _ h := h
  noticeTaken _ _ _ h := h
  headTaken _ _ _ h := h
  slotTaken _ _ h := h
  line x _ hk _ _ h := h.sublist hk
  group fs hf h := keysDistinct_offerGroup fs hf h
  append {s} e h := by unfold State.KeysDistinct; rw [appendIntake_line]; exact h
  fill {s} n p h := by unfold State.KeysDistinct; rw [fillSlot_line]; exact h
  supply _ h := h
  cleared h := h
  store _ _ h := h
  log _ h := h

theorem pressureAgrees_blockClosed : BlockClosed State.PressureAgrees where
  toEngineClosed := pressureAgrees_engineClosed
  clock _ h := h
  flags _ _ _ h := h
  portState _ _ _ _ h := h
  noticeTaken _ _ _ h := h
  headTaken {s} e l hl h := by
    obtain ⟨h1, h2⟩ := h
    rw [hl] at h1 h2
    simp only [List.length_cons] at h1 h2
    unfold State.PressureAgrees takeHead Config.pressureOff
    simp only [State.setAcc_acc, Bool.and_eq_true, Bool.not_eq_true', decide_eq_false_iff_not, not_le]
    refine ⟨fun hp => hp.2, fun hp => ?_⟩
    cases hq : s.acc.pressure with
    | true =>
      rw [hq] at hp
      simp at hp
      omega
    | false =>
      have := h2 hq
      omega
  slotTaken _ _ h := h
  line _ _ _ _ _ h := h
  group fs _ h := by unfold State.PressureAgrees; rw [offerGroup_acc]; exact h
  append e h := pressureAgrees_appendIntake e h
  fill n p h := by
    unfold State.PressureAgrees
    rw [(fillSlot_intake n p _).1, (fillSlot_intake n p _).2]
    exact h
  supply _ h := h
  cleared h := h
  store _ _ h := h
  log _ h := h

theorem shaped_blockClosed : BlockClosed State.Shaped where
  toEngineClosed := shaped_engineClosed
  clock _ h := h
  flags _ _ _ h := h
  portState _ _ _ _ h := h
  noticeTaken _ _ _ h := h
  headTaken _ _ _ h := h
  slotTaken n hn h := ⟨h.1, h.2.1, by simpa [emptySlotAt, AcceptanceUnit.setSlot] using h.2.2.1, hn⟩
  line _ _ _ _ _ h := h
  group fs _ h := by
    unfold State.Shaped
    rw [offerGroup_acc, offerGroup_eng, offerGroup_store]
    exact h
  append e h := by
    unfold State.Shaped
    rw [appendIntake_eng, appendIntake_store, (appendIntake_lengths e _).1, (appendIntake_lengths e _).2]
    exact h
  fill n p h := by
    unfold State.Shaped
    rw [fillSlot_eng, fillSlot_store, (fillSlot_lengths n p _).1, (fillSlot_lengths n p _).2]
    exact h
  supply _ h := h
  cleared h := ⟨by simp [emptyStore, Config.tableSize], h.2⟩
  store x hx h := ⟨hx.trans h.1, h.2⟩
  log _ h := h

end Sys2Proof.Machine
end

