-- ==== Sys2Proof/Laws/Table.lean ====
section
/-! SUPPORT. The parcel table: what every command but a release does to its numbers, and which records a verification
holds. -/

namespace Sys2Proof.Machine

/-- The table is sound, and the store has its six positions. -/
def State.TableKept (s : State) : Prop := s.store.length = 6 ∧ s.TableSound

theorem tableSound_congr {s t : State} (h : t.eng.numbers = s.eng.numbers) (hs : s.TableSound) : t.TableSound := by
  unfold State.TableSound at *
  have hl : t.eng.directory.length = s.eng.directory.length := by
    have := congrArg List.length h
    simpa [Engine.numbers] using this
  change t.eng.directory.length ≤ 6 ∧ t.eng.numbers.Nodup ∧ 0#4 ∉ t.eng.numbers
  rw [hl, h]
  exact hs

/-- One more entry, of a free nonzero number, while there is room. -/
theorem tableSound_insert {s : State} (e : DirEntry) (h0 : e.number ≠ 0#4) (hn : e.number ∉ s.eng.numbers)
    (hl : s.eng.numbers.length < 6) (h : s.TableSound) :
    (s.setEng { s.eng with directory := insertDir e s.eng.directory }).TableSound := by
  have hp := insertDir_numbers e s.eng.directory
  refine ⟨?_, ?_, ?_⟩
  · have := hp.length_eq
    simp only [List.length_map, List.length_cons, Engine.numbers] at this hl
    simp only [State.setEng_eng]
    omega
  · exact hp.nodup_iff.mpr (List.nodup_cons.mpr ⟨hn, h.2.1⟩)
  · intro hm
    rcases List.mem_cons.mp (hp.mem_iff.mp hm) with he | hm
    · exact h0 he.symm
    · exact h.2.2 hm

theorem tableSound_drop {s : State} (n : ParcelNo) (h : s.TableSound) : (dropDirectory n s).TableSound := by
  have hsub : ((s.eng.directory.filter (fun e => e.number != n)).map DirEntry.number).Sublist
      (s.eng.directory.map DirEntry.number) := List.filter_sublist.map _
  exact ⟨le_trans (List.length_filter_le _ _) h.1, h.2.1.sublist hsub, fun hm => h.2.2 (hsub.subset hm)⟩

theorem tableKept_recordClosed : RecordClosed State.TableKept where
  eng _ _ hx h := ⟨h.1, tableSound_congr hx h.2⟩
  removed n h := ⟨h.1, tableSound_drop n h.2⟩
  admitted e h0 hn hl h := ⟨h.1, tableSound_insert e h0 hn hl h.2⟩
  put {s} r h := by obtain ⟨x, l, e, hx⟩ := storePut_eq s r; rw [e]; exact ⟨hx.trans h.1, h.2⟩
  delete {s} n h := by obtain ⟨x, l, e, hx⟩ := storeDelete_eq s n; rw [e]; exact ⟨hx.trans h.1, h.2⟩
  acc _ _ h := h
  post b h := by unfold State.TableKept State.TableSound; rw [post_eng, post_store]; exact h
  bump _ h := h
  offer f l h := by unfold State.TableKept State.TableSound; rw [offer_eng, offer_store]; exact h
  withdraw _ h := h

theorem tableKept_blockClosed : BlockClosed State.TableKept where
  toRecordClosed := tableKept_recordClosed
  buffer {s} b a hs := by
    obtain ⟨x, y, e⟩ := setBuffer_eq s b a
    rw [e]
    exact hs
  hear _ hs := hs
  restart hs := hs
  clock _ h := h
  flags _ _ _ h := h
  portState _ _ _ _ h := h
  noticeTaken _ _ _ h := h
  headTaken _ _ _ h := h
  slotTaken _ _ h := h
  line _ _ _ _ _ h := h
  group fs _ h := by unfold State.TableKept State.TableSound; rw [offerGroup_eng, offerGroup_store]; exact h
  append e h := by unfold State.TableKept State.TableSound; rw [appendIntake_eng, appendIntake_store]; exact h
  fill n p h := by unfold State.TableKept State.TableSound; rw [fillSlot_eng, fillSlot_store]; exact h
  supply _ h := h
  cleared h := ⟨by simp [emptyStore, Config.tableSize], h.2⟩
  store _ hx h := ⟨hx.trans h.1, h.2⟩
  log _ h := h

/-! ## Verification (R119) -/

/-- What the verification of the positions so far keeps: the held records have the numbers seen, each once and none 0,
and there are no more of them than positions. -/
def Verified.Sound (v : Verified) (k : Nat) : Prop :=
  v.held.map (fun r => byte4 r.number) = v.seen ∧ v.seen.Nodup ∧ (∀ b ∈ v.seen, b ≠ 0#8) ∧ v.held.length ≤ k

theorem byte4_setWidth (b : Byte) (h : b.toNat ≤ 15) : byte4 (b.setWidth 4) = b := by
  unfold byte4
  apply BitVec.eq_of_toNat_eq
  simp only [BitVec.toNat_setWidth]
  omega

theorem verifyPosition_sound (st : Station) (v : Verified) (p : Option StoredParcel) (k : Nat) (h : v.Sound k) :
    (verifyPosition st v p).Sound (k + 1) := by
  obtain ⟨h1, h2, h3, h4⟩ := h
  unfold verifyPosition
  split
  · exact ⟨h1, h2, h3, by simp only []; omega⟩
  · rename_i q
    dsimp only
    split
    · exact ⟨h1, h2, h3, by simp only []; omega⟩
    · rename_i hc
      simp only [Bool.or_eq_true, beq_iff_eq, decide_eq_true_eq, List.contains_eq_mem, not_or, not_lt] at hc
      obtain ⟨⟨hz, hle⟩, hseen⟩ := hc
      have hb := byte4_setWidth q.number hle
      refine ⟨?_, ?_, ?_, ?_⟩
      · rw [List.map_append, h1]
        congr 1
        split <;> simp [restored, voidCheckRecord, hb]
      · rw [List.nodup_append]
        refine ⟨h2, by simp, fun a ha b hm hab => hseen ?_⟩
        rw [List.mem_singleton.mp hm] at hab
        exact hab ▸ ha
      · intro b hm
        rcases List.mem_append.mp hm with hm | hm
        · exact h3 b hm
        · rw [List.mem_singleton.mp hm]
          intro he
          rw [he] at hz
          exact hz rfl
      · simp only [List.length_append, List.length_cons, List.length_nil]
        omega

theorem verifyStore_sound (st : Station) (l : List (Option StoredParcel)) : (verifyStore st l).Sound l.length := by
  have : ∀ (l : List (Option StoredParcel)) (v : Verified) (k : Nat), v.Sound k →
      (l.foldl (verifyPosition st) v).Sound (k + l.length) := by
    intro l
    induction l with
    | nil => intro v k hv; exact hv
    | cons p rest ih =>
      intro v k hv
      have := ih _ _ (verifyPosition_sound st v p k hv)
      rw [List.length_cons]
      have he : k + (rest.length + 1) = k + 1 + rest.length := by omega
      rw [he]
      exact this
  have h := this l { store := [], held := [], seen := [], failed := [] } 0 ⟨rfl, List.nodup_nil, by simp, by simp⟩
  rw [Nat.zero_add] at h
  exact h

theorem byte4_injective : Function.Injective byte4 := by
  intro a b h
  have := congrArg (fun x : Byte => x.setWidth 4) h
  simpa [byte4] using this

/-- Records of different nonzero numbers, no more than the table takes, are held in a sound table. -/
theorem holdParcels_kept (l : List ParcelRecord) (s : State) (hs : s.TableKept)
    (hd : (l.map ParcelRecord.number).Nodup) (h0 : ∀ r ∈ l, r.number ≠ 0#4)
    (hn : ∀ r ∈ l, r.number ∉ s.eng.numbers) (hl : s.eng.numbers.length + l.length ≤ 6) :
    (l.foldl holdParcel s).TableKept := by
  induction l generalizing s with
  | nil => exact hs
  | cons r rest ih =>
    rw [List.foldl_cons]
    have hp : (holdParcel s r).eng.numbers.Perm (r.number :: s.eng.numbers) := insertDir_numbers (dirEntryOf r) _
    rw [List.map_cons, List.nodup_cons] at hd
    refine ih _ ?_ hd.2 (fun x hx => h0 x (List.mem_cons_of_mem _ hx)) ?_ ?_
    · have := tableKept_recordClosed.admitted (s := s) (dirEntryOf r) (h0 r List.mem_cons_self)
        (hn r List.mem_cons_self) (by simp only [List.length_cons] at hl; omega) hs
      exact this
    · intro x hx hm
      rcases List.mem_cons.mp (hp.mem_iff.mp hm) with he | hm
      · exact hd.1 (he ▸ List.mem_map_of_mem hx)
      · exact hn x (List.mem_cons_of_mem _ hx) hm
    · have := hp.length_eq
      simp only [List.length_cons] at this hl
      omega

/-- The verified records of a store of six positions are held in a sound table. -/
theorem holdVerified_kept (st : Station) (s : State) (hs : s.store.length = 6) (he : s.eng.directory = []) :
    ((verifyStore st s.store).held.foldl holdParcel (s.setStore (verifyStore st s.store).store)).TableKept := by
  obtain ⟨h1, h2, h3, h4⟩ := verifyStore_sound st s.store
  refine holdParcels_kept _ _ ⟨(verifyStore_length _ _).trans hs, ?_⟩ ?_ ?_ ?_ ?_
  · simp [State.TableSound, he]
  · have : ((verifyStore st s.store).held.map ParcelRecord.number).map byte4 = (verifyStore st s.store).seen := by
      rw [List.map_map]; exact h1
    exact List.Nodup.of_map _ (this ▸ h2)
  · intro r hr hz
    have hm : byte4 r.number ∈ (verifyStore st s.store).seen := h1 ▸ List.mem_map_of_mem hr
    exact h3 _ hm (by rw [hz]; rfl)
  · simp [Engine.numbers, he]
  · simp only [Engine.numbers, State.setStore_eng, he, List.map_nil, List.length_nil]
    omega

end Sys2Proof.Machine
end

