-- ==== Sys2Proof/Laws/Open.lean ====
section
/-! SUPPORT. Work on one open parcel: what a change of its record, a notice, an offer, a write-through and the end of a
service leave of its directory entry, its working copy, its stored copy and of every other parcel. -/

namespace Sys2Proof.Machine

variable {s t : State} {n m : ParcelNo} {i : ContextId} {e : DirEntry} {c : OpenContext}

/-! ## The directory, the contexts and the store under an update -/

theorem dirFind_dirUpdate (s : State) (n m : ParcelNo) (f : DirEntry → DirEntry) (hf : ∀ e, (f e).number = e.number) :
    (s.dirUpdate n f).dirFind m = if m = n then (s.dirFind n).map f else s.dirFind m := by
  simp only [State.dirFind, State.dirUpdate, State.setEng_eng]
  induction s.eng.directory with
  | nil => split <;> rfl
  | cons d l ih =>
    simp only [List.map_cons, List.find?_cons]
    by_cases hd : d.number = n
    · by_cases hm : m = n
      · subst hm; simp [hd, hf]
      · have h1 : (d.number == m) = false := by simp [hd, Ne.symm hm]
        simp only [hd, beq_self_eq_true, if_true, hf]
        simp only [hm, if_false] at ih ⊢
        have h2 : (n == m) = false := by simp [Ne.symm hm]
        simp only [h2]
        exact ih
    · have h0 : (d.number == n) = false := by simp [hd]
      simp only [h0, Bool.false_eq_true, if_false]
      by_cases hm : m = n
      · subst hm; simp only [h0, if_true] at ih ⊢; exact ih
      · simp only [hm, if_false] at ih ⊢
        by_cases h1 : d.number == m
        · simp [h1]
        · simp only [Bool.not_eq_true] at h1; simp only [h1]; exact ih

theorem dirFind_number (h : s.dirFind n = some e) : e.number = n := by
  simpa using List.find?_some h

theorem dirFind_congr (h : t.eng.directory = s.eng.directory) : t.dirFind = s.dirFind := by
  funext m; simp [State.dirFind, h]

@[simp] theorem setContext_directory (s : State) (i : ContextId) (c : Option OpenContext) :
    (s.setContext i c).eng.directory = s.eng.directory := by cases i <;> rfl

@[simp] theorem setContext_context (s : State) (i j : ContextId) (c : Option OpenContext) :
    (s.setContext i c).eng.context j = if j = i then c else s.eng.context j := by cases i <;> cases j <;> rfl

@[simp] theorem setContext_store (s : State) (i : ContextId) (c : Option OpenContext) :
    (s.setContext i c).store = s.store := rfl

@[simp] theorem dirUpdate_context (s : State) (n : ParcelNo) (f : DirEntry → DirEntry) (j : ContextId) :
    (s.dirUpdate n f).eng.context j = s.eng.context j := by cases j <;> rfl

@[simp] theorem dirUpdate_store (s : State) (n : ParcelNo) (f : DirEntry → DirEntry) :
    (s.dirUpdate n f).store = s.store := rfl

@[simp] theorem touch_context (s : State) (i j : ContextId) : (s.touch i).eng.context j = s.eng.context j := by
  cases j <;> rfl

@[simp] theorem touch_directory (s : State) (i : ContextId) : (s.touch i).eng.directory = s.eng.directory := rfl

/-- Only the directory, the contexts and the store decide what is held, open and stored. -/
structure SameRecords (s t : State) : Prop where
  directory : t.eng.directory = s.eng.directory
  context : ∀ j, t.eng.context j = s.eng.context j
  store : t.store = s.store

namespace SameRecords

theorem refl (s : State) : SameRecords s s := ⟨rfl, fun _ => rfl, rfl⟩

theorem trans {u : State} (h : SameRecords s t) (g : SameRecords t u) : SameRecords s u :=
  ⟨g.directory.trans h.directory, fun j => (g.context j).trans (h.context j), g.store.trans h.store⟩

theorem dirFind (h : SameRecords s t) (n : ParcelNo) : t.dirFind n = s.dirFind n := by rw [dirFind_congr h.directory]

theorem stored (h : SameRecords s t) (n : ParcelNo) : t.stored n = s.stored n := by simp [State.stored, h.store]

theorem working (h : SameRecords s t) (n : ParcelNo) : t.working n = s.working n := by
  simp only [State.working, h.dirFind]
  split
  · rfl
  · split
    · rfl
    · rw [h.context]

theorem othersKept (h : SameRecords s t) (n : ParcelNo) : OthersKept s t n :=
  fun m _ => ⟨h.dirFind m, h.stored m, h.working m⟩

theorem of_eng (h : t.eng = s.eng) (g : t.store = s.store) : SameRecords s t := ⟨by rw [h], fun _ => by rw [h], g⟩

end SameRecords

theorem post_sameRecords (s : State) (b : NoticeBody) : SameRecords s (s.post b) :=
  .of_eng (post_eng s b) (post_store s b)

theorem offer_sameRecords (f : OfferedFrame) (b : Bool) (s : State) : SameRecords s (offer f b s).2 :=
  .of_eng (offer_eng f b s) (offer_store f b s)

theorem touch_sameRecords (s : State) (i : ContextId) : SameRecords s (s.touch i) := ⟨rfl, fun j => by cases j <;> rfl, rfl⟩

theorem markWrite_sameRecords (s : State) (n : ParcelNo) : SameRecords s (s.markWrite n) :=
  ⟨rfl, fun j => by cases j <;> rfl, rfl⟩

theorem bump_sameRecords (s : State) (c : Counter) : SameRecords s (s.bump c) := .of_eng rfl rfl

theorem OthersKept.trans {u : State} (h : OthersKept s t n) (g : OthersKept t u n) : OthersKept s u n :=
  fun m hm => ⟨(g m hm).1.trans (h m hm).1, (g m hm).2.1.trans (h m hm).2.1, (g m hm).2.2.trans (h m hm).2.2⟩

/-! ## An open parcel -/

/-- Parcel n is open in context i, with its directory entry and its context. -/
def State.OpenWith (s : State) (n : ParcelNo) (i : ContextId) (e : DirEntry) (c : OpenContext) : Prop :=
  s.dirFind n = some e ∧ e.context = some i ∧ s.eng.context i = some c ∧ c.record.number = n

theorem State.OpenIn.with {r : ParcelRecord} (h : s.OpenIn n i r) :
    ∃ e c, s.OpenWith n i e c ∧ c.record = r ∧ r.number = n := by
  obtain ⟨e, c, h1, h2, h3, h4, h5⟩ := h
  exact ⟨e, c, ⟨h1, h2, h3, by rw [h4, h5]⟩, h4, h5⟩

namespace State.OpenWith

theorem working (h : s.OpenWith n i e c) : s.working n = some c.record := by
  obtain ⟨h1, h2, h3, h4⟩ := h
  simp [State.working, h1, h2, h3, h4]

theorem open_eq (h : s.OpenWith n i e c) : s.openParcel n = s.touch i := by
  obtain ⟨h1, h2, -, -⟩ := h
  simp [State.openParcel, h1, h2]

theorem isHeld (h : s.OpenWith n i e c) : s.isHeld n = true := by simp [State.isHeld, h.1]

theorem congr (h : s.OpenWith n i e c) (g : SameRecords s t) : t.OpenWith n i e c :=
  ⟨(g.dirFind n).trans h.1, h.2.1, (g.context i).trans h.2.2.1, h.2.2.2⟩

/-- A change of the record of an open parcel: the context holds it, dirty, and the directory entry takes its copies. -/
theorem modify_eq (h : s.OpenWith n i e c) (f : ParcelRecord → ParcelRecord) :
    s.modify n f = ((s.setContext i (some { record := f c.record, dirty := true })).dirUpdate n
      (fun e => e.copyFrom (f c.record))).touch i := by
  obtain ⟨h1, h2, h3, h4⟩ := h
  simp [State.modify, h1, h2, h3, h4]

theorem modify (h : s.OpenWith n i e c) (f : ParcelRecord → ParcelRecord) (hf : (f c.record).number = n) :
    (s.modify n f).OpenWith n i (e.copyFrom (f c.record)) { record := f c.record, dirty := true } := by
  rw [h.modify_eq]
  refine ⟨?_, h.2.1, ?_, hf⟩
  · rw [dirFind_congr (touch_directory _ _), dirFind_dirUpdate (hf := fun _ => by rfl), if_pos rfl,
      dirFind_congr (setContext_directory s i _), h.1]
    rfl
  · simp

theorem setHalf (h : s.OpenWith n i e c) (b : Bool) : (s.setHalf n b).OpenWith n i { e with halfDone := b } c := by
  refine ⟨?_, h.2.1, ?_, h.2.2.2⟩
  · rw [State.setHalf, dirFind_dirUpdate (hf := fun _ => by rfl), if_pos rfl, h.1]; rfl
  · rw [State.setHalf, dirUpdate_context]; exact h.2.2.1

end State.OpenWith

/-- The working copy of parcel m does not lie in a context that holds parcel n. -/
theorem working_of_context (hd : t.dirFind m = s.dirFind m)
    (hc : ∀ j, t.eng.context j = s.eng.context j ∨
      (∀ c, s.eng.context j = some c → c.record.number ≠ m) ∧ ∀ c, t.eng.context j = some c → c.record.number ≠ m) :
    t.working m = s.working m := by
  simp only [State.working, hd]
  cases s.dirFind m with
  | none => rfl
  | some e =>
    simp only
    cases e.context with
    | none => rfl
    | some j =>
      simp only
      rcases hc j with h | ⟨h1, h2⟩
      · rw [h]
      · cases hs : s.eng.context j with
        | none =>
          cases ht : t.eng.context j with
          | none => rfl
          | some d => simp [h2 d ht]
        | some d =>
          cases ht : t.eng.context j with
          | none => simp [h1 d hs]
          | some d' => simp [h1 d hs, h2 d' ht]

theorem modify_othersKept (h : s.OpenWith n i e c) (f : ParcelRecord → ParcelRecord) (hf : (f c.record).number = n) :
    OthersKept s (s.modify n f) n := by
  intro m hm
  rw [h.modify_eq]
  have hd : (((s.setContext i (some { record := f c.record, dirty := true })).dirUpdate n
      (fun e => e.copyFrom (f c.record))).touch i).dirFind m = s.dirFind m := by
    rw [dirFind_congr (touch_directory _ _), dirFind_dirUpdate (hf := fun _ => by rfl), if_neg hm,
      dirFind_congr (setContext_directory s i _)]
  refine ⟨hd, rfl, working_of_context hd fun j => ?_⟩
  by_cases hj : j = i
  · subst hj
    refine .inr ⟨fun d hd => ?_, fun d hd => ?_⟩
    · rw [h.2.2.1] at hd; obtain rfl := Option.some.inj hd; rw [h.2.2.2]; exact Ne.symm hm
    · simp at hd; rw [← hd, hf]; exact Ne.symm hm
  · refine .inl ?_
    simp [hj]

theorem setHalf_othersKept (s : State) (n : ParcelNo) (b : Bool) : OthersKept s (s.setHalf n b) n := by
  intro m hm
  have hd : (s.setHalf n b).dirFind m = s.dirFind m := by
    rw [State.setHalf, dirFind_dirUpdate (hf := fun _ => by rfl), if_neg hm]
  exact ⟨hd, rfl, working_of_context hd fun j => .inl (dirUpdate_context _ _ _ _)⟩

/-- A change of a record touches the engine alone, and of it the records, the recency and nothing else. -/
theorem modify_rest (s : State) (n : ParcelNo) (f : ParcelRecord → ParcelRecord) :
    ∃ x, s.modify n f = s.setEng x ∧ x.dueWrites = s.eng.dueWrites := by
  simp only [State.modify]
  repeat' split
  all_goals first
    | exact ⟨s.eng, rfl, rfl⟩
    | exact ⟨_, rfl, by cases ‹ContextId› <;> rfl⟩

@[simp] theorem modify_line (s : State) (n : ParcelNo) (f : ParcelRecord → ParcelRecord) :
    (s.modify n f).line = s.line := by obtain ⟨x, h, -⟩ := modify_rest s n f; rw [h]; rfl
@[simp] theorem modify_acc (s : State) (n : ParcelNo) (f : ParcelRecord → ParcelRecord) :
    (s.modify n f).acc = s.acc := by obtain ⟨x, h, -⟩ := modify_rest s n f; rw [h]; rfl
@[simp] theorem modify_store (s : State) (n : ParcelNo) (f : ParcelRecord → ParcelRecord) :
    (s.modify n f).store = s.store := by obtain ⟨x, h, -⟩ := modify_rest s n f; rw [h]; rfl
@[simp] theorem modify_tmr (s : State) (n : ParcelNo) (f : ParcelRecord → ParcelRecord) :
    (s.modify n f).tmr = s.tmr := by obtain ⟨x, h, -⟩ := modify_rest s n f; rw [h]; rfl
@[simp] theorem modify_port (s : State) (n : ParcelNo) (f : ParcelRecord → ParcelRecord) :
    (s.modify n f).port = s.port := by obtain ⟨x, h, -⟩ := modify_rest s n f; rw [h]; rfl
@[simp] theorem modify_sup (s : State) (n : ParcelNo) (f : ParcelRecord → ParcelRecord) :
    (s.modify n f).sup = s.sup := by obtain ⟨x, h, -⟩ := modify_rest s n f; rw [h]; rfl
@[simp] theorem modify_counters (s : State) (n : ParcelNo) (f : ParcelRecord → ParcelRecord) :
    (s.modify n f).counters = s.counters := by obtain ⟨x, h, -⟩ := modify_rest s n f; rw [h]; rfl
@[simp] theorem modify_dueWrites (s : State) (n : ParcelNo) (f : ParcelRecord → ParcelRecord) :
    (s.modify n f).eng.dueWrites = s.eng.dueWrites := by obtain ⟨x, h, g⟩ := modify_rest s n f; rw [h]; exact g

/-! ## The store -/

/-- A record that has a store position replaces it; every other number's stored copy is as before. -/
theorem stored_storePut (r : ParcelRecord) (h : (s.stored r.number).isSome = true) (m : ParcelNo) :
    (s.storePut r).stored m = if m = r.number then some (mkStored r) else s.stored m := by
  have hi : ∃ k, s.store.findIdx? (storedUnder r.number) = some k := by
    rw [← Option.isSome_iff_exists]
    by_contra hn
    have hn : s.store.findIdx? (storedUnder r.number) = none := by simpa using hn
    rw [List.findIdx?_eq_none_iff] at hn
    have : s.store.find? (storedUnder r.number) = none := by
      rw [List.find?_eq_none]; intro x hx; simp [hn x hx]
    simp [State.stored, this] at h
  obtain ⟨k, hk⟩ := hi
  have e : s.storePut r = s.storeSet k r := by simp [State.storePut, State.storePlace, hk]
  rw [e]
  simp only [State.stored, State.storeSet, State.storeStep, State.setStoreLog_store, State.setStore_store]
  have key : ∀ (l : List (Option StoredParcel)) (k : Nat), l.findIdx? (storedUnder r.number) = some k →
      (l.set k (some (mkStored r))).find? (storedUnder m) =
        if m = r.number then some (some (mkStored r)) else l.find? (storedUnder m) := by
    intro l
    induction l with
    | nil => intro k h; simp at h
    | cons a l ih =>
      intro k hk
      rw [List.findIdx?_cons] at hk
      by_cases ha : storedUnder r.number a = true
      · simp only [ha, if_true, Option.some.injEq] at hk
        subst hk
        simp only [List.set_cons_zero, List.find?_cons]
        by_cases hm : m = r.number
        · subst hm; simp [storedUnder, mkStored]
        · have h1 : storedUnder m (some (mkStored r)) = false := by
            simp only [storedUnder, mkStored, beq_eq_false_iff_ne]; exact fun h => hm (byte4_injective h).symm
          have h2 : storedUnder m a = false := by
            cases a with
            | none => rfl
            | some p =>
              simp only [storedUnder, beq_iff_eq] at ha
              simp only [storedUnder, beq_eq_false_iff_ne, ha]
              exact fun h => hm (byte4_injective h).symm
          simp [h1, h2, hm]
      · simp only [Bool.not_eq_true] at ha
        simp only [ha, Bool.false_eq_true, if_false, Option.map_eq_some_iff] at hk
        obtain ⟨j, hj, rfl⟩ := hk
        simp only [List.set_cons_succ, List.find?_cons]
        by_cases hm : m = r.number
        · subst hm; simp only [ha]; rw [ih j hj]; simp
        · rw [ih j hj]; simp only [hm, if_false]
  rw [key s.store k hk]
  by_cases hm : m = r.number <;> simp [hm]

theorem find?_set_false {α : Type} (p : α → Bool) (x : α) (hx : p x = false) (l : List α) (k : Nat)
    (hk : ∀ y, l[k]? = some y → p y = false) : (l.set k x).find? p = l.find? p := by
  induction l generalizing k with
  | nil => rfl
  | cons a l ih =>
    cases k with
    | zero => simp [hx, hk a rfl]
    | succ k => simp only [List.set_cons_succ, List.find?_cons, ih k hk]

/-- A record put in the store, in its own position or in an empty one, leaves every other number's stored copy. -/
theorem stored_storePut_other (s : State) (r : ParcelRecord) {m : ParcelNo} (hm : m ≠ r.number) :
    (s.storePut r).stored m = s.stored m := by
  cases hp : s.storePlace r.number with
  | none => simp [State.storePut, hp]
  | some k =>
    have hk : ∀ y, s.store[k]? = some y → storedUnder m y = false := by
      intro y hy
      cases y with
      | none => rfl
      | some q =>
        have hq : storedUnder r.number (some q) = true := by
          rw [State.storePlace, Option.or_eq_some_iff] at hp
          rcases hp with hp | ⟨-, hp⟩
          · obtain ⟨hl, h1, -⟩ := List.findIdx?_eq_some_iff_getElem.1 hp
            rw [List.getElem?_eq_getElem hl] at hy
            rw [← Option.some.inj hy]
            exact h1
          · obtain ⟨hl, h1, -⟩ := List.findIdx?_eq_some_iff_getElem.1 hp
            rw [List.getElem?_eq_getElem hl] at hy
            rw [Option.some.inj hy] at h1
            cases h1
        simp only [storedUnder, beq_iff_eq] at hq
        simp only [storedUnder, beq_eq_false_iff_ne, hq]
        exact fun h => hm (byte4_injective h).symm
    have hx : storedUnder m (some (mkStored r)) = false := by
      simp only [storedUnder, mkStored, beq_eq_false_iff_ne]
      exact fun h => hm (byte4_injective h).symm
    simp only [State.storePut, hp, State.stored, State.storeSet, State.storeStep, State.setStoreLog_store,
      State.setStore_store, find?_set_false _ _ hx _ _ hk]

/-! ## The end of a service -/

theorem due_one (l : List ParcelNo) (h0 : n ≠ 0#4) (hl : ∀ m, m ∈ l ↔ m = n) :
    allNumbers.filter (fun m => l.contains m) = [n] := by
  have : (fun m => l.contains m) = (fun m => m == n) := by
    funext m
    by_cases hm : m = n
    · simp [hm, (hl n).2 rfl]
    · have := (hl m).not.2 hm
      simp [hm, this]
  rw [this]
  clear hl this
  revert n
  decide

theorem finishWrites_none (h : s.eng.dueWrites = []) : s.finishWrites = s := by
  have : allNumbers.filter (fun m => s.eng.dueWrites.contains m) = [] := by rw [h]; decide
  simp only [State.finishWrites, this, List.foldl_nil]
  cases s with | mk l a e st lg t p su c pe => cases e; simp_all [State.setEng]

/-- The write-through of one open, dirty, stored parcel at the end of a service: its stored copy is its record. -/
theorem finishWrites_one (h0 : n ≠ 0#4) (hl : ∀ m, m ∈ s.eng.dueWrites ↔ m = n) (h : s.OpenWith n i e c)
    (hdirty : c.dirty = true) (hs : (s.stored n).isSome = true) :
    ∃ u, s.finishWrites = u ∧ u.OpenWith n i e { c with dirty := false } ∧ u.stored n = some (mkStored c.record) ∧
      OthersKept s u n ∧ u.line = s.line ∧ u.acc = s.acc ∧ u.port = s.port ∧ u.counters = s.counters ∧
      u.tmr = s.tmr ∧ u.sup = s.sup ∧ u.pending = s.pending ∧ u.eng.dueWrites = [] ∧
      (∀ m, m ∈ u.eng.rosterDir ↔ m ∈ s.eng.rosterDir) ∧ u.eng.rosterDir = s.eng.rosterDir ∧
      u.eng.buf0 = s.eng.buf0 ∧ u.eng.buf1 = s.eng.buf1 ∧ u.eng.dutyPending = s.eng.dutyPending := by
  obtain ⟨h1, h2, h3, h4⟩ := h
  have hw : s.writeThrough n = (s.storePut c.record).setContext i (some { c with dirty := false }) := by
    simp [State.writeThrough, State.writeBack, h1, h2, h3, hdirty]
  obtain ⟨x, lg, hx, -⟩ := storePut_eq s c.record
  have hst := stored_storePut (s := s) c.record (by rw [h4]; exact hs)
  rw [h4, hx] at hst
  refine ⟨_, rfl, ?_⟩
  simp only [State.finishWrites, due_one _ h0 hl, List.foldl_cons, List.foldl_nil, hw, hx]
  have hd : ∀ m, ((((s.setStore x).setStoreLog lg).setContext i (some { c with dirty := false })).setEng
      { (((s.setStore x).setStoreLog lg).setContext i (some { c with dirty := false })).eng with dueWrites := [] }).dirFind m =
      s.dirFind m := by
    intro m; cases i <;> rfl
  have hc : ∀ j, ((((s.setStore x).setStoreLog lg).setContext i (some { c with dirty := false })).setEng
      { (((s.setStore x).setStoreLog lg).setContext i (some { c with dirty := false })).eng with dueWrites := [] }).eng.context j =
      if j = i then some { c with dirty := false } else s.eng.context j := by
    intro j; cases i <;> cases j <;> rfl
  refine ⟨⟨(hd n).trans h1, h2, by rw [hc, if_pos rfl], h4⟩, ?_, ?_, rfl, rfl, rfl, rfl, rfl, rfl, rfl, rfl, ?_, ?_,
    ?_, ?_, ?_⟩
  · exact (hst n).trans (if_pos rfl)
  · intro m hm
    refine ⟨hd m, (hst m).trans (if_neg hm), working_of_context (hd m) fun j => ?_⟩
    by_cases hj : j = i
    · subst hj
      refine .inr ⟨fun d hd => ?_, fun d hd => ?_⟩
      · rw [h3] at hd; obtain rfl := Option.some.inj hd; rw [h4]; exact Ne.symm hm
      · rw [hc, if_pos rfl] at hd; obtain rfl := Option.some.inj hd; simp only [h4]; exact Ne.symm hm
    · exact .inl (by rw [hc, if_neg hj])
  all_goals cases i <;> intros <;> rfl

/-- Under KEEP_OPEN, with no cycle start waiting for its build moment, the end of a service is its write-throughs. -/
theorem endService_quiet (hk : s.sup.straps.policy = .keepOpen) (hb : s.finishWrites.tmr.buildsDue = [])
    (hs : s.finishWrites.sup = s.sup) : endService s = s.finishWrites := by
  have hbuild : buildAll s.finishWrites = s.finishWrites := by
    simp only [buildAll, hb, List.foldl_nil]
    cases hf : s.finishWrites with
    | mk l a e st lg t p su c pe =>
      rw [hf] at hb
      cases t
      simp_all [State.setTmr]
  have hc : burstClose s.finishWrites = s.finishWrites := by
    simp only [burstClose]
    rw [hs, hk]
  simp only [endService, hbuild, idleClose, hc, ite_self]

@[simp] theorem withStarts_self (s : State) : s.withStarts s.tmr.buildsDue = s := rfl

theorem withStarts_eq {l : List Parity} (h : s.tmr.buildsDue = l) : s.withStarts l = s := by
  subst h; rfl

/-- A service of a quiet state, whose work leaves the timer as it is, is its work and its end. -/
theorem wholeService_quiet {body : State → State} (hq : s.Quiet) (hb : (body s).tmr = s.tmr) :
    wholeService body s = endService (body s) := by
  have hc : burstClose s = s := by simp [burstClose, hq.1]
  rw [wholeService, hc, withStarts_eq hq.2.1, withStarts_eq (by rw [hb])]

theorem setStoreLog_sameRecords (s : State) (l : List StoreStep) : SameRecords s (s.setStoreLog l) :=
  ⟨rfl, fun j => by cases j <;> rfl, rfl⟩

theorem countOther_sameRecords (s : State) : SameRecords s (countOther s) := ⟨rfl, fun j => by cases j <;> rfl, rfl⟩

theorem endService_none (hk : s.sup.straps.policy = .keepOpen) (hb : s.tmr.buildsDue = []) (hd : s.eng.dueWrites = []) :
    endService (countOther s) = countOther s := by
  have hf : (countOther s).finishWrites = countOther s := finishWrites_none hd
  rw [endService_quiet (s := countOther s) hk (by rw [hf]; exact hb) (by rw [hf]), hf]

/-- The end of a service that has changed one parcel, left it open and dirty, and writes it through. -/
theorem endService_one (hk : s.sup.straps.policy = .keepOpen) (hb : s.tmr.buildsDue = []) (h0 : n ≠ 0#4)
    (hl : ∀ m, m ∈ s.eng.dueWrites ↔ m = n) (h : s.OpenWith n i e c) (hdirty : c.dirty = true)
    (hs : (s.stored n).isSome = true) :
    ∃ t, endService (countOther s) = t ∧ t.OpenWith n i e { c with dirty := false } ∧
      t.stored n = some (mkStored c.record) ∧ OthersKept s t n ∧ t.line = s.line ∧ t.acc = s.acc ∧ t.port = s.port ∧
      t.counters = s.counters ∧ t.tmr = s.tmr ∧ t.sup = s.sup ∧ t.eng.rosterDir = s.eng.rosterDir ∧
      t.eng.buf0 = s.eng.buf0 ∧ t.eng.buf1 = s.eng.buf1 := by
  have hr := countOther_sameRecords s
  obtain ⟨u, hu, h1, h2, h3, h4, h5, h6, h7, h8, h9, -, -, -, h10, h11, h12, -⟩ :=
    finishWrites_one (s := countOther s) h0 hl (h.congr hr) hdirty (by rw [hr.stored]; exact hs)
  refine ⟨u, ?_, h1, h2, (hr.othersKept n).trans h3, h4, h5, h6, h7, h8, h9, h10, h11, h12⟩
  rw [endService_quiet (s := countOther s) hk (by rw [hu, h8]; exact hb) (by rw [hu, h9]), hu]

/-! ## Notices -/

theorem posted_post (s t : State) (b : NoticeBody) (hp : t.port = s.port)
    (hc : t.counters.noticesLost = s.counters.noticesLost) (hs : t.tmr.seconds = s.tmr.seconds) : Posted s (t.post b) b := by
  refine ⟨fun h => ?_, fun h => ?_⟩
  · have : t.post b = t.setPort { t.port with notices := t.port.notices ++ [{ second := t.tmr.seconds, body := b }] } := by
      simp only [State.post, Config.noticeSize, hp, h, if_true]
    rw [this]
    simp [hp, hc, hs]
  · have : t.post b = t.bump .noticesLost := by
      simp only [State.post, Config.noticeSize, hp]; rw [if_neg (by omega)]
    rw [this]
    simp [State.bump, hp, hc, Counters.raise, saturate, Config.counterMax]

theorem Posted.congr {u : State} {b : NoticeBody} (h : Posted s t b) (hp : u.port = t.port)
    (hc : u.counters.noticesLost = t.counters.noticesLost) : Posted s u b := by
  simpa [Posted, hp, hc] using h

/-! ## Changes of state -/

/-- A change of state of an open parcel: the new record is its working copy, dirty, its directory entry takes the
copies, the notice is posted and the parcel is due to be written through. -/
theorem changeState_open (h : s.OpenWith n i e c) (f : ParcelRecord → ParcelRecord) (cause : NoticeCause)
    (hf : (f c.record).number = n) :
    ∃ t, changeState n f cause s = t ∧
      t.OpenWith n i (e.copyFrom (f c.record)) { record := f c.record, dirty := true } ∧ OthersKept s t n ∧
      t.store = s.store ∧ t.line = s.line ∧ t.acc = s.acc ∧ t.tmr = s.tmr ∧ t.sup = s.sup ∧
      Posted s t (stateNotice (f c.record) cause) ∧ (t.port, t.counters) =
        (((s.modify n f).post (stateNotice (f c.record) cause)).port,
          ((s.modify n f).post (stateNotice (f c.record) cause)).counters) ∧
      t.eng.dueWrites = n :: s.eng.dueWrites := by
  have hm := h.modify f hf
  have hp : postState n cause (s.modify n f) = (s.modify n f).post (stateNotice (f c.record) cause) := by
    simp [postState, hm.working]
  have hs := post_sameRecords (s.modify n f) (stateNotice (f c.record) cause)
  have hw := markWrite_sameRecords ((s.modify n f).post (stateNotice (f c.record) cause)) n
  refine ⟨_, rfl, ?_⟩
  simp only [changeState, hp]
  have hrest : ∀ b, ((s.modify n f).post b).line = s.line ∧ ((s.modify n f).post b).acc = s.acc ∧
      ((s.modify n f).post b).tmr = s.tmr ∧ ((s.modify n f).post b).sup = s.sup := by
    intro b
    simp only [State.post]
    split <;> simp [State.bump]
  refine ⟨(hm.congr hs).congr hw, (modify_othersKept h f hf).trans ((hs.trans hw).othersKept n), ?_, (hrest _).1,
    (hrest _).2.1, (hrest _).2.2.1, (hrest _).2.2.2, ?_, rfl, ?_⟩
  · exact (post_store _ _).trans (modify_store s n f)
  · exact (posted_post s (s.modify n f) _ (modify_port s n f) (by rw [modify_counters]) (by rw [modify_tmr])).congr rfl rfl
  · show n :: ((s.modify n f).post _).eng.dueWrites = _
    rw [post_eng, modify_dueWrites]

/-! ## The head of the intake queue -/

theorem takeHead_eq {e : IntakeEntry} {rest : List IntakeEntry} (h : s.acc.intake = e :: rest) :
    takeHead s.acc.intake.tail s = { s with acc := (s.headTaken rest).acc } := by
  have hp : (!decide (rest.length ≤ Config.pressureOff)) = decide (16 < rest.length) := by
    have : Config.pressureOff = 16 := rfl
    rw [this]
    by_cases hh : rest.length ≤ 16
    · simp [hh]
    · simp only [hh, decide_false, Bool.not_false, true_eq_decide_iff]; omega
  simp only [takeHead, h, List.tail_cons, State.setAcc, State.headTaken, hp]

theorem starvation_counted (s : State) : s.eng.starvation.map countService = s.starvationCounted := by
  simp only [State.starvationCounted]
  congr 1
  funext c
  by_cases h : 8 ≤ min 8 (c.count + 1)
  · simp only [countService, moveAhead]
    rw [if_pos h]
    simp only [h, decide_true, Bool.or_true]
  · simp only [countService, moveAhead]
    rw [if_neg h]
    simp only [h, decide_false, Bool.or_false]

theorem arbiter_of_noneAhead {e : IntakeEntry} {rest : List IntakeEntry} (hn : s.NoneAhead) (hi : s.acc.intake = e :: rest) :
    arbiter s = some (.intake e) := by
  obtain ⟨h1, h2, h3⟩ := hn
  simp [arbiter, h1, h2, h3, hi]

/-- An intake service of a quiet state is the rule of its entry, the count of the service and its write-throughs. -/
theorem exec_intakeService {e : IntakeEntry} {rest : List IntakeEntry} (hc : s.HeadChosen e rest) (hq : s.Quiet) :
    exec .intakeService s =
      .next ((endService (countOther (applyEntry e { s with acc := (s.headTaken rest).acc }))).setStoreLog s.storeLog)
      := by
  obtain ⟨hh, hn, hi, hu⟩ := hc
  have hw : intakeBody e s = applyEntry e { s with acc := (s.headTaken rest).acc } := by
    simp only [intakeBody, applyUnlessUnnumbered]
    rw [takeHead_eq hi]
    simp [hu]
  have ht : (applyEntry e { s with acc := (s.headTaken rest).acc }).tmr = s.tmr :=
    (sameClock_engineClosed s).applyEntry e rfl
  simp only [exec, execIntakeService, asService, whenReleased, hh, intakeService, arbiter_of_noneAhead hn hi, serve]
  rw [wholeService_quiet (body := fun s => countOther (intakeBody e s)) hq (by rw [hw]; exact ht), hw]
  rfl

theorem headTaken_sameRecords (s : State) (rest : List IntakeEntry) :
    SameRecords s { s with acc := (s.headTaken rest).acc } := ⟨rfl, fun _ => rfl, rfl⟩

theorem phaseLegal_iff (p : Phase) (round : Byte) (r : ParcelRecord) :
    phaseLegal p round r = true ↔
      r.state ∈ legalStates p ∧ (p = .regauge → round.toNat = r.round ∧ r.round < 4) := by
  cases p <;> cases hs : r.state <;> simp [phaseLegal, legalStates, hs, ParcelState.isTerminal]

theorem parsePhase_of {e : IntakeEntry} {p : Phase} {round reason : Byte} (h : IsPhaseEntry e p round reason) :
    parsePhase e = some (p, round, reason) := by
  obtain ⟨-, h2, h3⟩ := h
  have : phaseOfCode p.code = some p := by cases p <;> decide
  simp [parsePhase, h2, this, h3]

/-- A PHASE of good form for an open parcel is applied when its source is a node and it is legal, and is counted
otherwise (R9). -/
theorem applyEntry_phase {x : IntakeEntry} {p : Phase} {round reason : Byte} {d : Declaration}
    (hp : IsPhaseEntry x p round reason) (ho : s.OpenWith x.parcel i e c) (hd : c.record.decl = some d) :
    applyEntry x s =
      if x.source ∈ d.nodes ∧ c.record.state ∈ legalStates p ∧
          (p = .regauge → round.toNat = c.record.round ∧ c.record.round < 4) then
        applyLegal p x.parcel reason x.arrival ((s.touch i).modify x.parcel (fun r => { r with
          lastPhase := some { phase := p, source := x.source, reason := reason, arrival := x.arrival } }))
      else (s.touch i).bump .ignoredPhases := by
  have hw := (ho.congr (touch_sameRecords s i)).working
  simp only [applyEntry, hp.1, applyPhase, ho.1, parsePhase_of hp, ho.open_eq, hw, phaseSourceOk, hd, Bool.and_eq_true,
    phaseLegal_iff, List.contains_iff_mem]

end Sys2Proof.Machine
end

