-- ==== Sys2Proof/Laws/Coherent.lean ====
section
/-! SUPPORT. What is held, open and stored: what a write-back, a closing, a turnaround and a change of a record do to
the records, in a state in which directory, contexts and store agree (R101, R109 to R111, R116). -/

namespace Sys2Proof.Machine

variable {s t u : State} {n m : ParcelNo} {i j : ContextId} {e : DirEntry} {c : OpenContext} {r : ParcelRecord}

/-! ## What a turnaround leaves alone -/

/-- A state without its directory, its contexts and its store. -/
def State.apart (s : State) : State :=
  { s with
    store := []
    storeLog := []
    eng := { s.eng with directory := [], w0 := none, w1 := none, lessRecent := .w0 } }

theorem setContext_apart (s : State) (i : ContextId) (c : Option OpenContext) :
    (s.setContext i c).apart = s.apart := by cases i <;> rfl

theorem dirUpdate_apart (s : State) (n : ParcelNo) (f : DirEntry → DirEntry) : (s.dirUpdate n f).apart = s.apart := rfl

theorem touch_apart (s : State) (i : ContextId) : (s.touch i).apart = s.apart := rfl

theorem storePut_apart (s : State) (r : ParcelRecord) : (s.storePut r).apart = s.apart := by
  obtain ⟨x, l, h, -⟩ := storePut_eq s r
  rw [h]
  rfl

theorem writeBack_apart (s : State) (i : ContextId) : (s.writeBack i).apart = s.apart := by
  unfold State.writeBack
  repeat' split
  · rw [setContext_apart, storePut_apart]
  all_goals rfl

theorem closeContext_apart (s : State) (i : ContextId) : (s.closeContext i).apart = s.apart := by
  unfold State.closeContext
  split
  · rw [dirUpdate_apart, setContext_apart, writeBack_apart]
  · rfl

theorem openParcel_apart (s : State) (n : ParcelNo) : (s.openParcel n).apart = s.apart := by
  unfold State.openParcel
  repeat' split
  · rfl
  · rfl
  · rfl
  · rw [touch_apart, dirUpdate_apart, setContext_apart, closeContext_apart]

theorem modify_apart (s : State) (n : ParcelNo) (f : ParcelRecord → ParcelRecord) : (s.modify n f).apart = s.apart := by
  unfold State.modify
  repeat' split
  all_goals first
    | rfl
    | rw [touch_apart, dirUpdate_apart, setContext_apart]

/-- States that differ only in what `apart` drops agree on everything else. -/
theorem eq_of_apart (h : t.apart = s.apart) :
    t = { s with
      store := t.store
      storeLog := t.storeLog
      eng := { s.eng with
        directory := t.eng.directory, w0 := t.eng.w0, w1 := t.eng.w1, lessRecent := t.eng.lessRecent } } := by
  cases s
  cases t
  rename_i e₁ _ _ _ _ _ _ _ _ _ e₂ _ _ _ _ _ _ _
  cases e₁
  cases e₂
  simp_all [State.apart]

/-! ## The store -/

theorem storePut_eng (s : State) (r : ParcelRecord) : (s.storePut r).eng = s.eng := by
  obtain ⟨x, l, h, -⟩ := storePut_eq s r
  rw [h]
  rfl

theorem writeBack_dirFind (s : State) (i : ContextId) : (s.writeBack i).dirFind = s.dirFind := by
  refine dirFind_congr ?_
  unfold State.writeBack
  repeat' split
  · rw [setContext_directory, storePut_eng]
  all_goals rfl

/-- A write-back leaves its context clean, and every other as it was. -/
theorem writeBack_context (s : State) (i j : ContextId) :
    (s.writeBack i).eng.context j =
      if j = i then (s.eng.context i).map (fun c => { c with dirty := false }) else s.eng.context j := by
  unfold State.writeBack
  cases h : s.eng.context i with
  | none => by_cases hj : j = i <;> simp [hj, h]
  | some c =>
    by_cases hd : c.dirty = true
    · simp only [hd, if_true, setContext_context, storePut_eng]
      by_cases hj : j = i <;> simp [hj]
    · by_cases hj : j = i
      · subst hj; simp only [hd, Bool.false_eq_true, if_false, if_true, Option.map_some, h]
        cases c; simp_all
      · simp [hd, hj]

/-- A write-back stores the dirty record under its number, which has a position. -/
theorem writeBack_stored (hs : ∀ c, s.eng.context i = some c → c.dirty = true → (s.stored c.record.number).isSome = true)
    (m : ParcelNo) :
    (s.writeBack i).stored m = match s.eng.context i with
      | some c => if c.dirty = true ∧ c.record.number = m then some (mkStored c.record) else s.stored m
      | none => s.stored m := by
  unfold State.writeBack
  cases h : s.eng.context i with
  | none => rfl
  | some c =>
    by_cases hd : c.dirty = true
    · simp only [hd, if_true, true_and]
      have := stored_storePut (s := s) c.record (hs c h hd) m
      simp only [State.stored, setContext_store] at this ⊢
      rw [this]
      by_cases hm : m = c.record.number
      · simp [hm]
      · simp [hm, Ne.symm hm]
    · simp [hd]

/-! ## A closing and a turnaround -/

theorem closeContext_context (s : State) (i j : ContextId) :
    (s.closeContext i).eng.context j = if j = i then none else s.eng.context j := by
  unfold State.closeContext
  cases h : s.eng.context i with
  | none => by_cases hj : j = i <;> simp [hj, h]
  | some c => by_cases hj : j = i <;> simp [hj, writeBack_context]

theorem closeContext_dirFind (s : State) (i : ContextId) (m : ParcelNo) :
    (s.closeContext i).dirFind m = (s.dirFind m).map (fun e => { e with
      context := if (s.eng.context i).map (fun c => c.record.number) = some m then none else e.context }) := by
  unfold State.closeContext
  cases h : s.eng.context i with
  | none => cases s.dirFind m <;> rfl
  | some c =>
    simp only [Option.map_some, Option.some.injEq]
    rw [dirFind_dirUpdate (hf := fun _ => by rfl), dirFind_congr (setContext_directory _ _ _), writeBack_dirFind]
    by_cases hm : m = c.record.number
    · subst hm; simp
    · simp only [hm, if_false, Ne.symm hm]
      cases s.dirFind m <;> rfl

theorem closeContext_stored
    (hs : ∀ c, s.eng.context i = some c → c.dirty = true → (s.stored c.record.number).isSome = true) (m : ParcelNo) :
    (s.closeContext i).stored m = match s.eng.context i with
      | some c => if c.dirty = true ∧ c.record.number = m then some (mkStored c.record) else s.stored m
      | none => s.stored m := by
  have := writeBack_stored hs m
  unfold State.closeContext
  cases h : s.eng.context i with
  | none => rfl
  | some c => rw [h] at this; exact this

theorem victim_eq (s : State) : s.eng.victim = s.missVictim := by
  unfold Engine.victim State.missVictim
  cases s.eng.w0 <;> cases s.eng.w1 <;> simp

/-- A closing whose record has a position leaves the empty positions empty. -/
theorem closeContext_none_mem (hs : ∀ c, s.eng.context i = some c → c.dirty = true → (s.stored c.record.number).isSome = true)
    (hn : none ∈ s.store) : none ∈ (s.closeContext i).store := by
  have hput : ∀ r : ParcelRecord, (s.stored r.number).isSome = true → none ∈ (s.storePut r).store := by
    intro r hr
    obtain ⟨j, hj, hjn⟩ := List.getElem_of_mem hn
    cases hk : s.store.findIdx? (storedUnder r.number) with
    | none =>
      rw [List.findIdx?_eq_none_iff] at hk
      have : s.store.find? (storedUnder r.number) = none := by
        rw [List.find?_eq_none]; intro x hx; simp [hk x hx]
      simp [State.stored, this] at hr
    | some k =>
      obtain ⟨hl, h1, -⟩ := List.findIdx?_eq_some_iff_getElem.1 hk
      have hjk : k ≠ j := by
        rintro rfl
        rw [hjn] at h1
        cases h1
      have e : s.storePut r = s.storeSet k r := by simp [State.storePut, State.storePlace, hk]
      rw [e]
      simp only [State.storeSet, State.storeStep, State.setStoreLog_store, State.setStore_store]
      exact List.mem_iff_getElem.2 ⟨j, by simpa using hj, by rw [List.getElem_set_ne hjk, hjn]⟩
  unfold State.closeContext State.writeBack
  cases h : s.eng.context i with
  | none => exact hn
  | some c =>
    by_cases hd : c.dirty = true
    · simpa [hd, State.dirUpdate, State.setContext] using hput c.record (hs c h hd)
    · simpa [hd, State.dirUpdate, State.setContext] using hn

/-- The context that has been emptied for a miss is the victim of the next one. -/
theorem closeContext_missVictim (T : State) : (T.closeContext T.missVictim).missVictim = T.missVictim := by
  have hx := closeContext_context T T.missVictim
  simp only [State.missVictim] at hx ⊢
  by_cases h0 : T.eng.w0 = none
  · simp only [h0, if_true] at hx ⊢
    rw [if_pos (by have := hx .w0; simpa [Engine.context] using this)]
  · by_cases h1 : T.eng.w1 = none
    · simp only [h0, h1, if_true, if_false] at hx ⊢
      rw [if_neg (by have := hx .w0; simp [Engine.context] at this; rw [this]; exact h0), if_pos (by have := hx .w1; simpa [Engine.context] using this)]
    · simp only [h0, h1, if_false] at hx ⊢
      cases hl : T.eng.lessRecent with
      | w0 =>
        rw [hl] at hx
        rw [if_pos (by have := hx .w0; simpa [Engine.context] using this)]
      | w1 =>
        rw [hl] at hx
        rw [if_neg (by have := hx .w0; simp [Engine.context] at this; rw [this]; exact h0), if_pos (by have := hx .w1; simpa [Engine.context] using this)]

/-- A miss is the turnaround of the victim (R109, R110). -/
theorem openParcel_turned {p : StoredParcel} (h : s.dirFind n = some e) (hc : e.context = none)
    (hp : s.stored n = some p)
    (hs : ∀ c, s.eng.context s.missVictim = some c → c.dirty = true → (s.stored c.record.number).isSome = true) :
    s.Turned (s.openParcel n) n s.missVictim p.record := by
  have ho : s.openParcel n = (((s.closeContext s.missVictim).setContext s.missVictim
      (some { record := p.record, dirty := false })).dirUpdate n
      (fun e => { e with context := some s.missVictim })).touch s.missVictim := by
    simp [State.openParcel, h, hc, hp, victim_eq]
  refine ⟨?_, ?_, ?_, fun m => ?_, fun m => ?_, eq_of_apart (openParcel_apart s n)⟩
  · rw [ho]; simp
  · have hne : otherContext s.missVictim ≠ s.missVictim := by cases s.missVictim <;> decide
    rw [ho]
    simp [closeContext_context, hne]
  · rw [ho]; rfl
  · rw [ho, dirFind_congr (touch_directory _ _), dirFind_dirUpdate (hf := fun _ => by rfl),
      dirFind_congr (setContext_directory _ _ _), closeContext_dirFind]
    by_cases hm : m = n
    · subst hm; simp [h]
    · simp only [hm, if_false]
      exact closeContext_dirFind _ _ _
  · rw [ho]
    exact closeContext_stored hs m

/-- A parcel that a turnaround has opened is opened again by a hit, which changes nothing. -/
theorem State.Turned.hit (h : s.Turned t n i r) (hd : s.dirFind n = some e) : t.openParcel n = t := by
  obtain ⟨-, -, h3, h4, -, -⟩ := h
  have : t.dirFind n = some { e with context := some i } := by rw [h4, hd]; simp
  simp only [State.openParcel, this, State.touch, ← h3]
  rfl

/-- A turnaround keeps its form when the Acceptance Unit and the engine's flags change beside it. -/
theorem openParcel_setAcc (s : State) (a : AcceptanceUnit) (n : ParcelNo) :
    ({ s with acc := a } : State).openParcel n = { s.openParcel n with acc := a } := by
  have hb : ∀ (s : State) i, ({ s with acc := a } : State).writeBack i = { s.writeBack i with acc := a } := by
    intro s i
    unfold State.writeBack State.storePut State.storePlace
    change (match s.eng.context i with | some c => _ | none => _) = _
    cases s.eng.context i with
    | none => rfl
    | some c =>
      simp only
      split
      · change (match (s.store.findIdx? _).or (s.store.findIdx? _) with | some i => _ | none => _ : State).setContext _ _ = _
        cases (s.store.findIdx? (storedUnder c.record.number)).or (s.store.findIdx? Option.isNone) <;> rfl
      · rfl
  have hcl : ∀ (s : State) i, ({ s with acc := a } : State).closeContext i = { s.closeContext i with acc := a } := by
    intro s i
    unfold State.closeContext
    change (match s.eng.context i with | some c => _ | none => _) = _
    rw [hb]
    cases s.eng.context i <;> rfl
  unfold State.openParcel
  change (match s.dirFind n with | none => _ | some e => _) = _
  cases s.dirFind n with
  | none => rfl
  | some e =>
    simp only
    cases e.context with
    | some i => rfl
    | none =>
      simp only
      change (match s.stored n with | none => _ | some e => _) = _
      cases s.stored n with
      | none => rfl
      | some p => simp only [hcl]; rfl

/-! ## Records in an agreeing state -/

theorem recordOf_closed (h : s.dirFind n = some e) (hc : e.context = none) :
    s.recordOf n = (s.stored n).map StoredParcel.record := by
  simp [State.recordOf, State.working, h, hc]

theorem recordOf_open (h : s.dirFind n = some e) (hc : e.context = some i) (hi : s.eng.context i = some c)
    (hn : c.record.number = n) : s.recordOf n = some c.record := by
  simp [State.recordOf, State.working, h, hc, hi, hn]

theorem recordOf_absent (h : s.dirFind n = none) : s.recordOf n = (s.stored n).map StoredParcel.record := by
  simp [State.recordOf, State.working, h]

namespace State.Coherent

/-- A held parcel has a record of its number. -/
theorem held (h : s.Coherent) (hd : s.dirFind n = some e) : ∃ r, s.recordOf n = some r ∧ r.number = n := by
  cases hc : e.context with
  | none =>
    obtain ⟨p, hp, hn⟩ := h.stored n e hd
    exact ⟨p.record, by rw [recordOf_closed hd hc, hp]; rfl, hn⟩
  | some i =>
    obtain ⟨c, hi, hn⟩ := h.opened n e i hd hc
    exact ⟨c.record, recordOf_open hd hc hi hn, hn⟩

theorem storedSome (h : s.Coherent) (hi : s.eng.context i = some c) : (s.stored c.record.number).isSome = true := by
  obtain ⟨e, he, -⟩ := h.shown i c hi
  obtain ⟨p, hp, -⟩ := h.stored _ e he
  simp [hp]

/-- A closing keeps the agreement and every record (R111). -/
theorem closeContext (h : s.Coherent) (i : ContextId) :
    (s.closeContext i).Coherent ∧ (∀ m, (s.closeContext i).recordOf m = s.recordOf m) := by
  cases hi : s.eng.context i with
  | none =>
    have : s.closeContext i = s := by simp [State.closeContext, hi]
    rw [this]
    exact ⟨h, fun _ => rfl⟩
  | some c =>
    obtain ⟨ek, hek, hck⟩ := h.shown i c hi
    have hd : ∀ m, (s.closeContext i).dirFind m = (s.dirFind m).map (fun e => { e with
        context := if m = c.record.number then none else e.context }) := by
      intro m
      rw [closeContext_dirFind, hi]
      by_cases hm : m = c.record.number
      · simp [hm]
      · simp [hm, Ne.symm hm]
    have hst : ∀ m, (s.closeContext i).stored m =
        if c.dirty = true ∧ c.record.number = m then some (mkStored c.record) else s.stored m := by
      intro m
      rw [closeContext_stored (fun c' h' _ => h.storedSome h'), hi]
    have hx : ∀ j, (s.closeContext i).eng.context j = if j = i then none else s.eng.context j :=
      closeContext_context s i
    have hr : ∀ m, (s.closeContext i).recordOf m = s.recordOf m := by
      intro m
      cases hm : s.dirFind m with
      | none =>
        have hne : c.record.number ≠ m := by
          intro hne
          rw [hne, hm] at hek
          cases hek
        rw [recordOf_absent hm, recordOf_absent (by rw [hd, hm]; rfl), hst]
        simp [hne]
      | some e =>
        have hd' := hd m
        rw [hm] at hd'
        by_cases hk : m = c.record.number
        · subst hk
          rw [hm] at hek
          obtain rfl := Option.some.inj hek
          rw [recordOf_closed hd' (by simp), recordOf_open hm hck hi rfl, hst]
          by_cases hdirty : c.dirty = true
          · simp [hdirty, mkStored]
          · obtain ⟨p, hp, -⟩ := h.stored _ _ hm
            simp [hdirty, hp, h.clean i c p hi (by simpa using hdirty) hp]
        · simp only [hk, if_false] at hd'
          cases hc : e.context with
          | none =>
            rw [recordOf_closed hm hc, recordOf_closed hd' hc, hst]
            simp [Ne.symm hk]
          | some j =>
            obtain ⟨c', hj, hn⟩ := h.opened m e j hm hc
            have hji : j ≠ i := by
              intro hji
              rw [hji, hi] at hj
              obtain rfl := Option.some.inj hj
              exact hk hn.symm
            rw [recordOf_open hm hc hj hn, recordOf_open hd' hc (by rw [hx, if_neg hji, hj]) hn]
    refine ⟨⟨fun m e' he' => ?_, fun m e' j he' hc' => ?_, fun j c' hj => ?_, fun j c' p hj hdirty hp => ?_,
      fun m e' r he' hr' => ?_⟩, hr⟩
    · rw [hd] at he'
      obtain ⟨e, he, rfl⟩ := Option.map_eq_some_iff.mp he'
      obtain ⟨p, hp, hn⟩ := h.stored m e he
      rw [hst]
      split
      · rename_i hk
        exact ⟨_, rfl, hk.2⟩
      · exact ⟨p, hp, hn⟩
    · rw [hd] at he'
      obtain ⟨e, he, rfl⟩ := Option.map_eq_some_iff.mp he'
      by_cases hk : m = c.record.number
      · simp [hk] at hc'
      · simp only [hk, if_false] at hc'
        obtain ⟨c', hj, hn⟩ := h.opened m e j he hc'
        have hji : j ≠ i := by
          intro hji
          rw [hji, hi] at hj
          obtain rfl := Option.some.inj hj
          exact hk hn.symm
        exact ⟨c', by rw [hx, if_neg hji, hj], hn⟩
    · rw [hx] at hj
      split at hj
      · cases hj
      · rename_i hji
        obtain ⟨e, he, hc⟩ := h.shown j c' hj
        refine ⟨_, by rw [hd, he]; rfl, ?_⟩
        have hk : c'.record.number ≠ c.record.number := by
          intro hk
          rw [hk, hek] at he
          obtain rfl := Option.some.inj he
          rw [hck] at hc
          exact hji (Option.some.inj hc).symm
        simpa [hk] using hc
    · rw [hx] at hj
      split at hj
      · cases hj
      · rename_i hji
        obtain ⟨e, he, hc⟩ := h.shown j c' hj
        have hk : c.record.number ≠ c'.record.number := by
          intro hk
          rw [← hk, hek] at he
          obtain rfl := Option.some.inj he
          rw [hck] at hc
          exact hji (Option.some.inj hc).symm
        rw [hst] at hp
        simp only [hk, and_false, if_false] at hp
        exact h.clean j c' p hj hdirty hp
    · rw [hd] at he'
      obtain ⟨e, he, rfl⟩ := Option.map_eq_some_iff.mp he'
      have := h.copies m e r he (by rw [← hr, hr'])
      rw [← this]
      rfl

/-- Opening a held parcel keeps the agreement and every record, and leaves the parcel open (R109, R110). -/
theorem openParcel (h : s.Coherent) (hd : s.dirFind n = some e) :
    (s.openParcel n).Coherent ∧ (∀ m, (s.openParcel n).recordOf m = s.recordOf m) ∧
      ∃ i e' c, (s.openParcel n).OpenWith n i e' c ∧ s.recordOf n = some c.record ∧
        e' = { e with context := some i } := by
  cases hc : e.context with
  | some i =>
    obtain ⟨c, hi, hn⟩ := h.opened n e i hd hc
    have ho : s.openParcel n = s.touch i := by simp [State.openParcel, hd, hc]
    have hs := touch_sameRecords s i
    have hr : ∀ m, (s.touch i).recordOf m = s.recordOf m := fun m => by
      simp [State.recordOf, hs.working, hs.stored]
    rw [ho]
    refine ⟨⟨fun m e he => ?_, fun m e j he hj => ?_, fun j c hj => ?_, fun j c p hj hdirty hp => ?_,
      fun m e r he hr' => ?_⟩, hr, i, e, c, ⟨by rw [hs.dirFind]; exact hd, hc, by rw [hs.context]; exact hi, hn⟩,
      recordOf_open hd hc hi hn, by rw [← hc]⟩
    · rw [hs.dirFind] at he; rw [hs.stored]; exact h.stored m e he
    · rw [hs.dirFind] at he; rw [hs.context]; exact h.opened m e j he hj
    · rw [hs.context] at hj; rw [hs.dirFind]; exact h.shown j c hj
    · rw [hs.context] at hj; rw [hs.stored] at hp; exact h.clean j c p hj hdirty hp
    · rw [hs.dirFind] at he; rw [hr] at hr'; exact h.copies m e r he hr'
  | none =>
    obtain ⟨p, hp, hn⟩ := h.stored n e hd
    obtain ⟨hcl, hrc⟩ := h.closeContext s.missVictim
    have hns : s.recordOf n = some p.record := by rw [recordOf_closed hd hc, hp]; rfl
    obtain ⟨h1, h2, h3, h4, h5, -⟩ := openParcel_turned hd hc hp (fun c hi _ => h.storedSome hi)
    generalize hv : s.missVictim = v at *
    generalize ht : s.openParcel n = t at *
    -- the record that the victim held is of another number
    have hvn : ∀ c, s.eng.context v = some c → c.record.number ≠ n := by
      intro c hi hk
      obtain ⟨ev, hev, hcv⟩ := h.shown v c hi
      rw [hk, hd] at hev
      obtain rfl := Option.some.inj hev
      rw [hc] at hcv
      cases hcv
    have hdn : t.dirFind n = some { e with context := some v } := by rw [h4, hd]; simp
    have hdc : ∀ m, m ≠ n → t.dirFind m = (s.closeContext v).dirFind m := by
      intro m hm
      rw [h4, closeContext_dirFind]
      simp [hm]
    have hsc : ∀ m, t.stored m = (s.closeContext v).stored m := by
      intro m
      refine (h5 m).trans (Eq.trans ?_ (closeContext_stored (fun c hi _ => h.storedSome hi) m).symm)
      cases s.eng.context v <;> rfl
    have hxc : ∀ j, j ≠ v → t.eng.context j = (s.closeContext v).eng.context j := by
      intro j hj
      have hj' : j = otherContext v := by cases j <;> cases v <;> first | rfl | exact absurd rfl hj
      rw [hj', h2, closeContext_context, if_neg (by cases v <;> decide)]
    have hno : ∀ m e' j, (s.closeContext v).dirFind m = some e' → e'.context = some j → j ≠ v := by
      intro m e' j he' hj hjv
      obtain ⟨c, hcj, -⟩ := hcl.opened m e' j he' hj
      rw [hjv, closeContext_context, if_pos rfl] at hcj
      cases hcj
    have hr : ∀ m, t.recordOf m = s.recordOf m := by
      intro m
      by_cases hm : m = n
      · subst hm
        rw [recordOf_open hdn rfl h1 hn, hns]
      · rw [← hrc m]
        cases hd' : (s.closeContext v).dirFind m with
        | none => rw [recordOf_absent hd', recordOf_absent ((hdc m hm).trans hd'), hsc]
        | some e' =>
          have hd'' := (hdc m hm).trans hd'
          cases hc' : e'.context with
          | none => rw [recordOf_closed hd' hc', recordOf_closed hd'' hc', hsc]
          | some j =>
            obtain ⟨c, hcj, hcn⟩ := hcl.opened m e' j hd' hc'
            rw [recordOf_open hd' hc' hcj hcn,
              recordOf_open hd'' hc' (by rw [hxc j (hno m e' j hd' hc')]; exact hcj) hcn]
    refine ⟨⟨fun m e' he' => ?_, fun m e' j he' hj => ?_, fun j c hj => ?_, fun j c q hj hdirty hq => ?_,
      fun m e' r he' hr' => ?_⟩, hr, v, _, _, ⟨hdn, rfl, h1, hn⟩, hns, rfl⟩
    · by_cases hm : m = n
      · subst hm
        rw [h5]
        cases hi : s.eng.context v with
        | none => exact ⟨p, hp, hn⟩
        | some c => simp [hvn c hi, hp, hn]
      · rw [hdc m hm] at he'
        rw [hsc]
        exact hcl.stored m e' he'
    · by_cases hm : m = n
      · subst hm
        rw [hdn] at he'
        obtain rfl := Option.some.inj he'
        obtain rfl := Option.some.inj hj
        exact ⟨_, h1, hn⟩
      · rw [hdc m hm] at he'
        obtain ⟨c, hcj, hcn⟩ := hcl.opened m e' j he' hj
        exact ⟨c, by rw [hxc j (hno m e' j he' hj)]; exact hcj, hcn⟩
    · by_cases hjv : j = v
      · subst hjv
        rw [h1] at hj
        obtain rfl := Option.some.inj hj
        exact ⟨_, by simpa [hn] using hdn, rfl⟩
      · rw [hxc j hjv] at hj
        obtain ⟨e', he', hcj⟩ := hcl.shown j c hj
        have hm : c.record.number ≠ n := by
          intro hm
          rw [hm, closeContext_dirFind, hd] at he'
          simp only [Option.map_some, Option.some.injEq] at he'
          rw [← he', hc] at hcj
          simp at hcj
        exact ⟨e', by rw [hdc _ hm]; exact he', hcj⟩
    · by_cases hjv : j = v
      · subst hjv
        rw [h1] at hj
        obtain rfl := Option.some.inj hj
        simp only [hn, h5] at hq
        cases hi : s.eng.context j with
        | none => rw [hi, hp] at hq; simp only [Option.some.injEq] at hq; rw [← hq]
        | some c => simp only [hi, hvn c hi, and_false, if_false, hp, Option.some.injEq] at hq; rw [← hq]
      · rw [hxc j hjv] at hj
        rw [hsc] at hq
        exact hcl.clean j c q hj hdirty hq
    · by_cases hm : m = n
      · subst hm
        rw [hdn] at he'
        obtain rfl := Option.some.inj he'
        rw [hr, hns] at hr'
        obtain rfl := Option.some.inj hr'
        have := h.copies m e p.record hd hns
        rw [← this]
        rfl
      · rw [hdc m hm] at he'
        exact hcl.copies m e' r he' (by rw [hrc, ← hr, hr'])

/-- A change of the record of an open parcel keeps the agreement, and changes that record alone (R101). -/
theorem modify (h : s.Coherent) (ho : s.OpenWith n i e c) (f : ParcelRecord → ParcelRecord)
    (hf : (f c.record).number = n) :
    (s.modify n f).Coherent ∧ (s.modify n f).OpenWith n i (e.copyFrom (f c.record)) { record := f c.record, dirty := true } ∧
      ∀ m, (s.modify n f).recordOf m = if m = n then some (f c.record) else s.recordOf m := by
  have hm := ho.modify f hf
  have hk := modify_othersKept ho f hf
  have hx : ∀ j, (s.modify n f).eng.context j =
      if j = i then some { record := f c.record, dirty := true } else s.eng.context j := by
    intro j
    rw [ho.modify_eq]
    by_cases hj : j = i <;> simp [hj]
  have hst : ∀ m, (s.modify n f).stored m = s.stored m := by
    intro m
    simp [State.stored]
  have hr : ∀ m, (s.modify n f).recordOf m = if m = n then some (f c.record) else s.recordOf m := by
    intro m
    by_cases hmn : m = n
    · rw [hmn, if_pos rfl, recordOf_open hm.1 hm.2.1 hm.2.2.1 hm.2.2.2]
    · rw [if_neg hmn, State.recordOf, State.recordOf, (hk m hmn).2.2, (hk m hmn).2.1]
  have hni : ∀ m e' j, m ≠ n → s.dirFind m = some e' → e'.context = some j → j ≠ i := by
    intro m e' j hmn he' hj hji
    obtain ⟨c', hcj, hcn⟩ := h.opened m e' j he' hj
    rw [hji, ho.2.2.1] at hcj
    obtain rfl := Option.some.inj hcj
    exact hmn (hcn.symm.trans ho.2.2.2)
  refine ⟨⟨fun m e' he' => ?_, fun m e' j he' hj => ?_, fun j c' hj => ?_, fun j c' p hj hdirty hp => ?_,
    fun m e' r he' hr' => ?_⟩, hm, hr⟩
  · rw [hst]
    by_cases hmn : m = n
    · rw [hmn]; exact h.stored n e ho.1
    · rw [(hk m hmn).1] at he'; exact h.stored m e' he'
  · by_cases hmn : m = n
    · subst hmn
      rw [hm.1] at he'
      obtain rfl := Option.some.inj he'
      rw [hm.2.1] at hj
      obtain rfl := Option.some.inj hj
      exact ⟨_, hm.2.2.1, hm.2.2.2⟩
    · rw [(hk m hmn).1] at he'
      rw [hx, if_neg (hni m e' j hmn he' hj)]
      exact h.opened m e' j he' hj
  · rw [hx] at hj
    split at hj
    · rename_i hji
      obtain rfl := Option.some.inj hj
      exact ⟨_, by simpa [hf] using hm.1, by rw [hji]; exact hm.2.1⟩
    · rename_i hji
      obtain ⟨e', he', hcj⟩ := h.shown j c' hj
      have hmn : c'.record.number ≠ n := by
        intro hmn
        rw [hmn, ho.1] at he'
        obtain rfl := Option.some.inj he'
        rw [ho.2.1] at hcj
        exact hji (Option.some.inj hcj).symm
      exact ⟨e', by rw [(hk _ hmn).1]; exact he', hcj⟩
  · rw [hx] at hj
    split at hj
    · obtain rfl := Option.some.inj hj
      cases hdirty
    · rw [hst] at hp
      exact h.clean j c' p hj hdirty hp
  · by_cases hmn : m = n
    · subst hmn
      rw [hm.1] at he'
      obtain rfl := Option.some.inj he'
      rw [hr, if_pos rfl] at hr'
      obtain rfl := Option.some.inj hr'
      rfl
    · rw [(hk m hmn).1] at he'
      rw [hr, if_neg hmn] at hr'
      exact h.copies m e' r he' hr'

/-- What neither the directory, nor a context, nor the store shows, does not touch the agreement. -/
theorem congr (h : s.Coherent) (g : SameRecords s t) : t.Coherent where
  stored m e he := by rw [g.dirFind] at he; rw [g.stored]; exact h.stored m e he
  opened m e j he hj := by rw [g.dirFind] at he; rw [g.context]; exact h.opened m e j he hj
  shown j c hj := by rw [g.context] at hj; rw [g.dirFind]; exact h.shown j c hj
  clean j c p hj hdirty hp := by rw [g.context] at hj; rw [g.stored] at hp; exact h.clean j c p hj hdirty hp
  copies m e r he hr := by
    rw [g.dirFind] at he
    exact h.copies m e r he (by simpa [State.recordOf, g.working, g.stored] using hr)

end State.Coherent

theorem SameRecords.recordOf (g : SameRecords s t) (m : ParcelNo) : t.recordOf m = s.recordOf m := by
  simp [State.recordOf, g.working, g.stored]

end Sys2Proof.Machine
end

