-- ==== Sys2Proof/Laws/Service.lean ====
section
/-! SUPPORT. A service on one open parcel, computed: every change of its record and its directory entry gathers in one
form, past which notices, offers and bindings move, and the end of the service writes that form through. -/

namespace Sys2Proof.Machine

variable {s t : State} {n : ParcelNo} {i : ContextId} {e : DirEntry} {c : OpenContext} {q r : ParcelRecord} {b : Bool}
  {F : DirEntry → DirEntry}

/-- Parcel n open in context i with contents c, its directory entry changed by F, and the context used last. -/
def State.withOpen (s : State) (n : ParcelNo) (i : ContextId) (F : DirEntry → DirEntry) (c : OpenContext) : State :=
  ((s.setContext i (some c)).dirUpdate n F).touch i

/-- A change of a directory entry that leaves its number and its context. -/
def KeepsPlace (F : DirEntry → DirEntry) : Prop := ∀ d, (F d).number = d.number ∧ (F d).context = d.context

theorem keepsPlace_id : KeepsPlace id := fun _ => ⟨rfl, rfl⟩

theorem KeepsPlace.copy (h : KeepsPlace F) (r : ParcelRecord) : KeepsPlace (fun d => (F d).copyFrom r) := h

theorem KeepsPlace.half (h : KeepsPlace F) (b : Bool) : KeepsPlace (fun d => { F d with halfDone := b }) := h

/-- An open parcel is in the form, with nothing changed but its recency. -/
theorem State.OpenWith.form (h : s.OpenWith n i e c) : s.touch i = s.withOpen n i id c := by
  obtain ⟨-, -, h3, -⟩ := h
  have hm : ∀ l : List DirEntry, l.map (fun d => if d.number == n then id d else d) = l := by
    intro l; simp
  have hx : s.eng.setContext i (some c) = s.eng := by
    rw [← h3]; cases i <;> rfl
  simp only [State.withOpen, State.setContext, hx, State.dirUpdate, State.setEng_eng, hm]
  rfl

/-! ## What moves past the form -/

theorem withOpen_post (s : State) (n i F c) (b : NoticeBody) :
    (s.withOpen n i F c).post b = (s.post b).withOpen n i F c := by
  simp only [State.post]
  by_cases hl : s.port.notices.length < Config.noticeSize
  · rw [if_pos hl, if_pos (show (s.withOpen n i F c).port.notices.length < _ from hl)]; rfl
  · rw [if_neg hl, if_neg (show ¬ (s.withOpen n i F c).port.notices.length < _ from hl)]; rfl

theorem withOpen_postAll (s : State) (n i F c) (l : List NoticeBody) :
    (s.withOpen n i F c).postAll l = (s.postAll l).withOpen n i F c := by
  unfold State.postAll
  induction l generalizing s with
  | nil => rfl
  | cons b l ih => simp only [List.foldl_cons, withOpen_post, ih]

theorem withOpen_bump (s : State) (n i F c) (k : Counter) :
    (s.withOpen n i F c).bump k = (s.bump k).withOpen n i F c := rfl

theorem withOpen_markWrite (s : State) (n i F c) (m : ParcelNo) :
    (s.withOpen n i F c).markWrite m = (s.markWrite m).withOpen n i F c := by cases i <;> rfl

theorem withOpen_setAcc (s : State) (n i F c) (a : AcceptanceUnit) :
    (s.withOpen n i F c).setAcc a = (s.setAcc a).withOpen n i F c := rfl

theorem withOpen_withdraw (s : State) (n i F c) (k : FrameKey) :
    withdraw k (s.withOpen n i F c) = (withdraw k s).withOpen n i F c := rfl

/-- An offer looks at the queue and the standing alone. -/
theorem withOpen_offer (s : State) (n i F c) (f : OfferedFrame) (l : Bool) :
    offer f l (s.withOpen n i F c) = ((offer f l s).1, (offer f l s).2.withOpen n i F c) := by
  have hl : (s.withOpen n i F c).line = s.line := rfl
  simp only [offer, hl]
  repeat' split
  all_goals rfl

/-! ## Changes of the record -/

theorem withOpen_open (h : s.OpenWith n i e c) (hF : KeepsPlace F) (hr : r.number = n) :
    (s.withOpen n i F { record := r, dirty := b }).OpenWith n i (F e) { record := r, dirty := b } := by
  refine ⟨?_, (hF e).2.trans h.2.1, by simp [State.withOpen], hr⟩
  rw [State.withOpen, dirFind_congr (touch_directory _ _), dirFind_dirUpdate (hf := fun d => (hF d).1), if_pos rfl,
    dirFind_congr (setContext_directory _ _ _), h.1]
  rfl

theorem withOpen_working (h : s.OpenWith n i e c) (hF : KeepsPlace F) (hr : r.number = n) :
    (s.withOpen n i F { record := r, dirty := b }).working n = some r := (withOpen_open h hF hr).working

theorem withOpen_withOpen (s : State) (n i) (F G : DirEntry → DirEntry) (c c' : OpenContext) (hF : KeepsPlace F) :
    (s.withOpen n i F c).withOpen n i G c' = s.withOpen n i (fun d => G (F d)) c' := by
  have hm : ∀ l : List DirEntry, (l.map (fun d => if d.number == n then F d else d)).map
      (fun d => if d.number == n then G d else d) = l.map (fun d => if d.number == n then G (F d) else d) := by
    intro l
    rw [List.map_map]
    refine List.map_congr_left fun d _ => ?_
    simp only [Function.comp_apply]
    by_cases hd : d.number == n
    · simp [hd, (hF d).1]
    · simp [hd]
  simp only [State.withOpen, State.touch, State.dirUpdate, State.setContext, State.setEng_eng]
  cases i
  all_goals
    simp only [Engine.setContext]
    rw [← hm]
    rfl

/-- A change of the record of the open parcel gathers in the form. -/
theorem withOpen_modify (h : s.OpenWith n i e c) (hF : KeepsPlace F) (hr : r.number = n)
    (f : ParcelRecord → ParcelRecord) :
    (s.withOpen n i F { record := r, dirty := b }).modify n f =
      s.withOpen n i (fun d => (F d).copyFrom (f r)) { record := f r, dirty := true } := by
  rw [(withOpen_open h hF hr).modify_eq]
  exact withOpen_withOpen s n i F (fun d => d.copyFrom (f r)) { record := r, dirty := b } _ hF

theorem withOpen_setHalf (s : State) (n i c) (hF : KeepsPlace F) (b : Bool) :
    (s.withOpen n i F c).setHalf n b = s.withOpen n i (fun d => { F d with halfDone := b }) c := by
  rw [← withOpen_withOpen s n i F (fun d => { d with halfDone := b }) c c hF]
  cases i <;> rfl

/-- A change of state: the record in the form, its notice, and the parcel due to be written through. -/
theorem withOpen_changeState (h : s.OpenWith n i e c) (hF : KeepsPlace F) (hr : r.number = n)
    (f : ParcelRecord → ParcelRecord) (hf : (f r).number = n) (cause : NoticeCause) :
    changeState n f cause (s.withOpen n i F { record := r, dirty := b }) =
      ((s.post (stateNotice (f r) cause)).markWrite n).withOpen n i (fun d => (F d).copyFrom (f r))
        { record := f r, dirty := true } := by
  rw [changeState, withOpen_modify h hF hr f, postState, withOpen_working h (hF.copy _) hf]
  simp only [withOpen_post, withOpen_markWrite]

/-! ## The end of the service -/

/-- The service has been counted for the port request, and nothing more is due to be written. -/
def State.counted (s : State) : State :=
  s.setEng { s.eng with starvation := s.starvationCounted, dueWrites := [] }

theorem endService_unwritten (hk : s.sup.straps.policy = .keepOpen) (hb : s.tmr.buildsDue = [])
    (hd : s.eng.dueWrites = []) : endService (countOther s) = s.counted := by
  rw [endService_none hk hb hd, countOther, State.setStarvation, starvation_counted, State.counted]
  cases s with
  | mk l a e st lg t p su c pe => cases e; simp_all [State.setEng]

/-- A service that has changed one open parcel, and has it to write through, ends with its record stored. -/
theorem endService_written (hk : s.sup.straps.policy = .keepOpen) (hb : s.tmr.buildsDue = []) (h0 : n ≠ 0#4)
    (hd : ∀ m, m ∈ s.eng.dueWrites ↔ m = n) (h : s.OpenWith n i e c) (hF : KeepsPlace F) (hq : q.number = n) :
    endService (countOther (s.withOpen n i F { record := q, dirty := true })) =
      ((s.storePut q).withOpen n i F { record := q, dirty := false }).counted := by
  have ho : (countOther (s.withOpen n i F { record := q, dirty := true })).OpenWith n i (F e)
      { record := q, dirty := true } := (withOpen_open h hF hq).congr (countOther_sameRecords _)
  have hdue : ∀ m, m ∈ (countOther (s.withOpen n i F { record := q, dirty := true })).eng.dueWrites ↔ m = n := by
    intro m; rw [← hd m]; cases i <;> rfl
  obtain ⟨x, l, hx, -⟩ := storePut_eq s q
  have hp : ∀ u : State, u.store = s.store → u.storeLog = s.storeLog → u.storePut q = (u.setStore x).setStoreLog l := by
    intro u h1 h2
    have hx1 : (s.storePut q).store = x := by rw [hx]; rfl
    have hx2 : (s.storePut q).storeLog = l := by rw [hx]; rfl
    rw [← hx1, ← hx2]
    unfold State.storePut State.storePlace
    rw [h1]
    cases hf : (s.store.findIdx? (storedUnder q.number)).or (s.store.findIdx? Option.isNone) with
    | none => simp only [← h1, ← h2]; rfl
    | some k => simp only [State.storeSet, State.storeStep, h1, h2]; rfl
  have hw : (countOther (s.withOpen n i F { record := q, dirty := true })).finishWrites =
      ((s.storePut q).withOpen n i F { record := q, dirty := false }).counted := by
    simp only [State.finishWrites, due_one _ h0 hdue, List.foldl_cons, List.foldl_nil]
    have : (countOther (s.withOpen n i F { record := q, dirty := true })).writeThrough n =
        ((countOther (s.withOpen n i F { record := q, dirty := true })).storePut q).setContext i
          (some { record := q, dirty := false }) := by
      simp [State.writeThrough, State.writeBack, ho.1, ho.2.1, ho.2.2.1]
    rw [this, hp (countOther (s.withOpen n i F { record := q, dirty := true })) rfl rfl, hx]
    have hs := starvation_counted s
    cases i
    all_goals
      simp only [countOther, State.setStarvation, State.counted, State.withOpen, State.setContext, State.touch,
        State.dirUpdate, Engine.setContext, State.setEng, State.setStore, State.setStoreLog, State.starvationCounted] at hs ⊢
      simp only [hs]
  rw [endService_quiet (s := countOther (s.withOpen n i F { record := q, dirty := true })) hk
    (by rw [hw]; exact (congrArg (fun x : State => x.tmr.buildsDue = []) hx).mpr hb) (by rw [hw]; rw [hx]; rfl), hw]

/-! ## What the form shows -/

theorem withOpen_sameRest (s : State) (n i F c) : (s.withOpen n i F c).apart = s.apart := by
  rw [State.withOpen, touch_apart, dirUpdate_apart, setContext_apart]

theorem withOpen_othersKept (h : s.OpenWith n i e c) (hF : KeepsPlace F) (hr : r.number = n) :
    OthersKept s (s.withOpen n i F { record := r, dirty := b }) n := by
  intro m hm
  have hd : (s.withOpen n i F { record := r, dirty := b }).dirFind m = s.dirFind m := by
    rw [State.withOpen, dirFind_congr (touch_directory _ _), dirFind_dirUpdate (hf := fun d => (hF d).1), if_neg hm,
      dirFind_congr (setContext_directory s i _)]
  refine ⟨hd, rfl, working_of_context hd fun j => ?_⟩
  by_cases hj : j = i
  · subst hj
    refine .inr ⟨fun d hd => ?_, fun d hd => ?_⟩
    · rw [h.2.2.1] at hd; obtain rfl := Option.some.inj hd; rw [h.2.2.2]; exact Ne.symm hm
    · simp [State.withOpen] at hd; rw [← hd, hr]; exact Ne.symm hm
  · exact .inl (by simp [State.withOpen, hj])

theorem counted_sameRecords (s : State) : SameRecords s s.counted := ⟨rfl, fun j => by cases j <;> rfl, rfl⟩

theorem storePut_sameRest (s : State) (r : ParcelRecord) :
    (s.storePut r).eng = s.eng ∧ (s.storePut r).line = s.line ∧ (s.storePut r).acc = s.acc ∧
      (s.storePut r).tmr = s.tmr ∧ (s.storePut r).port = s.port ∧ (s.storePut r).sup = s.sup ∧
      (s.storePut r).counters = s.counters ∧ (s.storePut r).pending = s.pending := by
  obtain ⟨x, l, hx, -⟩ := storePut_eq s r
  rw [hx]
  exact ⟨rfl, rfl, rfl, rfl, rfl, rfl, rfl, rfl⟩

theorem storePut_open (h : s.OpenWith n i e c) : (s.storePut q).OpenWith n i e c := by
  obtain ⟨h1, h2, h3, h4⟩ := h
  have he := (storePut_sameRest s q).1
  exact ⟨(congrFun (dirFind_congr (congrArg Engine.directory he)) n).trans h1, h2, by rw [he]; exact h3, h4⟩

/-- What a service that wrote one parcel through has left. -/
theorem written_shows (h : s.OpenWith n i e c) (hF : KeepsPlace F) (hq : q.number = n) (hs : (s.stored n).isSome = true) :
    let u := ((s.storePut q).withOpen n i F { record := q, dirty := false }).counted
    u.working n = some q ∧ u.stored n = some (mkStored q) ∧ u.dirFind n = some (F e) ∧ OthersKept s u n ∧
      u.line = s.line ∧ u.acc = s.acc ∧ u.port = s.port ∧ u.counters = s.counters ∧ u.tmr = s.tmr ∧ u.sup = s.sup ∧
      u.pending = s.pending ∧ u.eng.rosterDir = s.eng.rosterDir ∧ u.eng.dutyPending = s.eng.dutyPending := by
  intro u
  have hp := storePut_open (q := q) h
  have ho : u.OpenWith n i (F e) { record := q, dirty := false } :=
    (withOpen_open hp hF (by exact hq)).congr (counted_sameRecords _)
  obtain ⟨he, h1, h2, h3, h4, h5, h6, h7⟩ := storePut_sameRest s q
  have hst := stored_storePut (s := s) q (by rw [hq]; exact hs)
  have hput : OthersKept s (s.storePut q) n := by
    intro m hm
    refine ⟨congrFun (dirFind_congr (congrArg Engine.directory he)) m, by rw [hst, hq, if_neg hm], ?_⟩
    simp only [State.working, dirFind_congr (show (s.storePut q).eng.directory = s.eng.directory by rw [he]), he]
  have hu : u.stored n = some (mkStored q) := by
    have := hst n
    rw [if_pos hq.symm] at this
    exact this
  refine ⟨ho.working, hu, ho.1, hput.trans ((withOpen_othersKept hp hF (by exact hq)).trans
    ((counted_sameRecords _).othersKept n)), h1, h2, h4, h6, h3, h5, h7, ?_, ?_⟩
  all_goals
    simp only [u, State.counted, State.withOpen, State.touch, State.dirUpdate, State.setContext, he]
    cases i <;> rfl

/-- What a service that changed one parcel, and has nothing to write through, has left. -/
theorem unwritten_shows (h : s.OpenWith n i e c) (hF : KeepsPlace F) (hr : r.number = n) :
    let u := (s.withOpen n i F { record := r, dirty := b }).counted
    u.working n = some r ∧ u.store = s.store ∧ u.dirFind n = some (F e) ∧ OthersKept s u n ∧ u.line = s.line ∧
      u.acc = s.acc ∧ u.port = s.port ∧ u.counters = s.counters ∧ u.tmr = s.tmr ∧ u.sup = s.sup ∧
      u.pending = s.pending := by
  intro u
  have ho : u.OpenWith n i (F e) { record := r, dirty := b } := (withOpen_open h hF hr).congr (counted_sameRecords _)
  exact ⟨ho.working, rfl, ho.1, (withOpen_othersKept h hF hr).trans ((counted_sameRecords _).othersKept n), rfl, rfl,
    rfl, rfl, rfl, rfl, rfl⟩

/-! ## A command that opens its parcel first (R109) -/

theorem openParcel_openParcel (s : State) (n : ParcelNo) : (s.openParcel n).openParcel n = s.openParcel n := by
  cases hd : s.dirFind n with
  | none => simp [State.openParcel, hd]
  | some e =>
    cases hc : e.context with
    | some i =>
      have : s.openParcel n = s.touch i := by simp [State.openParcel, hd, hc]
      rw [this]
      simp only [State.openParcel, (touch_sameRecords s i).dirFind, hd, hc]
      rfl
    | none =>
      cases hp : s.stored n with
      | none =>
        have : s.openParcel n = s := by simp [State.openParcel, hd, hc, hp]
        rw [this, this]
      | some p =>
        have ho : s.openParcel n = (((s.closeContext s.missVictim).setContext s.missVictim
            (some { record := p.record, dirty := false })).dirUpdate n
            (fun e => { e with context := some s.missVictim })).touch s.missVictim := by
          simp [State.openParcel, hd, hc, hp, victim_eq]
        have hn : (s.openParcel n).dirFind n = some { e with context := some s.missVictim } := by
          rw [ho, dirFind_congr (touch_directory _ _), dirFind_dirUpdate (hf := fun _ => by rfl), if_pos rfl,
            dirFind_congr (setContext_directory _ _ _), closeContext_dirFind, hd]
          rfl
        have hl : (s.openParcel n).eng.lessRecent = otherContext s.missVictim := by rw [ho]; rfl
        generalize s.openParcel n = t at hn hl
        simp only [State.openParcel, hn, State.touch, ← hl]
        rfl

/-- An opening changes of the directory entry of its parcel the context alone. -/
theorem openParcel_entry (s : State) (n : ParcelNo) :
    ((s.openParcel n).dirFind n).map (fun e => { e with context := none }) =
      (s.dirFind n).map (fun e => { e with context := none }) := by
  cases hd : s.dirFind n with
  | none => simp [State.openParcel, hd]
  | some e =>
    cases hc : e.context with
    | some i => simp [State.openParcel, hd, hc, (touch_sameRecords s i).dirFind]
    | none =>
      cases hp : s.stored n with
      | none => simp [State.openParcel, hd, hc, hp]
      | some p =>
        have ho : s.openParcel n = (((s.closeContext s.missVictim).setContext s.missVictim
            (some { record := p.record, dirty := false })).dirUpdate n
            (fun e => { e with context := some s.missVictim })).touch s.missVictim := by
          simp [State.openParcel, hd, hc, hp, victim_eq]
        rw [ho, dirFind_congr (touch_directory _ _), dirFind_dirUpdate (hf := fun _ => by rfl), if_pos rfl,
          dirFind_congr (setContext_directory _ _ _), closeContext_dirFind, hd]
        rfl

theorem openParcel_dirFind_isSome (s : State) (n : ParcelNo) :
    ((s.openParcel n).dirFind n).isSome = (s.dirFind n).isSome := by
  simpa using congrArg Option.isSome (openParcel_entry s n)

/-- What an opening leaves alone: all but the directory, the contexts and the store. -/
theorem openParcel_rest (s : State) (n : ParcelNo) :
    (s.openParcel n).line = s.line ∧ (s.openParcel n).acc = s.acc ∧ (s.openParcel n).tmr = s.tmr ∧
      (s.openParcel n).port = s.port ∧ (s.openParcel n).sup = s.sup ∧ (s.openParcel n).counters = s.counters ∧
      (s.openParcel n).pending = s.pending ∧ (s.openParcel n).eng.dueWrites = s.eng.dueWrites ∧
      (s.openParcel n).eng.checkpointPending = s.eng.checkpointPending ∧
      (s.openParcel n).eng.dutyPending = s.eng.dutyPending ∧ (s.openParcel n).eng.starvation = s.eng.starvation ∧
      (s.openParcel n).eng.slotPointer = s.eng.slotPointer ∧
      (s.openParcel n).eng.windowRestart = s.eng.windowRestart := by
  rw [eq_of_apart (openParcel_apart s n)]
  exact ⟨rfl, rfl, rfl, rfl, rfl, rfl, rfl, rfl, rfl, rfl, rfl, rfl, rfl⟩

/-- An intake service whose rule opens its parcel, in the state it is made in, acts after the turnaround. -/
theorem actsAfterTurnaround_intake_of {x : IntakeEntry} {rest : List IntakeEntry} (hc : s.HeadChosen x rest)
    (hq : s.Quiet) (hx : applyEntry x (State.openParcel { s with acc := (s.headTaken rest).acc } n) = applyEntry x { s with acc := (s.headTaken rest).acc }) :
    ActsAfterTurnaround .intakeService s n := by
  intro e p hd he hp hs
  obtain ⟨r1, r2, r3, r4, r5, r6, r7, r8, r9, r10, r11, r12, r13⟩ := openParcel_rest s n
  have hc' : (s.openParcel n).HeadChosen x rest := by
    obtain ⟨h1, ⟨h2, h3, h4⟩, h5, h6⟩ := hc
    refine ⟨by rw [r5]; exact h1, ⟨by rw [r9]; exact h2, by rw [r10]; exact h3, ?_⟩, by rw [r2]; exact h5,
      by rw [r1]; exact h6⟩
    simpa [State.portStarved, State.portWaiting, r4, r11] using h4
  have hq' : (s.openParcel n).Quiet := ⟨by rw [r5]; exact hq.1, by rw [r3]; exact hq.2.1, by rw [r8]; exact hq.2.2⟩
  refine ⟨s.openParcel n, _, openParcel_turned hd he hp hs, exec_intakeService hc' hq', ?_⟩
  rw [exec_intakeService hc hq]
  have ha : ((s.openParcel n).headTaken rest).acc = (s.headTaken rest).acc := by simp [State.headTaken, r2]
  rw [← hx, openParcel_setAcc, ha]
  rfl

/-- An intake service whose rule opens the parcel before anything else acts after the turnaround. -/
theorem actsAfterTurnaround_intake {x : IntakeEntry} {rest : List IntakeEntry} (hc : s.HeadChosen x rest)
    (hq : s.Quiet) (hx : ∀ u : State, u.eng.directory = s.eng.directory → u.eng.rosterDir = s.eng.rosterDir →
      applyEntry x u = applyEntry x (u.openParcel n)) :
    ActsAfterTurnaround .intakeService s n :=
  actsAfterTurnaround_intake_of hc hq (hx { s with acc := (s.headTaken rest).acc } rfl rfl).symm

end Sys2Proof.Machine
end

