-- ==== Sys2Proof/Laws/Duty.lean ====
section
/-! SUPPORT. The second duty: the half-window mark, the restart of the windows in a state in which directory, contexts and
store agree, and a duty that finds nothing due. -/

namespace Sys2Proof.Machine

variable {s t : State} {n m : ParcelNo} {i : ContextId} {e : DirEntry} {c : OpenContext} {b : Bool}

/-! ## The half-window mark -/

theorem setHalf_dirFind (s : State) (n m : ParcelNo) (b : Bool) : (s.setHalf n b).dirFind m = if m = n then (s.dirFind
    m).map (fun e => { e with halfDone := b }) else s.dirFind m := by
  rw [State.setHalf, dirFind_dirUpdate (hf := fun _ => by rfl)]
  by_cases h : m = n
  · subst h; rfl
  · rw [if_neg h, if_neg h]

theorem setHalf_context (s : State) (n : ParcelNo) (b : Bool) (j) : (s.setHalf n b).eng.context j = s.eng.context j :=
    by cases j <;> rfl

theorem setHalf_dirFind_some (h : (s.setHalf n b).dirFind m = some e) : ∃ e', s.dirFind m = some e' ∧ e'.context =
    e.context ∧ ∀ r, e'.copyFrom r = e' → e.copyFrom r = e := by
  rw [setHalf_dirFind] at h
  split at h
  · cases hd : s.dirFind m with
    | none => rw [hd] at h; cases h
    | some e' =>
      rw [hd] at h; cases h
      refine ⟨e', rfl, rfl, fun r hr => ?_⟩
      have := congrArg (fun x : DirEntry => { x with halfDone := b }) hr
      exact this
  · exact ⟨e, h, rfl, fun r hr => hr⟩

theorem setHalf_working (s : State) (n : ParcelNo) (b) (m) : (s.setHalf n b).working m = s.working m := by
  have : ∀ j, (s.setHalf n b).eng.context j = s.eng.context j := setHalf_context s n b
  simp only [State.working, setHalf_dirFind]
  by_cases hm : m = n
  · subst hm; rw [if_pos rfl]
    cases s.dirFind m with
    | none => rfl
    | some e => simp only [Option.map_some]; cases e.context with
      | none => rfl
      | some j => simp only [this]
  · rw [if_neg hm]
    cases s.dirFind m with
    | none => rfl
    | some e => simp only []; cases e.context with
      | none => rfl
      | some j => simp only [this]

theorem setHalf_recordOf (s : State) (n : ParcelNo) (b) (m) : (s.setHalf n b).recordOf m = s.recordOf m := by
  simp only [State.recordOf, setHalf_working]; rfl

theorem setHalf_coherent (h : s.Coherent) (n) (b) : (s.setHalf n b).Coherent where
  stored m e he := by
    obtain ⟨e', h1, -, -⟩ := setHalf_dirFind_some he
    exact h.stored m e' h1
  opened m e j he hj := by
    obtain ⟨e', h1, h2, -⟩ := setHalf_dirFind_some he
    rw [setHalf_context]
    exact h.opened m e' j h1 (h2.trans hj)
  shown j c hj := by
    rw [setHalf_context] at hj
    obtain ⟨e, h1, h2⟩ := h.shown j c hj
    rw [setHalf_dirFind]
    split
    · rw [h1]; exact ⟨_, rfl, h2⟩
    · exact ⟨e, h1, h2⟩
  clean j c p hj hd hp := by rw [setHalf_context] at hj; exact h.clean j c p hj hd hp
  copies m e r he hr := by
    obtain ⟨e', h1, -, h3⟩ := setHalf_dirFind_some he
    rw [setHalf_recordOf] at hr
    exact h3 r (h.copies m e' r h1 hr)

/-! ## A change of a held parcel -/

/-- A directory entry without its context. -/
def DirEntry.closed (e : DirEntry) : DirEntry := { e with context := none }

theorem closed_of_map {a b : Option DirEntry} (h : a.map DirEntry.closed = b.map DirEntry.closed) {e} (hb : b = some e)
    : ∃ e', a = some e' ∧ DirEntry.closed e' = DirEntry.closed e := by
  subst hb
  cases a with
  | none => simp at h
  | some e' => exact ⟨e', rfl, by simpa using h⟩

theorem openParcel_closed (h : s.Coherent) (hd : s.dirFind n = some e) (m : ParcelNo) : ((s.openParcel n).dirFind
    m).map DirEntry.closed = (s.dirFind m).map DirEntry.closed := by
  cases hc : e.context with
  | some i =>
    have : s.openParcel n = s.touch i := by simp [State.openParcel, hd, hc]
    rw [this]; rfl
  | none =>
    obtain ⟨p, hp, -⟩ := h.stored n e hd
    obtain ⟨h1, h2, h3, h4, h5, -⟩ := openParcel_turned hd hc hp (fun c hi _ => h.storedSome hi)
    rw [h4]
    cases s.dirFind m with
    | none => rfl
    | some e => rfl

/-- A change of a held parcel, opened for it, in a state in which directory, contexts and store agree. -/
theorem coherent_change (h : s.Coherent) (hd : s.dirFind n = some e) {r : ParcelRecord} (hr : s.recordOf n = some r)
    (f : ParcelRecord → ParcelRecord) (hf : (f r).number = r.number) :
   ((s.openParcel n).modify n f).Coherent ∧ (∀ m, ((s.openParcel n).modify n f).recordOf m = if m = n then some (f r)
       else s.recordOf m) ∧
   (∀ m, (((s.openParcel n).modify n f).dirFind m).map DirEntry.closed = if m = n then some (DirEntry.closed
       (e.copyFrom (f r))) else (s.dirFind m).map DirEntry.closed) ∧ ((s.openParcel n).modify n f).apart = s.apart :=
           by
  obtain ⟨h1, h2, i, e', c, h3, h4, h5⟩ := h.openParcel hd
  obtain rfl := Option.some.inj (hr.symm.trans h4)
  obtain ⟨k1, k2, k3⟩ := h1.modify h3 f (hf.trans h3.2.2.2)
  refine ⟨k1, ?_, ?_, (modify_apart _ _ _).trans (openParcel_apart _ _)⟩
  · intro m; rw [k3]; simp only [h2]
  · intro m
    have hk := modify_othersKept h3 f (hf.trans h3.2.2.2)
    by_cases hm : m = n
    · subst hm; rw [if_pos rfl, k2.1, h5]; rfl
    · rw [if_neg hm, (hk m hm).1, openParcel_closed h hd]

/-! ## What apart keeps -/

theorem apart_line (h : t.apart = s.apart) : t.line = s.line := by have := congrArg State.line h; exact this

theorem apart_acc (h : t.apart = s.apart) : t.acc = s.acc := by have := congrArg State.acc h; exact this

theorem apart_tmr (h : t.apart = s.apart) : t.tmr = s.tmr := by have := congrArg State.tmr h; exact this

theorem apart_port (h : t.apart = s.apart) : t.port = s.port := by have := congrArg State.port h; exact this

theorem apart_sup (h : t.apart = s.apart) : t.sup = s.sup := by have := congrArg State.sup h; exact this

theorem apart_counters (h : t.apart = s.apart) : t.counters = s.counters :=
    by have := congrArg State.counters h; exact this

theorem apart_due (h : t.apart = s.apart) : t.eng.dueWrites = s.eng.dueWrites :=
    by have := congrArg (fun x => x.eng.dueWrites) h; exact this

theorem apart_restart (h : t.apart = s.apart) : t.eng.windowRestart = s.eng.windowRestart :=
    by have := congrArg (fun x => x.eng.windowRestart) h; exact this

/-! ## The restart of the windows (R121) -/

/-- The windows of some parcels have been restarted, and no other record has changed. -/
structure Restarted (s : State) (done : List ParcelNo) (u : State) : Prop where
  coh : u.Coherent
  apart : u.apart = s.apart
  rec_in : ∀ m e r, m ∈ done → s.dirFind m = some e → inWindow e = true → s.recordOf m = some r → u.recordOf m = some
      (restartRecord s.now r) ∧ (u.dirFind m).map DirEntry.closed = some (DirEntry.closed
          { (e.copyFrom (restartRecord s.now r)) with halfDone := false })
  rec_out : ∀ m, (m ∉ done ∨ ∀ e, s.dirFind m = some e → inWindow e = false) → u.recordOf m = s.recordOf m ∧ (u.dirFind
      m).map DirEntry.closed = (s.dirFind m).map DirEntry.closed

theorem Restarted.step {done} {u : State} (hu : Restarted s done u) (n : ParcelNo) (hn : n ∉ done) : Restarted s
    (done ++ [n]) (restartWindow u n) := by
  have hout := hu.rec_out n (.inl hn)
  have hnow : u.now = s.now := by show u.tmr.seconds = s.tmr.seconds; rw [apart_tmr hu.apart]
  by_cases hw : ∃ e, s.dirFind n = some e ∧ inWindow e = true
  · obtain ⟨e0, he0, hw0⟩ := hw
    obtain ⟨e, he, hne⟩ := closed_of_map hout.2 he0
    have hwe : inWindow e = true := by
      have := congrArg DirEntry.state hne
      simp only [DirEntry.closed] at this
      simpa [inWindow, this] using hw0
    have heq : restartWindow u n = ((u.openParcel n).modify n (restartRecord s.now)).setHalf n false := by
      simp [restartWindow, he, hwe, hnow]
    obtain ⟨r, hr, -⟩ := hu.coh.held he
    obtain ⟨k1, k2, k3, k4⟩ := coherent_change hu.coh he hr (restartRecord s.now) rfl
    rw [heq]
    refine ⟨setHalf_coherent k1 _ _, k4.trans hu.apart, ?_, ?_⟩
    · intro m em rm hm hdm hwm hrm
      simp only [setHalf_recordOf, k2, setHalf_dirFind]
      by_cases hmn : m = n
      · subst hmn
        obtain rfl := Option.some.inj (he0.symm.trans hdm)
        rw [hout.1] at hr
        obtain rfl := Option.some.inj (hr.symm.trans hrm)
        rw [if_pos rfl, if_pos rfl]
        refine ⟨rfl, ?_⟩
        have := k3 m
        rw [if_pos rfl] at this
        cases hx : ((u.openParcel m).modify m (restartRecord s.now)).dirFind m with
        | none => rw [hx] at this; simp at this
        | some d =>
          rw [hx] at this
          simp only [Option.map_some, Option.some.injEq] at this ⊢
          have h2 : DirEntry.closed { (e.copyFrom (restartRecord s.now r)) with halfDone := false } = DirEntry.closed
              { (e0.copyFrom (restartRecord s.now r)) with halfDone := false } := by
            have := congrArg (fun x : DirEntry => { (x.copyFrom (restartRecord s.now r)) with halfDone := false }) hne
            exact this
          rw [← h2]
          have := congrArg (fun x : DirEntry => { x with halfDone := false }) this
          exact this
      · rw [if_neg hmn, if_neg hmn]
        rcases List.mem_append.1 hm with h | h
        · obtain ⟨a, b⟩ := hu.rec_in m em rm h hdm hwm hrm
          refine ⟨a, ?_⟩
          rw [k3, if_neg hmn]; exact b
        · exact absurd (List.mem_singleton.1 h) hmn
    · intro m hm
      have hmn : m ≠ n := by
        rintro rfl
        rcases hm with h | h
        · exact h (by simp)
        · rw [h e0 he0] at hw0; cases hw0
      simp only [setHalf_recordOf, k2, setHalf_dirFind, if_neg hmn, k3]
      refine hu.rec_out m ?_
      rcases hm with h | h
      · exact .inl fun hx => h (List.mem_append_left _ hx)
      · exact .inr h
  · have heq : restartWindow u n = u := by
      unfold restartWindow
      cases he : u.dirFind n with
      | none => rfl
      | some e =>
        rw [he] at hout
        cases he0 : s.dirFind n with
        | none => rw [he0] at hout; simp at hout
        | some e0 =>
          rw [he0] at hout
          have hne : DirEntry.closed e = DirEntry.closed e0 := by simpa using hout.2
          have h1 : inWindow e0 = false := by
            by_contra hx
            exact hw ⟨e0, he0, by simpa using hx⟩
          have := congrArg DirEntry.state hne
          simp only [DirEntry.closed] at this
          have h2 : inWindow e = false := by rw [← h1]; simp [inWindow, this]
          simp [h2]
    rw [heq]
    refine ⟨hu.coh, hu.apart, ?_, ?_⟩
    · intro m em rm hm hdm hwm hrm
      rcases List.mem_append.1 hm with h | h
      · exact hu.rec_in m em rm h hdm hwm hrm
      · rw [List.mem_singleton.1 h] at hdm; exact absurd ⟨em, hdm, hwm⟩ hw
    · intro m hm
      rcases hm with h | h
      · exact hu.rec_out m (.inl fun hx => h (List.mem_append_left _ hx))
      · exact hu.rec_out m (.inr h)

theorem Restarted.fold (h : s.Coherent) (l done : List ParcelNo) (hl : (done ++ l).Nodup) {u} (hu : Restarted s done u)
    : Restarted s (done ++ l) (l.foldl restartWindow u) := by
  induction l generalizing done u with
  | nil => simpa using hu
  | cons n l ih =>
    have hn : n ∉ done := by
      intro hx
      have := (List.nodup_append.1 hl).2.2 n hx n (by simp)
      exact this rfl
    have := ih (done ++ [n]) (by simpa using hl) (Restarted.step hu n hn)
    simpa using this

theorem mem_allNumbers {m : ParcelNo} (h : m ≠ 0#4) : m ∈ allNumbers := by
  revert m; decide

/-- The restart of every window. -/
theorem restarted_all (h : s.Coherent) : Restarted s allNumbers (allNumbers.foldl restartWindow s) := by
  have := Restarted.fold h allNumbers [] (by decide) (u := s) ⟨h, rfl, by simp, fun m _ => ⟨rfl, rfl⟩⟩
  simpa using this

/-! ## A second duty that finds nothing due (R108) -/

theorem dutyParcel_none {u : State} (h : ∀ e, u.dirFind n = some e → expiryDue u.now e = false ∧ halfDue u.now e =
    false ∧ persistenceDue u.now e = false) : dutyParcel u n = u := by
  cases he : u.dirFind n with
  | none => simp [dutyParcel, expireWindow, passHalf, persistenceTest, he]
  | some e =>
    obtain ⟨h1, h2, h3⟩ := h e he
    simp [dutyParcel, expireWindow, passHalf, persistenceTest, he, h1, h2, h3]

theorem dutyFold_none {u : State} (l : List ParcelNo) (h : ∀ n ∈ l, ∀ e, u.dirFind n = some e → expiryDue u.now e =
    false ∧ halfDue u.now e = false ∧ persistenceDue u.now e = false) : l.foldl dutyParcel u = u := by
  induction l with
  | nil => rfl
  | cons n l ih =>
    rw [List.foldl_cons, dutyParcel_none (h n (by simp))]
    exact ih fun m hm => h m (by simp [hm])

theorem timeoutAssembly_none {b : Fin 2} (h : ∀ a, s.eng.buffer b = some a → (s.tmr.seconds - a.second).toNat < 2) :
    timeoutAssembly b s = s := by
  have : assemblyDue b s = false := by
    unfold assemblyDue
    cases hb : s.eng.buffer b with
    | none => rfl
    | some a =>
      have := h a hb
      show decide (2 ≤ (s.tmr.seconds - a.second).toNat) = false
      rw [decide_eq_false_iff_not]; omega
  simp [timeoutAssembly, this]

/-- A buffer that is due fails and is freed. -/
theorem timeoutAssembly_due {b : Fin 2} {a : Assembly} (ha : s.eng.buffer b = some a)
    (h : 2 ≤ (s.tmr.seconds - a.second).toNat) :
    timeoutAssembly b s = failAssembly a.source a.parcel (s.setBuffer b none) := by
  have : assemblyDue b s = true := by
    simp only [assemblyDue, ha]
    exact decide_eq_true h
  simp [timeoutAssembly, this, ha]

theorem exec_secondDuty (hh : s.sup.held = false) (hd : s.DutyChosen) : exec .secondDuty s = .next ((serve dutyBody
    s).setStoreLog s.storeLog) := by
  have : arbiter s = some .secondDuty := by simp [arbiter, hd.1, hd.2]
  simp only [exec, execSecondDuty, asService, whenReleased, hh, dutyService, this]
  rfl

end Sys2Proof.Machine
end

