-- ==== Sys2Proof/Laws/Burst.lean ====
section
/-! SUPPORT. The closings of an arbiter choice and the build at the end of a service (R112, R164): a service begins with
the closings, and what it builds at its end is a build moment. -/

namespace Sys2Proof.Machine

variable {s t : State} {n : ParcelNo} {i : ContextId}

/-! ## What the arbiter and the burst rule look at -/

/-- A state without its contexts, its store, and the contexts that its directory shows. -/
def State.unopened (s : State) : State :=
  s.apart.setEng { s.apart.eng with directory := s.eng.directory.map DirEntry.closed }

theorem arbiter_unopened (s : State) : arbiter s.unopened = arbiter s := rfl

theorem dirFind_unopened (s : State) (n : ParcelNo) : s.unopened.dirFind n = (s.dirFind n).map DirEntry.closed := by
  show List.find? _ (s.eng.directory.map DirEntry.closed) = (List.find? _ s.eng.directory).map _
  rw [List.find?_map]
  rfl

theorem heldList_unopened (s : State) (n : ParcelNo) : heldList s.unopened n = heldList s n := by
  have h : s.unopened.isHeld n = s.isHeld n := by rw [State.isHeld, dirFind_unopened, Option.isSome_map]; rfl
  rw [heldList, h, heldList]

theorem assemblyNeeds_unopened (s : State) (b : Fin 2) : assemblyNeeds s.unopened b = assemblyNeeds s b := by
  have hb : s.unopened.eng.buffer b = s.eng.buffer b := rfl
  have hd : assemblyDue b s.unopened = assemblyDue b s := rfl
  simp only [assemblyNeeds, hb, hd, dirFind_unopened]
  cases s.eng.buffer b with
  | none => rfl
  | some a =>
    simp only
    cases s.dirFind a.parcel <;> rfl

theorem dutyNeeds_unopened (s : State) : dutyNeeds s.unopened = dutyNeeds s := by
  have h : (s.unopened.eng.directory.filter (entryDue s.unopened)).map (fun e => e.number) =
      (s.eng.directory.filter (entryDue s)).map (fun e => e.number) := by
    show ((s.eng.directory.map DirEntry.closed).filter _).map _ = _
    rw [List.filter_map, List.map_map]
    rfl
  simp only [dutyNeeds, h, assemblyNeeds_unopened]

theorem needs_unopened (s : State) (w : Option Service) : needs s.unopened w = needs s w := by
  have hr : ∀ x y, s.unopened.holdersOf x y = s.holdersOf x y := fun _ _ => rfl
  rcases w with _ | (_ | _ | e | n | q)
  · rfl
  · rfl
  · exact dutyNeeds_unopened s
  · simp only [needs, intakeNeeds, heldList_unopened, hr]
  · rfl
  · rfl

/-! ## What the closings change -/

theorem closeContext_unopened (s : State) (i : ContextId) : (s.closeContext i).unopened = s.unopened := by
  have hd : (s.closeContext i).eng.directory.map DirEntry.closed = s.eng.directory.map DirEntry.closed := by
    unfold State.closeContext
    cases h : s.eng.context i with
    | none => rfl
    | some c =>
      show List.map _ (List.map _ ((s.writeBack i).setContext i none).eng.directory) = _
      rw [setContext_directory]
      have hw : (s.writeBack i).eng.directory = s.eng.directory := by
        unfold State.writeBack
        rw [h]
        simp only
        split
        · rw [setContext_directory, storePut_eng]
        · rfl
      rw [hw, List.map_map]
      congr 1
      funext e
      simp only [Function.comp_apply]
      split <;> rfl
  unfold State.unopened
  rw [hd, closeContext_apart]

theorem closeUnneeded_unopened (l : List ParcelNo) (i : ContextId) (s : State) :
    (closeUnneeded l i s).unopened = s.unopened := by
  unfold closeUnneeded
  repeat' split
  · rfl
  · exact closeContext_unopened s i
  · rfl

theorem burstClose_unopened (s : State) : (burstClose s).unopened = s.unopened := by
  unfold burstClose
  split
  · rfl
  · rw [closeUnneeded_unopened, closeUnneeded_unopened]

theorem arbiter_burstClose (s : State) : arbiter (burstClose s) = arbiter s := by
  rw [← arbiter_unopened, burstClose_unopened, arbiter_unopened]

theorem needs_burstClose (s : State) (w : Option Service) : needs (burstClose s) w = needs s w := by
  rw [← needs_unopened, burstClose_unopened, needs_unopened]

theorem apart_of_unopened (h : t.unopened = s.unopened) : t.apart = s.apart := by
  have := congrArg (fun x : State => x.setEng { x.eng with directory := [] }) h
  exact this

theorem burstClose_apart (s : State) : (burstClose s).apart = s.apart := apart_of_unopened (burstClose_unopened s)

theorem closeUnneeded_context (l : List ParcelNo) (i j : ContextId) (s : State) :
    (closeUnneeded l i s).eng.context j =
      if j = i then (s.eng.context i).filter (fun c => l.contains c.record.number) else s.eng.context j := by
  unfold closeUnneeded
  cases h : s.eng.context i with
  | none => by_cases hj : j = i <;> simp [hj, h]
  | some c =>
    simp only
    split
    · rename_i hc
      by_cases hj : j = i
      · subst hj; simp only [if_true, h, Option.filter, hc]
      · simp only [hj, if_false]
    · rename_i hc
      rw [closeContext_context]
      by_cases hj : j = i
      · subst hj; simp only [if_true, Option.filter, hc]; rfl
      · simp only [hj, if_false]

/-- Under CLOSE_AFTER_BURST the closings leave in a context only a parcel that the choice needs. -/
theorem burstClose_context (hp : s.sup.straps.policy = .closeAfterBurst) (j : ContextId) :
    (burstClose s).eng.context j =
      (s.eng.context j).filter (fun c => (needs s (arbiter s)).contains c.record.number) := by
  unfold burstClose
  rw [hp]
  simp only [closeUnneeded_context]
  cases j <;> simp

theorem closeUnneeded_needed {l : List ParcelNo}
    (h : ∀ c, s.eng.context i = some c → l.contains c.record.number = true) : closeUnneeded l i s = s := by
  unfold closeUnneeded
  cases hc : s.eng.context i with
  | none => rfl
  | some c => simp only [h c hc, if_true]

/-- After the closings of a choice there is nothing more to close. -/
theorem burstClose_burstClose (s : State) : burstClose (burstClose s) = burstClose s := by
  have hs : (burstClose s).sup = s.sup := apart_sup (burstClose_apart s)
  cases hp : s.sup.straps.policy with
  | keepOpen =>
    have : ∀ x : State, x.sup.straps.policy = .keepOpen → burstClose x = x := by
      intro x hx; simp only [burstClose, hx]
    rw [this s hp, this s hp]
  | closeAfterBurst =>
    generalize hu : burstClose s = u at hs
    have hn : ∀ j c, u.eng.context j = some c → (needs u (arbiter u)).contains c.record.number = true := by
      intro j c hj
      rw [← hu, burstClose_context hp] at hj
      rw [← hu, arbiter_burstClose, needs_burstClose]
      exact (Option.filter_eq_some_iff.mp hj).2
    unfold burstClose
    rw [hs, hp]
    simp only
    rw [closeUnneeded_needed (hn .w0), closeUnneeded_needed (hn .w1)]

/-! ## A service begins with the closings (R112) -/

theorem wholeService_burstClose (body : State → State) (s : State) :
    wholeService body (burstClose s) = wholeService body s := by
  unfold wholeService
  rw [burstClose_burstClose, apart_tmr (burstClose_apart s)]

theorem serve_burstClose (body : State → State) (s : State) : serve body (burstClose s) = serve body s :=
  wholeService_burstClose _ s

/-- A command whose service gives on the state after the closings what it gives before them. -/
theorem begins_of {c : Instr} {f : State → State} (hh : s.sup.held = false) (hc : exec c = asService f)
    (hf : f (burstClose s) = f s) : BeginsWithTheClosings c s := by
  have hs : (burstClose s).sup = s.sup := apart_sup (burstClose_apart s)
  refine ⟨(burstClose s).setStoreLog s.storeLog, (burstClose s).storeLog, (f s).setStoreLog (burstClose s).storeLog,
    ?_, ?_, ?_⟩
  · show asService burstClose s = _
    simp only [asService, whenReleased, hh]
    rfl
  · have hb : { (burstClose s).setStoreLog s.storeLog with storeLog := (burstClose s).storeLog } = burstClose s := rfl
    rw [hb, hc]
    simp only [asService, whenReleased, hs, hh, hf]
    rfl
  · rw [hc]
    simp only [asService, whenReleased, hh]
    rfl

theorem begins_of_serves {c : Instr} (hh : s.sup.held = false) (h : s.Serves c) : BeginsWithTheClosings c s := by
  cases c with
  | checkpoint =>
    have h : arbiter s = _ := h
    refine begins_of hh rfl ?_
    simp only [checkpointService, arbiter_burstClose, h, serve_burstClose]
  | secondDuty =>
    have h : arbiter s = _ := h
    refine begins_of hh rfl ?_
    simp only [dutyService, arbiter_burstClose, h, serve_burstClose]
  | intakeService =>
    obtain ⟨e, h⟩ := h
    refine begins_of hh rfl ?_
    simp only [intakeService, arbiter_burstClose, h, serve_burstClose]
  | gaugeSlotService =>
    obtain ⟨m, h⟩ := h
    refine begins_of hh rfl ?_
    simp only [slotService, arbiter_burstClose, h, serve_burstClose]
  | portRequestService =>
    obtain ⟨q, h⟩ := h
    refine begins_of hh rfl ?_
    simp only [portService, arbiter_burstClose, h, wholeService_burstClose]
  | _ => exact h.elim

theorem begins_of_dutyPart {c : Instr} (hh : s.sup.held = false) (h : isDutyPart c = true)
    (ha : arbiter s = some .secondDuty) : BeginsWithTheClosings c s := by
  have hf : ∀ part, dutyPart part (burstClose s) = dutyPart part s := by
    intro part
    simp only [dutyPart, arbiter_burstClose, ha, burstClose_burstClose]
  cases c with
  | assemblyTimeout b => exact begins_of hh rfl (hf _)
  | windowExpiry n => exact begins_of hh rfl (hf _)
  | halfWindowPass n => exact begins_of hh rfl (hf _)
  | persistenceRunOut n => exact begins_of hh rfl (hf _)
  | _ => exact absurd h (by simp [isDutyPart])

/-! ## An engine that falls idle (R112) -/

theorem arbiter_idleClose (s : State) : arbiter (idleClose s) = arbiter s := by
  unfold idleClose
  split
  · exact arbiter_burstClose s
  · rfl

theorem idleClose_idle (hp : s.sup.straps.policy = .closeAfterBurst) (h : arbiter (idleClose s) = none) :
    (idleClose s).eng.w0 = none ∧ (idleClose s).eng.w1 = none := by
  rw [arbiter_idleClose] at h
  have hc : idleClose s = burstClose s := by simp [idleClose, h]
  have hn : ∀ j, (burstClose s).eng.context j = none := by
    intro j
    rw [burstClose_context hp, h]
    exact Option.filter_eq_none_iff.mpr (by simp [needs])
  rw [hc]
  exact ⟨hn .w0, hn .w1⟩

/-! ## What a service builds at its end (R164) -/

/-- The same state with another line, timer and counters. -/
def State.withOutside (s : State) (l : LineInterface) (t : PublicationTimer) (c : Counters) : State :=
  { s with line := l, tmr := t, counters := c }

/-- The same state with other records: another engine, store and note of the store's changes. -/
def State.withRecords (s : State) (e : Engine) (x : List (Option StoredParcel)) (l : List StoreStep) : State :=
  { s with eng := e, store := x, storeLog := l }

theorem withRecords_of_apart (h : t.apart = s.apart) : t = s.withRecords t.eng t.store t.storeLog := by
  cases s
  cases t
  simp_all [State.apart, State.withRecords]

theorem writeBack_withOutside (s : State) (i : ContextId) (l t c) :
    (s.withOutside l t c).writeBack i = (s.writeBack i).withOutside l t c := by
  simp only [State.writeBack, State.storePut, State.withOutside, State.storePlace]
  repeat' split
  all_goals simp_all
  all_goals rfl

theorem closeContext_withOutside (s : State) (i : ContextId) (l t c) :
    (s.withOutside l t c).closeContext i = (s.closeContext i).withOutside l t c := by
  have hc : (s.withOutside l t c).eng.context i = s.eng.context i := rfl
  unfold State.closeContext
  rw [hc, writeBack_withOutside]
  cases s.eng.context i <;> rfl

theorem idleClose_withOutside (s : State) (l t c) (h : needs (s.withOutside l t c) none = needs s none)
    (ha : arbiter (s.withOutside l t c) = arbiter s) :
    idleClose (s.withOutside l t c) = (idleClose s).withOutside l t c := by
  have hu : ∀ k i (u : State), closeUnneeded k i (u.withOutside l t c) = (closeUnneeded k i u).withOutside l t c := by
    intro k i u
    have hc : (u.withOutside l t c).eng.context i = u.eng.context i := rfl
    unfold closeUnneeded
    rw [hc]
    cases u.eng.context i with
    | none => rfl
    | some d => simp only; split; rfl; exact closeContext_withOutside u i l t c
  have hp : (s.withOutside l t c).sup.straps.policy = s.sup.straps.policy := rfl
  unfold idleClose
  rw [ha]
  cases hn : arbiter s with
  | some w => rfl
  | none =>
    simp only [Option.isNone_none, if_true]
    unfold burstClose
    rw [hp, ha, hn]
    cases s.sup.straps.policy with
    | keepOpen => rfl
    | closeAfterBurst =>
      show closeUnneeded (needs _ none) .w1 (closeUnneeded (needs _ none) .w0 _) = _
      rw [h, hu, hu]

theorem offer_withOutside (f : OfferedFrame) (b : Bool) (s : State) :
    (offer f b s).2 = s.withOutside (offer f b s).2.line s.tmr (offer f b s).2.counters := by
  unfold offer
  repeat' split
  all_goals rfl

theorem offer_withRecords (f : OfferedFrame) (b : Bool) (s : State) (e x l) :
    (offer f b (s.withRecords e x l)).2 = (offer f b s).2.withRecords e x l := by
  unfold offer State.withRecords
  repeat' split
  all_goals first
    | rfl
    | (simp_all; done)
    | (simp_all; rfl)

theorem buildOne_outside (s : State) (p : Parity) :
    buildOne s p = s.withOutside (buildOne s p).line (buildOne s p).tmr (buildOne s p).counters := by
  cases p with
  | secondary => exact (offer_withOutside _ _ _).trans (by rw [← offer_tmr]; rfl)
  | primary =>
    simp only [buildOne, publishPrimary]
    split
    · rfl
    · split
      · rename_i f _
        have := offer_withOutside f true s
        simp only [offerListed]
        rw [this]
        rfl
      · rfl

theorem buildAll_outside (s : State) :
    buildAll s = s.withOutside (buildAll s).line (buildAll s).tmr (buildAll s).counters := by
  have h : ∀ (l : List Parity) (u : State), ∃ a t c, l.foldl buildOne u = u.withOutside a t c := by
    intro l
    induction l with
    | nil => intro u; exact ⟨u.line, u.tmr, u.counters, rfl⟩
    | cons p rest ih =>
      intro u
      obtain ⟨a, t, c, h⟩ := ih (buildOne u p)
      refine ⟨a, t, c, ?_⟩
      rw [List.foldl_cons, h, buildOne_outside u p]
      rfl
  obtain ⟨a, t, c, h⟩ := h s.tmr.buildsDue (s.setTmr { s.tmr with buildsDue := [] })
  unfold buildAll
  rw [h]
  rfl

theorem buildAll_setStoreLog (s : State) (l : List StoreStep) :
    buildAll (s.setStoreLog l) = (buildAll s).setStoreLog l := by
  have ho : ∀ (f : OfferedFrame) (u : State), (offer f true (u.setStoreLog l)).2 = (offer f true u).2.setStoreLog l :=
    fun f u => by
      have h := offer_withRecords f true u u.eng u.store l
      have g : (offer f true u).2.withRecords u.eng u.store l = (offer f true u).2.setStoreLog l := by
        rw [offer_withOutside f true u]; rfl
      exact h.trans g
  have h1 : ∀ (u : State) p, buildOne (u.setStoreLog l) p = (buildOne u p).setStoreLog l := by
    intro u p
    cases p with
    | secondary => exact ho _ u
    | primary =>
      have hc : chooseParcel (u.setStoreLog l) = chooseParcel u := rfl
      have hf : ∀ n, publicationFrame (u.setStoreLog l) n = publicationFrame u n := fun n => rfl
      simp only [buildOne, publishPrimary, hc, hf, offerListed, ho]
      cases chooseParcel u with
      | none => rfl
      | some n => simp only; cases publicationFrame u n <;> rfl
  have h : ∀ (k : List Parity) (u : State), k.foldl buildOne (u.setStoreLog l) = (k.foldl buildOne u).setStoreLog l := by
    intro k
    induction k with
    | nil => intro u; rfl
    | cons p rest ih => intro u; rw [List.foldl_cons, h1, ih]; rfl
  exact h s.tmr.buildsDue (s.setTmr { s.tmr with buildsDue := [] })

theorem finishWrites_withOutside (s : State) (l t c) :
    (s.withOutside l t c).finishWrites = s.finishWrites.withOutside l t c := by
  have h1 : ∀ (u : State) n, (u.withOutside l t c).writeThrough n = (u.writeThrough n).withOutside l t c := by
    intro u n
    have hd : (u.withOutside l t c).dirFind n = u.dirFind n := rfl
    unfold State.writeThrough
    rw [hd]
    cases u.dirFind n with
    | none => rfl
    | some e =>
      simp only
      cases e.context with
      | none => rfl
      | some i => exact writeBack_withOutside u i l t c
  have h : ∀ (k : List ParcelNo) (u : State),
      k.foldl State.writeThrough (u.withOutside l t c) = (k.foldl State.writeThrough u).withOutside l t c := by
    intro k
    induction k with
    | nil => intro u; rfl
    | cons n rest ih => intro u; rw [List.foldl_cons, h1, ih]; rfl
  simp only [State.finishWrites]
  have he : (s.withOutside l t c).eng.dueWrites = s.eng.dueWrites := rfl
  rw [he, h]
  rfl

theorem closeUnneeded_tmr (k : List ParcelNo) (i : ContextId) (s : State) : (closeUnneeded k i s).tmr = s.tmr :=
  apart_tmr (apart_of_unopened (closeUnneeded_unopened k i s))

theorem burstClose_withStarts (s : State) (l : List Parity) :
    burstClose (s.withStarts l) = (burstClose s).withStarts l := by
  have hw : ∀ u : State, u.withStarts l = u.withOutside u.line { u.tmr with buildsDue := l } u.counters := fun _ => rfl
  have hu : ∀ k i (u : State), closeUnneeded k i (u.withStarts l) = (closeUnneeded k i u).withStarts l := by
    intro k i u
    have hc : (u.withStarts l).eng.context i = u.eng.context i := rfl
    unfold closeUnneeded
    rw [hc]
    cases u.eng.context i with
    | none => rfl
    | some d =>
      simp only
      split
      · rfl
      · rw [hw, hw, closeContext_withOutside, apart_line (closeContext_apart u i), apart_tmr (closeContext_apart u i),
          apart_counters (closeContext_apart u i)]
  have ha : arbiter (s.withStarts l) = arbiter s := rfl
  have hn : needs (s.withStarts l) (arbiter s) = needs s (arbiter s) := by
    rcases arbiter s with _ | (_ | _ | _ | _ | _) <;> rfl
  have hp : (s.withStarts l).sup = s.sup := rfl
  unfold burstClose
  rw [hp, ha, hn]
  cases s.sup.straps.policy with
  | keepOpen => rfl
  | closeAfterBurst => simp only [hu]

/-- The work of a service whose cycle starts wait is that of the service without them. -/
theorem wholeService_split (body : State → State) (s : State)
    (hb : (body ((burstClose s).withStarts [])).tmr = ((burstClose s).withStarts []).tmr) :
    let w := (body ((burstClose s).withStarts [])).finishWrites
    w.tmr.buildsDue = [] ∧ wholeService body (s.withStarts []) = idleClose w ∧
      wholeService body s = idleClose (buildAll (w.withStarts s.tmr.buildsDue)) := by
  have hf : ∀ (u : State) l, (u.withStarts l).finishWrites = u.finishWrites.withStarts l := by
    intro u l
    have h : u.withStarts l = u.withOutside u.line { u.tmr with buildsDue := l } u.counters := rfl
    obtain ⟨h1, h2, h3⟩ : u.finishWrites.line = u.line ∧ u.finishWrites.tmr = u.tmr ∧
        u.finishWrites.counters = u.counters := by
      have := congrArg State.finishWrites (show u = u.withOutside u.line u.tmr u.counters from rfl)
      rw [finishWrites_withOutside] at this
      refine ⟨?_, ?_, ?_⟩
      · have h := congrArg State.line this; exact h
      · have h := congrArg State.tmr this; exact h
      · have h := congrArg State.counters this; exact h
    rw [h, finishWrites_withOutside]
    unfold State.withStarts State.setTmr State.withOutside
    rw [h1, h2, h3]
  intro w
  have hw : w.tmr.buildsDue = [] := by
    have h := hf (body ((burstClose s).withStarts [])) []
    rw [withStarts_eq (by rw [hb]; rfl)] at h
    show (State.finishWrites _).tmr.buildsDue = []
    rw [h]
    rfl
  have hbuild : buildAll w = w := by
    unfold buildAll
    rw [hw]
    exact withStarts_eq hw
  refine ⟨hw, ?_, ?_⟩
  · unfold wholeService endService
    rw [burstClose_withStarts]
    show idleClose (buildAll ((body ((burstClose s).withStarts [])).withStarts []).finishWrites) = _
    rw [withStarts_eq (by rw [hb]; rfl), hbuild]
  · unfold wholeService endService
    rw [hf]

theorem buildOne_buildsDue (s : State) (p : Parity) : (buildOne s p).tmr.buildsDue = s.tmr.buildsDue := by
  cases p with
  | secondary => simp [buildOne, offerListed]
  | primary =>
    simp only [buildOne, publishPrimary]
    split
    · rfl
    · split <;> simp [offerListed]

theorem buildAll_buildsDue (s : State) : (buildAll s).tmr.buildsDue = [] := by
  have h : ∀ (l : List Parity) (u : State), (l.foldl buildOne u).tmr.buildsDue = u.tmr.buildsDue := by
    intro l
    induction l with
    | nil => intro u; rfl
    | cons p rest ih => intro u; rw [List.foldl_cons, ih, buildOne_buildsDue]
  exact h _ _

theorem idleClose_unopened (s : State) : (idleClose s).unopened = s.unopened := by
  unfold idleClose
  split
  · exact burstClose_unopened s
  · rfl

theorem presenceFrame_unopened (s : State) : presenceFrame s.unopened = presenceFrame s := by
  have h : s.unopened.eng.directory.length = s.eng.directory.length := List.length_map _
  show ownFrame s _ _ _ [byteOf s.unopened.eng.directory.length, _] = _
  rw [h]
  rfl

/-- What the end of a service builds is what a build moment of the service's next state builds (R164). An engine that
falls idle closes its contexts after the build. -/
theorem idleClose_build {w : State} (l : List Parity) :
    let t₀ := idleClose w
    let t := idleClose (buildAll (w.withStarts l))
    t.tmr.buildsDue = [] ∧ t.eng = t₀.eng ∧ t.store = t₀.store ∧ t.acc = t₀.acc ∧
      (w.sup.straps.policy = .keepOpen ∨ arbiter t₀ ≠ none ∨ l = [.secondary] → buildAll (t₀.withStarts l) = t) := by
  intro t₀ t
  have hstarts : (buildAll (w.withStarts l)).tmr.buildsDue = [] := buildAll_buildsDue _
  have ho : ∃ a x c, buildAll (w.withStarts l) = w.withOutside a x c := ⟨_, _, _, buildAll_outside _⟩
  obtain ⟨a, x, c, ho⟩ := ho
  have ha : arbiter (w.withOutside a x c) = arbiter w := rfl
  have ht : t = t₀.withOutside a x c := by
    show idleClose _ = _
    rw [ho, idleClose_withOutside w a x c rfl ha]
  have hx : x.buildsDue = [] := by rw [ho] at hstarts; exact hstarts
  refine ⟨by rw [ht]; exact hx, by rw [ht]; rfl, by rw [ht]; rfl, by rw [ht]; rfl, ?_⟩
  rintro (hp | hn | rfl)
  · have hi : t₀ = w := by
      show idleClose w = w
      unfold idleClose burstClose
      rw [hp]
      split <;> rfl
    rw [ht, hi, ← ho]
  · have hi : t₀ = w := by
      have h' : arbiter w ≠ none := by rw [← arbiter_idleClose]; exact hn
      show idleClose w = w
      unfold idleClose
      rw [if_neg (by simpa [Option.isNone_iff_eq_none] using h')]
    rw [ht, hi, ← ho]
  · have hf : presenceFrame (t₀.withStarts []) = presenceFrame (w.withStarts []) := by
      have h1 : presenceFrame (t₀.withStarts []) = presenceFrame t₀ := rfl
      have h2 : presenceFrame (w.withStarts []) = presenceFrame w := rfl
      rw [h1, h2, ← presenceFrame_unopened, idleClose_unopened, presenceFrame_unopened]
    have hr' : t₀ = w.withRecords t₀.eng t₀.store t₀.storeLog :=
      withRecords_of_apart (apart_of_unopened (idleClose_unopened w))
    have hr : t₀.withStarts [] = (w.withStarts []).withRecords t₀.eng t₀.store t₀.storeLog :=
      congrArg (fun u => u.withStarts []) hr'
    have hb : buildAll (t₀.withStarts [.secondary]) = (offer (presenceFrame (t₀.withStarts [])) true (t₀.withStarts [])).2 :=
      rfl
    have hb' : buildAll (w.withStarts [.secondary]) = (offer (presenceFrame (w.withStarts [])) true (w.withStarts [])).2 :=
      rfl
    rw [hb, hf, hr, offer_withRecords, ← hb', ho, ht]
    conv_rhs => rw [hr']
    rfl

/-! ## The services as one operation -/

/-- The strapped values stay as they are through every service. -/
theorem sameSupply_serviceClosed (s₀ : State) : ServiceClosed (fun s => s.sup = s₀.sup) where
  eng _ _ _ h := h
  removed _ h := h
  admitted _ _ _ _ h := h
  put {s} r h := by obtain ⟨x, l, e, -⟩ := storePut_eq s r; rw [e]; exact h
  delete _ h := h
  acc _ _ h := h
  post {s} b h := by rw [post_sup]; exact h
  bump _ h := h
  offer {s} f l h := by rw [offer_sup]; exact h
  withdraw _ h := h
  buffer {s} b a h := by obtain ⟨x, y, e⟩ := setBuffer_eq s b a; rw [e]; exact h
  hear _ h := h
  restart h := h
  clock _ h := h
  flags _ _ _ h := h
  portState _ _ _ _ h := h
  headTaken _ _ _ h := h
  slotTaken _ _ h := h

theorem countOther_tmr (s : State) : (countOther s).tmr = s.tmr := rfl

theorem checkpointBody_tmr (s : State) : (checkpointBody s).tmr = s.tmr :=
  (sameClock_recordClosed s).checkpointWork (s := s.setEng { s.eng with checkpointPending := false }) rfl

theorem dutyBody_tmr (s : State) : (dutyBody s).tmr = s.tmr :=
  (sameClock_engineClosed s).dutyWork (s := s.setEng { s.eng with dutyPending := false }) rfl

theorem intakeBody_tmr (e : IntakeEntry) (s : State) : (intakeBody e s).tmr = s.tmr :=
  (sameClock_engineClosed s).applyUnlessUnnumbered e (s := takeHead s.acc.intake.tail s) rfl

theorem slotBody_tmr (m : Nat) (s : State) : (slotBody m s).tmr = s.tmr := by
  unfold slotBody
  split
  · exact (sameClock_recordClosed s).takeReading _ _ rfl
  · rfl

theorem portBody_tmr (q : EngineRequest) (s : State) : (portBody q s).tmr = s.tmr :=
  (sameClock_recordClosed s).portAnswer q rfl

/-- A chosen service runs its work between the closings of the choice and the end of the service, its work leaves the
timer as it is, and the service keeps what every service keeps. -/
theorem serves_whole {c : Instr} (h : s.Serves c) : ∃ (f body : State → State), exec c = asService f ∧
    (∀ l, f (s.withStarts l) = wholeService body (s.withStarts l)) ∧ (∀ u : State, (body u).tmr = u.tmr) ∧
    ∀ P : State → Prop, ServiceClosed P → P s → P (f s) := by
  cases c with
  | checkpoint =>
    have ha : ∀ l, arbiter (s.withStarts l) = some .checkpoint := fun l => h
    refine ⟨checkpointService, fun u => countOther (checkpointBody u), rfl, fun l => ?_, fun u => ?_,
      fun P hP hs => hP.checkpointService hs⟩
    · simp only [checkpointService, ha]; rfl
    · rw [countOther_tmr, checkpointBody_tmr]
  | secondDuty =>
    have ha : ∀ l, arbiter (s.withStarts l) = some .secondDuty := fun l => h
    refine ⟨dutyService, fun u => countOther (dutyBody u), rfl, fun l => ?_, fun u => ?_,
      fun P hP hs => hP.dutyService hs⟩
    · simp only [dutyService, ha]; rfl
    · rw [countOther_tmr, dutyBody_tmr]
  | intakeService =>
    obtain ⟨e, h⟩ := h
    have ha : ∀ l, arbiter (s.withStarts l) = some (.intake e) := fun l => h
    refine ⟨intakeService, fun u => countOther (intakeBody e u), rfl, fun l => ?_, fun u => ?_,
      fun P hP hs => hP.intakeService hs⟩
    · simp only [intakeService, ha]; rfl
    · rw [countOther_tmr, intakeBody_tmr]
  | gaugeSlotService =>
    obtain ⟨m, h⟩ := h
    have ha : ∀ l, arbiter (s.withStarts l) = some (.slot m) := fun l => h
    refine ⟨slotService, fun u => countOther (slotBody m u), rfl, fun l => ?_, fun u => ?_,
      fun P hP hs => hP.slotService hs⟩
    · simp only [slotService, ha]; rfl
    · rw [countOther_tmr, slotBody_tmr]
  | portRequestService =>
    obtain ⟨q, h⟩ := h
    have ha : ∀ l, arbiter (s.withStarts l) = some (.port q) := fun l => h
    refine ⟨portService, portBody q, rfl, fun l => ?_, fun u => ?_, fun P hP hs => hP.portService hs⟩
    · simp only [portService, ha]
    · exact portBody_tmr q u
  | _ => exact h.elim

theorem idleClose_sup (s : State) : (idleClose s).sup = s.sup := apart_sup (apart_of_unopened (idleClose_unopened s))

/-- A chosen service under CLOSE_AFTER_BURST that leaves no requester waiting leaves both contexts empty (R112). -/
theorem serves_idle {c : Instr} (hh : s.sup.held = false) (h : s.Serves c)
    (hp : s.sup.straps.policy = .closeAfterBurst) :
    ∃ t, exec c s = .next t ∧ (arbiter t = none → t.eng.w0 = none ∧ t.eng.w1 = none) := by
  obtain ⟨f, body, hc, hf, hb, hP⟩ := serves_whole h
  have hfs : f s = wholeService body s := hf s.tmr.buildsDue
  refine ⟨(f s).setStoreLog s.storeLog, ?_, fun hn => ?_⟩
  · rw [hc]; simp only [asService, whenReleased, hh]; rfl
  · have hs : (f s).sup = s.sup := hP _ (sameSupply_serviceClosed s) rfl
    have hn : arbiter (f s) = none := hn
    show (f s).eng.w0 = none ∧ (f s).eng.w1 = none
    rw [hfs] at hs hn ⊢
    unfold wholeService endService at hs hn ⊢
    rw [idleClose_sup] at hs
    exact idleClose_idle (by rw [hs]; exact hp) hn

/-- A chosen service builds the waiting cycle starts at its end: it leaves what a build moment leaves of the same
service's next state with those starts waiting (R164). -/
theorem serves_builds {c : Instr} {t₀ : State} (hh : s.sup.held = false) (h : s.Serves c)
    (h0 : exec c (s.withStarts []) = .next t₀) :
    ∃ t, exec c s = .next t ∧ t.tmr.buildsDue = [] ∧ t.eng = t₀.eng ∧ t.store = t₀.store ∧ t.acc = t₀.acc ∧
      (s.sup.straps.policy = .keepOpen ∨ arbiter t₀ ≠ none ∨ s.tmr.buildsDue = [.secondary] →
        exec .buildMoment (t₀.withStarts s.tmr.buildsDue) = .next t) := by
  obtain ⟨f, body, hc, hf, hb, hP⟩ := serves_whole h
  have hfs : f s = wholeService body s := hf s.tmr.buildsDue
  obtain ⟨hw, h1, h2⟩ := wholeService_split body s (hb _)
  generalize hwd : (body ((burstClose s).withStarts [])).finishWrites = w at hw h1 h2
  have hs : w.sup = s.sup := by
    have := hP _ (sameSupply_serviceClosed s) rfl
    rw [hfs, h2, idleClose_sup, buildAll_outside] at this
    exact this
  have ht0 : t₀ = (idleClose w).setStoreLog s.storeLog := by
    rw [hc] at h0
    simp only [asService, whenReleased] at h0
    have hh' : (s.withStarts []).sup.held = false := hh
    rw [if_neg (by rw [hh']; simp), hf [], h1] at h0
    exact (Host.Outcome.next.inj h0).symm
  have ht : exec c s = .next ((idleClose (buildAll (w.withStarts s.tmr.buildsDue))).setStoreLog s.storeLog) := by
    rw [hc]
    simp only [asService, whenReleased, hh, hfs, h2]
    rfl
  obtain ⟨k1, k2, k3, k4, k5⟩ := idleClose_build (w := w) s.tmr.buildsDue
  refine ⟨_, ht, k1, ?_, ?_, ?_, ?_⟩
  · rw [ht0]; exact k2
  · rw [ht0]; exact k3
  · rw [ht0]; exact k4
  · intro hcase
    rw [ht0] at hcase ⊢
    have hk := k5 (by rw [hs]; exact hcase)
    show whenReleased buildAll _ = _
    have hheld : (((idleClose w).setStoreLog s.storeLog).withStarts s.tmr.buildsDue).sup.held = false := by
      show (idleClose w).sup.held = false
      rw [idleClose_sup, hs]; exact hh
    simp only [whenReleased, hheld]
    show Host.Outcome.next (buildAll (((idleClose w).withStarts s.tmr.buildsDue).setStoreLog s.storeLog)) = _
    rw [buildAll_setStoreLog, hk]

end Sys2Proof.Machine
end

