-- ==== Sys2Proof/Laws/Parcel.lean ====
section
/-! SUPPORT. The shared operations on one open parcel, computed in the form of a service: a change of state, the moves of
the divergence alarm, the entry into VOID and the closing moves; and what an intake service then leaves. -/

namespace Sys2Proof.Machine

variable {s t u : State} {n : ParcelNo} {i : ContextId} {e : DirEntry} {c : OpenContext} {q r : ParcelRecord} {b : Bool}
  {F : DirEntry → DirEntry}

/-! ## Beside the records -/

/-- What notices, offers, bindings and counters leave: the records, the clock and the straps, and nothing new to write
through but parcel n. -/
structure Beside (n : ParcelNo) (s u : State) : Prop where
  records : SameRecords s u
  tmr : u.tmr = s.tmr
  sup : u.sup = s.sup
  due : ∀ m ∈ u.eng.dueWrites, m ∈ s.eng.dueWrites ∨ m = n

namespace Beside

theorem refl : Beside n s s := ⟨.refl s, rfl, rfl, fun _ => .inl⟩

theorem trans (h : Beside n s t) (g : Beside n t u) : Beside n s u :=
  ⟨h.records.trans g.records, g.tmr.trans h.tmr, g.sup.trans h.sup, fun m hm => (g.due m hm).elim (h.due m) .inr⟩

theorem of_eng (h : t.eng = s.eng) (g : t.store = s.store) (ht : t.tmr = s.tmr) (hs : t.sup = s.sup) : Beside n s t :=
  ⟨.of_eng h g, ht, hs, fun m hm => .inl (by rw [h] at hm; exact hm)⟩

theorem post (b : NoticeBody) : Beside n s (s.post b) := of_eng (post_eng s b) (post_store s b) (post_tmr s b) (post_sup s b)

theorem postAll (l : List NoticeBody) : Beside n s (s.postAll l) := by
  unfold State.postAll
  induction l generalizing s with
  | nil => exact refl
  | cons a l ih => exact (Beside.post a).trans ih

theorem bump (k : Counter) : Beside n s (s.bump k) := of_eng rfl rfl rfl rfl

theorem setAcc (a : AcceptanceUnit) : Beside n s (s.setAcc a) := of_eng rfl rfl rfl rfl

theorem withdraw (k : FrameKey) : Beside n s (withdraw k s) := of_eng rfl rfl rfl rfl

theorem offer (f : OfferedFrame) (l : Bool) : Beside n s (offer f l s).2 :=
  of_eng (offer_eng f l s) (offer_store f l s) (offer_tmr f l s) (offer_sup f l s)

theorem markWrite : Beside n s (s.markWrite n) :=
  ⟨markWrite_sameRecords s n, rfl, rfl, fun _ hm => (List.mem_cons.1 hm).symm⟩

theorem mem_markWrite (s : State) (n : ParcelNo) : n ∈ (s.markWrite n).eng.dueWrites := List.mem_cons_self

/-- With nothing to write before, and n marked, n alone is to be written. -/
theorem due_iff (h : Beside n s u) (hs : s.eng.dueWrites = []) (hn : n ∈ u.eng.dueWrites) (m : ParcelNo) :
    m ∈ u.eng.dueWrites ↔ m = n :=
  ⟨fun hm => (h.due m hm).elim (fun k => by simp [hs] at k) id, fun k => k ▸ hn⟩

theorem due_nil (h : Beside n s u) (hs : s.eng.dueWrites = []) (hn : n ∉ u.eng.dueWrites) : u.eng.dueWrites = [] :=
  List.eq_nil_iff_forall_not_mem.2 fun m hm =>
    (h.due m hm).elim (fun k => by simp [hs] at k) fun k => hn (k ▸ hm)

end Beside

/-! ## The operations in the form -/

theorem offer_noticesLost (f : OfferedFrame) (l : Bool) (s : State) :
    (offer f l s).2.counters.noticesLost = s.counters.noticesLost := by
  simp only [offer]
  repeat' split
  all_goals rfl

/-- An offer is judged by the outbound queue and the standing. -/
theorem offer_line_congr (f : OfferedFrame) (l : Bool) (h : t.line = s.line) :
    (offer f l t).1 = (offer f l s).1 ∧ (offer f l t).2.line = (offer f l s).2.line := by
  have e : t = { s with
      acc := t.acc, eng := t.eng, store := t.store, storeLog := t.storeLog, tmr := t.tmr, port := t.port, sup := t.sup
      counters := t.counters, pending := t.pending } := by
    rw [← h]
  rw [e]
  simp only [offer]
  repeat' split
  all_goals exact ⟨rfl, rfl⟩

theorem copyFrom_copyFrom (d : DirEntry) (q r : ParcelRecord) : (d.copyFrom q).copyFrom r = d.copyFrom r := rfl

theorem copy_form (h : s.OpenWith n i e c) (f : ParcelRecord → ParcelRecord) :
    (s.touch i).modify n f = s.withOpen n i (fun d => d.copyFrom (f c.record)) { record := f c.record, dirty := true } := by
  rw [h.form, withOpen_modify h keepsPlace_id h.2.2.2 f]
  rfl

theorem setAlarm_form (h : s.OpenWith n i e c) (hF : KeepsPlace F) (hr : r.number = n) (a : AlarmRecord) :
    setAlarm n a (s.withOpen n i F { record := r, dirty := b }) =
      s.withOpen n i (fun d => (F d).copyFrom { r with alarm := a }) { record := { r with alarm := a }, dirty := true } :=
  withOpen_modify h hF hr _

/-- The ALARM that tells of the alarm record of a parcel record (R70). -/
def alarmFrame (s : State) (n : ParcelNo) (r : ParcelRecord) : OfferedFrame := ownFrame s .alarm n 0#6 (alarmPayload r)

theorem offerAlarm_form (h : s.OpenWith n i e c) (hF : KeepsPlace F) (hr : r.number = n) :
    offerAlarm n (s.withOpen n i F { record := r, dirty := b }) =
      let o := offer (alarmFrame s n r) false s
      let q := { r with alarmOwed := o.1.isRefused }
      (o.1, o.2.withOpen n i (fun d => (F d).copyFrom q) { record := q, dirty := true }) := by
  simp only [offerAlarm, withOpen_working h hF hr, withOpen_offer]
  exact Prod.ext rfl (withOpen_modify (h.congr (offer_sameRecords (alarmFrame s n r) false s)) hF hr
    (fun q => { q with alarmOwed := (offer (alarmFrame s n r) false s).1.isRefused }))

/-- The alarm is raised or cleared, its frame offered and its notice posted, and the parcel is due to be written
through (R69, R70). -/
theorem moveAlarm_form (h : s.OpenWith n i e c) (hF : KeepsPlace F) (hr : r.number = n) (raised : Bool) :
    moveAlarm n raised (s.withOpen n i F { record := r, dirty := b }) =
      let a := { r with alarm := { conditionSince := none, raised := raised, clearSince := none } }
      let o := offer (alarmFrame s n a) false s
      let q := { a with alarmOwed := o.1.isRefused }
      ((o.2.post (if raised then .alarmRaised n (fateOf o.1) (heldDelta r) else .alarmCleared n (fateOf o.1) (heldDelta r))).markWrite
        n).withOpen n i (fun d => (F d).copyFrom q) { record := q, dirty := true } := by
  rw [moveAlarm, setAlarm_form h hF hr, offerAlarm_form h (hF.copy _) (by exact hr)]
  simp only [postAlarm]
  rw [withOpen_working (h.congr (offer_sameRecords _ false s)) ((hF.copy _).copy _) (by exact hr)]
  simp only [withOpen_post, withOpen_markWrite]
  rfl

theorem clearAlarmWithFrame_quiet (h : s.OpenWith n i e c) (hF : KeepsPlace F) (hr : r.number = n)
    (ha : r.alarm.raised = false) :
    clearAlarmWithFrame n (s.withOpen n i F { record := r, dirty := b }) =
      s.withOpen n i (fun d => (F d).copyFrom { r with alarm := quietAlarm })
        { record := { r with alarm := quietAlarm }, dirty := true } := by
  rw [clearAlarmWithFrame, withOpen_working h hF hr]
  simp only [ha, Bool.false_eq_true, if_false]
  exact setAlarm_form h hF hr _

theorem clearAlarmWithFrame_raised (h : s.OpenWith n i e c) (hF : KeepsPlace F) (hr : r.number = n)
    (ha : r.alarm.raised = true) :
    clearAlarmWithFrame n (s.withOpen n i F { record := r, dirty := b }) =
      let o := offer (alarmFrame s n { r with alarm := quietAlarm }) false s
      let q := { r with alarm := quietAlarm, alarmOwed := o.1.isRefused }
      ((o.2.post (.alarmCleared n (fateOf o.1) (heldDelta r))).markWrite n).withOpen n i (fun d => (F d).copyFrom q)
        { record := q, dirty := true } := by
  rw [clearAlarmWithFrame, withOpen_working h hF hr]
  simp only [ha, if_true]
  rw [moveAlarm_form h hF hr]
  rfl

theorem clearAlarmSilently_quiet (h : s.OpenWith n i e c) (hF : KeepsPlace F) (hr : r.number = n)
    (ha : r.alarm.raised = false) :
    clearAlarmSilently n (s.withOpen n i F { record := r, dirty := b }) =
      s.withOpen n i (fun d => (F d).copyFrom { r with alarm := quietAlarm })
        { record := { r with alarm := quietAlarm }, dirty := true } := by
  rw [clearAlarmSilently, withOpen_working h hF hr]
  simp only [ha, Bool.false_eq_true, if_false]
  exact setAlarm_form h hF hr _

theorem clearAlarmSilently_raised (h : s.OpenWith n i e c) (hF : KeepsPlace F) (hr : r.number = n)
    (ha : r.alarm.raised = true) :
    clearAlarmSilently n (s.withOpen n i F { record := r, dirty := b }) =
      ((s.post (.alarmCleared n .noneOffered (heldDelta r))).markWrite n).withOpen n i
        (fun d => (F d).copyFrom { r with alarm := quietAlarm })
        { record := { r with alarm := quietAlarm }, dirty := true } := by
  rw [clearAlarmSilently, withOpen_working h hF hr]
  simp only [ha, if_true]
  rw [setAlarm_form h hF hr, postAlarm, withOpen_working h (hF.copy _) (by exact hr)]
  simp only [withOpen_post, withOpen_markWrite]
  rfl

theorem unbind_form (h : s.OpenWith n i e c) (hF : KeepsPlace F) (hr : r.number = n) :
    unbind n (s.withOpen n i F { record := r, dirty := b }) =
      let q := { r with roster := clearBindings r.roster }
      (s.setAcc (unbindParcel n s.acc)).withOpen n i (fun d => (F d).copyFrom q) { record := q, dirty := true } := by
  rw [unbind, withOpen_setAcc]
  exact withOpen_modify (s := s.setAcc (unbindParcel n s.acc)) (h.congr ⟨rfl, fun _ => rfl, rfl⟩) hF hr
    (fun q => { q with roster := clearBindings q.roster })

/-- The entry into VOID of a parcel in a bound state with no alarm raised (R15). -/
theorem enterVoid_quiet (h : s.OpenWith n i e c) (hF : KeepsPlace F) (hr : r.number = n) (ha : r.alarm.raised = false)
    (hs : r.state.isBound = true) (why : VoidReason) (cause : NoticeCause) :
    enterVoid n why cause (s.withOpen n i F { record := r, dirty := b }) =
      let q := { r with
        alarm := quietAlarm, roster := clearBindings r.roster, state := .void, voidReason := some why
        windowStart := none, voteOwed := false }
      (((s.setAcc (unbindParcel n s.acc)).post (stateNotice q cause)).markWrite n).withOpen n i
        (fun d => { (F d).copyFrom q with halfDone := false }) { record := q, dirty := true } := by
  have ho : (s.setAcc (unbindParcel n s.acc)).OpenWith n i e c := h.congr ⟨rfl, fun _ => rfl, rfl⟩
  rw [enterVoid, clearAlarmSilently_quiet h hF hr ha, unbindIfBound, withOpen_working h (hF.copy _) (by exact hr)]
  simp only [hs, if_true]
  rw [unbind_form h (hF.copy _) (by exact hr),
    withOpen_changeState ho ((hF.copy _).copy _) (by exact hr) _ (by exact hr),
    withOpen_setHalf _ _ _ _ (((hF.copy _).copy _).copy _)]
  rfl

/-- The entry into VOID of a parcel in a bound state whose alarm is raised: it is cleared without a frame (R15, R72). -/
theorem enterVoid_raised (h : s.OpenWith n i e c) (hF : KeepsPlace F) (hr : r.number = n) (ha : r.alarm.raised = true)
    (hs : r.state.isBound = true) (why : VoidReason) (cause : NoticeCause) :
    enterVoid n why cause (s.withOpen n i F { record := r, dirty := b }) =
      let q := { r with
        alarm := quietAlarm, roster := clearBindings r.roster, state := .void, voidReason := some why
        windowStart := none, voteOwed := false }
      let v := (s.post (.alarmCleared n .noneOffered (heldDelta r))).markWrite n
      (((v.setAcc (unbindParcel n s.acc)).post (stateNotice q cause)).markWrite n).withOpen n i
        (fun d => { (F d).copyFrom q with halfDone := false }) { record := q, dirty := true } := by
  have hv := h.congr ((post_sameRecords s (.alarmCleared n .noneOffered (heldDelta r))).trans (markWrite_sameRecords _ n))
  have hacc := post_acc s (.alarmCleared n .noneOffered (heldDelta r))
  generalize hw : (s.post (.alarmCleared n .noneOffered (heldDelta r))).markWrite n = v at hv
  have hacc : v.acc = s.acc := by rw [← hw]; exact hacc
  have ho : (v.setAcc (unbindParcel n v.acc)).OpenWith n i e c := hv.congr ⟨rfl, fun _ => rfl, rfl⟩
  rw [enterVoid, clearAlarmSilently_raised h hF hr ha, hw, unbindIfBound, withOpen_working hv (hF.copy _) (by exact hr)]
  simp only [hs, if_true]
  rw [unbind_form hv (hF.copy _) (by exact hr),
    withOpen_changeState ho ((hF.copy _).copy _) (by exact hr) _ (by exact hr),
    withOpen_setHalf _ _ _ _ (((hF.copy _).copy _).copy _), hacc]
  rfl

/-! ## The end of a service -/

/-- A service that changes its one open parcel, and marks it, leaves its record written through. -/
theorem ended_written (hq : s.Quiet) (h0 : n ≠ 0#4) (ho : s.OpenWith n i e c) (hs : (s.stored n).isSome = true)
    (hu : Beside n s u) (hm : n ∈ u.eng.dueWrites) (hF : KeepsPlace F) (hr : r.number = n) (l : List StoreStep) :
    let t := (endService (countOther (u.withOpen n i F { record := r, dirty := true }))).setStoreLog l
    t.working n = some r ∧ t.stored n = some (mkStored r) ∧ t.dirFind n = some (F e) ∧ OthersKept s t n ∧
      t.line = u.line ∧ t.acc = u.acc ∧ t.port = u.port ∧ t.counters = u.counters := by
  have huw := ho.congr hu.records
  obtain ⟨a1, a2, a3, a4, a5, a6, a7, a8, -⟩ := written_shows (q := r) huw hF hr
    (by rw [hu.records.stored]; exact hs)
  rw [endService_written (by rw [hu.sup]; exact hq.1) (by rw [hu.tmr]; exact hq.2.1) h0 (hu.due_iff hq.2.2 hm) huw hF hr]
  have hl := setStoreLog_sameRecords (State.counted ((u.storePut r).withOpen n i F { record := r, dirty := false })) l
  exact ⟨(hl.working n).trans a1, (hl.stored n).trans a2, (hl.dirFind n).trans a3,
    (hu.records.othersKept n).trans (a4.trans (hl.othersKept n)), a5, a6, a7, a8⟩

/-- A service that changes its one open parcel, and marks none, leaves its record in the context. -/
theorem ended_unwritten (hq : s.Quiet) (ho : s.OpenWith n i e c) (hu : Beside n s u) (hm : n ∉ u.eng.dueWrites)
    (hF : KeepsPlace F) (hr : r.number = n) (l : List StoreStep) :
    let t := (endService (countOther (u.withOpen n i F { record := r, dirty := b }))).setStoreLog l
    t.working n = some r ∧ t.store = s.store ∧ t.dirFind n = some (F e) ∧ OthersKept s t n ∧ t.line = u.line ∧
      t.acc = u.acc ∧ t.port = u.port ∧ t.counters = u.counters := by
  have huw := ho.congr hu.records
  obtain ⟨a1, a2, a3, a4, a5, a6, a7, a8, -⟩ := unwritten_shows (r := r) (b := b) huw hF hr
  have hd := hu.due_nil hq.2.2 hm
  rw [endService_unwritten (s := u.withOpen n i F { record := r, dirty := b })
    (by rw [show (u.withOpen n i F { record := r, dirty := b }).sup = u.sup from rfl, hu.sup]; exact hq.1)
    (by rw [show (u.withOpen n i F { record := r, dirty := b }).tmr = u.tmr from rfl, hu.tmr]; exact hq.2.1)
    (by cases i <;> exact hd)]
  have hl := setStoreLog_sameRecords (State.counted (u.withOpen n i F { record := r, dirty := b })) l
  exact ⟨(hl.working n).trans a1, a2.trans hu.records.store, (hl.dirFind n).trans a3,
    (hu.records.othersKept n).trans (a4.trans (hl.othersKept n)), a5, a6, a7, a8⟩

/-! ## The end of an intake service -/

variable {x : IntakeEntry} {rest : List IntakeEntry}

theorem headTaken_open (h : s.OpenWith n i e c) (rest : List IntakeEntry) :
    State.OpenWith { s with acc := (s.headTaken rest).acc } n i e c := h.congr (headTaken_sameRecords s rest)

theorem intake_written (hc : s.HeadChosen x rest) (hq : s.Quiet) (h0 : n ≠ 0#4) (ho : s.OpenWith n i e c)
    (hs : (s.stored n).isSome = true)
    (ha : applyEntry x { s with acc := (s.headTaken rest).acc } = u.withOpen n i F { record := r, dirty := true })
    (hu : Beside n { s with acc := (s.headTaken rest).acc } u) (hm : n ∈ u.eng.dueWrites) (hF : KeepsPlace F)
    (hr : r.number = n) :
    ∃ t, exec .intakeService s = .next t ∧ t.working n = some r ∧ t.stored n = some (mkStored r) ∧
      t.dirFind n = some (F e) ∧ OthersKept s t n ∧ t.line = u.line ∧ t.acc = u.acc ∧ t.port = u.port ∧
      t.counters = u.counters :=
  ⟨_, (exec_intakeService hc hq).trans (by rw [ha]),
    ended_written (s := { s with acc := (s.headTaken rest).acc }) hq h0 (headTaken_open ho rest) hs hu hm hF hr s.storeLog⟩

theorem intake_unwritten (hc : s.HeadChosen x rest) (hq : s.Quiet) (ho : s.OpenWith n i e c)
    (ha : applyEntry x { s with acc := (s.headTaken rest).acc } = u.withOpen n i F { record := r, dirty := b })
    (hu : Beside n { s with acc := (s.headTaken rest).acc } u) (hm : n ∉ u.eng.dueWrites) (hF : KeepsPlace F)
    (hr : r.number = n) :
    ∃ t, exec .intakeService s = .next t ∧ t.working n = some r ∧ t.store = s.store ∧ t.dirFind n = some (F e) ∧
      OthersKept s t n ∧ t.line = u.line ∧ t.acc = u.acc ∧ t.port = u.port ∧ t.counters = u.counters :=
  ⟨_, (exec_intakeService hc hq).trans (by rw [ha]),
    ended_unwritten (s := { s with acc := (s.headTaken rest).acc }) hq (headTaken_open ho rest) hu hm hF hr s.storeLog⟩

/-- An intake service whose rule only makes the context of the open parcel the one used last. -/
theorem intake_used (hc : s.HeadChosen x rest) (hq : s.Quiet) (k : Counters)
    (ha : applyEntry x { s with acc := (s.headTaken rest).acc } =
      { s.touch i with acc := (s.headTaken rest).acc, counters := k }) :
    exec .intakeService s = .next { s.headTaken rest with
      eng := { (s.headTaken rest).eng with lessRecent := otherContext i }, counters := k } := by
  rw [exec_intakeService hc hq, ha, endService_unwritten (by exact hq.1) (by exact hq.2.1) (by exact hq.2.2)]
  have h2 := hq.2.2
  cases s with
  | mk l a en st lg tm p su co pe =>
    cases en
    simp only at h2
    subst h2
    rfl

/-! ## Unbinding and removal -/

theorem boundToParcel_iff (n : ParcelNo) (e : Option BoundEntry) : boundToParcel n e = true ↔ ∃ b, e = some b ∧ b.parcel = n := by
  cases e <;> simp [boundToParcel]

theorem unbound_of (h : t.acc.entries = (unbindParcel n s.acc).entries) (g : t.acc.slots = (unbindParcel n s.acc).slots) :
    Unbound s t n := by
  constructor
  · rw [h]
    refine List.map_congr_left fun x _ => ?_
    cases x with
    | none => simp [boundToParcel]
    | some b => simp [boundToParcel]
  · rw [g]
    refine List.map_congr_left fun x _ => ?_
    cases x.boundTo with
    | none => rfl
    | some k =>
      simp only
      cases s.acc.entry k with
      | none => simp [boundToParcel]
      | some b => simp [boundToParcel, emptySlot]

theorem stored_storeDelete (s : State) (n m : ParcelNo) :
    (s.storeDelete n).stored m = if m = n then none else s.stored m := by
  simp only [State.stored, State.storeDelete, State.storeStep, State.setStoreLog_store, State.setStore_store]
  induction s.store with
  | nil => simp
  | cons a l ih =>
    simp only [List.map_cons, List.find?_cons]
    by_cases ha : storedUnder n a = true
    · simp only [ha, if_true]
      rw [show storedUnder m none = false from rfl]
      by_cases hm : m = n
      · subst hm; rw [if_pos rfl] at ih ⊢; exact ih
      · have : storedUnder m a = false := by
          cases a with
          | none => rfl
          | some p =>
            simp only [storedUnder, beq_iff_eq] at ha
            simp only [storedUnder, beq_eq_false_iff_ne, ha]
            exact fun h => hm (byte4_injective h).symm
        simp only [this]
        exact ih
    · simp only [Bool.not_eq_true] at ha
      simp only [ha, Bool.false_eq_true, if_false]
      by_cases hm : m = n
      · subst hm; rw [if_pos rfl] at ih ⊢; simp only [ha]; exact ih
      · by_cases h : storedUnder m a = true
        · simp [h, hm]
        · simp only [Bool.not_eq_true] at h; simp only [h]; exact ih

theorem dirFind_drop (s : State) (n m : ParcelNo) :
    (dropDirectory n s).dirFind m = if m = n then none else s.dirFind m := by
  simp only [State.dirFind, dropDirectory, State.setEng_eng]
  by_cases hm : m = n
  · subst hm; simp
  · rw [if_neg hm]
    induction s.eng.directory with
    | nil => rfl
    | cons d l ih =>
      simp only [List.filter_cons, List.find?_cons]
      by_cases hd : d.number = n
      · have : (n == m) = false := by simp [Ne.symm hm]
        rw [if_neg (by simp [hd]), ih, hd, this]
      · by_cases h : d.number = m
        · simp [h, hm]
        · have : (d.number == m) = false := by simp [h]
          simp [hd, this, ih]

/-- What the removal of an open parcel leaves (R16). -/
theorem removeParcel_shows (h : s.OpenWith n i e c) (cause : NoticeCause) :
    ∃ u, removeParcel n cause s = u.post (.parcelState n none e.round none cause) ∧ u.dirFind n = none ∧
      u.stored n = none ∧ (∀ y ∈ u.eng.rosterDir, y.parcel ≠ n) ∧ u.eng.context i = none ∧ u.acc = unbindParcel n s.acc ∧
      u.line = s.line ∧ u.port = s.port ∧ u.counters = s.counters ∧ u.tmr = s.tmr ∧ u.sup = s.sup ∧
      (s.eng.dueWrites = [] → u.eng.dueWrites = []) ∧ OthersKept s u n := by
  obtain ⟨h1, h2, h3, h4⟩ := h
  have hd : ((s.setAcc (unbindParcel n s.acc)).storeDelete n).dirFind = s.dirFind := rfl
  have hx : removeParcel n cause s = (dropDirectory n (((s.setAcc (unbindParcel n s.acc)).storeDelete n).setContext i none)).post
      (.parcelState n none e.round none cause) := by
    simp only [removeParcel, h1, discardContext, hd, h2]
  refine ⟨_, hx, ?_, ?_, ?_, ?_, ?_, ?_, ?_, ?_, ?_, ?_, ?_, ?_⟩
  · rw [dirFind_drop, if_pos rfl]
  · exact (stored_storeDelete (s.setAcc (unbindParcel n s.acc)) n n).trans (if_pos rfl)
  · intro y hy
    simpa using (List.mem_filter.1 hy).2
  · cases i <;> rfl
  iterate 6 (cases i <;> rfl)
  · intro hn
    cases i <;> simp [dropDirectory, State.setContext, Engine.setContext, State.storeDelete, State.storeStep, hn]
  · intro m hm
    have hdm : (dropDirectory n (((s.setAcc (unbindParcel n s.acc)).storeDelete n).setContext i none)).dirFind m = s.dirFind m := by
      rw [dirFind_drop, if_neg hm, dirFind_congr (setContext_directory _ _ _)]
      rfl
    refine ⟨hdm, (stored_storeDelete (s.setAcc (unbindParcel n s.acc)) n m).trans (if_neg hm), working_of_context hdm fun j => ?_⟩
    by_cases hj : j = i
    · subst hj
      refine .inr ⟨fun d hd => ?_, fun d hd => ?_⟩
      · rw [h3] at hd; obtain rfl := Option.some.inj hd; rw [h4]; exact Ne.symm hm
      · exfalso; revert hd; cases j <;> simp [dropDirectory, State.setContext, Engine.setContext, Engine.context]
    · refine .inl ?_
      revert hj
      cases j <;> cases i <;> simp [dropDirectory, State.setContext, Engine.setContext, Engine.context, State.storeDelete, State.storeStep]

/-- A service that removes its one open parcel ends there: nothing is left to write through. -/
theorem intake_removed (hc : s.HeadChosen x rest) (hq : s.Quiet) (ho : s.OpenWith n i e c) (hF : KeepsPlace F)
    (hr : r.number = n) (cause : NoticeCause)
    (ha : applyEntry x { s with acc := (s.headTaken rest).acc } =
      removeParcel n cause (State.withOpen { s with acc := (s.headTaken rest).acc } n i F { record := r, dirty := b })) :
    ∃ t, exec .intakeService s = .next t ∧ t.dirFind n = none ∧ t.stored n = none ∧
      (∀ y ∈ t.eng.rosterDir, y.parcel ≠ n) ∧ t.eng.context i = none ∧ Unbound s t n ∧ t.acc.intake = rest ∧
      Posted s t (.parcelState n none (F e).round none cause) ∧ t.line = s.line ∧ OthersKept s t n := by
  have hwT := headTaken_open ho rest
  have hx := exec_intakeService hc hq
  rw [ha] at hx
  have hw := withOpen_open (b := b) hwT hF hr
  have hk := withOpen_othersKept (b := b) hwT hF hr
  obtain ⟨u, hu, a1, a2, a3, a4, a5, a6, a7, a8, a9, a10, a11, a12⟩ := removeParcel_shows hw cause
  have hdue : (u.post (.parcelState n none (F e).round none cause)).eng.dueWrites = [] := by
    rw [post_eng]
    exact a11 (by cases i <;> exact hq.2.2)
  rw [hu, endService_unwritten (by rw [post_sup, a10]; exact hq.1) (by rw [post_tmr, a9]; exact hq.2.1) hdue] at hx
  have hs1 := post_sameRecords u (.parcelState n none (F e).round none cause)
  have hs2 := counted_sameRecords (u.post (.parcelState n none (F e).round none cause))
  have hs3 := setStoreLog_sameRecords (u.post (.parcelState n none (F e).round none cause)).counted s.storeLog
  have hs := (hs1.trans hs2).trans hs3
  have hacc : (u.post (.parcelState n none (F e).round none cause)).acc = unbindParcel n (s.headTaken rest).acc := (post_acc _ _).trans a5
  refine ⟨_, hx, (hs.dirFind n).trans a1, (hs.stored n).trans a2, ?_, (hs.context i).trans a4, ?_, ?_, ?_, ?_, ?_⟩
  · intro y hy
    exact a3 y (by rw [← post_eng u (.parcelState n none (F e).round none cause)]; exact hy)
  · have h1 := congrArg AcceptanceUnit.entries hacc
    have h2 := congrArg AcceptanceUnit.slots hacc
    exact unbound_of h1 h2
  · exact congrArg AcceptanceUnit.intake hacc
  · exact (posted_post s u _ a7 (congrArg Counters.noticesLost a8) (congrArg PublicationTimer.seconds a9)).congr rfl rfl
  · exact (post_line _ _).trans a6
  · exact ((headTaken_sameRecords s rest).othersKept n).trans (hk.trans (a12.trans (hs.othersKept n)))

/-! ## Notices with room -/

theorem postAll_room (s : State) (l : List NoticeBody) (h : s.port.notices.length + l.length ≤ 16) :
    (s.postAll l).port.notices = s.port.notices ++ l.map (fun b => { second := s.tmr.seconds, body := b }) := by
  induction l generalizing s with
  | nil => simp [State.postAll]
  | cons a l ih =>
    have h1 := post_room s a (by simp at h; omega)
    have := ih (s.post a) (by rw [h1.1]; simp at h ⊢; omega)
    simp only [State.postAll, List.foldl_cons] at this ⊢
    rw [this, h1.1, post_tmr]
    simp

end Sys2Proof.Machine
end

