-- ==== Sys2Proof/Laws/Declare.lean ====
section
/-! SUPPORT. Declarations: the checks, the parts, the assembly buffers, and what an acceptance, a refusal, a conflict and
an amendment leave at the end of their service. -/

namespace Sys2Proof.Machine

variable {s t : State} {n : ParcelNo} {i : ContextId} {e : IntakeEntry} {rest : List IntakeEntry}

/-! ## The checks (R34 to R37) -/

theorem distinct_iff {α} [BEq α] [LawfulBEq α] (l : List α) : distinct l = true ↔ l.Nodup := by
  induction l with
  | nil => simp [distinct]
  | cons a l ih => simp [distinct, ih]

theorem direction_iff (d : BitVec 2) : (directionOfCode d).isSome = true ↔ d = 0#2 ∨ d = 1#2 := by revert d; decide

/-- FORM passes exactly as R34 and R35 say. -/
theorem formOk_iff (p : Part0) (items) : formOk p items = true ↔ FormPasses p items := by
  unfold formOk part0InRange nodeSetOk rosterOk tankCount countRole FormPasses
  simp only [Bool.and_eq_true, decide_eq_true_eq, distinct_iff, direction_iff, List.all_eq_true, bne_iff_ne,
      beq_iff_eq, Bool.not_eq_true', List.contains_eq_mem, decide_eq_false_iff_not]
  have h : ∀ role : Role, (List.filter (fun x => decide (x.role = role)) items) = items.filter (fun i => i.role ==
      role) := by
    intro role; refine List.filter_congr fun x _ => ?_; rw [Bool.eq_iff_iff]; simp
  simp only [h]
  tauto

/-- TANK_BUSY as R36 says. -/
theorem tankBusy_iff (n items) (s : State) : tankBusy n items s = true ↔ TankIsBusy n items s := by
  simp only [tankBusy, TankIsBusy, List.any_eq_true, State.holdersOf, List.mem_filter, Bool.and_eq_true, beq_iff_eq,
      Bool.or_eq_true, bne_iff_ne]
  refine exists_congr fun x => and_congr_right fun _ => exists_congr fun h => ?_
  have : s.inBoundState h.parcel = true ↔ ∃ e, s.dirFind h.parcel = some e ∧ e.state.isBound = true := by
    simp only [State.inBoundState]; cases s.dirFind h.parcel <;> simp
  rw [this]; tauto

/-- NO_SLOTS as R37 says. -/
theorem lacks_iff (items) (a : AcceptanceUnit) : (decide (freeEntries a < tankCount items) || decide (freeSlots a <
    tankCount items)) = true ↔ LacksSlots items a := by
  simp only [Bool.or_eq_true, decide_eq_true_eq]
  rfl

/-- The checks look at the heard-node set, the roster directory, the table and the acceptance table alone. -/
theorem validate_congr {u v : State} {n source p items} (h1 : u.eng.heard = v.eng.heard) (h2 : u.eng.rosterDir =
    v.eng.rosterDir) (h3 : u.eng.directory.length = v.eng.directory.length)
   (h4 : ∀ m, m ≠ n → u.inBoundState m = v.inBoundState m) (h5 : u.isHeld n = v.isHeld n) (h6 : u.acc.entries =
       v.acc.entries) (h7 : u.acc.slots = v.acc.slots) : validate source n p items u = validate source n p items v :=
           by
  have ht : tankBusy n items u = tankBusy n items v := by
    simp only [tankBusy, State.holdersOf, h2]
    congr 1; funext x
    congr 1; funext h
    by_cases hh : h.parcel = n
    · simp [hh]
    · rw [h4 _ hh]
  have hfe : freeEntries u.acc = freeEntries v.acc := by simp only [freeEntries, h6]
  have hfs : freeSlots u.acc = freeSlots v.acc := by simp only [freeSlots, h7]
  simp only [validate, h1, ht, h3, h5, hfe, hfs]

/-! ## The parts (R24) -/

theorem parseItems_length (l : List Byte) (k : Nat) (h : l.length = 2 * k) : (parseItems l).length = k := by
  induction k generalizing l with
  | zero => have : l = [] := List.length_eq_zero_iff.1 (by omega)
            subst this; rfl
  | succ k ih =>
    match l with
    | [] => simp at h
    | [a] => simp at h; omega
    | a :: b :: l => simp only [parseItems, List.length_cons]; rw [ih l (by simp at h; omega)]

theorem isNextPart_iff (e : IntakeEntry) (a : Assembly) : IsNextPart e a ↔ ¬ ((e.item.toNat != a.nextPart ||
    e.payload.length != partLength a.part0.count a.nextPart) = true) := by
  unfold IsNextPart partLength
  simp only [Bool.or_eq_true, bne_iff_ne, beq_iff_eq, not_or, not_not]

theorem parsePart0_none {l : List Byte} (h : l.length ≠ 20) : parsePart0 l = none := by
  unfold parsePart0
  split
  · exact absurd rfl h
  · rfl

theorem applyEntry_declare {e : IntakeEntry} (hi : e.entryIndex = 3) (hu : s.line.standing ≠ .unnumbered)
    (h0 : e.parcel ≠ 0#4) (h2 : e.item.toNat ≤ 2) : applyEntry e s = if e.item = 0#6 then takePart0 e s else
        takeRosterPart e s := by
  have : (s.line.standing == .unnumbered || e.parcel == 0#4 || decide (2 < e.item.toNat)) = false := by
    simp [hu, h0]; omega
  simp only [applyEntry, hi, applyDeclare, this, Bool.false_eq_true, if_false, beq_iff_eq]

/-! ## Assembly buffers -/

theorem numberAssembled_free {E : Engine} {n} (h : ∀ a, E.buf0 = some a ∨ E.buf1 = some a → a.parcel ≠ n) :
    E.numberAssembled n = false := by
  simp only [Engine.numberAssembled]
  cases h0 : E.buf0 with
  | none => cases h1 : E.buf1 with
    | none => rfl
    | some a => simp [numberedFor, h a (.inr h1)]
  | some a =>
    cases h1 : E.buf1 with
    | none => simp [numberedFor, h a (.inl h0)]
    | some c => simp [numberedFor, h a (.inl h0), h c (.inr h1)]

theorem numberAssembled_used {E : Engine} {n} (h : ∃ a, (E.buf0 = some a ∨ E.buf1 = some a) ∧ a.parcel = n) :
    E.numberAssembled n = true := by
  obtain ⟨a, h | h, rfl⟩ := h <;> simp [Engine.numberAssembled, h, numberedFor]

theorem setBuffer_sameRecords (X : State) (b : Fin 2) (a : Option Assembly) : SameRecords X (X.setBuffer b a) := by
  match b with
  | 0 => exact ⟨rfl, fun j => by cases j <;> rfl, rfl⟩
  | 1 => exact ⟨rfl, fun j => by cases j <;> rfl, rfl⟩

theorem setBuffer_beside (X : State) (n) (b : Fin 2) (a : Option Assembly) : Beside n X (X.setBuffer b a) := by
  refine ⟨setBuffer_sameRecords X b a, ?_, ?_, ?_⟩
  · match b with
    | 0 => rfl
    | 1 => rfl
  · match b with
    | 0 => rfl
    | 1 => rfl
  · match b with
    | 0 => exact fun m h => .inl h
    | 1 => exact fun m h => .inl h

theorem setBuffer_rest (X : State) (b : Fin 2) (a : Option Assembly) : (X.setBuffer b a).port = X.port ∧ (X.setBuffer b
    a).line = X.line ∧ (X.setBuffer b a).acc = X.acc ∧ (X.setBuffer b a).counters = X.counters ∧ (X.setBuffer b
        a).eng.heard = X.eng.heard ∧ (X.setBuffer b a).eng.rosterDir = X.eng.rosterDir ∧ (X.setBuffer b
            a).eng.directory = X.eng.directory ∧ (X.setBuffer b a).store = X.store ∧ (X.setBuffer b a).eng.w0 =
                X.eng.w0 ∧ (X.setBuffer b a).eng.w1 = X.eng.w1 ∧ (X.setBuffer b a).eng.dueWrites = X.eng.dueWrites ∧
                    (X.setBuffer b a).eng.buffer b = a := by
  match b with
  | 0 => exact ⟨rfl, rfl, rfl, rfl, rfl, rfl, rfl, rfl, rfl, rfl, rfl, rfl⟩
  | 1 => exact ⟨rfl, rfl, rfl, rfl, rfl, rfl, rfl, rfl, rfl, rfl, rfl, rfl⟩

theorem buffer_of {E E' : Engine} (b : Fin 2) (h0 : E.buf0 = E'.buf0) (h1 : E.buf1 = E'.buf1) : E.buffer b = E'.buffer
    b := by
  match b with
  | 0 => exact h0
  | 1 => exact h1

/-! ## Services that change the buffers and post alone -/

theorem ended_plain {X : State} (hq : s.Quiet) (h1 : X.sup = s.sup) (h2 : X.tmr = s.tmr) (h3 : X.eng.dueWrites = []) :
    endService (countOther X) = X.counted :=
  endService_unwritten (by rw [h1]; exact hq.1) (by rw [h2]; exact hq.2.1) h3

/-- An intake service that only fills or frees a buffer. -/
theorem intake_setBuffer (hc : s.HeadChosen e rest) (hq : s.Quiet) (b a) (h : applyEntry e
    { s with acc := (s.headTaken rest).acc } = State.setBuffer { s with acc := (s.headTaken rest).acc } b a) :
    exec .intakeService s = .next ((s.headTaken rest).setBuffer b a) := by
  have h2 := hq.2.2
  rw [exec_intakeService hc hq, h, ended_plain hq (by match b with | 0 => rfl | 1 => rfl)
      (by match b with | 0 => rfl | 1 => rfl) (by match b with | 0 => exact h2 | 1 => exact h2)]
  cases s with
  | mk l a en st lg tm p su co pe =>
    cases en
    simp only at h2
    subst h2
    match b with
    | 0 => rfl
    | 1 => rfl

/-- An intake service whose rule changes nothing. -/
theorem intake_plain (hc : s.HeadChosen e rest) (hq : s.Quiet) (h : applyEntry e
    { s with acc := (s.headTaken rest).acc } = { s with acc := (s.headTaken rest).acc }) :
    exec .intakeService s = .next (s.headTaken rest) := by
  have h2 := hq.2.2
  rw [exec_intakeService hc hq, h, endService_unwritten (by exact hq.1) (by exact hq.2.1) (by exact hq.2.2)]
  cases s with
  | mk l a en st lg tm p su co pe =>
    cases en
    simp only at h2
    subst h2
    rfl

/-- An intake service that only counts a conflict. -/
theorem intake_conflict (hc : s.HeadChosen e rest) (hq : s.Quiet) (h : applyEntry e
    { s with acc := (s.headTaken rest).acc } = State.bump { s with acc := (s.headTaken rest).acc } .conflicts) :
    exec .intakeService s = .next
        { s.headTaken rest with counters := { s.counters with conflicts := min 65535 (s.counters.conflicts + 1) } } :=
            by
  have h2 := hq.2.2
  rw [exec_intakeService hc hq, h, endService_unwritten (by exact hq.1) (by exact hq.2.1) (by exact hq.2.2)]
  cases s with
  | mk l a en st lg tm p su co pe =>
    cases en
    simp only at h2
    subst h2
    rfl

/-- In a service on the head of the intake queue, a state that differs from the start in the engine alone, with what
its engine is at the end. -/
structure EngOnly (s : State) (rest) (U u : State) : Prop where
  eng : U.counted.eng = u.eng
  line : U.line = s.line
  acc : U.acc = (s.headTaken rest).acc
  store : U.store = s.store
  tmr : U.tmr = s.tmr
  sup : U.sup = s.sup
  port : U.port = s.port
  counters : U.counters = s.counters
  due : U.eng.dueWrites = []

theorem engOnly_setBuffer (hq : s.Quiet) (b a) : EngOnly s rest (State.setBuffer
    { s with acc := (s.headTaken rest).acc } b a) ((s.headTaken rest).setBuffer b a) := by
  have h2 := hq.2.2
  match b with
  | 0 => refine ⟨?_, rfl, rfl, rfl, rfl, rfl, rfl, rfl, h2⟩
         cases s with
         | mk l a en st lg tm p su co pe => cases en; simp only at h2; subst h2; rfl
  | 1 => refine ⟨?_, rfl, rfl, rfl, rfl, rfl, rfl, rfl, h2⟩
         cases s with
         | mk l a en st lg tm p su co pe => cases en; simp only at h2; subst h2; rfl

theorem engOnly_plain (hq : s.Quiet) : EngOnly s rest { s with acc := (s.headTaken rest).acc } (s.headTaken rest) := by
  have h2 := hq.2.2
  refine ⟨?_, rfl, rfl, rfl, rfl, rfl, rfl, rfl, h2⟩
  cases s with
  | mk l a en st lg tm p su co pe => cases en; simp only at h2; subst h2; rfl

theorem EngOnly.touch {U u : State} (h : EngOnly s rest U u) (i) : EngOnly s rest (U.touch i) (u.touch i) := by
  refine ⟨?_, h.line, h.acc, h.store, h.tmr, h.sup, h.port, h.counters, h.due⟩
  have := h.eng
  show ({ U.counted.eng with lessRecent := otherContext i } : Engine) = { u.eng with lessRecent := otherContext i }
  rw [this]

/-- The ALARM of a refusal (R41). -/
def refusalFrame (s : State) (n : ParcelNo) (reason : RefusalReason) : OfferedFrame :=
  { key := mkKey .alarm s.sup.straps.station n 1#6, payload := [1#8, reason.code, 0#8, 0#8, 0#8, 0#8] }

theorem refusal_frame {U : State} (n : ParcelNo) (reason : RefusalReason) (h : U.sup = s.sup) :
    ownFrame U .alarm n 1#6 ([declareRefusedCode, reason.code] ++ be32 0#32) = refusalFrame s n reason := by
  simp only [ownFrame, State.station, h]
  rfl

/-- An intake service that ends in a refusal (R41). -/
theorem intake_refused (hc : s.HeadChosen e rest) (hq : s.Quiet) {U u : State} {reason : RefusalReason}
    (hU : EngOnly s rest U u)
    (h : applyEntry e { s with acc := (s.headTaken rest).acc } = refuse e.parcel e.source reason U) :
    ∃ t, exec .intakeService s = .next t ∧ t.eng = u.eng ∧ t.store = s.store ∧ t.acc = (s.headTaken rest).acc ∧
      Refused s t e.parcel e.source reason := by
  have hx := exec_intakeService hc hq
  have hf := refusal_frame e.parcel reason hU.sup
  rw [h, refuse] at hx
  simp only [hf] at hx
  have hoff := offer_line_congr (refusalFrame s e.parcel reason) false hU.line
  rw [ended_plain hq (by rw [post_sup, offer_sup, hU.sup]) (by rw [post_tmr, offer_tmr, hU.tmr])
    (by rw [post_eng, offer_eng, hU.due])] at hx
  refine ⟨_, hx, ?_, ?_, ?_, ?_, ?_⟩
  · rw [← hU.eng]
    simp only [State.counted, State.setEng, State.setStoreLog, post_eng, offer_eng, State.starvationCounted]
  · exact (post_store _ _).trans ((offer_store _ _ _).trans hU.store)
  · exact (post_acc _ _).trans ((offer_acc _ _ _).trans hU.acc)
  · exact (post_line _ _).trans hoff.2
  · rw [show (offer { key := mkKey .alarm s.sup.straps.station e.parcel 1#6
                      payload := [1#8, reason.code, 0#8, 0#8, 0#8, 0#8] } false s).1 = _ from hoff.1.symm]
    exact (posted_post s _ _ ((offer_port _ _ _).trans hU.port)
      ((offer_noticesLost _ _ _).trans (congrArg _ hU.counters))
      (congrArg _ ((offer_tmr _ _ _).trans hU.tmr))).congr rfl rfl

/-- An intake service that ends in a conflict with a held number (R32). -/
theorem intake_declareConflict (hc : s.HeadChosen e rest) (hq : s.Quiet) {U u : State} {held} (hU : EngOnly s rest U u)
    (h : applyEntry e { s with acc := (s.headTaken rest).acc } = declareConflict e.parcel e.source held U) :
   ∃ t, exec .intakeService s = .next t ∧ t.eng = u.eng ∧
      t.store = s.store ∧ t.acc = (s.headTaken rest).acc ∧ t.line = s.line ∧
      t.counters.conflicts = min 65535 (s.counters.conflicts + 1) ∧
      Posted s t (.declareConflict e.parcel e.source held) := by
  have hx := exec_intakeService hc hq
  rw [h, declareConflict] at hx
  rw [ended_plain hq (by rw [post_sup]; exact hU.sup) (by rw [post_tmr]; exact hU.tmr)
      (by rw [post_eng]; exact hU.due)] at hx
  refine ⟨_, hx, ?_, ?_, ?_, ?_, ?_, ?_⟩
  · rw [← hU.eng]
    simp only [State.counted, State.setEng, State.setStoreLog, post_eng, State.starvationCounted]
    rfl
  · exact (post_store _ _).trans hU.store
  · exact (post_acc _ _).trans hU.acc
  · exact (post_line _ _).trans hU.line
  · have : ∀ (u : State) b, (u.post b).counters.conflicts = u.counters.conflicts := by
      intro u b; simp only [State.post]; split <;> rfl
    refine (this _ _).trans ?_
    show min 65535 (U.counters.conflicts + 1) = _
    rw [hU.counters]
  · exact (posted_post s (U.bump .conflicts) _ hU.port (by show U.counters.noticesLost = _; rw [hU.counters]) (congrArg
        _ hU.tmr)).congr rfl rfl

/-! ## Acceptance (R38) -/

theorem stored_storePut_new (r : ParcelRecord) (h : s.stored r.number = none) (hn : none ∈ s.store) : (s.storePut
    r).stored r.number = some (mkStored r) := by
  have hu : ∀ p, some p ∈ s.store → storedUnder r.number (some p) = false := by
    intro p hp
    by_contra hx
    simp only [Bool.not_eq_false] at hx
    have : (s.store.find? (storedUnder r.number)).isSome := by
      rw [List.find?_isSome]; exact ⟨_, hp, hx⟩
    obtain ⟨y, hy⟩ := Option.isSome_iff_exists.1 this
    simp only [State.stored, hy] at h
    have h3 := List.find?_some hy
    rw [h] at h3
    simp [storedUnder] at h3
  have h1 : s.store.findIdx? (storedUnder r.number) = none := by
    rw [List.findIdx?_eq_none_iff]
    intro x hx
    cases x with
    | none => rfl
    | some p => exact hu p hx
  have h2 : ∃ k, s.store.findIdx? Option.isNone = some k := by
    rw [← Option.isSome_iff_exists, List.findIdx?_isSome, List.any_eq_true]
    exact ⟨none, hn, rfl⟩
  obtain ⟨k, hk⟩ := h2
  have hkl : k < s.store.length := by
    have := List.findIdx?_eq_some_iff_findIdx_eq.1 hk
    omega
  have e : s.storePut r = s.storeSet k r := by simp [State.storePut, State.storePlace, h1, hk]
  rw [e]
  simp only [State.stored, State.storeSet, State.storeStep, State.setStoreLog_store, State.setStore_store]
  have : (s.store.set k (some (mkStored r))).find? (storedUnder r.number) = some (some (mkStored r)) := by
    rw [List.find?_eq_some_iff_getElem]
    refine ⟨by simp [storedUnder, mkStored], k, by simpa using hkl, by simp, ?_⟩
    intro j hj
    have hjl : j < s.store.length := by omega
    rw [List.getElem_set_ne (by omega)]
    cases hx : s.store[j] with
    | none => rfl
    | some p => simp [hu p (by rw [← hx]; exact List.getElem_mem _)]
  rw [this]

theorem insertDir_find (e : DirEntry) (l : List DirEntry) (h : l.find? (fun d => d.number == e.number) = none) :
    (insertDir e l).find? (fun d => d.number == e.number) = some e := by
  induction l with
  | nil => simp [insertDir]
  | cons d l ih =>
    rw [List.find?_cons] at h
    cases hd : (d.number == e.number) with
    | true => rw [hd] at h; simp at h
    | false =>
      rw [hd] at h
      simp only [insertDir]
      split
      · simp
      · rw [List.find?_cons, hd]; exact ih h

theorem insertDir_find_other (e : DirEntry) (l : List DirEntry) {m : ParcelNo} (h : m ≠ e.number) :
    (insertDir e l).find? (fun d => d.number == m) = l.find? (fun d => d.number == m) := by
  have he : (e.number == m) = false := by simpa using Ne.symm h
  induction l with
  | nil => simp [insertDir, he]
  | cons d l ih =>
    simp only [insertDir]
    split
    · simp [List.find?_cons, he]
    · simp only [List.find?_cons, ih]

theorem bindRoster_congr (n k) (l : List RosterItem) {a b : AcceptanceUnit} (h1 : a.entries = b.entries) (h2 : a.slots
    = b.slots) : (bindRoster n k l a).1 = (bindRoster n k l b).1 ∧ (bindRoster n k l a).2.entries = (bindRoster n k l
        b).2.entries ∧ (bindRoster n k l a).2.slots = (bindRoster n k l b).2.slots ∧ (bindRoster n k l a).2.intake =
            a.intake ∧ (bindRoster n k l a).2.pressure = a.pressure := by
  induction l generalizing k a b with
  | nil => exact ⟨rfl, h1, h2, rfl, rfl⟩
  | cons x l ih =>
    simp only [bindRoster]
    split
    · have hb : (bindTank x.station x.item n k a).1 = (bindTank x.station x.item n k b).1 ∧ (bindTank x.station x.item
          n k a).2.entries = (bindTank x.station x.item n k b).2.entries ∧ (bindTank x.station x.item n k a).2.slots =
              (bindTank x.station x.item n k b).2.slots ∧ (bindTank x.station x.item n k a).2.intake = a.intake ∧
                  (bindTank x.station x.item n k a).2.pressure = a.pressure := by
        simp only [bindTank, h1, h2]
        split
        · exact ⟨rfl, rfl, rfl, rfl, rfl⟩
        · exact ⟨rfl, h1, h2, rfl, rfl⟩
      obtain ⟨c1, c2, c3, c4, c5⟩ := ih (k + 1) hb.2.1 hb.2.2.1
      exact ⟨by rw [hb.1, c1], c2, c3, c4.trans hb.2.2.2.1, c5.trans hb.2.2.2.2⟩
    · obtain ⟨c1, c2, c3, c4, c5⟩ := ih (k + 1) h1 h2
      exact ⟨by rw [c1], c2, c3, c4, c5⟩

/-- What an acceptance leaves at the end of its service, with a context and a store position free. -/
theorem accept_shows {T : State} {n : ParcelNo} {d items} (hk : T.sup.straps.policy = .keepOpen) (hb : T.tmr.buildsDue
    = []) (hd : T.eng.dueWrites = []) (h0 : n ≠ 0#4)
   (hw : T.eng.w0 = none ∨ T.eng.w1 = none) (hdf : T.dirFind n = none) (hs : T.stored n = none) (hn : none ∈ T.store)
       (l) :
   let t := (endService (countOther (accept n d items T))).setStoreLog l
   let b := bindRoster n 0 (items.map freshItem) T.acc
   let q := acceptedRecord n d b.1
   t.working n = some q ∧ t.stored n = some (mkStored q) ∧
        t.eng.rosterDir = T.eng.rosterDir.filter (fun x => x.parcel != n) ++ rosterEntries n 0 b.1 ∧
        t.acc = b.2 ∧ t.eng.buf0 = T.eng.buf0 ∧ t.eng.buf1 = T.eng.buf1 ∧
        t.port = (T.post (.parcelState n (some .declared) 1 none .other)).port ∧ t.counters = (T.post (.parcelState n
            (some .declared) 1 none .other)).counters ∧ t.line = T.line ∧
    (∃ de, t.dirFind n = some de ∧ de.state = .declared ∧ de.round = 1 ∧ de.halfDone = false ∧
      de.context = some T.missVictim) ∧
    t.eng.context (otherContext T.missVictim) = T.eng.context (otherContext T.missVictim) ∧
    ∀ m, m ≠ n → t.dirFind m = T.dirFind m ∧ t.stored m = T.stored m := by
  intro t b q
  have hv : T.eng.victim = if T.eng.w0 = none then .w0 else .w1 := by
    unfold Engine.victim
    rcases hw with h | h
    · simp [h]
    · rw [h]; cases T.eng.w0 <;> simp
  have hcn : T.eng.context T.eng.victim = none := by
    rw [hv]
    rcases hw with h | h
    · simp [h, Engine.context]
    · by_cases h' : T.eng.w0 = none <;> simp [h', h, Engine.context]
  have hcl : T.closeContext T.eng.victim = T := by simp [State.closeContext, hcn]
  rw [← victim_eq]
  clear hv
  generalize hj : T.eng.victim = j at hcn hcl
  set u : State := (T.setAcc b.2).setEng { T.eng with directory := insertDir (dirEntryOf q) T.eng.directory } with hu
  have hud : u.dirFind n = some (dirEntryOf q) := insertDir_find (dirEntryOf q) T.eng.directory hdf
  set v : State := (buildInContext q j u).setRosterEntries n (rosterEntries n 0 b.1) with hvv
  have hvd : v.dirFind n = some { (dirEntryOf q).copyFrom q with context := some j } := by
    have : v.dirFind n = (buildInContext q j u).dirFind n := rfl
    rw [this, buildInContext, dirFind_congr (touch_directory _ _), show q.number = n from rfl, dirFind_dirUpdate (hf :=
        fun _ => by rfl), if_pos rfl, dirFind_congr (setContext_directory _ _ _), hud]
    rfl
  have hvc : v.eng.context j = some { record := q, dirty := true } := by
    have : v.eng.context j = (buildInContext q j u).eng.context j := by cases j <;> rfl
    rw [this, buildInContext]; simp
  have hvw : v.OpenWith n j { (dirEntryOf q).copyFrom q with context := some j } { record := q, dirty := true } :=
      ⟨hvd, rfl, hvc, rfl⟩
  have hvo : ∀ m, m ≠ n → v.dirFind m = T.dirFind m := by
    intro m hm
    have : v.dirFind m = (buildInContext q j u).dirFind m := rfl
    rw [this, buildInContext, dirFind_congr (touch_directory _ _), show q.number = n from rfl, dirFind_dirUpdate (hf :=
        fun _ => by rfl), if_neg hm, dirFind_congr (setContext_directory _ _ _)]
    exact insertDir_find_other (dirEntryOf q) T.eng.directory hm
  have hvx : v.eng.context (otherContext j) = T.eng.context (otherContext j) := by
    have hne : otherContext j ≠ j := by cases j <;> decide
    have : v.eng.context (otherContext j) = (buildInContext q j u).eng.context (otherContext j) := by cases j <;> rfl
    rw [this, buildInContext]
    simp only [touch_context, dirUpdate_context, setContext_context, if_neg hne, hu]
    cases j <;> rfl
  have hacc : accept n d items T = (v.post (stateNotice q .other)).markWrite n := by
    have h1 : accept n d items T = (postState n .other v).markWrite n := by
      simp only [accept, hj, hcl]
      rfl
    rw [h1, postState, hvw.working]
  have hbes : Beside n v ((v.post (stateNotice q .other)).markWrite n) := (Beside.post _).trans .markWrite
  have hvs : v.store = T.store := by cases j <;> rfl
  have hvdue : v.eng.dueWrites = [] := by rw [← hd]; cases j <;> rfl
  have hvsup : v.sup = T.sup := by cases j <;> rfl
  have hvtmr : v.tmr = T.tmr := by cases j <;> rfl
  set x := (v.post (stateNotice q .other)).markWrite n with hx
  have hxa : x.acc = b.2 := by
    show (v.post _).acc = _
    rw [post_acc]; cases j <;> rfl
  have hxl : x.line = T.line := by
    show (v.post _).line = _
    rw [post_line]; cases j <;> rfl
  have hnb : stateNotice q .other = .parcelState n (some .declared) 1 none .other := rfl
  have hpc : (v.post (.parcelState n (some .declared) 1 none .other)).port = (T.post (.parcelState n (some .declared) 1
      none .other)).port ∧ (v.post (.parcelState n (some .declared) 1 none .other)).counters = (T.post (.parcelState n
          (some .declared) 1 none .other)).counters := by
    have h1 : v.port = T.port := by cases j <;> rfl
    have h2 : v.counters = T.counters := by cases j <;> rfl
    simp only [State.post, h1, hvtmr]
    split
    · exact ⟨rfl, h2⟩
    · exact ⟨h1, by simp only [State.bump, State.setCounters, h2]⟩
  have he : x.eng = { v.eng with dueWrites := n :: v.eng.dueWrites } := by
    show ((v.post _).markWrite n).eng = _
    simp [State.markWrite]
  have hxp : x.port = (T.post (.parcelState n (some .declared) 1 none .other)).port := by rw [← hpc.1]; rfl
  have hxc : x.counters = (T.post (.parcelState n (some .declared) 1 none .other)).counters := by rw [← hpc.2]; rfl
  have hx0 : x.eng.rosterDir = T.eng.rosterDir.filter (fun x => x.parcel != n) ++ rosterEntries n 0 b.1 := by
      rw [he]; cases j <;> rfl
  have hx1 : x.eng.buf0 = T.eng.buf0 := by rw [he]; cases j <;> rfl
  have hx2 : x.eng.buf1 = T.eng.buf1 := by rw [he]; cases j <;> rfl
  have hxst : x.store = T.store := (hbes.records.store).trans hvs
  have hdue0 : ∀ m, m ∈ x.eng.dueWrites ↔ m = n := hbes.due_iff hvdue (Beside.mem_markWrite _ _)
  have hxw0 := hvw.congr hbes.records
  have hxo : ∀ m, m ≠ n → x.dirFind m = T.dirFind m := fun m hm => (hbes.records.dirFind m).trans (hvo m hm)
  have hxx : x.eng.context (otherContext j) = T.eng.context (otherContext j) :=
    (hbes.records.context _).trans hvx
  have hxs : x.sup = T.sup := hbes.sup.trans hvsup
  have hxt : x.tmr = T.tmr := hbes.tmr.trans hvtmr
  clear_value x
  clear hbes hvs hvdue hvsup hvtmr hvd hvc hvo hvx hvw he hpc hud hu hvv hx
  have hxw := hxw0.congr (countOther_sameRecords x)
  have hdue : ∀ m, m ∈ (countOther x).eng.dueWrites ↔ m = n := by
    exact hdue0
  have hwt : (countOther x).writeThrough n = ((countOther x).storePut q).setContext j
      (some { record := q, dirty := false }) := by
    simp [State.writeThrough, State.writeBack, hxw.1, hxw.2.1, hxw.2.2.1]
  have hfw : (countOther x).finishWrites = (((countOther x).storePut q).setContext j
      (some { record := q, dirty := false })).setEng
          { (((countOther x).storePut q).setContext j (some { record := q, dirty := false })).eng with dueWrites := [] } := by
    simp only [State.finishWrites, due_one _ h0 hdue, List.foldl_cons, List.foldl_nil, hwt]
  obtain ⟨y, lg, hy, -⟩ := storePut_eq (countOther x) q
  have hst : ((countOther x).storePut q).stored n = some (mkStored q) := by
    have h1 : (countOther x).store = T.store := hxst
    refine stored_storePut_new (s := countOther x) q ?_ (by rw [h1]; exact hn)
    show (countOther x).stored n = none
    rw [← hs]; simp only [State.stored, h1]
  have hend : endService (countOther x) = (countOther x).finishWrites := by
    refine endService_quiet (s := countOther x) (by show x.sup.straps.policy = _; rw [hxs]; exact hk) ?_ ?_
    · rw [hfw, hy]; show x.tmr.buildsDue = []; rw [hxt]; exact hb
    · rw [hfw, hy]; rfl
  have ht : t = (countOther x).finishWrites.setStoreLog l := by simp only [t, hacc, hend]
  rw [hfw] at ht
  have hyst : (((countOther x).setStore y).setStoreLog lg).stored n = some (mkStored q) := by rw [← hy]; exact hst
  rw [hy] at ht
  have htw : t.OpenWith n j { (dirEntryOf q).copyFrom q with context := some j } { record := q, dirty := false } := by
    rw [ht]
    refine ⟨?_, rfl, ?_, rfl⟩
    · refine Eq.trans ?_ hxw.1
      cases j <;> rfl
    · cases j <;> rfl
  refine ⟨htw.working, ?_, ?_, ?_, ?_, ?_, ?_, ?_, ?_, ⟨_, htw.1, rfl, rfl, rfl, rfl⟩, ?_, ?_⟩
  · rw [ht]; exact hyst
  · rw [ht, ← hx0]; cases j <;> rfl
  · rw [ht]; exact hxa
  · rw [ht, ← hx1]; cases j <;> rfl
  · rw [ht, ← hx2]; cases j <;> rfl
  · rw [ht]; exact hxp
  · rw [ht]; exact hxc
  · rw [ht]; exact hxl
  · rw [ht, ← hxx]; cases j <;> rfl
  · intro m hm
    refine ⟨?_, ?_⟩
    · rw [ht, ← hxo m hm]; cases j <;> rfl
    · have := stored_storePut_other (countOther x) q (m := m) (by exact hm)
      rw [hy] at this
      rw [ht]
      refine this.trans ?_
      simp only [State.stored, show (countOther x).store = T.store from hxst]

/-! ## Failed assemblies and completed declarations (R31, R32) -/

theorem openIfDeclared_declared {X : State} {n} {i} {de c} (hw : X.OpenWith n i de c) (hd : de.state = .declared) :
    openIfDeclared n X = X.touch i := by
  simp [openIfDeclared, hw.1, hd, hw.open_eq]

theorem openIfDeclared_other {X : State} {n} {de} (hw : X.dirFind n = some de) (hd : de.state ≠ .declared) :
    openIfDeclared n X = X := by
  simp [openIfDeclared, hw, hd]

theorem isAmendment_eq {X : State} {n} {i} {de c} {d : Declaration} (hw : X.OpenWith n i de c) (hr : c.record.state =
    .declared) (hd : c.record.decl = some d) (source) :
    isAmendment n source (X.touch i) = (d.declarer == source) := by
  have := (hw.congr (touch_sameRecords X i)).working
  simp [isAmendment, this, hr, hd]

theorem failAssembly_none {X : State} {n source} (h : X.dirFind n = none) : failAssembly source n X = refuse n source
    .assembly X := by simp [failAssembly, h]

theorem failAssembly_other {X : State} {n source de} (h : X.dirFind n = some de) (hd : de.state ≠ .declared) :
    failAssembly source n X = declareConflict n source de.state X := by
  simp [failAssembly, h, hd, openIfDeclared_other h hd]

theorem failAssembly_declared {X : State} {n source i de c} {d : Declaration} (hw : X.OpenWith n i de c) (hd : de.state
    = .declared) (hr : c.record.state = .declared) (hdd : c.record.decl = some d) :
   failAssembly source n X = if d.declarer = source then refuse n source .assembly (enterVoid n .amendRefused .other
       (X.touch i)) else declareConflict n source .declared (X.touch i) := by
  simp only [failAssembly, hw.1, openIfDeclared_declared hw hd, isAmendment_eq hw hr hdd, hd]
  simp

theorem completeDeclaration_pass {X : State} {n source p items} (h : X.dirFind n = none) (hv : validate source n p
    items X = none) : completeDeclaration source n p items X = accept n (declarationOf source p) items X := by
  simp only [completeDeclaration, h, hv]

theorem completeDeclaration_fail {X : State} {n source p items reason} (h : X.dirFind n = none) (hv : validate source n
    p items X = some reason) : completeDeclaration source n p items X = refuse n source reason X := by
  simp only [completeDeclaration, h, hv]

theorem completeDeclaration_other {X : State} {n source de p items} (h : X.dirFind n = some de) (hd : de.state ≠
    .declared) : completeDeclaration source n p items X = declareConflict n source de.state X := by
  simp [completeDeclaration, h, hd, openIfDeclared_other h hd]

theorem completeDeclaration_declared {X : State} {n source i de c p items} {d : Declaration} (hw : X.OpenWith n i de c)
    (hd : de.state = .declared) (hr : c.record.state = .declared) (hdd : c.record.decl = some d) :
   completeDeclaration source n p items X = if d.declarer = source then amend source n p items (X.touch i) else
       declareConflict n source .declared (X.touch i) := by
  simp only [completeDeclaration, hw.1, openIfDeclared_declared hw hd, isAmendment_eq hw hr hdd, hd]
  simp

/-! ## Amendment (R40) -/

theorem unbindParcel_idem (n) (a : AcceptanceUnit) : unbindParcel n (unbindParcel n a) = unbindParcel n a := by
  have h1 : ∀ x, boundToParcel n (if boundToParcel n x = true then none else x) = false := by
    intro x; by_cases h : boundToParcel n x = true
    · rw [if_pos h]; rfl
    · rw [if_neg h]; simpa using h
  have h2 : ∀ k, boundToParcel n ((unbindParcel n a).entry k) = false := by
    intro k
    simp only [AcceptanceUnit.entry, unbindParcel, List.getD_eq_getElem?_getD, List.getElem?_map]
    cases a.entries[k - Config.firstBindable]? with
    | none => rfl
    | some x => exact h1 x
  have he : (unbindParcel n (unbindParcel n a)).entries = (unbindParcel n a).entries := by
    show (List.map _ (a.entries.map _)) = a.entries.map _
    rw [List.map_map]
    refine List.map_congr_left fun x _ => ?_
    simp only [Function.comp_apply, h1]
    rfl
  have hs : (unbindParcel n (unbindParcel n a)).slots = (unbindParcel n a).slots := by
    have : ∀ l : List GaugeSlot, l.map (fun g => match g.boundTo with
      | some k => if boundToParcel n ((unbindParcel n a).entry k) then emptySlot else g
      | none => g) = l := by
      intro l
      conv => rhs; rw [← List.map_id l]
      refine List.map_congr_left fun g _ => ?_
      cases g.boundTo with
      | none => rfl
      | some k => simp [h2]
    exact this _
  have : ∀ x y : AcceptanceUnit, x.entries = y.entries → x.slots = y.slots → x.intake = y.intake → x.pressure =
      y.pressure → x = y := by
    intro x y; cases x; cases y; simp; tauto
  exact this _ _ he hs rfl rfl

theorem ended_written_eng {T u : State} {n} {i} {F : DirEntry → DirEntry} {r : ParcelRecord} {de c} (hq : T.Quiet)
    (h0 : n ≠ 0#4) (ho : T.OpenWith n i de c)
    (hu : Beside n T u) (hm : n ∈ u.eng.dueWrites) (hF : KeepsPlace F) (hr : r.number = n) (l : List StoreStep) :
    let t := (endService (countOther (u.withOpen n i F { record := r, dirty := true }))).setStoreLog l
    t.eng.rosterDir = u.eng.rosterDir ∧ t.eng.buf0 = u.eng.buf0 ∧ t.eng.buf1 = u.eng.buf1 := by
  have huw := ho.congr hu.records
  rw [endService_written (by rw [hu.sup]; exact hq.1) (by rw [hu.tmr]; exact hq.2.1) h0 (hu.due_iff hq.2.2 hm) huw hF
      hr]
  have he := storePut_eng u r
  have : ∀ x : State, (x.withOpen n i F { record := r, dirty := false }).eng.rosterDir = x.eng.rosterDir ∧ (x.withOpen
      n i F { record := r, dirty := false }).eng.buf0 = x.eng.buf0 ∧ (x.withOpen n i F
          { record := r, dirty := false }).eng.buf1 = x.eng.buf1 := by
    intro x; cases i <;> exact ⟨rfl, rfl, rfl⟩
  rw [← he]
  exact this _

theorem withOpen_refuse (s : State) (n i F c) (m source reason) : refuse m source reason (s.withOpen n i F c) = (refuse
    m source reason s).withOpen n i F c := by
  simp only [refuse, withOpen_offer]
  rw [withOpen_post]
  rfl

/-- A parcel in a bound state, voided by an amendment that failed and is refused, in the form of a service. -/
theorem refuse_void_form {T T1 : State} {de : DirEntry} {c : OpenContext} {r : ParcelRecord} {F : DirEntry → DirEntry}
    {b : Bool} {source : Station} {reason : RefusalReason} (hw : T.OpenWith n i de c) (hB : Beside n T T1)
    (hport : T1.port = T.port) (hl : T1.line = T.line) (hF : KeepsPlace F) (hr : r.number = n)
    (ha : r.alarm.raised = false) (hst : r.state.isBound = true) :
    let q := { r with
      state := .void, voidReason := some .amendRefused, windowStart := none, voteOwed := false
      alarm := { conditionSince := none, raised := false, clearSince := none }
      roster := r.roster.map (fun x => { x with binding := none }) }
    let o := offer (refusalFrame T n reason) false T
    ∃ W, refuse n source reason (enterVoid n .amendRefused .other (T1.withOpen n i F { record := r, dirty := b })) =
        W.withOpen n i (fun d => { (F d).copyFrom q with halfDone := false }) { record := q, dirty := true } ∧
      Beside n T W ∧ W.eng = { T1.eng with dueWrites := n :: T1.eng.dueWrites } ∧ W.acc = unbindParcel n T1.acc ∧
      W.line = o.2.line ∧
      (T.port.notices.length + 2 ≤ 16 → W.port.notices = T.port.notices ++ [
        { second := T.tmr.seconds, body := .parcelState n (some .void) r.round (some .amendRefused) .other },
        { second := T.tmr.seconds, body := .declareRefused n source reason o.1.isIn }]) := by
  intro q o
  have he := enterVoid_quiet (b := b) (hw.congr hB.records) hF hr ha hst .amendRefused .other
  set V := (((T1.setAcc (unbindParcel n T1.acc)).post (stateNotice q .other)).markWrite n) with hV
  change enterVoid n .amendRefused .other (T1.withOpen n i F { record := r, dirty := b }) =
    V.withOpen n i (fun d => { (F d).copyFrom q with halfDone := false }) { record := q, dirty := true } at he
  have hv : Beside n T V := hB.trans (((Beside.setAcc _).trans (Beside.post _)).trans .markWrite)
  have hvl : V.line = T.line := (post_line _ _).trans hl
  have hva : V.acc = unbindParcel n T1.acc := post_acc _ _
  have hve : V.eng = { T1.eng with dueWrites := n :: T1.eng.dueWrites } := by simp [hV, State.markWrite]
  have hvn : T.port.notices.length + 2 ≤ 16 → V.port.notices = T.port.notices ++
      [{ second := T.tmr.seconds, body := .parcelState n (some .void) r.round (some .amendRefused) .other }] := by
    intro h
    refine (post_room (T1.setAcc (unbindParcel n T1.acc)) _
      (by show T1.port.notices.length < 16; rw [hport]; omega)).1.trans ?_
    rw [State.setAcc_port, hport, State.setAcc_tmr, hB.tmr]
    simp [stateNotice, q, hr]
  clear_value V
  have hoff := offer_line_congr (refusalFrame T n reason) false hvl
  change _ = o.1 ∧ _ = o.2.line at hoff
  refine ⟨(offer (refusalFrame T n reason) false V).2.post (.declareRefused n source reason o.1.isIn), ?_,
    (hv.trans (Beside.offer _ _)).trans (Beside.post _), ?_, (post_acc _ _).trans ((offer_acc _ _ _).trans hva),
    (post_line _ _).trans hoff.2, fun h => ?_⟩
  · rw [he, withOpen_refuse]
    simp only [refuse, refusal_frame n reason hv.sup, hoff.1]
  · rw [post_eng, offer_eng, hve]
  · refine (post_room _ _ (by rw [offer_port, hvn h]; simp; omega)).1.trans ?_
    rw [offer_port, offer_tmr, hvn h, hv.tmr]
    simp

/-- What a refused amendment leaves at the end of its service. -/
theorem refuse_void_shows {T T1 : State} {de : DirEntry} {c : OpenContext} {r : ParcelRecord} {F : DirEntry → DirEntry}
    {b : Bool} {source : Station} {reason : RefusalReason} (hq : T.Quiet) (h0 : n ≠ 0#4) (hw : T.OpenWith n i de c)
    (hs : (T.stored n).isSome = true) (hB : Beside n T T1) (hport : T1.port = T.port) (hl : T1.line = T.line)
    (hF : KeepsPlace F) (hr : r.number = n) (ha : r.alarm.raised = false) (hst : r.state.isBound = true)
    (l : List StoreStep) :
    let t := (endService (countOther (refuse n source reason
      (enterVoid n .amendRefused .other (T1.withOpen n i F { record := r, dirty := b }))))).setStoreLog l
    let q := { r with
      state := .void, voidReason := some .amendRefused, windowStart := none, voteOwed := false
      alarm := { conditionSince := none, raised := false, clearSince := none }
      roster := r.roster.map (fun x => { x with binding := none }) }
    let o := offer (refusalFrame T n reason) false T
    t.working n = some q ∧ t.stored n = some (mkStored q) ∧ OthersKept T t n ∧ t.acc = unbindParcel n T1.acc ∧
      t.line = o.2.line ∧ t.eng.buf0 = T1.eng.buf0 ∧ t.eng.buf1 = T1.eng.buf1 ∧
      (T.port.notices.length + 2 ≤ 16 → t.port.notices = T.port.notices ++ [
        { second := T.tmr.seconds, body := .parcelState n (some .void) r.round (some .amendRefused) .other },
        { second := T.tmr.seconds, body := .declareRefused n source reason o.1.isIn }]) := by
  intro t q o
  obtain ⟨W, hW, hB2, he, hac, hwl, hnot⟩ := refuse_void_form (b := b) (source := source) (reason := reason) hw hB hport hl
    hF hr ha hst
  have ht : t = (endService (countOther (W.withOpen n i (fun d => { (F d).copyFrom q with halfDone := false })
      { record := q, dirty := true }))).setStoreLog l := by
    simp only [t, hW]
    rfl
  have hF2 : KeepsPlace (fun d => { (F d).copyFrom q with halfDone := false }) := (hF.copy q).half false
  have hdue : n ∈ W.eng.dueWrites := by rw [he]; exact List.mem_cons_self
  obtain ⟨a1, a2, a3, a4, a5, a6, a7, a8⟩ := ended_written hq h0 hw hs hB2 hdue hF2 (show q.number = n from hr) l
  obtain ⟨b1, b2, b3⟩ := ended_written_eng hq h0 hw hB2 hdue hF2 (show q.number = n from hr) l
  rw [← ht] at a1 a2 a3 a4 a5 a6 a7 a8 b1 b2 b3
  refine ⟨a1, a2, a4, a6.trans hac, a5.trans hwl, b2.trans (by rw [he]), b3.trans (by rw [he]), fun h => ?_⟩
  rw [a7]
  exact hnot h

/-- An intake service that ends in a refused amendment. -/
theorem intake_voided {T T1 : State} {de : DirEntry} {c : OpenContext} {F : DirEntry → DirEntry} {b : Bool}
    {r : ParcelRecord} (hc : s.HeadChosen e rest) (hq : s.Quiet) (hT : T = { s with acc := (s.headTaken rest).acc })
    (h0 : e.parcel ≠ 0#4) (hw : s.OpenWith e.parcel i de c) (hs : (s.stored e.parcel).isSome = true)
    (hrs : c.record.state = .declared) (ha : c.record.alarm.raised = false) (hB : Beside e.parcel T T1)
    (hport : T1.port = T.port) (hl : T1.line = T.line)
    (hacc : unbindParcel e.parcel T1.acc = unbindParcel e.parcel T.acc) (hF : KeepsPlace F) (reason : RefusalReason)
    (hr : { r with roster := clearBindings r.roster } = { c.record with roster := clearBindings c.record.roster })
    (hap : applyEntry e T = refuse e.parcel e.source reason
      (enterVoid e.parcel .amendRefused .other (T1.withOpen e.parcel i F { record := r, dirty := b }))) :
    let q := { c.record with
      state := .void, voidReason := some .amendRefused, windowStart := none, voteOwed := false
      alarm := { conditionSince := none, raised := false, clearSince := none }
      roster := c.record.roster.map (fun x => { x with binding := none }) }
    let o := offer (refusalFrame s e.parcel reason) false s
    ∃ t, exec .intakeService s = .next t ∧ (t.eng.buf0 = T1.eng.buf0 ∧ t.eng.buf1 = T1.eng.buf1) ∧
      t.working e.parcel = some q ∧ t.stored e.parcel = some (mkStored q) ∧ Unbound s t e.parcel ∧
      t.acc.intake = rest ∧ t.line = o.2.line ∧ OthersKept s t e.parcel ∧
      (s.port.notices.length + 2 ≤ 16 → t.port.notices = s.port.notices ++ [
        { second := s.tmr.seconds
          body := .parcelState e.parcel (some .void) c.record.round (some .amendRefused) .other },
        { second := s.tmr.seconds, body := .declareRefused e.parcel e.source reason o.1.isIn }]) := by
  intro q o
  have hwT : T.OpenWith e.parcel i de c := by rw [hT]; exact headTaken_open hw rest
  have hx := exec_intakeService hc hq
  rw [← hT, hap] at hx
  have hrf : r.state = .declared := (show r.state = c.record.state by simpa using congrArg ParcelRecord.state hr).trans
      hrs
  have hra : r.alarm.raised = false :=
    (show r.alarm = c.record.alarm by simpa using congrArg ParcelRecord.alarm hr) ▸ ha
  have hrd : r.round = c.record.round := by simpa using congrArg ParcelRecord.round hr
  have hrn : r.number = e.parcel := (show r.number = c.record.number
      by simpa using congrArg ParcelRecord.number hr).trans hwT.2.2.2
  obtain ⟨a1, a2, a3, a4, a5, a6, a7, a8⟩ := refuse_void_shows (b := b) (source := e.source) (reason := reason)
    (show T.Quiet by rw [hT]; exact hq) h0 hwT (by rw [hT]; exact hs) hB hport hl hF hrn hra (by rw [hrf]; rfl)
        s.storeLog
  have hqq := congrArg (fun x : ParcelRecord => ({ x with
    state := .void, voidReason := some .amendRefused, windowStart := none, voteOwed := false
    alarm := { conditionSince := none, raised := false, clearSince := none } } : ParcelRecord)) hr
  replace a1 := a1.trans (congrArg some hqq)
  replace a2 := a2.trans (congrArg (fun x => some (mkStored x)) hqq)
  have hoff := offer_line_congr (refusalFrame s e.parcel reason) false (show T.line = s.line by rw [hT])
  change _ = o.1 ∧ _ = o.2.line at hoff
  have hfr : refusalFrame T e.parcel reason = refusalFrame s e.parcel reason := by rw [hT]; rfl
  rw [hfr, hoff.2] at a5
  rw [hfr, hoff.1] at a8
  rw [hacc] at a4
  subst hT
  refine ⟨_, hx, ⟨a6, a7⟩, a1, a2, ?_, ?_, a5, ?_, ?_⟩
  · exact unbound_of (by rw [a4]; rfl) (by rw [a4]; rfl)
  · rw [a4]
    rfl
  · exact ((headTaken_sameRecords s rest).othersKept _).trans a3
  · intro hl
    rw [← hrd]
    exact a8 hl

theorem withOpen_setRosterEntries (s : State) (n i F c) (m l) : (s.withOpen n i F c).setRosterEntries m l =
    (s.setRosterEntries m l).withOpen n i F c := by cases i <;> rfl

theorem setRosterEntries_beside (X : State) (n m l) : Beside n X (X.setRosterEntries m l) :=
  ⟨⟨rfl, fun j => by cases j <;> rfl, rfl⟩, rfl, rfl, fun _ h => .inl h⟩

theorem amend_pass {X : State} {source : Station} {p : Part0} {items : List DeclaredItem}
    {b : ParcelRecord × AcceptanceUnit} (hv : validate source n p items (unbind n X) = none)
    (hb : bindNew n (declarationOf source p) items (unbind n X).acc = b) :
    amend source n p items X = (changeState n (fun _ => b.1) .other
      (((unbind n X).setAcc b.2).setRosterEntries n (rosterEntries n 0 b.1.roster))).setHalf n false := by
  unfold amend
  generalize unbind n X = T at *
  dsimp only
  split
  · rw [hb]
  · rename_i h
    cases hv.symm.trans h

theorem amend_fail {X : State} {source : Station} {p : Part0} {items : List DeclaredItem} {reason : RefusalReason}
    (hv : validate source n p items (unbind n X) = some reason) :
    amend source n p items X = refuse n source reason (enterVoid n .amendRefused .other (unbind n X)) := by
  unfold amend
  generalize unbind n X = T at *
  dsimp only
  split
  · rename_i h
    cases hv.symm.trans h
  · rename_i h
    cases hv.symm.trans h
    rfl

/-- An amendment that passes, in the form of a service. -/
theorem amend_form {X : State} {de : DirEntry} {c : OpenContext} {source : Station} {p : Part0}
    {items : List DeclaredItem} {b : ParcelRecord × AcceptanceUnit} (hw : X.OpenWith n i de c)
    (hv : validate source n p items (unbind n (X.touch i)) = none)
    (hb : bindNew n (declarationOf source p) items (unbindParcel n X.acc) = b) :
    amend source n p items (X.touch i) =
      ((((X.setAcc b.2).setRosterEntries n (rosterEntries n 0 b.1.roster)).post (stateNotice b.1 .other)).markWrite
        n).withOpen n i
        (fun d => { (d.copyFrom { c.record with roster := clearBindings c.record.roster }).copyFrom b.1 with
          halfDone := false })
        { record := b.1, dirty := true } := by
  obtain ⟨r, dd⟩ := c
  have hr : r.number = n := hw.2.2.2
  have hu := unbind_form (b := dd) hw keepsPlace_id hr
  rw [← hw.form] at hu
  have hbn : b.1.number = n := by rw [← hb]; rfl
  have hacc : (unbind n (X.touch i)).acc = unbindParcel n X.acc := by rw [hu]; rfl
  rw [amend_pass hv ((congrArg _ hacc).trans hb), hu]
  clear hb hv hu hacc
  dsimp only
  rw [withOpen_setAcc, withOpen_setRosterEntries]
  have hwB := hw.congr (((Beside.setAcc (unbindParcel n X.acc)).trans (Beside.setAcc b.2)).trans
    (setRosterEntries_beside _ n n (rosterEntries n 0 b.1.roster))).records
  change State.OpenWith ((X.setAcc b.2).setRosterEntries n (rosterEntries n 0 b.1.roster)) _ _ _ _ at hwB
  change (changeState n _ _ (State.withOpen ((X.setAcc b.2).setRosterEntries n (rosterEntries n 0 b.1.roster)) _ _ _
    _)).setHalf _ _ = _
  generalize (X.setAcc b.2).setRosterEntries n (rosterEntries n 0 b.1.roster) = Y at *
  have hK : KeepsPlace (fun d => (id d).copyFrom { r with roster := clearBindings r.roster }) := keepsPlace_id.copy _
  rw [withOpen_changeState hwB hK (by exact hr) (fun _ => b.1) hbn, withOpen_setHalf _ _ _ _ (hK.copy _)]
  rfl

/-- The checks of an amendment see the part as it is with the parcel unbound. -/
theorem validate_unbind {X : State} {n i de c source p items} (hw : X.OpenWith n i de c) {u : State} (h1 : u.eng.heard
    = X.eng.heard) (h2 : u.eng.rosterDir = X.eng.rosterDir) (h3 : u.eng.directory = X.eng.directory)
   (h6 : u.acc.entries = (unbindParcel n X.acc).entries) (h7 : u.acc.slots = (unbindParcel n X.acc).slots) :
   validate source n p items (unbind n (X.touch i)) = validate source n p items u := by
  obtain ⟨r, dd⟩ := c
  have hr : r.number = n := hw.2.2.2
  have hu := unbind_form (b := dd) hw keepsPlace_id hr
  rw [← hw.form] at hu
  rw [hu]
  set Y := X.setAcc (unbindParcel n X.acc) with hY
  have hwY : Y.OpenWith n i de { record := r, dirty := dd } := hw.congr ⟨rfl, fun _ => rfl, rfl⟩
  have hK : KeepsPlace (fun d => (id d).copyFrom { r with roster := clearBindings r.roster }) := keepsPlace_id.copy _
  have hok := withOpen_othersKept (b := true) (r := { r with roster := clearBindings r.roster }) hwY hK hr
  have hop := withOpen_open (b := true) (r := { r with roster := clearBindings r.roster }) hwY hK hr
  refine validate_congr ?_ ?_ ?_ ?_ ?_ ?_ ?_
  · rw [h1]; cases i <;> rfl
  · rw [h2]; cases i <;> rfl
  · rw [h3]; cases i <;> simp [State.withOpen, State.dirUpdate, State.setContext, Engine.setContext, State.touch, Y]
  · intro m hm
    have := (hok m hm).1
    simp only [State.inBoundState]
    rw [this, show u.dirFind m = Y.dirFind m from congrFun (dirFind_congr (by rw [h3]; rfl)) m]
  · simp only [State.isHeld]
    rw [hop.1, show u.dirFind n = Y.dirFind n from congrFun (dirFind_congr (by rw [h3]; rfl)) n, hwY.1]
    rfl
  · rw [h6]; rfl
  · rw [h7]; rfl

/-! ## Openings beside the buffers -/

theorem writeBack_setBuffer (s : State) (b a) (i) : (s.setBuffer b a).writeBack i = (s.writeBack i).setBuffer b a := by
  have hp : ∀ r, (s.setBuffer b a).storePut r = (s.storePut r).setBuffer b a := by
    intro r
    unfold State.storePut State.storePlace
    rw [(setBuffer_sameRecords s b a).store]
    cases (s.store.findIdx? (storedUnder r.number)).or (s.store.findIdx? Option.isNone) with
    | none => rfl
    | some k => match b with
      | 0 => rfl
      | 1 => rfl
  have hc := (setBuffer_sameRecords s b a).context i
  unfold State.writeBack
  rw [hc]
  cases s.eng.context i with
  | none => rfl
  | some c =>
    simp only
    split
    · rw [hp]
      match b with
      | 0 => cases i <;> rfl
      | 1 => cases i <;> rfl
    · rfl

theorem closeContext_setBuffer (s : State) (b a) (i) : (s.setBuffer b a).closeContext i = (s.closeContext i).setBuffer b a := by
  unfold State.closeContext
  rw [(setBuffer_sameRecords s b a).context i, writeBack_setBuffer]
  cases s.eng.context i with
  | none => rfl
  | some c => match b with
    | 0 => cases i <;> rfl
    | 1 => cases i <;> rfl

theorem openParcel_setBuffer (s : State) (b a) (n : ParcelNo) : (s.setBuffer b a).openParcel n = (s.openParcel n).setBuffer b a := by
  have hr := setBuffer_sameRecords s b a
  unfold State.openParcel
  rw [hr.dirFind]
  cases s.dirFind n with
  | none => rfl
  | some de =>
    simp only
    cases de.context with
    | some i => match b with
      | 0 => rfl
      | 1 => rfl
    | none =>
      simp only [hr.stored]
      cases s.stored n with
      | none => rfl
      | some p =>
        simp only
        have hv : (s.setBuffer b a).eng.victim = s.eng.victim := by match b with
          | 0 => rfl
          | 1 => rfl
        rw [hv, closeContext_setBuffer]
        match b with
        | 0 => cases s.eng.victim <;> rfl
        | 1 => cases s.eng.victim <;> rfl

/-! ## Judging a declaration -/

/-- The state in which the head of the queue is judged: the start of its service but for the buffers. -/
structure Judged (s : State) (rest : List IntakeEntry) (X u : State) : Prop where
  eng : EngOnly s rest X u
  same : SameRecords s X
  beside : ∀ n, Beside n { s with acc := (s.headTaken rest).acc } X
  heard : X.eng.heard = s.eng.heard
  roster : X.eng.rosterDir = s.eng.rosterDir
  buf0 : X.eng.buf0 = u.eng.buf0
  buf1 : X.eng.buf1 = u.eng.buf1
  recent : X.eng.lessRecent = s.eng.lessRecent

theorem judged_plain (hq : s.Quiet) : Judged s rest { s with acc := (s.headTaken rest).acc } (s.headTaken rest) :=
  ⟨engOnly_plain hq, headTaken_sameRecords s rest, fun _ => ⟨⟨rfl, fun _ => rfl, rfl⟩, rfl, rfl, fun _ h => .inl h⟩, rfl, rfl, rfl, rfl, rfl⟩

theorem judged_setBuffer (hq : s.Quiet) (b a) : Judged s rest (State.setBuffer { s with acc := (s.headTaken rest).acc } b a) ((s.headTaken rest).setBuffer b a) := by
  obtain ⟨x1, x2, x3, x4, x5, x6, x7, x8, x9, x10, x11, x12⟩ := setBuffer_rest { s with acc := (s.headTaken rest).acc } b a
  refine ⟨engOnly_setBuffer hq b a, (headTaken_sameRecords s rest).trans (setBuffer_sameRecords _ b a), fun n => setBuffer_beside _ n b a, x5, x6, ?_, ?_, ?_⟩
  · match b with
    | 0 => rfl
    | 1 => rfl
  · match b with
    | 0 => rfl
    | 1 => rfl
  · match b with
    | 0 => rfl
    | 1 => rfl

theorem openIfDeclared_openParcel {X : State} {n de} (h : X.dirFind n = some de) (hd : de.state = .declared) :
    openIfDeclared n X = X.openParcel n ∧ openIfDeclared n (X.openParcel n) = X.openParcel n ∧ ∃ de', (X.openParcel n).dirFind n = some de' ∧ de'.state = .declared := by
  have he := openParcel_entry X n
  rw [h] at he
  cases hx : (X.openParcel n).dirFind n with
  | none => rw [hx] at he; cases he
  | some de' =>
    rw [hx] at he
    have hs : de'.state = .declared := (show de'.state = de.state by simpa using congrArg (Option.map DirEntry.state) he).trans hd
    refine ⟨by simp [openIfDeclared, h, hd], ?_, de', rfl, hs⟩
    simp only [openIfDeclared, hx, hs, beq_self_eq_true, if_true]
    exact openParcel_openParcel X n

theorem failAssembly_opens {X : State} {n de source} (h : X.dirFind n = some de) (hd : de.state = .declared) :
    failAssembly source n (X.openParcel n) = failAssembly source n X := by
  obtain ⟨h1, h2, de', h3, h4⟩ := openIfDeclared_openParcel h hd
  simp only [failAssembly, h, h3, h1, h2, h4, hd]

theorem completeDeclaration_opens {X : State} {n de source p items} (h : X.dirFind n = some de) (hd : de.state = .declared) :
    completeDeclaration source n p items (X.openParcel n) = completeDeclaration source n p items X := by
  obtain ⟨h1, h2, de', h3, h4⟩ := openIfDeclared_openParcel h hd
  simp only [completeDeclaration, h, h3, h1, h2, h4, hd]

/-- An acceptance makes its room first (R110). -/
theorem accept_closed (n d items) (T : State) : accept n d items T = accept n d items (T.closeContext T.missVictim) := by
  have hx := closeContext_context T T.missVictim
  have hv : (T.closeContext T.missVictim).eng.victim = T.missVictim := by rw [victim_eq, closeContext_missVictim]
  have hac : (T.closeContext T.missVictim).acc = T.acc := by
    rw [eq_of_apart (closeContext_apart T T.missVictim)]
  have hcc : (T.closeContext T.missVictim).closeContext T.missVictim = T.closeContext T.missVictim := by
    have : (T.closeContext T.missVictim).eng.context T.missVictim = none := by rw [hx]; simp
    generalize T.closeContext T.missVictim = U at *
    simp [State.closeContext, this]
  rw [← victim_eq] at hv hac hcc ⊢
  unfold accept
  simp only [hv, hac, hcc]


/-- A held number that is no amendment makes a conflict, for any rule that judges it so. -/
theorem heldNumberConflicts_of (hc : s.HeadChosen e rest) (hq : s.Quiet) {X u : State} (hj : Judged s rest X u)
    (judge : State → State) (hap : applyEntry e { s with acc := (s.headTaken rest).acc } = judge X)
    (hop : applyEntry e (State.openParcel { s with acc := (s.headTaken rest).acc } e.parcel) = judge (X.openParcel e.parcel))
    (h1 : ∀ de, X.dirFind e.parcel = some de → de.state ≠ .declared → judge X = declareConflict e.parcel e.source de.state X)
    (h2 : ∀ de, X.dirFind e.parcel = some de → de.state = .declared → judge (X.openParcel e.parcel) = judge X)
    (h3 : ∀ (i : ContextId) de c (d : Declaration), X.OpenWith e.parcel i de c → de.state = .declared → c.record.state = .declared →
      c.record.decl = some d → d.declarer ≠ e.source → judge X = declareConflict e.parcel e.source .declared (X.touch i)) :
    HeldNumberConflicts s u e rest := by
  refine ⟨fun de hd hn => ?_, fun de hd hs => ?_, fun i r d hr hn => ?_⟩
  · exact intake_declareConflict hc hq hj.eng (hap.trans (h1 de ((hj.same.dirFind _).trans hd) hn))
  · exact actsAfterTurnaround_intake_of hc hq (by rw [hop, hap, h2 de ((hj.same.dirFind _).trans hd) hs])
  · obtain ⟨⟨de, c, o1, o2, o3, rfl, o5⟩, -, hrs, hrd, de', hd', hds⟩ := hr
    obtain rfl := Option.some.inj (hd'.symm.trans o1)
    have hw : X.OpenWith e.parcel i de' c := State.OpenWith.congr ⟨o1, o2, o3, o5⟩ hj.same
    exact intake_declareConflict hc hq (hj.eng.touch i) (hap.trans (h3 i de' c d hw hds hrs hrd hn))

/-- A failed assembly ends as R31 says. -/
theorem assemblyFails_of (hc : s.HeadChosen e rest) (hq : s.Quiet) (h0 : e.parcel ≠ 0#4) {X u : State} (hj : Judged s rest X u)
    (hap : applyEntry e { s with acc := (s.headTaken rest).acc } = failAssembly e.source e.parcel X)
    (hop : applyEntry e (State.openParcel { s with acc := (s.headTaken rest).acc } e.parcel) =
      failAssembly e.source e.parcel (X.openParcel e.parcel)) :
    AssemblyFails s u e rest := by
  refine ⟨fun hd => ?_, ?_, fun i r d hr hdec ha => ?_⟩
  · exact intake_refused hc hq hj.eng (hap.trans (failAssembly_none ((hj.same.dirFind _).trans hd)))
  · exact heldNumberConflicts_of hc hq hj (failAssembly e.source e.parcel) hap hop (fun de h1 h2 => failAssembly_other h1 h2)
      (fun de h1 h2 => failAssembly_opens h1 h2)
      (fun i de c d hw h1 h2 h3 h4 => by rw [failAssembly_declared hw h1 h2 h3, if_neg h4])
  · obtain ⟨⟨de, c, o1, o2, o3, rfl, o5⟩, hst, hrs, hrd, de', hd', hds⟩ := hr
    obtain rfl := Option.some.inj (hd'.symm.trans o1)
    have hw : X.OpenWith e.parcel i de' c := State.OpenWith.congr ⟨o1, o2, o3, o5⟩ hj.same
    rw [failAssembly_declared hw hds hrs hrd, if_pos hdec, hw.form] at hap
    obtain ⟨t, ht, ⟨b0, b1⟩, a1, a2, a3, a4, a5, a6, a7⟩ := intake_voided (b := c.dirty) (r := c.record) hc hq rfl h0 ⟨o1, o2, o3, o5⟩ hst hrs ha
      (hj.beside _) hj.eng.port hj.eng.line (by rw [hj.eng.acc]) keepsPlace_id _ rfl hap
    exact ⟨t, ht, b0.trans hj.buf0, b1.trans hj.buf1, a4, a1, a2, a3, a5, a6, a7⟩

theorem inBoundState_congr {X Y : State} (h : X.eng.directory = Y.eng.directory) (m) : X.inBoundState m = Y.inBoundState m := by
  simp only [State.inBoundState, State.dirFind, h]

/-- A complete declaration ends as R32, R38 and R40 say. -/
theorem declarationCompletes_of (hc : s.HeadChosen e rest) (hq : s.Quiet) (h0 : e.parcel ≠ 0#4) {X u : State} (hj : Judged s rest X u)
    {p items} (hap : applyEntry e { s with acc := (s.headTaken rest).acc } = completeDeclaration e.source e.parcel p items X)
    (hop : applyEntry e (State.openParcel { s with acc := (s.headTaken rest).acc } e.parcel) =
      completeDeclaration e.source e.parcel p items (X.openParcel e.parcel)) :
    DeclarationCompletes s u e rest p items := by
  have hdir := hj.same.directory
  have hacc : X.acc = (s.headTaken rest).acc := hj.eng.acc
  refine ⟨fun hd => ?_, ?_, fun i r d hr hdec ha => ?_⟩
  · have hdX : X.dirFind e.parcel = none := (hj.same.dirFind _).trans hd
    have hvX : validate e.source e.parcel p items X = validate e.source e.parcel p items s := by
      refine validate_congr hj.heard hj.roster (by rw [hdir]) (fun m _ => inBoundState_congr hdir m) ?_ (by rw [hacc]; rfl) (by rw [hacc]; rfl)
      simp only [State.isHeld, hdX, hd]
    refine ⟨fun hv hnone hstn hvic => ?_, fun reason hv => ?_⟩
    · rw [completeDeclaration_pass hdX (hvX.trans hv), accept_closed] at hap
      have hmv : X.missVictim = s.missVictim := by
        have h1 := hj.same.context
        have w0 := h1 .w0
        have w1 := h1 .w1
        simp only [Engine.context] at w0 w1
        simp only [State.missVictim, w0, w1, hj.recent]
      rw [hmv] at hap
      have hx := exec_intakeService hc hq
      rw [hap] at hx
      generalize hTd : X.closeContext s.missVictim = T at *
      have hTe : T = _ := hTd ▸ eq_of_apart (closeContext_apart X s.missVictim)
      have hctx : ∀ j, T.eng.context j = if j = s.missVictim then none else s.eng.context j := by
        intro j; rw [← hTd, closeContext_context, hj.same.context]
      have hsX : ∀ m, X.stored m = s.stored m := hj.same.stored
      have hstd : ∀ m, T.stored m = match s.eng.context s.missVictim with
          | some c => if c.dirty = true ∧ c.record.number = m then some (mkStored c.record) else s.stored m
          | none => s.stored m := by
        intro m
        rw [← hTd, closeContext_stored (s := X) (by rw [hj.same.context]; intro c h1 h2; rw [hsX]; exact hvic c h1 h2), hj.same.context, hsX]
        all_goals rfl
      have hdf : ∀ m, T.dirFind m = (s.dirFind m).map (fun e => { e with
          context := if (s.eng.context s.missVictim).map (fun c => c.record.number) = some m then none else e.context }) := by
        intro m; rw [← hTd, closeContext_dirFind, hj.same.context, hj.same.dirFind]
      have hmT : T.missVictim = s.missVictim := by
        rw [← hTd, ← hmv, closeContext_missVictim]
      have hnT : none ∈ T.store := by
        rw [← hTd]
        exact closeContext_none_mem (by rw [hj.same.context]; intro c h1 h2; rw [hsX]; exact hvic c h1 h2) (by rw [hj.same.store]; exact hnone)
      have hstT : T.stored e.parcel = none := by
        rw [hstd]
        cases hv0 : s.eng.context s.missVictim with
        | none => exact hstn
        | some c =>
          simp only
          rw [if_neg, hstn]
          rintro ⟨h1, h2⟩
          have := hvic c hv0 h1
          rw [h2, hstn] at this
          cases this
      have hrest : T.line = X.line ∧ T.acc = X.acc ∧ T.tmr = X.tmr ∧ T.port = X.port ∧ T.sup = X.sup ∧ T.counters = X.counters ∧
          T.eng.dueWrites = X.eng.dueWrites ∧ T.eng.rosterDir = X.eng.rosterDir ∧ T.eng.buf0 = X.eng.buf0 ∧ T.eng.buf1 = X.eng.buf1 := by
        rw [hTe]; exact ⟨rfl, rfl, rfl, rfl, rfl, rfl, rfl, rfl, rfl, rfl⟩
      obtain ⟨r1, r2, r3, r4, r5, r6, r7, r8, r9, r10⟩ := hrest
      obtain ⟨a1, a2, a3, a4, a5, a6, a7, a8, a9, ⟨de, d1, d2, d3, d4, d5⟩, a10, a11⟩ := accept_shows (T := T) (n := e.parcel) (d := declarationOf e.source p) (items := items)
        (by rw [r5, hj.eng.sup]; exact hq.1) (by rw [r3, hj.eng.tmr]; exact hq.2.1) (by rw [r7]; exact hj.eng.due) h0
        (by have := hctx s.missVictim
            rw [if_pos rfl] at this
            revert this
            cases s.missVictim
            · exact .inl
            · exact .inr) (by rw [hdf, hd]; rfl) hstT hnT s.storeLog
      obtain ⟨b1, b2, b3, b4, b5⟩ := bindRoster_congr e.parcel 0 (items.map freshItem) (a := T.acc) (b := s.acc) (by rw [r2, hacc]; rfl) (by rw [r2, hacc]; rfl)
      refine ⟨_, hx, a5.trans (r9.trans hj.buf0), a6.trans (r10.trans hj.buf1), ⟨?_, ?_, ?_, ?_, ?_, ?_, ?_, ?_⟩, ⟨de, d1, d2, d3, d4, by rw [d5, hmT]⟩, ?_, ?_⟩
      · rw [a1, b1]
      · rw [a2, b1]
      · rw [a3, b1, r8, hj.roster]
      · rw [a4, b2]
      · rw [a4, b3]
      · rw [a4, b4, r2, hacc]; rfl
      · exact (posted_post s T _ (r4.trans hj.eng.port) (by rw [r6, hj.eng.counters]) (by rw [r3, hj.eng.tmr])).congr a7 (congrArg Counters.noticesLost a8)
      · rw [a9, r1, hj.eng.line]
      · have hne : otherContext s.missVictim ≠ s.missVictim := by cases s.missVictim <;> decide
        rw [hmT] at a10
        rw [a10, hctx, if_neg hne]
      · intro m hm
        exact ⟨(a11 m hm).1.trans (hdf m), (a11 m hm).2.trans (hstd m)⟩
    · exact intake_refused hc hq hj.eng (hap.trans (completeDeclaration_fail hdX (hvX.trans hv)))
  · exact heldNumberConflicts_of hc hq hj (completeDeclaration e.source e.parcel p items) hap hop (fun de h1 h2 => completeDeclaration_other h1 h2)
      (fun de h1 h2 => completeDeclaration_opens h1 h2)
      (fun i de c d hw h1 h2 h3 h4 => by rw [completeDeclaration_declared hw h1 h2 h3, if_neg h4])
  · obtain ⟨⟨de, c, o1, o2, o3, rfl, o5⟩, hst, hrs, hrd, de', hd', hds⟩ := hr
    obtain rfl := Option.some.inj (hd'.symm.trans o1)
    have hw : s.OpenWith e.parcel i de' c := ⟨o1, o2, o3, o5⟩
    have hwX : X.OpenWith e.parcel i de' c := hw.congr hj.same
    rw [completeDeclaration_declared hwX hds hrs hrd, if_pos hdec] at hap
    intro w
    have hvw : validate e.source e.parcel p items (unbind e.parcel (X.touch i)) = validate e.source e.parcel p items w :=
      validate_unbind hwX hj.heard.symm hj.roster.symm hdir.symm (by rw [hacc]; rfl) (by rw [hacc]; rfl)
    refine ⟨fun hv => ?_, fun reason hv => ?_⟩
    · generalize hB : bindNew e.parcel (declarationOf e.source p) items (unbindParcel e.parcel X.acc) = B
      rw [amend_form hwX (hvw.trans hv) hB] at hap
      set T : State := { s with acc := (s.headTaken rest).acc } with hT
      have hwT : T.OpenWith e.parcel i de' c := headTaken_open hw rest
      have hbn : B.1.number = e.parcel := by rw [← hB]; rfl
      have hsn : stateNotice B.1 .other = .parcelState e.parcel (some .declared) 1 none .other := by rw [← hB]; rfl
      have hbes : Beside e.parcel T ((((X.setAcc B.2).setRosterEntries e.parcel (rosterEntries e.parcel 0 B.1.roster)).post (stateNotice B.1 .other)).markWrite e.parcel) :=
        (((hj.beside _).trans (Beside.setAcc _)).trans (setRosterEntries_beside _ _ _ _)).trans ((Beside.post _).trans .markWrite)
      have hK : KeepsPlace (fun d => { ((d.copyFrom { c.record with roster := clearBindings c.record.roster }).copyFrom B.1) with halfDone := false }) := ((keepsPlace_id.copy _).copy _).half false
      have hx := exec_intakeService hc hq
      rw [← hT, hap] at hx
      obtain ⟨a1, a2, a3, a4, a5, a6, a7, a8⟩ := ended_written (r := B.1) (s := T) hq h0 hwT hst hbes (Beside.mem_markWrite _ _) hK hbn s.storeLog
      obtain ⟨b1, b2, b3⟩ := ended_written_eng (r := B.1) (T := T) hq h0 hwT hbes (Beside.mem_markWrite _ _) hK hbn s.storeLog
      have heng : ((((X.setAcc B.2).setRosterEntries e.parcel (rosterEntries e.parcel 0 B.1.roster)).post (stateNotice B.1 .other)).markWrite e.parcel).eng = { ((X.setAcc B.2).setRosterEntries e.parcel (rosterEntries e.parcel 0 B.1.roster)).eng with dueWrites := e.parcel :: ((X.setAcc B.2).setRosterEntries e.parcel (rosterEntries e.parcel 0 B.1.roster)).eng.dueWrites } := by
        simp [State.markWrite]
      obtain ⟨c1, c2, c3, c4, c5⟩ := bindRoster_congr e.parcel 0 (items.map freshItem) (a := unbindParcel e.parcel X.acc) (b := w.acc) (by rw [hacc]; rfl) (by rw [hacc]; rfl)
      have hB1 : B.1 = acceptedRecord e.parcel (declarationOf e.source p) (bindRoster e.parcel 0 (items.map freshItem) w.acc).1 := by
        rw [← hB, ← c1]; rfl
      have hB2 : B.2 = (bindRoster e.parcel 0 (items.map freshItem) (unbindParcel e.parcel X.acc)).2 := by rw [← hB]; rfl
      have hac2 : ((((X.setAcc B.2).setRosterEntries e.parcel (rosterEntries e.parcel 0 B.1.roster)).post (stateNotice B.1 .other)).markWrite e.parcel).acc = B.2 := post_acc _ _
      refine ⟨_, hx, (b2.trans (by rw [heng]; rfl)).trans hj.buf0, (b3.trans (by rw [heng]; rfl)).trans hj.buf1, ⟨?_, ?_, ?_, ?_, ?_, ?_, ?_, ?_⟩, ((headTaken_sameRecords s rest).othersKept _).trans a4, _, a3, ?_, ?_, ?_, ?_⟩
      · rw [a1, hB1]
      · rw [a2, hB1]
      · rw [b1, heng]
        show X.eng.rosterDir.filter _ ++ rosterEntries e.parcel 0 B.1.roster = _
        rw [hj.roster, hB1]; rfl
      · rw [a6, hac2, hB2, c2]
      · rw [a6, hac2, hB2, c3]
      · rw [a6, hac2, hB2, c4, hacc]; rfl
      · rw [hsn] at a7 a8
        refine (posted_post s ((X.setAcc B.2).setRosterEntries e.parcel (rosterEntries e.parcel 0 B.1.roster)) _ hj.eng.port (by exact congrArg _ hj.eng.counters) (by exact congrArg _ hj.eng.tmr)).congr ?_ ?_
        · rw [hsn, a7]; rfl
        · rw [hsn, a8]; rfl
      · rw [a5]; exact (post_line _ _).trans hj.eng.line
      · rw [hB1]; rfl
      · rw [hB1]; rfl
      · rfl
      · exact o2
    · obtain ⟨r, dd⟩ := c
      have hu := unbind_form (b := dd) hwX keepsPlace_id (show r.number = e.parcel from o5)
      rw [← hwX.form] at hu
      rw [amend_fail (hvw.trans hv), hu] at hap
      obtain ⟨t, ht, ⟨b0, b1⟩, a1, a2, a3, a4, a5, a6, a7⟩ := intake_voided (b := true) (r := { r with roster := clearBindings r.roster }) (T1 := X.setAcc (unbindParcel e.parcel X.acc)) hc hq rfl h0 hw hst hrs ha ((hj.beside _).trans (Beside.setAcc _)) hj.eng.port hj.eng.line
        (by show unbindParcel _ (unbindParcel _ _) = _; rw [unbindParcel_idem, hacc]) (keepsPlace_id.copy _) reason (by simp [clearBindings]) hap
      exact ⟨t, ht, b0.trans hj.buf0, b1.trans hj.buf1, a4, a1, a2, a3, a5, a6, a7⟩

end Sys2Proof.Machine
end

