-- ==== Sys2Proof/Laws/Frames.lean ====
section
/-! SUPPORT. What the payload of a control frame says: its words and bytes, and the parser of each kind answers exactly
for the frames of good form. -/

namespace Sys2Proof.Machine

theorem word32_bytes (w : Word32) :
    word32 (w.extractLsb' 24 8) (w.extractLsb' 16 8) (w.extractLsb' 8 8) (w.extractLsb' 0 8) = w := by
  simp only [word32]
  ext k hk
  simp only [BitVec.getElem_append, BitVec.getElem_extractLsb']
  repeat' split
  all_goals
    rw [← BitVec.getLsbD_eq_getElem (by omega)]
    congr 1
    omega

theorem word16_bytes (w : BitVec 16) : word16 (w.extractLsb' 8 8) (w.extractLsb' 0 8) = w := by
  simp only [word16]
  ext k hk
  simp only [BitVec.getElem_append, BitVec.getElem_extractLsb']
  repeat' split
  all_goals
    rw [← BitVec.getLsbD_eq_getElem (by omega)]
    congr 1
    omega

theorem bytes_word32 (a b c d : Byte) : be32 (word32 a b c d) = [a, b, c, d] := by
  have key : ∀ k (hk : k < 32) , (a ++ b ++ c ++ d).getLsbD k =
      if k < 8 then d.getLsbD k else if k < 16 then c.getLsbD (k - 8) else if k < 24 then b.getLsbD (k - 16)
        else a.getLsbD (k - 24) := by
    intro k hk
    simp only [BitVec.getLsbD_append]
    repeat' split
    all_goals first
      | omega
      | rfl
  simp only [be32, word32, List.cons.injEq, and_true]
  refine ⟨?_, ?_, ?_, ?_⟩
  all_goals
    ext k hk
    rw [BitVec.getElem_extractLsb', key _ (by omega)]
    repeat' split
    all_goals first
      | omega
      | (rw [← BitVec.getLsbD_eq_getElem]; congr 1; omega)

theorem bytes_word16 (a b : Byte) : be16 (word16 a b) = [a, b] := by
  simp only [be16, word16, List.cons.injEq, and_true]
  constructor
  all_goals
    ext k hk
    rw [BitVec.getElem_extractLsb', BitVec.getLsbD_append]
    repeat' split
    all_goals first
      | omega
      | (rw [← BitVec.getLsbD_eq_getElem]; congr 1; omega)

theorem verdictOfCode_isSome {c : Byte} : (verdictOfCode c).isSome = true ↔ ∃ v : Verdict, c = v.code := by
  constructor
  · intro h
    obtain ⟨v, hv⟩ := Option.isSome_iff_exists.1 h
    have := List.find?_some hv
    exact ⟨v, by simp at this; exact this.symm⟩
  · rintro ⟨v, rfl⟩
    cases v <;> decide

theorem round_byte6 {k : Nat} {item : ItemNo} (h : k ≤ 4) : BitVec.ofNat 8 k = byte6 item ↔ item = BitVec.ofNat 6 k := by
  constructor
  · intro g
    have := congrArg (fun b : Byte => b.setWidth 6) g
    apply BitVec.eq_of_toNat_eq
    have := congrArg BitVec.toNat g
    simp [byte6] at this ⊢
    omega
  · rintro rfl
    apply BitVec.eq_of_toNat_eq
    simp [byte6]
    omega

/-- A VOTE entry is parsed exactly when it has good form (R88). -/
theorem parseVote_iff {e : IntakeEntry} {v : VoteData} (h : e.entryIndex = 1) :
    parseVote e = some v ↔ IsVoteEntry e v := by
  constructor
  · intro g
    unfold parseVote at g
    split at g
    · rename_i rd st p0 p1 p2 p3 s0 s1 s2 s3 r0 r1 r2 r3 c0 c1 c2 c3 f0 f1 heq
      split at g
      · rename_i hb
        simp only [Bool.and_eq_true, decide_eq_true_eq, beq_iff_eq, Config.lastRound, verdictOfCode_isSome] at hb
        obtain ⟨⟨⟨h1, h2⟩, h3⟩, w, h4⟩ := hb
        obtain rfl := (Option.some.inj g).symm
        have hrd : BitVec.ofNat 8 rd.toNat = rd := by simp
        refine ⟨h, h1, h2, (round_byte6 h2).1 (hrd.trans h3), w, word16 f0 f1, rfl, ?_⟩
        simp only [heq, bytes_word32, bytes_word16, hrd, h4]
        rfl
      · simp at g
    · simp at g
  · rintro ⟨-, h1, h2, h3, w, f, hf, hp⟩
    have hr : (BitVec.ofNat 8 v.round).toNat = v.round := by simp; omega
    have hc : (verdictOfCode w.code).isSome = true := verdictOfCode_isSome.2 ⟨w, rfl⟩
    simp only [parseVote, hp, be32, be16, List.cons_append, List.nil_append, word32_bytes, word16_bytes, hc,
      (round_byte6 h2).2 h3, Config.lastRound]
    rw [← (round_byte6 h2).2 h3, hr]
    simp [h1, h2, usedFlags, ← hf]

/-- A PHASE entry is parsed exactly when it has good form (R9). -/
theorem parsePhase_none {e : IntakeEntry} (h : e.entryIndex = 0) (hn : ¬ ∃ p round reason, IsPhaseEntry e p round reason) :
    parsePhase e = none := by
  cases hp : parsePhase e with
  | none => rfl
  | some y =>
    exfalso
    apply hn
    obtain ⟨p, round, reason⟩ := y
    refine ⟨p, round, reason, h, ?_⟩
    unfold parsePhase at hp
    split at hp
    · rename_i code rd rs heq
      split at hp
      · rename_i p' hp'
        split at hp
        · rename_i hcode
          simp only [Option.some.injEq, Prod.mk.injEq, beq_iff_eq] at hp hcode
          obtain ⟨rfl, rfl, rfl⟩ := hp
          have hc : code = p'.code := by
            have := List.find?_some hp'
            simp at this
            exact this.symm
          exact ⟨by rw [heq, hc], by rw [← hcode, hc]⟩
        · simp at hp
      · simp at hp
    · simp at hp

theorem bit01_boolByte (b : Bool) : bit01 (if b then 1#8 else 0#8) = some b := by cases b <;> decide

/-- A FIGURE payload of good form is parsed as what it says (R74). -/
theorem parseFigure_of {e : IntakeEntry} {p q w : Word32} {raised complete : Bool}
    (h : e.payload = be32 p ++ be32 q ++ be32 w ++ [if raised then 1#8 else 0#8, if complete then 1#8 else 0#8]) :
    parseFigure e = some { p := p, s := q, delta := w, raised := raised, complete := complete, arrival := e.arrival } := by
  simp only [parseFigure, h, be32, List.cons_append, List.nil_append, bit01_boolByte, word32_bytes]

/-- An ALARM DIVERGENCE payload of good form is parsed as what it says (R75). -/
theorem parseAlarm_divergence {e : IntakeEntry} {w : Word32} {raised : Bool} (hi : e.item = 0#6)
    (h : e.payload = [0#8, if raised then 1#8 else 0#8] ++ be32 w) : parseAlarm e = some (.divergence raised w) := by
  simp only [parseAlarm, h, be32, List.cons_append, List.nil_append, hi, bit01_boolByte, word32_bytes]
  rfl

/-- An ALARM DECLARE_REFUSED payload of good form is parsed as what it says (R42). -/
theorem parseAlarm_refusal {e : IntakeEntry} {w : Word32} {reason : Byte} (hi : e.item = 1#6)
    (h : e.payload = [1#8, reason] ++ be32 w) : parseAlarm e = some (.refusal reason) := by
  simp only [parseAlarm, h, be32, List.cons_append, List.nil_append, hi]
  rfl

end Sys2Proof.Machine
end

