-- ==== Sys2Proof/Laws/Layout.lean ====
section
/-! SUPPORT. The bytes that the port sends are those of the layouts of file 11, 11.5.2 and 11.5.3. -/

namespace Sys2Proof.Machine

theorem flagByte_eq_bits8 (l : List Bool) : flagByte l = bits8 l := by
  unfold flagByte bits8
  apply BitVec.eq_of_getLsbD_eq
  intro i hi
  simp only [BitVec.getLsbD_setWidth, hi, decide_true, Bool.true_and, BitVec.getLsbD_ofBoolListLE]
  induction l generalizing i with
  | nil => simp
  | cons a l ih =>
    simp only [List.foldr_cons, BitVec.getLsbD_or, BitVec.getLsbD_shiftLeft, hi, decide_true, Bool.true_and]
    cases i with
    | zero => cases a <;> simp [boolByte]
    | succ k =>
      have h := ih k (by omega)
      have ha : (boolByte a).getLsbD (k + 1) = false := by cases a <;> simp [boolByte]
      simp [h, ha]

theorem boolByte_eq_bits8 (b : Bool) : boolByte b = bits8 [b] := by cases b <;> rfl

theorem orZeros_eq_partOr {α : Type} (n : Nat) (f : α → List Byte) (x : Option α) : orZeros n f x = partOr n x f := by
  cases x <;> rfl

theorem record_layout (r : Reading) : r.bytes12 = recordLayout r := by cases r <;> rfl

theorem extract_one (x : BitVec 17) : x.extractLsb' 16 1 = BitVec.ofBool (x.getLsbD 16) := by
  apply BitVec.eq_of_getLsbD_eq
  intro i hi
  obtain rfl : i = 0 := by omega
  simp

theorem extract_eq (w n : Nat) (x : BitVec w) (k : Nat) : x.extractLsb' k n = (x >>> k).setWidth n := by
  apply BitVec.eq_of_getLsbD_eq
  intro i hi
  simp [hi]

theorem part0_layout (d : Declaration) (k : Nat) : d.bytes k = part0Layout d k := by
  unfold Declaration.bytes part0Layout
  simp only [extract_one, extract_eq 17 16, extract_eq 24 8, BitVec.ushiftRight_zero, word16OfNat, word32OfNat, byteOf,
    List.append_assoc, List.singleton_append]

theorem peer_layout (x : PeerEntry) : x.bytes = peerLayout x := by
  rcases x with ⟨n, f, a⟩
  rcases f with _ | f
  · unfold PeerEntry.bytes peerLayout
    simp only [flagByte_eq_bits8, partOr, byte6]
    rfl
  · unfold PeerEntry.bytes peerLayout
    simp only [flagByte_eq_bits8, partOr, byte6]
    rfl

theorem lastPhase_layout :
    LastPhase.bytes = fun l => [l.phase.code, l.source.setWidth 8, l.reason] ++ be32 l.arrival := rfl

theorem running_layout :
    RunningFigure.bytes = fun f => be32 f.p ++ be32 f.s ++ be32 f.delta ++ be32 f.second ++ [bits8 [f.complete]] :=
  funext fun f => by rw [RunningFigure.bytes, boolByte_eq_bits8]

theorem ownMasses_layout (rho : Nat) : ownMasses rho = fun o => massLayout rho o.p o.s o.delta := rfl

theorem runningMasses_layout (rho : Nat) : runningMasses rho = fun f => massLayout rho f.p f.s f.delta := rfl

theorem ownFigure_layout : OwnFigure.bytes = fun o => be32 o.p ++ be32 o.s ++ be32 o.delta ++ be32 o.ratio ++
    [o.verdict.code] ++ be16 o.flags ++ be32 o.check := rfl

/-- READ_PARCEL. -/
theorem parcel_layout (r : ParcelRecord) : parcelBytes r = parcelLayout r := by
  have hp : r.peers.flatMap PeerEntry.bytes = r.peers.flatMap peerLayout := by
    congr 1; exact funext peer_layout
  unfold parcelBytes parcelLayout
  cases hd : r.decl with
  | none => rfl
  | some d =>
    simp only [presenceByte, flagByte_eq_bits8, hd, Option.isSome_some, part0_layout, orZeros_eq_partOr, padTo, hp,
      byte4, byte6, byteOf, zeros, lastPhase_layout, running_layout, ownMasses_layout, runningMasses_layout,
      ownFigure_layout]
    simp only [partOr, Option.map_some, Option.getD_some, List.append_assoc]

theorem latest_layout : LatestReading.bytes =
    fun l => recordLayout (.tank l.reading) ++ be32 l.arrival ++ partOr 4 l.std be32 :=
  funext fun l => by rw [LatestReading.bytes, orZeros_eq_partOr]; rfl

theorem value_layout : Value.bytes = fun v => recordLayout v.reading ++ be32 v.std :=
  funext fun v => by rw [Value.bytes, record_layout]

/-- READ_ROSTER_ITEM. -/
theorem rosterItem_layout (n : ParcelNo) (k : Nat) (x : RosterItem) :
    rosterItemBytes n k x = rosterItemLayout n k x := by
  unfold rosterItemBytes rosterItemLayout RosterItem.presence
  simp only [flagByte_eq_bits8, orZeros_eq_partOr, byte4, byte6, byteOf, latest_layout, value_layout]
  rcases x with ⟨_, _, _, _, _ | _, _ | _, _, _⟩ <;> rfl

theorem votes_layout (r : ParcelRecord) : votesBytes r = votesLayout r := by
  have h : VoteEntry.bytes = fun x : VoteEntry => [x.node.setWidth 8, x.status.code] ++
      partOr 19 x.vote (fun v => BitVec.ofNat 8 v.round :: be32 v.check ++ be32 v.p ++ be32 v.s ++ be32 v.ratio ++
        be16 v.flags) := by
    funext x
    simp only [VoteEntry.bytes, orZeros_eq_partOr, byte6]
    rfl
  simp only [votesBytes, votesLayout, h, byte4, byteOf]

theorem acceptance_layout (a : AcceptanceUnit) : acceptanceBytes a = acceptanceLayout a := by
  unfold acceptanceBytes acceptanceLayout
  congr 1
  funext x
  cases x with
  | none => rfl
  | some e =>
    simp only [acceptanceRecord, flagByte_eq_bits8, orZeros_eq_partOr, byte4, byte6, byteOf, partOr, Option.map_some,
      Option.getD_some, GaugeSlot.full]
    congr 1
    cases (a.slot e.slot).waiting with
    | none => rfl
    | some w =>
      simp only [Option.map_some, Option.getD_some]
      rcases hw : w.payload with _ | ⟨p, _ | ⟨q, l⟩⟩ <;> simp [WaitingReading.seq, hw]

theorem padTo_short {l : List Byte} (h : l.length ≤ 7) : padTo 7 l = l ++ List.replicate (7 - l.length) 0#8 := by
  unfold padTo zeros
  rw [List.take_append, List.take_of_length_le h, List.take_replicate]
  congr 2
  omega

/-- A notice record. -/
theorem notice_layout (x : Notice) : x.bytes = noticeLayout x := by
  rcases x with ⟨t, b⟩
  have h : b.encode.2.length ≤ 7 := by
    cases b with
    | parcelState n st round void cause => cases cause <;> simp [NoticeBody.encode, NoticeCause.bytes]
    | _ => simp [NoticeBody.encode, be32]
  rw [Notice.bytes, padTo_short h]
  cases b with
  | parcelState n st round void cause => cases st <;> cases cause <;> rfl
  | peerAlarm n source raised value =>
    simp only [NoticeBody.encode, noticeLayout, boolByte_eq_bits8, byte4, byte6, List.append_assoc, List.cons_append]
  | declareRefused n source reason admitted =>
    simp only [NoticeBody.encode, noticeLayout, boolByte_eq_bits8, byte4, byte6, List.append_assoc, List.cons_append]
  | _ => rfl

theorem noticeLayout_length (x : Notice) : (noticeLayout x).length = 12 := by
  rcases x with ⟨t, b⟩
  cases b <;> rfl

theorem codesOfTheManual : CodesOfTheManual := by unfold CodesOfTheManual; decide

/-! ## Their lengths -/

theorem partOr_length {α : Type} {n : Nat} {x : Option α} {f : α → List Byte} (h : ∀ a, (f a).length = n) :
    (partOr n x f).length = n := by
  cases x with
  | none => exact List.length_replicate
  | some a => exact h a

theorem flatMap_length {α : Type} {n : Nat} {f : α → List Byte} (h : ∀ a, (f a).length = n) (l : List α) :
    (l.flatMap f).length = n * l.length := by
  induction l with
  | nil => rfl
  | cons a l ih => rw [List.flatMap_cons, List.length_append, h, ih, List.length_cons, Nat.mul_succ, Nat.add_comm]

theorem parcelLayout_length (r : ParcelRecord) : (parcelLayout r).length = 183 := by
  have h : ∀ d, (part0Layout d r.roster.length).length = 20 := fun d => rfl
  unfold parcelLayout
  rw [List.length_append, partOr_length]
  · rfl
  · intro d
    simp only [List.length_append, h, List.length_take, List.length_replicate, List.length_cons, List.length_nil]
    rw [partOr_length, partOr_length, partOr_length, partOr_length, partOr_length, partOr_length, partOr_length,
      partOr_length]
    · omega
    all_goals exact fun _ => rfl

theorem recordLayout_length (r : Reading) : (recordLayout r).length = 12 := by cases r <;> rfl

theorem rosterItemLayout_length (n : ParcelNo) (k : Nat) (x : RosterItem) : (rosterItemLayout n k x).length = 60 := by
  unfold rosterItemLayout
  simp only [List.length_append]
  rw [partOr_length, partOr_length, partOr_length, partOr_length]
  · rfl
  · intro v; simp [recordLayout_length, be32]
  · intro o; simp [recordLayout_length, be32]
  · intro l
    simp only [List.length_append, recordLayout_length]
    rw [partOr_length]
    · rfl
    · exact fun _ => rfl
  · exact fun _ => rfl

theorem votesLayout_length (r : ParcelRecord) : (votesLayout r).length = 3 + 21 * r.votes.length := by
  unfold votesLayout
  rw [List.length_append, flatMap_length (n := 21)]
  · rfl
  · intro x
    rw [List.length_append, partOr_length]
    · rfl
    · exact fun _ => rfl

theorem acceptanceLayout_length (a : AcceptanceUnit) : (acceptanceLayout a).length = 11 * a.entries.length := by
  unfold acceptanceLayout
  refine flatMap_length (fun x => partOr_length (fun e => ?_)) _
  rw [List.length_append, partOr_length]
  · rfl
  · exact fun _ => rfl

end Sys2Proof.Machine
end

