-- ==== Sys2Proof/Laws/Line.lean ====
section
/-! SUPPORT. What a judgement of the standing, a recovery, a receive fault and an arrival do (files 07 and 08). -/

namespace Sys2Proof.Machine

variable {s : State}

theorem judgedStanding_eq (l : LineInterface) : judgedStanding l = standingByCounts l.standing l.tfc l.rfc := by
  unfold judgedStanding standingByCounts overMuted
  cases l.standing <;> simp

/-! ## Arrivals -/

theorem appendIntake_rest (e : IntakeEntry) (s : State) :
    (appendIntake e s).line = s.line ∧ (appendIntake e s).eng = s.eng ∧ (appendIntake e s).store = s.store ∧
      (appendIntake e s).tmr = s.tmr ∧ (appendIntake e s).sup = s.sup ∧ (appendIntake e s).pending = s.pending := by
  simp only [appendIntake]
  repeat' split
  all_goals simp [State.setAcc]

theorem fillSlot_rest (n : Nat) (p : List Byte) (s : State) :
    (fillSlot n p s).line = s.line ∧ (fillSlot n p s).eng = s.eng ∧ (fillSlot n p s).store = s.store ∧
      (fillSlot n p s).tmr = s.tmr ∧ (fillSlot n p s).port = s.port ∧ (fillSlot n p s).sup = s.sup ∧
      (fillSlot n p s).pending = s.pending := by
  simp only [fillSlot]
  split <;> simp [State.setAcc]

/-- An arrival changes the Acceptance Unit, the notices and the counters alone (R124). -/
theorem arrive_rest (own : Bool) (k : FrameKey) (p : List Byte) (s : State) :
    (arrive own k p s).line = s.line ∧ (arrive own k p s).eng = s.eng ∧ (arrive own k p s).store = s.store ∧
      (arrive own k p s).tmr = s.tmr ∧ (arrive own k p s).sup = s.sup ∧ (arrive own k p s).pending = s.pending := by
  simp only [arrive]
  repeat' split
  all_goals simp [appendIntake_rest, fillSlot_rest]

/-! ## The standing -/

theorem judgeStanding_rest (s : State) :
    (judgeStanding s).acc = s.acc ∧ (judgeStanding s).eng = s.eng ∧ (judgeStanding s).store = s.store ∧
      (judgeStanding s).tmr = s.tmr ∧ (judgeStanding s).sup = s.sup ∧ (judgeStanding s).pending = s.pending := by
  simp only [judgeStanding]
  split <;> simp [postStanding, State.setLine]

/-- The line after a judgement: the standing that the counts call for, and a fresh count on entry into WITHDRAWN. -/
theorem judgeStanding_line (s : State) :
    (judgeStanding s).line = { s.line with
      standing := standingByCounts s.line.standing s.line.tfc s.line.rfc
      goodHeard :=
        if standingByCounts s.line.standing s.line.tfc s.line.rfc ≠ s.line.standing ∧
          standingByCounts s.line.standing s.line.tfc s.line.rfc = .withdrawn then some 0 else s.line.goodHeard } := by
  simp only [judgeStanding, judgedStanding_eq]
  split
  · rename_i h
    have h : standingByCounts s.line.standing s.line.tfc s.line.rfc = s.line.standing := by simpa using h
    simp [h]
  · rename_i h
    have h : standingByCounts s.line.standing s.line.tfc s.line.rfc ≠ s.line.standing := by simpa using h
    simp [postStanding, State.setLine, h]

theorem recoverStep_rest (s : State) :
    (recoverStep s).acc = s.acc ∧ (recoverStep s).eng = s.eng ∧ (recoverStep s).store = s.store ∧
      (recoverStep s).tmr = s.tmr ∧ (recoverStep s).sup = s.sup ∧ (recoverStep s).pending = s.pending ∧
      (recoverStep s).line.outbound = s.line.outbound ∧ (recoverStep s).line.driving = s.line.driving ∧
      (recoverStep s).line.listening = s.line.listening ∧ (recoverStep s).line.markDriven = s.line.markDriven := by
  simp only [recoverStep]
  split
  · split <;> simp [postStanding, State.setLine]
  · simp

/-! ## Notices of the standing (R144) -/

/-- A notice joins at the end of the queue, or is lost. -/
theorem post_prefix (s : State) (b : NoticeBody) : s.port.notices <+: (s.post b).port.notices := by
  simp only [State.post]
  split
  · exact List.prefix_append _ _
  · exact List.prefix_rfl

/-- The notices of an arrival follow those that wait. -/
theorem arrive_prefix (own : Bool) (k : FrameKey) (p : List Byte) (s : State) :
    s.port.notices <+: (arrive own k p s).port.notices := by
  have hf : ∀ n q (u : State), u.port.notices <+: (fillSlot n q u).port.notices := by
    intro n q u; rw [(fillSlot_rest n q u).2.2.2.2.1]
  have hp : ∀ (u : State) b, u.port = s.port → s.port.notices <+: (u.post b).port.notices := by
    intro u b h; rw [← h]; exact post_prefix u b
  simp only [arrive, appendIntake]
  repeat' split
  all_goals first
    | exact List.prefix_rfl
    | exact hf _ _ _
    | exact hp _ _ rfl

theorem postStanding_posts (heard : Station) (l : LineInterface) (hn : s.port.notices.length < 16) :
    (postStanding heard (s.setLine l)).port.notices = s.port.notices ++
      [{ second := s.tmr.seconds, body := .standing l.standing l.tfc l.rfc heard }] :=
  (post_room (s.setLine l) _ hn).1

theorem postStanding_line (heard : Station) (s : State) : (postStanding heard s).line = s.line := post_line s _

/-- A judgement that changes the standing posts STANDING with the line as it then stands. -/
theorem judgeStanding_posts (h : (judgeStanding s).line.standing ≠ s.line.standing) (hn : s.port.notices.length < 16) :
    (judgeStanding s).port.notices = s.port.notices ++
      [{ second := s.tmr.seconds
         body := .standing (judgeStanding s).line.standing (judgeStanding s).line.tfc (judgeStanding s).line.rfc 0#6 }] := by
  have hl := judgeStanding_line s
  rw [hl] at h ⊢
  have h : judgedStanding s.line ≠ s.line.standing := by rw [judgedStanding_eq]; exact h
  have hj : (judgedStanding s.line == s.line.standing) = false := by simpa using h
  simp only [judgeStanding, hj, Bool.false_eq_true, if_false]
  rw [postStanding_posts _ _ hn]
  simp [judgedStanding_eq]

/-- A notice posted before an arrival stays in front of those of the arrival. -/
theorem arrive_posted {u : State} {x : Notice} {own k p} (h : u.port.notices = s.port.notices ++ [x]) :
    ∃ l, (arrive own k p u).port.notices = s.port.notices ++ x :: l := by
  obtain ⟨l, hl⟩ := arrive_prefix own k p u
  exact ⟨l, by rw [← hl, h, List.append_assoc]; rfl⟩

/-- A drop posts behind the notices that wait and leaves the standing and its counts. -/
theorem dropExhausted_rest (s : State) :
    s.port.notices <+: (dropExhausted s).port.notices ∧ (dropExhausted s).line.standing = s.line.standing ∧
      (dropExhausted s).line.tfc = s.line.tfc ∧ (dropExhausted s).line.rfc = s.line.rfc ∧
      (dropExhausted s).line.goodHeard = s.line.goodHeard := by
  unfold dropExhausted
  split
  · exact ⟨List.prefix_rfl, rfl, rfl, rfl, rfl⟩
  · rename_i q _
    have := post_prefix ((s.setOutbound (removeKey q.key s.line.outbound)).bump .outboundDrops)
      (.frameDropped (keyClass q.key) (keyKind q.key) (keyParcel q.key) (keyItem q.key))
    refine ⟨this, ?_⟩
    rw [post_line]
    exact ⟨rfl, rfl, rfl, rfl⟩

/-- A judgement that leaves the standing changes nothing. -/
theorem judgeStanding_keeps (h : (judgeStanding s).line.standing = s.line.standing) : judgeStanding s = s := by
  rw [judgeStanding_line] at h
  have h : judgedStanding s.line = s.line.standing := by rw [judgedStanding_eq]; exact h
  simp [judgeStanding, h]

/-- A recovery posts STANDING with the line as it then stands. -/
theorem recoverStep_posts (h : (recoverStep s).line.standing ≠ s.line.standing) (hn : s.port.notices.length < 16) :
    (recoverStep s).port.notices = s.port.notices ++
      [{ second := s.tmr.seconds
         body := .standing (recoverStep s).line.standing (recoverStep s).line.tfc (recoverStep s).line.rfc 0#6 }] := by
  simp only [recoverStep] at h ⊢
  split at h
  · split at h
    · rename_i hk
      simp only [hk, if_true]
      rw [postStanding_line, postStanding_posts _ _ hn]
      rfl
    · exact absurd rfl h
  · exact absurd rfl h

/-! ## Reception -/

theorem goodLineFrame_of {f : LineFrame} (h : GoodFrame f) : goodLineFrame f = true := by
  simp only [goodLineFrame, frameCheckGood, Bool.and_eq_true, decide_eq_true_eq, beq_iff_eq, Bool.not_eq_true']
  exact ⟨⟨h.1, h.2.1⟩, h.2.2⟩

theorem goodLineFrame_false {f : LineFrame} (h : ¬ GoodFrame f) : goodLineFrame f = false := by
  by_contra hh
  apply h
  simp only [goodLineFrame, frameCheckGood, Bool.and_eq_true, decide_eq_true_eq, beq_iff_eq,
    Bool.not_eq_false, Bool.not_eq_true'] at hh
  exact ⟨hh.1.1, hh.1.2, hh.2⟩

theorem restartHeard_eq (l : LineInterface) :
    restartHeard l = { l with goodHeard := if l.standing = .withdrawn then some 0 else l.goodHeard } := by
  unfold restartHeard
  split <;> simp_all

theorem countHeard_eq (l : LineInterface) :
    countHeard l =
      { l with goodHeard := if l.standing = .withdrawn then some (l.goodHeard.getD 0 + 1) else l.goodHeard } := by
  unfold countHeard
  split <;> simp_all

/-- A receive fault changes the line as R140 and R145 say, and the other blocks not at all. -/
theorem receiveFault_rest (s : State) :
    (receiveFault s).acc = s.acc ∧ (receiveFault s).eng = s.eng ∧ (receiveFault s).store = s.store ∧
      (receiveFault s).tmr = s.tmr ∧ (receiveFault s).sup = s.sup ∧ (receiveFault s).pending = s.pending := by
  simp only [receiveFault, judgeStanding_rest, State.setLine, and_self]

theorem receiveFault_line (s : State) :
    (receiveFault s).line = (judgeStanding (s.setLine { s.line with
      rfc := min 255 (s.line.rfc + 1)
      markDriven := false
      goodHeard := if s.line.standing = .withdrawn then some 0 else s.line.goodHeard })).line := by
  simp only [receiveFault, restartHeard_eq, countUp, Config.faultCountMax]

end Sys2Proof.Machine
end

