-- ==== Sys2Proof/Laws/Local.lean ====
section
/-! SUPPORT. Work on one parcel: what it looks at and changes, and that it may be done before or after another parcel
is written back (R109 to R113). -/

namespace Sys2Proof.Machine

variable {s t X Y : State} {n m : ParcelNo} {i j : ContextId} {e : DirEntry} {c : OpenContext} {r q : ParcelRecord}
  {f g : State → State}

/-- An engine without what the frame of a service keeps. -/
def Engine.bare (x : Engine) : Engine := { x with dutyPending := false, starvation := none, dueWrites := [] }

/-- A state without the log of the store's changes, and without what the frame of a service keeps. -/
def State.bare (s : State) : State := { s with storeLog := [], eng := s.eng.bare }

theorem bare_bare (X : State) : X.bare.bare = X.bare := rfl

theorem bare_setEng {A B : State} {x y : Engine} (h : A.bare = B.bare) (hx : x.bare = y.bare) :
    (A.setEng x).bare = (B.setEng y).bare := by
  have h1 := congrArg (fun Z : State => Z.setEng x.bare) h
  refine Eq.trans h1 ?_
  show B.bare.setEng x.bare = B.bare.setEng y.bare
  rw [hx]

theorem bare_eng {A B : State} (h : A.bare = B.bare) : A.eng.bare = B.eng.bare := congrArg State.eng h

/-! ## The store -/

theorem storePut_setEng (X : State) (x : Engine) (r : ParcelRecord) :
    (X.setEng x).storePut r = (X.storePut r).setEng x := by
  simp only [State.storePut, State.storePlace, State.setEng_store]
  split <;> rfl

theorem storePut_bare (X : State) (r : ParcelRecord) : (X.bare.storePut r).bare = (X.storePut r).bare := by
  have : X.bare.storePlace r.number = X.storePlace r.number := rfl
  simp only [State.storePut, this]
  split <;> rfl

theorem findIdx?_set_false {α : Type} (p : α → Bool) {l : List α} {k : Nat} {x : α} (hk : k < l.length)
    (h : p l[k] = false) (hx : p x = false) : (l.set k x).findIdx? p = l.findIdx? p := by
  induction l generalizing k with
  | nil => rfl
  | cons a l ih =>
    cases k with
    | zero => simp only [List.getElem_cons_zero] at h; simp [List.findIdx?_cons, h, hx]
    | succ k =>
      simp only [List.getElem_cons_succ] at h
      simp only [List.set_cons_succ, List.findIdx?_cons, ih (by simpa using hk) h]

/-- The position of a number that is stored. -/
theorem storePlace_stored (h : (X.stored n).isSome = true) :
    ∃ k, ∃ hk : k < X.store.length, X.store.findIdx? (storedUnder n) = some k ∧ storedUnder n X.store[k] = true := by
  cases hf : X.store.findIdx? (storedUnder n) with
  | none =>
    rw [List.findIdx?_eq_none_iff] at hf
    have : X.store.find? (storedUnder n) = none := by
      rw [List.find?_eq_none]; intro x hx; simp [hf x hx]
    simp [State.stored, this] at h
  | some k =>
    obtain ⟨hk, h1, -⟩ := List.findIdx?_eq_some_iff_getElem.1 hf
    exact ⟨k, hk, rfl, h1⟩

theorem storedUnder_other {x : Option StoredParcel} (h : storedUnder n x = true) (hm : m ≠ n) :
    storedUnder m x = false := by
  cases x with
  | none => rfl
  | some p =>
    simp only [storedUnder, beq_iff_eq, beq_eq_false_iff_ne] at h ⊢
    rw [h]
    intro hx
    exact hm (byte4_injective hx).symm

theorem storedUnder_mkStored (hm : m ≠ r.number) : storedUnder m (some (mkStored r)) = false :=
  storedUnder_other (n := r.number) (by simp [storedUnder, mkStored]) hm

/-- Two records of different numbers that have positions may be put in either order. -/
theorem storePut_storePut (hr : (X.stored r.number).isSome = true) (hq : (X.stored q.number).isSome = true)
    (h : r.number ≠ q.number) : ((X.storePut r).storePut q).bare = ((X.storePut q).storePut r).bare := by
  obtain ⟨k, hk, fk, uk⟩ := storePlace_stored hr
  obtain ⟨l, hl, fl, ul⟩ := storePlace_stored hq
  have e1 : X.storePut r = X.storeSet k r := by simp [State.storePut, State.storePlace, fk]
  have e2 : X.storePut q = X.storeSet l q := by simp [State.storePut, State.storePlace, fl]
  have hkl : k ≠ l := by
    rintro rfl
    rw [storedUnder_other uk (Ne.symm h)] at ul; cases ul
  have f1 : (X.storeSet k r).store.findIdx? (storedUnder q.number) = some l := by
    rw [← fl]
    exact findIdx?_set_false _ hk (storedUnder_other uk (Ne.symm h)) (storedUnder_mkStored (Ne.symm h))
  have f2 : (X.storeSet l q).store.findIdx? (storedUnder r.number) = some k := by
    rw [← fk]
    exact findIdx?_set_false _ hl (storedUnder_other ul h) (storedUnder_mkStored h)
  have e3 : (X.storeSet k r).storePut q = (X.storeSet k r).storeSet l q := by
    simp [State.storePut, State.storePlace, f1]
  have e4 : (X.storeSet l q).storePut r = (X.storeSet l q).storeSet k r := by
    simp [State.storePut, State.storePlace, f2]
  rw [e1, e2, e3, e4]
  have : (X.store.set k (some (mkStored r))).set l (some (mkStored q)) =
      (X.store.set l (some (mkStored q))).set k (some (mkStored r)) := List.set_comm _ _ hkl
  simp only [State.storeSet, State.storeStep, State.bare, State.setStore, State.setStoreLog, this]

/-! ## A write-back -/

def Engine.cleaned (x : Engine) (j : ContextId) : Engine :=
  x.setContext j ((x.context j).map (fun c => { c with dirty := false }))

theorem setContext_self {x : Engine} {c : Option OpenContext} (h : x.context j = c) : x.setContext j c = x := by
  subst h
  cases j <;> rfl

/-- The store's part of a write-back. -/
def State.putBack (X : State) (j : ContextId) : State :=
  match X.eng.context j with
  | some c => if c.dirty then X.storePut c.record else X
  | none => X

theorem putBack_eng (X : State) (j) : (X.putBack j).eng = X.eng := by
  unfold State.putBack
  repeat' split
  · exact storePut_eng _ _
  all_goals rfl

theorem writeBack_form (X : State) (j) : X.writeBack j = (X.putBack j).setEng (X.eng.cleaned j) := by
  unfold State.writeBack State.putBack Engine.cleaned
  cases h : X.eng.context j with
  | none => rw [Option.map_none, setContext_self h]; rfl
  | some c =>
    by_cases hd : c.dirty = true
    · simp only [hd, if_true, Option.map_some, State.setContext, storePut_eng]
    · have hc : ({ c with dirty := false } : OpenContext) = c := by cases c; simp_all
      simp only [hd, Option.map_some, hc, Bool.false_eq_true, if_false, setContext_self h]
      rfl

theorem putBack_setEng {x : Engine} (h : x.context j = X.eng.context j) :
    (X.setEng x).putBack j = (X.putBack j).setEng x := by
  unfold State.putBack
  simp only [State.setEng_eng, h]
  split
  · split
    · exact storePut_setEng _ _ _
    · rfl
  · rfl

theorem writeBack_setEng {x : Engine} (h : x.context j = X.eng.context j) :
    (X.setEng x).writeBack j = (X.writeBack j).setEng (x.cleaned j) := by
  rw [writeBack_form, writeBack_form, putBack_setEng h]
  rfl

theorem writeBack_eng (X : State) (j) : (X.writeBack j).eng = X.eng.cleaned j := by rw [writeBack_form]; rfl

theorem writeBack_bare (X : State) (j) : (X.bare.writeBack j).bare = (X.writeBack j).bare := by
  have hb : X.bare.eng.context j = X.eng.context j := by cases j <;> rfl
  have : X.bare.putBack j = X.bare ∧ X.putBack j = X ∨
      ∃ r, X.bare.putBack j = X.bare.storePut r ∧ X.putBack j = X.storePut r := by
    unfold State.putBack
    rw [hb]
    split
    · split
      · exact .inr ⟨_, rfl, rfl⟩
      · exact .inl ⟨rfl, rfl⟩
    · exact .inl ⟨rfl, rfl⟩
  rw [writeBack_form, writeBack_form]
  rcases this with ⟨h1, h2⟩ | ⟨r, h1, h2⟩
  · rw [h1, h2]; cases j <;> rfl
  · rw [h1, h2]
    exact bare_setEng (storePut_bare X r) (by cases j <;> rfl)


theorem writeBack_working (X : State) (i) (m) : (X.writeBack i).working m = X.working m := by
  unfold State.working
  rw [writeBack_dirFind]
  cases X.dirFind m with
  | none => rfl
  | some e =>
    simp only
    cases e.context with
    | none => rfl
    | some j =>
      simp only [writeBack_context]
      by_cases hj : j = i
      · subst hj; rw [if_pos rfl]; cases X.eng.context j <;> rfl
      · rw [if_neg hj]

/-- A write-back keeps the agreement. -/
theorem State.Coherent.writeBack (h : s.Coherent) (i : ContextId) : (s.writeBack i).Coherent := by
  have hd := writeBack_dirFind s i
  have hst := fun m => writeBack_stored (s := s) (i := i) (fun c hi _ => h.storedSome hi) m
  have hx := writeBack_context s i
  have hone : ∀ j c c', j ≠ i → s.eng.context j = some c' → s.eng.context i = some c →
      c.record.number ≠ c'.record.number := by
    intro j c c' hji hj hi hn
    obtain ⟨e, he, hc⟩ := h.shown j c' hj
    obtain ⟨e', he', hc'⟩ := h.shown i c hi
    rw [hn, he] at he'
    obtain rfl := Option.some.inj he'
    rw [hc] at hc'
    exact hji (Option.some.inj hc')
  refine ⟨fun n e he => ?_, fun n e j he hj => ?_, fun j c hj => ?_, fun j c p hj hdirty hp => ?_, fun n e r he hr => ?_⟩
  · rw [hd] at he
    obtain ⟨p, hp, hn⟩ := h.stored n e he
    rw [hst]
    cases hi : s.eng.context i with
    | none => exact ⟨p, hp, hn⟩
    | some c =>
      by_cases hk : c.dirty = true ∧ c.record.number = n
      · simp only [hk, and_self, if_true]; exact ⟨_, rfl, hk.2⟩
      · simp only [hk, if_false]; exact ⟨p, hp, hn⟩
  · rw [hd] at he
    obtain ⟨c, hc, hn⟩ := h.opened n e j he hj
    rw [hx]
    by_cases hji : j = i
    · subst hji; rw [if_pos rfl, hc]; exact ⟨_, rfl, hn⟩
    · rw [if_neg hji]; exact ⟨c, hc, hn⟩
  · rw [hx] at hj
    rw [hd]
    by_cases hji : j = i
    · subst hji
      rw [if_pos rfl] at hj
      obtain ⟨c', hc', rfl⟩ := Option.map_eq_some_iff.1 hj
      exact h.shown j c' hc'
    · rw [if_neg hji] at hj; exact h.shown j c hj
  · rw [hx] at hj
    rw [hst] at hp
    by_cases hji : j = i
    · subst hji
      rw [if_pos rfl] at hj
      obtain ⟨c', hc', rfl⟩ := Option.map_eq_some_iff.1 hj
      rw [hc'] at hp
      by_cases hk : c'.dirty = true
      · simp only [hk, and_self, if_true, Option.some.injEq] at hp; rw [← hp]; rfl
      · simp only [hk, false_and, Bool.false_eq_true, if_false] at hp
        exact h.clean j c' p hc' (by simpa using hk) hp
    · rw [if_neg hji] at hj
      cases hi : s.eng.context i with
      | none => rw [hi] at hp; exact h.clean j c p hj hdirty hp
      | some c' =>
        rw [hi] at hp
        simp only [hone j c' c hji hj hi, and_false, if_false] at hp
        exact h.clean j c p hj hdirty hp
  · rw [hd] at he
    refine h.copies n e r he ?_
    rw [← hr]
    unfold State.recordOf
    rw [writeBack_working, hst]
    cases hw : s.working n with
    | some r => rfl
    | none =>
      cases hi : s.eng.context i with
      | none => rfl
      | some c =>
        by_cases hk : c.dirty = true ∧ c.record.number = n
        · exfalso
          obtain ⟨e', he', hc'⟩ := h.shown i c hi
          rw [hk.2] at he'
          simp [State.working, he', hc', hi, hk.2] at hw
        · simp only [hk, if_false]

/-- What a write-through at the end of a service is. -/
theorem writeThrough_cases (X : State) (m) : X.writeThrough m = X ∨ ∃ i, X.writeThrough m = X.writeBack i := by
  unfold State.writeThrough
  repeat' split
  · exact .inr ⟨_, rfl⟩
  all_goals exact .inl rfl

theorem writeThrough_coherent (h : X.Coherent) (m) : (X.writeThrough m).Coherent := by
  rcases writeThrough_cases X m with h' | ⟨i, h'⟩ <;> rw [h']
  exacts [h, h.writeBack i]

theorem writeThrough_dirFind (X : State) (m) : (X.writeThrough m).dirFind = X.dirFind := by
  rcases writeThrough_cases X m with h' | ⟨i, h'⟩ <;> rw [h']
  exact writeBack_dirFind _ _

theorem writeThrough_working (X : State) (m k) : (X.writeThrough m).working k = X.working k := by
  rcases writeThrough_cases X m with h' | ⟨i, h'⟩ <;> rw [h']
  exact writeBack_working _ _ _

theorem writeThrough_apart (X : State) (m) : (X.writeThrough m).apart = X.apart := by
  rcases writeThrough_cases X m with h' | ⟨i, h'⟩ <;> rw [h']
  exact writeBack_apart _ _

theorem writeThrough_closed (h : ∀ e, X.dirFind m = some e → e.context = none) : X.writeThrough m = X := by
  unfold State.writeThrough
  split
  · rename_i e he; rw [h e he]
  · rfl

theorem writeThrough_opened (h : X.dirFind m = some e) (hc : e.context = some i) : X.writeThrough m = X.writeBack i := by
  simp [State.writeThrough, h, hc]

theorem bare_dirFind (X : State) : X.bare.dirFind = X.dirFind := rfl

theorem bare_context (X : State) (j) : X.bare.eng.context j = X.eng.context j := by cases j <;> rfl

theorem bare_sameRecords (X : State) : SameRecords X X.bare := ⟨rfl, bare_context X, rfl⟩

theorem bare_working (X : State) (m) : X.bare.working m = X.working m := (bare_sameRecords X).working m

theorem bare_stored (X : State) (m) : X.bare.stored m = X.stored m := rfl

theorem writeThrough_bare (X : State) (m) : (X.bare.writeThrough m).bare = (X.writeThrough m).bare := by
  unfold State.writeThrough
  rw [bare_dirFind]
  repeat' split
  · exact writeBack_bare _ _
  all_goals rfl

/-! ## Work on one parcel -/

/-- Work on parcel n alone. It looks at nothing that `bare` leaves out, keeps directory, contexts and store in
agreement, may be done before or after another parcel is written through, and marks n alone. -/
structure Local (n : ParcelNo) (f : State → State) : Prop where
  bare : ∀ X, (f X.bare).bare = (f X).bare
  coherent : ∀ X, X.Coherent → (f X).Coherent
  swap : ∀ X m, X.Coherent → m ≠ n → (f (X.writeThrough m)).bare = ((f X).writeThrough m).bare
  due : ∀ X, (f X).eng.dueWrites = (f X.bare).eng.dueWrites ++ X.eng.dueWrites
  same : ∀ (X : State) (m : ParcelNo), X.Coherent → m ≠ n →
    (f (X.writeThrough m).bare).eng.dueWrites = (f X.bare).eng.dueWrites
  keeps : ∀ (X : State) (m : ParcelNo), X.Coherent → m ≠ n →
    ((f X).dirFind m).map DirEntry.state = (X.dirFind m).map DirEntry.state
  mine : ∀ (X : State), ∀ x ∈ (f X.bare).eng.dueWrites, x = n

namespace Local

theorem eq_of_bare (h : Local n f) (he : X.bare = Y.bare) : (f X).bare = (f Y).bare := by
  rw [← h.bare X, ← h.bare Y, he]

theorem id : Local n (fun X => X) :=
  ⟨fun _ => rfl, fun _ h => h, fun _ _ _ _ => rfl, fun _ => rfl, fun _ _ _ _ => rfl, fun _ _ _ _ => rfl,
    fun X x hx => absurd hx (List.not_mem_nil (a := x))⟩

theorem comp (hg : Local n g) (hf : Local n f) : Local n (fun X => g (f X)) where
  bare X := hg.eq_of_bare (hf.bare X)
  coherent X h := hg.coherent _ (hf.coherent X h)
  swap X m h hm := (hg.eq_of_bare (hf.swap X m h hm)).trans (hg.swap _ m (hf.coherent X h) hm)
  due X := by
    show (g (f X)).eng.dueWrites = (g (f X.bare)).eng.dueWrites ++ _
    rw [hg.due, hg.due (f X.bare), hf.bare, hf.due, List.append_assoc]
  same X m h hm := by
    show (g (f (X.writeThrough m).bare)).eng.dueWrites = (g (f X.bare)).eng.dueWrites
    rw [hg.due, hg.due (f X.bare), hf.bare, hf.bare, hf.swap X m h hm, hg.same _ m (hf.coherent X h) hm,
      hf.same X m h hm]
  keeps X m h hm := (hg.keeps _ m (hf.coherent X h) hm).trans (hf.keeps X m h hm)
  mine X x hx := by
    have hx : x ∈ (g (f X.bare)).eng.dueWrites := hx
    rw [hg.due] at hx
    rcases List.mem_append.1 hx with hx | hx
    exacts [hg.mine _ x hx, hf.mine _ x hx]

/-- What is done may depend on what is seen, when it sees nothing that `bare` or a write-through changes. -/
theorem bind {α : Type} (a : State → α) (k : α → State → State) (hb : ∀ X, a X.bare = a X)
    (hw : ∀ X m, X.Coherent → m ≠ n → a (X.writeThrough m) = a X) (hk : ∀ X, Local n (k (a X))) :
    Local n (fun X => k (a X) X) where
  bare X := by rw [hb]; exact (hk X).bare X
  coherent X h := (hk X).coherent X h
  swap X m h hm := by rw [hw X m h hm]; exact (hk X).swap X m h hm
  due X := by rw [hb]; exact (hk X).due X
  same X m h hm := by rw [hb, hb, hw X m h hm]; exact (hk X).same X m h hm
  keeps X m h hm := (hk X).keeps X m h hm
  mine X := by rw [hb]; exact (hk X).mine X

theorem congr (h : Local n f) (hg : ∀ X, g X = f X) : Local n g := by
  obtain rfl : g = f := funext hg
  exact h

/-- A fold of work on one parcel. -/
theorem fold {α : Type} (k : State → α → State) (hk : ∀ a, Local n (fun X => k X a)) (l : List α) :
    Local n (fun X => l.foldl k X) := by
  induction l with
  | nil => exact Local.id
  | cons a l ih => exact ih.comp (hk a)

end Local

/-! ## Work that touches no record -/

/-- Work that neither sees nor changes the engine or the store. -/
def Outside (f : State → State) : Prop :=
  ∀ X x l k, f { X with eng := x, store := l, storeLog := k } = { f X with eng := x, store := l, storeLog := k }

/-- The store's part of a write-back sees the engine and the store alone. -/
theorem putBack_beside (X Y : State) (he : Y.eng = X.eng) (hs : Y.store = X.store) (hl : Y.storeLog = X.storeLog) (j) :
    Y.putBack j = { Y with eng := X.eng, store := (X.putBack j).store, storeLog := (X.putBack j).storeLog } := by
  obtain ⟨_, _, ye, ys, yl, _, _, _, _, _⟩ := Y
  obtain rfl : ye = _ := he
  obtain rfl : ys = _ := hs
  obtain rfl : yl = _ := hl
  unfold State.putBack
  dsimp only
  split
  · split
    · unfold State.storePut State.storePlace
      dsimp only
      split <;> rfl
    · rfl
  · rfl

theorem writeThrough_beside (X Y : State) (he : Y.eng = X.eng) (hs : Y.store = X.store) (hl : Y.storeLog = X.storeLog)
    (m) : Y.writeThrough m = { Y with
      eng := (X.writeThrough m).eng, store := (X.writeThrough m).store, storeLog := (X.writeThrough m).storeLog } := by
  have hd : Y.dirFind m = X.dirFind m := by rw [dirFind_congr (congrArg Engine.directory he)]
  have hid : Y = { Y with eng := X.eng, store := X.store, storeLog := X.storeLog } := by rw [← he, ← hs, ← hl]
  unfold State.writeThrough
  rw [hd]
  split
  · split
    · rw [writeBack_form, writeBack_form, putBack_beside X Y he hs hl, he]
      rfl
    · exact hid
  · exact hid

namespace Outside

theorem self (h : Outside f) (X : State) : f X = { f X with eng := X.eng, store := X.store, storeLog := X.storeLog } :=
  h X X.eng X.store X.storeLog

theorem eng (h : Outside f) (X : State) : (f X).eng = X.eng := by rw [h.self]

theorem store (h : Outside f) (X : State) : (f X).store = X.store := by rw [h.self]

theorem storeLog (h : Outside f) (X : State) : (f X).storeLog = X.storeLog := by rw [h.self]

theorem comp (hg : Outside g) (hf : Outside f) : Outside (fun X => g (f X)) := fun X x l k => by
  show g (f _) = _
  rw [hf, hg]

theorem isLocal (h : Outside f) : Local n f where
  bare X := by
    have := h X X.bare.eng X.store []
    rw [show X.bare = { X with eng := X.bare.eng, store := X.store, storeLog := [] } from rfl, this]
    simp only [State.bare, h.eng, h.store]
    rfl
  coherent X hX := hX.congr (.of_eng (h.eng X) (h.store X))
  swap X m hX hm := by
    rw [writeThrough_beside X (f X) (h.eng X) (h.store X) (h.storeLog X),
      ← h X (X.writeThrough m).eng (X.writeThrough m).store (X.writeThrough m).storeLog,
      ← writeThrough_beside X X rfl rfl rfl]
  due X := by rw [h.eng, h.eng]; rfl
  same X m hX hm := by rw [h.eng, h.eng]; rfl
  keeps X m _ _ := by rw [dirFind_congr (congrArg Engine.directory (h.eng X))]
  mine X x hx := by rw [h.eng] at hx; exact absurd hx (List.not_mem_nil (a := x))

end Outside

/-! ## Work on the engine's own records -/

def DirEntry.place (e : DirEntry) : Option ContextId × ParcelState := (e.context, e.state)

/-- Work that changes the engine alone, and looks at nothing else. -/
structure EngineWork (n : ParcelNo) (g : Engine → Engine) : Prop where
  bare : ∀ x : Engine, (g x.bare).bare = (g x).bare
  coherent : ∀ X : State, X.Coherent → (X.setEng (g X.eng)).Coherent
  /-- Another parcel's place is kept. -/
  place : ∀ (X : State) (m : ParcelNo), X.Coherent → m ≠ n →
    ((X.setEng (g X.eng)).dirFind m).map DirEntry.place = (X.dirFind m).map DirEntry.place
  /-- The context of another parcel is kept, and may be clean before or after. -/
  other : ∀ (X : State) (m : ParcelNo) (j : ContextId) (e : DirEntry) (c : OpenContext), X.Coherent → m ≠ n →
    X.OpenWith m j e c → (g X.eng).context j = X.eng.context j ∧ g (X.eng.cleaned j) = (g X.eng).cleaned j
  due : ∀ x : Engine, (g x).dueWrites = (g x.bare).dueWrites ++ x.dueWrites
  mine : ∀ x : Engine, ∀ k ∈ (g x.bare).dueWrites, k = n

theorem EngineWork.isLocal {g : Engine → Engine} (h : EngineWork n g) : Local n (fun X => X.setEng (g X.eng)) := by
  have key : ∀ (X : State) (m : ParcelNo), X.Coherent → m ≠ n →
      (X.writeThrough m).setEng (g (X.writeThrough m).eng) = (X.setEng (g X.eng)).writeThrough m := by
    intro X m hX hm
    have hp := h.place X m hX hm
    cases hd : X.dirFind m with
    | none =>
      rw [hd] at hp
      rw [writeThrough_closed (by simp [hd]), writeThrough_closed]
      intro e he; rw [he] at hp; simp at hp
    | some e =>
      rw [hd] at hp
      cases hd' : (X.setEng (g X.eng)).dirFind m with
      | none => rw [hd'] at hp; simp at hp
      | some e' =>
        rw [hd'] at hp
        have hp : e'.context = e.context := congrArg Prod.fst (Option.some.inj hp)
        cases hc : e.context with
        | none =>
          rw [writeThrough_closed (by simp [hd, hc]), writeThrough_closed (by simp [hd', hp, hc])]
        | some j =>
          obtain ⟨c, hj, hn⟩ := hX.opened m e j hd hc
          obtain ⟨h1, h2⟩ := h.other X m j e c hX hm ⟨hd, hc, hj, hn⟩
          rw [writeThrough_opened hd hc, writeThrough_opened hd' (hp.trans hc), writeBack_setEng h1, writeBack_eng, h2]
  have hmark : ∀ (X : State) (m : ParcelNo), X.Coherent → m ≠ n →
      (g (X.writeThrough m).bare.eng).dueWrites = (g X.bare.eng).dueWrites := by
    intro X m hX hm
    have h1 := congrArg (fun Z : State => Z.eng.dueWrites) (key X m hX hm)
    have h2 : ((X.setEng (g X.eng)).writeThrough m).eng.dueWrites = (g X.eng).dueWrites := by
      have := congrArg (fun Z : State => Z.eng.dueWrites) (writeThrough_apart (X.setEng (g X.eng)) m)
      exact this
    have h3 : (X.writeThrough m).eng.dueWrites = X.eng.dueWrites := by
      have := congrArg (fun Z : State => Z.eng.dueWrites) (writeThrough_apart X m)
      exact this
    have h4 : (g (X.writeThrough m).eng).dueWrites = (g X.eng).dueWrites := h1.trans h2
    rw [h.due, h.due X.eng, h3] at h4
    exact List.append_cancel_right h4
  refine ⟨fun X => ?_, h.coherent, fun X m hX hm => by rw [key X m hX hm], fun X => h.due _, hmark,
    fun X m hX hm => ?_, fun X => h.mine X.eng⟩
  · have := h.bare X.eng
    exact congrArg (fun x : Engine => ({ X with storeLog := [], eng := x } : State)) this
  · have := congrArg (Option.map Prod.snd) (h.place X m hX hm)
    rw [Option.map_map, Option.map_map] at this
    exact this

/-- Work on the engine beside its contexts. -/
theorem beside_local (n : ParcelNo) (g : Engine → Engine)
    (bare : ∀ x : Engine, (g x.bare).bare = (g x).bare)
    (coherent : ∀ X : State, X.Coherent → (X.setEng (g X.eng)).Coherent)
    (place : ∀ (X : State) (m : ParcelNo), m ≠ n →
      ((X.setEng (g X.eng)).dirFind m).map DirEntry.place = (X.dirFind m).map DirEntry.place)
    (apart : ∀ x j c, g (x.setContext j c) = (g x).setContext j c) (context : ∀ x j, (g x).context j = x.context j)
    (due : ∀ x : Engine, (g x).dueWrites = (g x.bare).dueWrites ++ x.dueWrites)
    (mine : ∀ x : Engine, ∀ k ∈ (g x.bare).dueWrites, k = n) :
    Local n (fun X => X.setEng (g X.eng)) :=
  EngineWork.isLocal
    { bare := bare, coherent := coherent, place := fun X m _ hm => place X m hm
      other := fun X m j e c _ _ _ => ⟨context _ _, by unfold Engine.cleaned; rw [apart, context]⟩
      due := due, mine := mine }

theorem setHalf_local (n : ParcelNo) (b : Bool) : Local n (fun X => X.setHalf n b) :=
  beside_local n
    (fun x => { x with directory := x.directory.map (fun e => if e.number == n then { e with halfDone := b } else e) })
    (fun _ => rfl) (fun X hX => setHalf_coherent hX n b)
    (fun X m hm => by
      show ((X.setHalf n b).dirFind m).map _ = _
      rw [setHalf_dirFind, if_neg hm])
    (fun _ j _ => by cases j <;> rfl) (fun _ j => by cases j <;> rfl) (fun _ => rfl)
    (fun _ _ hk => absurd hk List.not_mem_nil)

theorem markWrite_local (n : ParcelNo) : Local n (fun X => X.markWrite n) :=
  beside_local n (fun x => { x with dueWrites := n :: x.dueWrites }) (fun _ => rfl)
    (fun X hX => hX.congr (markWrite_sameRecords X n)) (fun _ _ _ => rfl) (fun _ j _ => by cases j <;> rfl)
    (fun _ j => by cases j <;> rfl) (fun _ => rfl) (fun _ _ hk => List.mem_singleton.1 hk)

theorem touch_local (n : ParcelNo) (i : ContextId) : Local n (fun X => X.touch i) :=
  beside_local n (fun x => { x with lessRecent := otherContext i }) (fun _ => rfl)
    (fun X hX => hX.congr (touch_sameRecords X i)) (fun _ _ _ => rfl) (fun _ j _ => by cases j <;> rfl)
    (fun _ j => by cases j <;> rfl) (fun _ => rfl) (fun _ _ hk => absurd hk List.not_mem_nil)

theorem restart_local (n : ParcelNo) : Local n (fun X => X.setEng { X.eng with windowRestart := false }) :=
  beside_local n (fun x => { x with windowRestart := false }) (fun _ => rfl)
    (fun X hX => hX.congr ⟨rfl, fun j => by cases j <;> rfl, rfl⟩) (fun _ _ _ => rfl) (fun _ j _ => by cases j <;> rfl)
    (fun _ j => by cases j <;> rfl) (fun _ => rfl) (fun _ _ hk => absurd hk List.not_mem_nil)

theorem setBuffer_local (n : ParcelNo) (b : Fin 2) (a : Option Assembly) : Local n (fun X => X.setBuffer b a) := by
  have hs := fun X : State => setBuffer_sameRecords X b a
  match b with
  | 0 =>
    exact beside_local n (fun x => { x with buf0 := a }) (fun _ => rfl) (fun X hX => hX.congr (hs X)) (fun _ _ _ => rfl)
      (fun _ j _ => by cases j <;> rfl) (fun _ j => by cases j <;> rfl) (fun _ => rfl)
      (fun _ _ hk => absurd hk List.not_mem_nil)
  | 1 =>
    exact beside_local n (fun x => { x with buf1 := a }) (fun _ => rfl) (fun X hX => hX.congr (hs X)) (fun _ _ _ => rfl)
      (fun _ j _ => by cases j <;> rfl) (fun _ j => by cases j <;> rfl) (fun _ => rfl)
      (fun _ _ hk => absurd hk List.not_mem_nil)

/-! ## A change of the record -/

/-- The engine's part of a change of a record. -/
def Engine.modified (x : Engine) (n : ParcelNo) (f : ParcelRecord → ParcelRecord) : Engine :=
  match x.directory.find? (fun e => e.number == n) with
  | none => x
  | some e =>
    match e.context with
    | none => x
    | some i =>
      match x.context i with
      | none => x
      | some c =>
        if c.record.number == n then
          { x.setContext i (some { record := f c.record, dirty := true }) with
            directory := x.directory.map (fun e => if e.number == n then e.copyFrom (f c.record) else e)
            lessRecent := otherContext i }
        else x

theorem modify_eng (X : State) (n : ParcelNo) (f) : X.modify n f = X.setEng (X.eng.modified n f) := by
  unfold State.modify Engine.modified
  cases h : X.dirFind n with
  | none =>
    have h : X.eng.directory.find? (fun e => e.number == n) = none := h
    rw [h]; rfl
  | some e =>
    have h : X.eng.directory.find? (fun e => e.number == n) = some e := h
    rw [h]
    dsimp only
    cases e.context with
    | none => rfl
    | some i =>
      dsimp only
      cases X.eng.context i with
      | none => rfl
      | some c =>
        dsimp only
        by_cases hn : (c.record.number == n) = true
        · rw [if_pos hn, if_pos hn]; cases i <;> rfl
        · rw [if_neg hn, if_neg hn]; rfl

theorem modified_dueWrites (x : Engine) (n : ParcelNo) (f) : (x.modified n f).dueWrites = x.dueWrites := by
  unfold Engine.modified
  cases x.directory.find? (fun e => e.number == n) with
  | none => rfl
  | some e =>
    dsimp only
    cases e.context with
    | none => rfl
    | some i =>
      dsimp only
      cases x.context i with
      | none => rfl
      | some c => dsimp only; split <;> first | rfl | (cases i <;> rfl)

theorem modify_closed (h : ∀ i e c, ¬ X.OpenWith n i e c) (f) : X.modify n f = X := by
  unfold State.modify
  split
  · rfl
  · rename_i e he
    split
    · rfl
    · rename_i i hi
      split
      · rfl
      · rename_i c hc
        split
        · rename_i hn; exact absurd ⟨he, hi, hc, by simpa using hn⟩ (h i e c)
        · rfl

theorem modified_bare (x : Engine) (n : ParcelNo) (f) :
    x.bare.modified n f = (x.modified n f).bare := by
  unfold Engine.modified
  rw [show x.bare.directory = x.directory from rfl]
  cases x.directory.find? (fun e => e.number == n) with
  | none => rfl
  | some e =>
    dsimp only
    cases e.context with
    | none => rfl
    | some i =>
      have : x.bare.context i = x.context i := by cases i <;> rfl
      dsimp only
      rw [this]
      cases x.context i with
      | none => rfl
      | some c => dsimp only; split <;> first | rfl | (cases i <;> rfl)

theorem modify_local (n : ParcelNo) {f : ParcelRecord → ParcelRecord} (hf : ∀ r, (f r).number = r.number) :
    Local n (fun X => X.modify n f) := by
  have hw : EngineWork n (fun x => x.modified n f) :=
    { bare := fun x => by rw [modified_bare]; rfl
      coherent := fun X hX => by
        rw [← modify_eng]
        by_cases ho : ∃ i e c, X.OpenWith n i e c
        · obtain ⟨i, e, c, ho⟩ := ho
          exact (hX.modify ho f ((hf _).trans ho.2.2.2)).1
        · rw [modify_closed (fun i e c h => ho ⟨i, e, c, h⟩)]; exact hX
      place := fun X m hX hm => by
        rw [← modify_eng]
        by_cases ho : ∃ i e c, X.OpenWith n i e c
        · obtain ⟨i, e, c, ho⟩ := ho
          rw [(modify_othersKept ho f ((hf _).trans ho.2.2.2) m hm).1]
        · rw [modify_closed (fun i e c h => ho ⟨i, e, c, h⟩)]
      other := fun X m j em cm hX hm hom => by
        by_cases ho : ∃ i e c, X.OpenWith n i e c
        · obtain ⟨i, e, c, ho⟩ := ho
          have hij : i ≠ j := by
            rintro rfl
            have := ho.2.2.1.symm.trans hom.2.2.1
            obtain rfl := Option.some.inj this
            exact hm (hom.2.2.2.symm.trans ho.2.2.2)
          have hx : (X.eng.cleaned j).context i = X.eng.context i := by
            unfold Engine.cleaned; cases i <;> cases j <;> first | rfl | exact absurd rfl hij
          have hd : (X.eng.cleaned j).directory = X.eng.directory := by cases j <;> rfl
          have hdf : X.eng.directory.find? (fun e => e.number == n) = some e := ho.1
          have h1 : X.eng.modified n f = { X.eng.setContext i (some { record := f c.record, dirty := true }) with
              directory := X.eng.directory.map (fun e => if e.number == n then e.copyFrom (f c.record) else e)
              lessRecent := otherContext i } := by
            simp only [Engine.modified, hdf, ho.2.1, ho.2.2.1, ho.2.2.2, beq_self_eq_true, if_true]
          have h2 : (X.eng.cleaned j).modified n f =
              { (X.eng.cleaned j).setContext i (some { record := f c.record, dirty := true }) with
              directory := X.eng.directory.map (fun e => if e.number == n then e.copyFrom (f c.record) else e)
              lessRecent := otherContext i } := by
            simp only [Engine.modified, hd, hdf, ho.2.1, hx, ho.2.2.1, ho.2.2.2, beq_self_eq_true, if_true]
          refine ⟨?_, ?_⟩
          · show (X.eng.modified n f).context j = _
            rw [h1]; cases i <;> cases j <;> first | rfl | exact absurd rfl hij
          · show (X.eng.cleaned j).modified n f = (X.eng.modified n f).cleaned j
            rw [h2, h1]; cases i <;> cases j <;> first | rfl | exact absurd rfl hij
        · have h1 : X.eng.modified n f = X.eng := by
            have := modify_closed (fun i e c h => ho ⟨i, e, c, h⟩) f
            rw [modify_eng] at this; exact congrArg State.eng this
          have h2 : (X.eng.cleaned j).modified n f = X.eng.cleaned j := by
            have ho' : ∀ i e c, ¬ (X.writeBack j).OpenWith n i e c := by
              intro i e c h
              have hw := (State.OpenWith.working h)
              rw [writeBack_working] at hw
              unfold State.working at hw
              split at hw
              · cases hw
              · rename_i d hd
                split at hw
                · cases hw
                · rename_i k hk
                  split at hw
                  · rename_i x hx
                    split at hw
                    · rename_i hn; exact ho ⟨k, d, x, hd, hk, hx, by simpa using hn⟩
                    · cases hw
                  · cases hw
            have := modify_closed ho' f
            rw [modify_eng] at this
            have := congrArg State.eng this
            rw [writeBack_eng] at this
            exact this
          show (X.eng.modified n f).context j = _ ∧ (X.eng.cleaned j).modified n f = (X.eng.modified n f).cleaned j
          rw [h1, h2]
          exact ⟨rfl, rfl⟩
      due := fun x => by
        rw [modified_bare]
        rw [modified_dueWrites]; rfl
      mine := fun x k hk => by
        rw [modified_bare] at hk
        exact absurd hk List.not_mem_nil }
  exact hw.isLocal.congr fun X => modify_eng X n f

/-! ## A turnaround -/

theorem cleaned_context_other {x : Engine} (h : i ≠ j) : (x.cleaned j).context i = x.context i := by
  unfold Engine.cleaned; cases i <;> cases j <;> first | rfl | exact absurd rfl h

/-- Two write-backs may be made in either order. -/
theorem writeBack_comm (h : X.Coherent) (hij : i ≠ j) :
    ((X.writeBack j).writeBack i).bare = ((X.writeBack i).writeBack j).bare := by
  have hp : ∀ k l, k ≠ l → (X.writeBack k).writeBack l =
      ((X.putBack k).putBack l).setEng ((X.eng.cleaned k).cleaned l) := by
    intro k l hkl
    rw [writeBack_form X k, writeBack_setEng (by rw [putBack_eng, cleaned_context_other (Ne.symm hkl)]), writeBack_form]
    rfl
  rw [hp j i (Ne.symm hij), hp i j hij]
  refine bare_setEng ?_ (by cases i <;> cases j <;> rfl)
  have hone : ∀ k, (∀ Y : State, Y.eng = X.eng → Y.putBack k = Y) ∨
      ∃ c, X.eng.context k = some c ∧ ∀ Y : State, Y.eng = X.eng → Y.putBack k = Y.storePut c.record := by
    intro k
    cases hk : X.eng.context k with
    | none => exact .inl fun Y hY => by simp [State.putBack, hY, hk]
    | some c =>
      by_cases hd : c.dirty = true
      · exact .inr ⟨c, rfl, fun Y hY => by simp [State.putBack, hY, hk, hd]⟩
      · exact .inl fun Y hY => by simp [State.putBack, hY, hk, hd]
  rcases hone i with hi | ⟨ci, hci, hi⟩
  · rw [hi _ (putBack_eng X j), hi X rfl]
  · rcases hone j with hj | ⟨cj, hcj, hj⟩
    · rw [hj _ (putBack_eng X i), hj X rfl]
    · rw [hj X rfl, hi X rfl, hi _ (storePut_eng _ _), hj _ (storePut_eng _ _)]
      refine storePut_storePut (h.storedSome hcj) (h.storedSome hci) ?_
      intro hn
      obtain ⟨e, he, hc⟩ := h.shown i ci hci
      obtain ⟨e', he', hc'⟩ := h.shown j cj hcj
      rw [hn, he] at he'
      obtain rfl := Option.some.inj he'
      rw [hc] at hc'
      exact hij (Option.some.inj hc')

theorem closeContext_open (h : X.eng.context i = some c) :
    X.closeContext i =
      ((X.writeBack i).setContext i none).dirUpdate c.record.number (fun e => { e with context := none }) := by
  simp [State.closeContext, h]

theorem closeContext_empty (h : X.eng.context i = none) : X.closeContext i = X := by simp [State.closeContext, h]

theorem setContext_bare {A B : State} (h : A.bare = B.bare) (i c) : (A.setContext i c).bare = (B.setContext i c).bare := by
  have h1 := bare_eng h
  refine bare_setEng h ?_
  have h2 := congrArg (fun x : Engine => x.setContext i c) h1
  cases i <;> exact h2

theorem dirUpdate_bare {A B : State} (h : A.bare = B.bare) (n f) : (A.dirUpdate n f).bare = (B.dirUpdate n f).bare := by
  have h1 := bare_eng h
  refine bare_setEng h ?_
  exact congrArg (fun x : Engine => { x with
    directory := x.directory.map (fun e : DirEntry => if e.number == n then f e else e) }) h1

theorem touch_bare {A B : State} (h : A.bare = B.bare) (i) : (A.touch i).bare = (B.touch i).bare := by
  have h1 := bare_eng h
  refine bare_setEng h ?_
  exact congrArg (fun x : Engine => { x with lessRecent := otherContext i }) h1

theorem closeContext_bare {A B : State} (h : A.bare = B.bare) (i) : (A.closeContext i).bare = (B.closeContext i).bare := by
  have hc : A.eng.context i = B.eng.context i := by
    rw [← bare_context A, ← bare_context B, h]
  cases hb : B.eng.context i with
  | none => rw [closeContext_empty hb, closeContext_empty (hc.trans hb), h]
  | some c =>
    rw [closeContext_open hb, closeContext_open (hc.trans hb)]
    refine dirUpdate_bare (setContext_bare ?_ _ _) _ _
    rw [← writeBack_bare, h, writeBack_bare]

/-- A miss puts the stored record in the victim. -/
theorem openParcel_miss {p : StoredParcel} (hd : X.dirFind n = some e) (hc : e.context = none) (hp : X.stored n = some p) :
    X.openParcel n = (((X.closeContext X.eng.victim).setContext X.eng.victim
      (some { record := p.record, dirty := false })).dirUpdate n
        (fun e => { e with context := some X.eng.victim })).touch X.eng.victim := by
  simp [State.openParcel, hd, hc, hp]

theorem openParcel_hit (hd : X.dirFind n = some e) (hc : e.context = some i) : X.openParcel n = X.touch i := by
  simp [State.openParcel, hd, hc]

theorem openParcel_bare (X : State) (n : ParcelNo) : (X.bare.openParcel n).bare = (X.openParcel n).bare := by
  cases hd : X.dirFind n with
  | none =>
    have h1 : X.openParcel n = X := by simp [State.openParcel, hd]
    have h2 : X.bare.openParcel n = X.bare := by simp [State.openParcel, bare_dirFind, hd]
    rw [h1, h2]; rfl
  | some e =>
    cases hc : e.context with
    | some i => rw [openParcel_hit hd hc, openParcel_hit (X := X.bare) hd hc]; rfl
    | none =>
      cases hp : X.stored n with
      | none =>
        have h1 : X.openParcel n = X := by simp [State.openParcel, hd, hc, hp]
        have h2 : X.bare.openParcel n = X.bare := by simp [State.openParcel, bare_dirFind, bare_stored, hd, hc, hp]
        rw [h1, h2]; rfl
      | some p =>
        have hv : X.bare.eng.victim = X.eng.victim := rfl
        rw [openParcel_miss hd hc hp, openParcel_miss (X := X.bare) hd hc hp, hv]
        exact touch_bare (dirUpdate_bare (setContext_bare (closeContext_bare (A := X.bare) (B := X) rfl _) _ _) _ _) _

theorem victim_cleaned (x : Engine) (j) : (x.cleaned j).victim = x.victim := by
  unfold Engine.cleaned Engine.victim
  cases j <;> simp only [Engine.setContext, Engine.context] <;> cases x.w0 <;> cases x.w1 <;> rfl

/-- A write-back of one context commutes with the turnaround of the other. -/
theorem writeBack_turn (hi : i ≠ j) (Z : State) (c : OpenContext) (n : ParcelNo) :
    (((Z.setContext i (some c)).dirUpdate n (fun e => { e with context := some i })).touch i).writeBack j =
      (((Z.writeBack j).setContext i (some c)).dirUpdate n (fun e => { e with context := some i })).touch i := by
  have h1 : ((Z.setContext i (some c)).dirUpdate n (fun e => { e with context := some i })).touch i =
      Z.setEng { Z.eng.setContext i (some c) with
        directory := Z.eng.directory.map (fun e => if e.number == n then { e with context := some i } else e)
        lessRecent := otherContext i } := by cases i <;> rfl
  have h2 : (((Z.writeBack j).setContext i (some c)).dirUpdate n (fun e => { e with context := some i })).touch i =
      (Z.writeBack j).setEng { (Z.writeBack j).eng.setContext i (some c) with
        directory := (Z.writeBack j).eng.directory.map (fun e => if e.number == n then { e with context := some i } else e)
        lessRecent := otherContext i } := by cases i <;> rfl
  rw [h1, h2, writeBack_setEng (by cases i <;> cases j <;> first | rfl | exact absurd rfl hi), writeBack_eng]
  congr 1
  cases i <;> cases j <;> first | rfl | exact absurd rfl hi

theorem writeBack_clean (h : ∀ c, X.eng.context i = some c → c.dirty = false) : X.writeBack i = X := by
  unfold State.writeBack
  cases hc : X.eng.context i with
  | none => rfl
  | some c => simp [h c hc]

/-- A write-back of one context commutes with the closing of the other. -/
theorem closeContext_writeBack (h : X.Coherent) (hij : i ≠ j) :
    ((X.writeBack j).closeContext i).bare = ((X.closeContext i).writeBack j).bare := by
  have hx : (X.writeBack j).eng.context i = X.eng.context i := by rw [writeBack_context, if_neg hij]
  cases hc : X.eng.context i with
  | none => rw [closeContext_empty hc, closeContext_empty (hx.trans hc)]
  | some c =>
    rw [closeContext_open hc, closeContext_open (hx.trans hc)]
    have h1 : ((X.writeBack i).setContext i none).dirUpdate c.record.number (fun e => { e with context := none }) =
        (X.writeBack i).setEng { (X.writeBack i).eng.setContext i none with
          directory := (X.writeBack i).eng.directory.map
            (fun e => if e.number == c.record.number then { e with context := none } else e) } := by cases i <;> rfl
    have h2 : ((((X.writeBack i).setContext i none).dirUpdate c.record.number
        (fun e => { e with context := none })).writeBack j) =
        (((X.writeBack i).writeBack j).setContext i none).dirUpdate c.record.number
          (fun e => { e with context := none }) := by
      rw [h1, writeBack_setEng (by cases i <;> cases j <;> first | rfl | exact absurd rfl hij)]
      rw [show ∀ Z : State, (Z.setContext i none).dirUpdate c.record.number (fun e => { e with context := none }) =
        Z.setEng { Z.eng.setContext i none with
          directory := Z.eng.directory.map
            (fun e => if e.number == c.record.number then { e with context := none } else e) } from
          fun Z => by cases i <;> rfl, writeBack_eng (X.writeBack i) j]
      congr 1
      cases i <;> cases j <;> rfl
    rw [h2]
    exact dirUpdate_bare (setContext_bare (writeBack_comm h hij) _ _) _ _

theorem openParcel_local (n : ParcelNo) : Local n (fun X => X.openParcel n) where
  bare X := openParcel_bare X n
  coherent X h := by
    cases hd : X.dirFind n with
    | none => have h1 : X.openParcel n = X := by simp [State.openParcel, hd]
              rw [h1]; exact h
    | some e => exact (h.openParcel hd).1
  due X := by
    have : ∀ Z : State, (Z.openParcel n).eng.dueWrites = Z.eng.dueWrites := fun Z => apart_due (openParcel_apart Z n)
    rw [this, this]; rfl
  same X m h hm := by
    have : ∀ Z : State, (Z.openParcel n).eng.dueWrites = Z.eng.dueWrites := fun Z => apart_due (openParcel_apart Z n)
    rw [this, this]; rfl
  keeps X m h hm := by
    cases hd : X.dirFind n with
    | none =>
      have h1 : X.openParcel n = X := by simp [State.openParcel, hd]
      rw [h1]
    | some e =>
      have := congrArg (Option.map DirEntry.state) (openParcel_closed h hd m)
      rw [Option.map_map, Option.map_map] at this
      exact this
  mine X x hx := by
    rw [apart_due (openParcel_apart _ n)] at hx
    exact absurd hx List.not_mem_nil
  swap X m h hm := by
    have hwd := writeThrough_dirFind X m
    cases hd : X.dirFind n with
    | none =>
      have h1 : X.openParcel n = X := by simp [State.openParcel, hd]
      have h2 : (X.writeThrough m).openParcel n = X.writeThrough m := by simp [State.openParcel, hwd, hd]
      rw [h1, h2]
    | some e =>
      cases hc : e.context with
      | some i =>
        rw [openParcel_hit hd hc, openParcel_hit (by rw [hwd]; exact hd) hc]
        exact (touch_local n i).swap X m h hm
      | none =>
        obtain ⟨p, hp, -⟩ := h.stored n e hd
        obtain ⟨-, -, -, h4, -⟩ := openParcel_turned hd hc hp (fun c hi _ => h.storedSome hi)
        have h4 : (X.openParcel n).dirFind m = (X.dirFind m).map (fun e => { e with
            context := if (X.eng.context X.missVictim).map (fun c => c.record.number) = some m then none
              else e.context }) := by
          rw [h4]; simp only [hm, if_false]
        have hkeep : ∀ e', X.dirFind m = some e' → ∀ j, ((X.openParcel n).dirFind m).bind DirEntry.context = some j →
            e'.context = some j := by
          intro e' he' j hj
          rw [h4, he'] at hj
          simp only [Option.map_some, Option.bind_some] at hj
          split at hj
          · cases hj
          · exact hj
        cases hdm : X.dirFind m with
        | none =>
          rw [writeThrough_closed (X := X) (by simp [hdm]), writeThrough_closed]
          intro e' he'; rw [h4, hdm] at he'; cases he'
        | some em =>
          cases hcm : em.context with
          | none =>
            rw [writeThrough_closed (X := X) (by simp [hdm, hcm]), writeThrough_closed]
            intro e' he'
            cases he2 : e'.context with
            | none => rfl
            | some j => have := hkeep em hdm j (by rw [he']; exact he2); rw [hcm] at this; cases this
          | some j =>
            obtain ⟨c, hj, hn⟩ := h.opened m em j hdm hcm
            have hW := writeThrough_opened hdm hcm
            have hWs : (X.writeBack j).stored n = some p := by
              rw [writeBack_stored (fun c hi _ => h.storedSome hi), hj]
              simp only [hn, hm, and_false, if_false]; exact hp
            have hWv : (X.writeBack j).eng.victim = X.eng.victim := by rw [writeBack_eng, victim_cleaned]
            rw [hW, openParcel_miss (by rw [writeBack_dirFind]; exact hd) hc hWs, hWv]
            rw [victim_eq] at *
            generalize hv : X.missVictim = v at *
            by_cases hvj : v = j
            · subst hvj
              have hclosed : (X.openParcel n).writeThrough m = X.openParcel n := by
                refine writeThrough_closed fun e' he' => ?_
                rw [h4, hdm, hj] at he'
                simp only [Option.map_some, hn, if_true, Option.some.injEq] at he'
                rw [← he']
              have hWc : (X.writeBack v).eng.context v = some { c with dirty := false } := by
                rw [writeBack_context, if_pos rfl, hj]; rfl
              have hcc : (X.writeBack v).closeContext v = X.closeContext v := by
                rw [closeContext_open hWc, closeContext_open hj, writeBack_clean (X := X.writeBack v)]
                intro c' hc'; rw [hWc] at hc'; obtain rfl := Option.some.inj hc'; rfl
              rw [hclosed, hcc, openParcel_miss hd hc hp, victim_eq, hv]
            · have hopen : (X.openParcel n).dirFind m = some em := by
                rw [h4, hdm]
                simp only [Option.map_some]
                rw [if_neg]
                cases hcv : X.eng.context v with
                | none => simp
                | some cv =>
                  simp only [Option.map_some, Option.some.injEq]
                  intro hnv
                  obtain ⟨e', he', hc'⟩ := h.shown v cv hcv
                  rw [hnv, hdm] at he'
                  obtain rfl := Option.some.inj he'
                  rw [hcm] at hc'
                  exact hvj (Option.some.inj hc').symm
              rw [writeThrough_opened hopen hcm, openParcel_miss hd hc hp, victim_eq, hv, writeBack_turn hvj]
              exact touch_bare (dirUpdate_bare (setContext_bare (closeContext_writeBack h hvj) _ _) _ _) _

/-! ## What work on a parcel may look at -/

/-- Something seen of the state that neither `bare` nor the write-through of another parcel than n changes. -/
structure Sees {α : Type} (n : ParcelNo) (a : State → α) : Prop where
  bare : ∀ X, a X.bare = a X
  written : ∀ (X : State) (m : ParcelNo), X.Coherent → m ≠ n → a (X.writeThrough m) = a X

namespace Sees

variable {α β : Type} {a : State → α} {b : State → β}

theorem comp (ha : Sees n a) (hf : Local n f) : Sees n (fun X => a (f X)) where
  bare X := by
    show a (f X.bare) = a (f X)
    rw [← ha.bare, hf.bare, ha.bare]
  written X m h hm := by
    show a (f (X.writeThrough m)) = a (f X)
    rw [← ha.bare, hf.swap X m h hm, ha.bare, ha.written _ m (hf.coherent X h) hm]

theorem map (ha : Sees n a) (F : α → β) : Sees n (fun X => F (a X)) :=
  ⟨fun X => congrArg F (ha.bare X), fun X m h hm => congrArg F (ha.written X m h hm)⟩

theorem both (ha : Sees n a) (hb : Sees n b) : Sees n (fun X => (a X, b X)) :=
  ⟨fun X => by rw [ha.bare, hb.bare], fun X m h hm => by rw [ha.written X m h hm, hb.written X m h hm]⟩

theorem working (n k : ParcelNo) : Sees n (fun X => X.working k) :=
  ⟨fun X => bare_working X k, fun X m _ _ => writeThrough_working X m k⟩

theorem dirFind (n k : ParcelNo) : Sees n (fun X => X.dirFind k) :=
  ⟨fun _ => rfl, fun X m _ _ => by rw [writeThrough_dirFind]⟩

/-- The blocks outside the engine and the store. -/
theorem outside (n : ParcelNo) (F : State → α) (h : ∀ X x l k, F { X with eng := x, store := l, storeLog := k } = F X) :
    Sees n F where
  bare X := h X X.bare.eng X.store []
  written X m _ _ := by
    rw [writeThrough_beside X X rfl rfl rfl]
    exact h X _ _ _

end Sees

theorem Local.bind' {α : Type} {a : State → α} (ha : Sees n a) {k : α → State → State} (hk : ∀ x, Local n (k x)) :
    Local n (fun X => k (a X) X) := Local.bind a k ha.bare ha.written (fun X => hk (a X))

theorem outside_post (b : NoticeBody) : Outside (fun X => X.post b) := fun X x l k => by
  unfold State.post
  dsimp only
  split <;> rfl

theorem outside_postAll (l : List NoticeBody) : Outside (fun X => X.postAll l) := by
  induction l with
  | nil => exact fun _ _ _ _ => rfl
  | cons b l ih => exact ih.comp (outside_post b)

theorem outside_bump (c : Counter) : Outside (fun X => X.bump c) := fun _ _ _ _ => rfl

theorem offer_beside (fr : OfferedFrame) (b : Bool) (X : State) (x l k) :
    offer fr b { X with eng := x, store := l, storeLog := k } =
      ((offer fr b X).1, { (offer fr b X).2 with eng := x, store := l, storeLog := k }) := by
  unfold offer
  dsimp only
  repeat' split
  all_goals rfl

theorem outside_offer (fr : OfferedFrame) (b : Bool) : Outside (fun X => (offer fr b X).2) := fun X x l k => by
  show (offer fr b _).2 = _
  rw [offer_beside]

theorem sees_offer (n : ParcelNo) (fr : OfferedFrame) (b : Bool) : Sees n (fun X => (offer fr b X).1) :=
  .outside n _ fun X x l k => by rw [offer_beside]

/-- A frame of this station is offered, and the work goes on with the answer. -/
theorem offered_local (F : State → OfferedFrame) (hF : Sees n F) (b : Bool) {k : Answer → State → State}
    (hk : ∀ x, Local n (k x)) : Local n (fun X => k (offer (F X) b X).1 (offer (F X) b X).2) :=
  Local.bind' (a := F) hF (k := fun fr X => k (offer fr b X).1 (offer fr b X).2) fun fr =>
    Local.bind' (sees_offer n fr b) (k := fun an X => k an (offer fr b X).2) fun an =>
      (hk an).comp (outside_offer fr b).isLocal

theorem sees_ownFrame (n : ParcelNo) (kd : Kind) (p : ParcelNo) (it : ItemNo) (l : List Byte) :
    Sees n (fun X => ownFrame X kd p it l) := .outside n _ fun _ _ _ _ => rfl

end Sys2Proof.Machine
end

