-- ==== Sys2Proof/Laws/Parts.lean ====
section
/-! SUPPORT. A second duty is its parts sent one by one, in the order of R108: each part is work on one parcel, and the
write-throughs at the end of the whole duty come to those at the end of each part (R112, R113). -/

namespace Sys2Proof.Machine

variable {s t X Y : State} {n m : ParcelNo} {i j : ContextId} {e : DirEntry} {c : OpenContext} {r q : ParcelRecord}
  {f g : State → State}

/-! ## The operations of a part -/

theorem postState_local (n : ParcelNo) (cause : NoticeCause) : Local n (fun X => postState n cause X) :=
  (Local.bind' (Sees.working n n) (k := fun w X => match w with | some r => X.post (stateNotice r cause) | none => X)
    fun w => by
      cases w with
      | none => exact .id
      | some r => exact (outside_post _).isLocal).congr fun X => by unfold postState; cases X.working n <;> rfl

theorem changeState_local (n : ParcelNo) {f : ParcelRecord → ParcelRecord} (hf : ∀ r, (f r).number = r.number) (cause) :
    Local n (fun X => changeState n f cause X) :=
  (markWrite_local n).comp ((postState_local n cause).comp (modify_local n hf))

theorem setAlarm_local (n : ParcelNo) (a : AlarmRecord) : Local n (fun X => setAlarm n a X) := modify_local n fun _ => rfl

theorem offerAlarm_sees (n : ParcelNo) : Sees n (fun X => (offerAlarm n X).1) := by
  have h := (Sees.working n n).both (Sees.outside n (fun X : State => (X.line, X.sup)) fun _ _ _ _ => rfl)
  have key : ∀ X Y : State, X.working n = Y.working n → X.line = Y.line → X.sup = Y.sup →
      (offerAlarm n X).1 = (offerAlarm n Y).1 := by
    intro X Y h1 h2 h3
    unfold offerAlarm
    rw [h1]
    cases Y.working n with
    | none => rfl
    | some r =>
      have : ownFrame X .alarm n 0#6 (alarmPayload r) = ownFrame Y .alarm n 0#6 (alarmPayload r) := by
        simp only [ownFrame, State.station, h3]
      dsimp only
      rw [this]
      exact (offer_line_congr _ _ h2).1
  exact ⟨fun X => key _ _ (bare_working X n) rfl rfl, fun X m hX hm => key _ _ (writeThrough_working X m n)
    (apart_line (writeThrough_apart X m)) (apart_sup (writeThrough_apart X m))⟩

theorem offerAlarm_local (n : ParcelNo) : Local n (fun X => (offerAlarm n X).2) :=
  (Local.bind' (Sees.working n n)
    (k := fun w X => match w with
      | none => X
      | some r => (offer (ownFrame X .alarm n 0#6 (alarmPayload r)) false X).2.modify n
          (fun r' => { r' with alarmOwed := (offer (ownFrame X .alarm n 0#6 (alarmPayload r)) false X).1.isRefused }))
    fun w => by
      cases w with
      | none => exact .id
      | some r =>
        exact offered_local (fun X => ownFrame X .alarm n 0#6 (alarmPayload r)) (sees_ownFrame n _ _ _ _) false
          (k := fun an X => X.modify n (fun r' => { r' with alarmOwed := an.isRefused })) fun an =>
            modify_local n fun _ => rfl).congr fun X => by unfold offerAlarm; cases X.working n <;> rfl

theorem postAlarm_local (n : ParcelNo) (raised : Bool) (fate : FrameFate) : Local n (fun X => postAlarm n raised fate X) :=
  (Local.bind' (Sees.working n n)
    (k := fun w X => match w with
      | none => X
      | some r => X.post (if raised then .alarmRaised n fate (heldDelta r) else .alarmCleared n fate (heldDelta r)))
    fun w => by
      cases w with
      | none => exact .id
      | some r => exact (outside_post _).isLocal).congr fun X => by unfold postAlarm; cases X.working n <;> rfl

theorem moveAlarm_local (n : ParcelNo) (raised : Bool) : Local n (fun X => moveAlarm n raised X) :=
  Local.bind' ((offerAlarm_sees n).comp (setAlarm_local n { conditionSince := none, raised := raised, clearSince := none }))
    (k := fun an X => (postAlarm n raised (fateOf an)
      (offerAlarm n (setAlarm n { conditionSince := none, raised := raised, clearSince := none } X)).2).markWrite n)
    fun an => (markWrite_local n).comp ((postAlarm_local n raised (fateOf an)).comp
      ((offerAlarm_local n).comp (setAlarm_local n _)))

theorem testPersistence_local (n : ParcelNo) : Local n (fun X => testPersistence n X) :=
  (Local.bind' ((Sees.dirFind n n).both (Sees.outside n (fun X : State => X.now) fun _ _ _ _ => rfl))
    (k := fun w X => match w.1 with
      | none => X
      | some e => match e.persistence with
        | none => X
        | some c => if persistenceRunsOut w.2 c then moveAlarm n (c.tag == .condition) X else X)
    fun w => by
      obtain ⟨d, now⟩ := w
      cases d with
      | none => exact .id
      | some e =>
        dsimp only
        cases e.persistence with
        | none => exact .id
        | some c => dsimp only; split; exact moveAlarm_local n _; exact .id).congr fun X => by
          unfold testPersistence; cases X.dirFind n <;> rfl

theorem clearAlarmSilently_local (n : ParcelNo) : Local n (fun X => clearAlarmSilently n X) :=
  (Local.bind' (Sees.working n n)
    (k := fun w X => match w with
      | none => X
      | some r => if r.alarm.raised then (postAlarm n false .noneOffered (setAlarm n quietAlarm X)).markWrite n
          else setAlarm n quietAlarm X)
    fun w => by
      cases w with
      | none => exact .id
      | some r =>
        dsimp only
        split
        · exact (markWrite_local n).comp ((postAlarm_local n _ _).comp (setAlarm_local n _))
        · exact setAlarm_local n _).congr fun X => by unfold clearAlarmSilently; cases X.working n <;> rfl

theorem unbind_local (n : ParcelNo) : Local n (fun X => unbind n X) :=
  Local.comp (g := fun X => X.modify n (fun r => { r with roster := clearBindings r.roster }))
    (f := fun X => X.setAcc (unbindParcel n X.acc)) (modify_local n fun _ => rfl) (Outside.isLocal fun _ _ _ _ => rfl)

theorem unbindIfBound_local (n : ParcelNo) : Local n (fun X => unbindIfBound n X) :=
  (Local.bind' (Sees.working n n)
    (k := fun w X => match w with | some r => if r.state.isBound then unbind n X else X | none => X)
    fun w => by
      cases w with
      | none => exact .id
      | some r => dsimp only; split; exact unbind_local n; exact .id).congr fun X => by
        unfold unbindIfBound; cases X.working n <;> rfl

theorem enterVoid_local (n : ParcelNo) (why : VoidReason) (cause : NoticeCause) :
    Local n (fun X => enterVoid n why cause X) :=
  (setHalf_local n false).comp ((changeState_local n (f := toVoid why) (fun _ => rfl) cause).comp
    ((unbindIfBound_local n).comp (clearAlarmSilently_local n)))

theorem enterLapsed_local (n : ParcelNo) : Local n (fun X => enterLapsed n X) :=
  (setHalf_local n false).comp
    (changeState_local n (f := fun r => { r with state := .lapsed, windowStart := none }) (fun _ => rfl) _)

theorem refuse_local (n k : ParcelNo) (src : Station) (reason : RefusalReason) : Local n (fun X => refuse k src reason X) :=
  offered_local (fun X => ownFrame X .alarm k 1#6 ([declareRefusedCode, reason.code] ++ be32 0#32)) (sees_ownFrame n _ _ _ _)
    false (k := fun an X => X.post (.declareRefused k src reason an.isIn)) fun an => (outside_post _).isLocal

theorem declareConflict_local (n k : ParcelNo) (src : Station) (held : ParcelState) :
    Local n (fun X => declareConflict k src held X) := ((outside_post _).comp (outside_bump _)).isLocal

theorem setItem_local (n : ParcelNo) (k : Nat) (F : RosterItem → RosterItem) : Local n (fun X => X.setItem n k F) :=
  modify_local n fun _ => rfl

theorem offerRequest_local (n : ParcelNo) (k : Nat) : Local n (fun X => offerRequest n X k) :=
  (Local.bind' (Sees.working n n)
    (k := fun w X => match w with
      | none => X
      | some r => match r.roster[k]? with
        | none => X
        | some i =>
          if i.closing.isNone && !i.requestIssued then
            let o := offer (ownFrame X .request n (BitVec.ofNat 6 k) (requestPayload r.round i)) false X
            if o.1.isRefused then o.2 else o.2.setItem n k (fun i => { i with requestIssued := true })
          else X)
    fun w => by
      cases w with
      | none => exact .id
      | some r =>
        dsimp only
        cases r.roster[k]? with
        | none => exact .id
        | some i =>
          dsimp only
          split
          · exact offered_local (fun X => ownFrame X .request n (BitVec.ofNat 6 k) (requestPayload r.round i))
              (sees_ownFrame n _ _ _ _) false
              (k := fun an X => if an.isRefused then X else X.setItem n k (fun i => { i with requestIssued := true }))
              fun an => by split; exact .id; exact setItem_local n k _
          · exact .id).congr fun X => by unfold offerRequest; cases X.working n <;> rfl

theorem offerRequests_local (n : ParcelNo) : Local n (fun X => offerRequests n X) :=
  (Local.bind' (Sees.working n n)
    (k := fun w X => match w with
      | none => X
      | some r => (List.range r.roster.length).foldl (offerRequest n) X)
    fun w => by
      cases w with
      | none => exact .id
      | some r => exact Local.fold _ (offerRequest_local n) _).congr fun X => by
        unfold offerRequests; cases X.working n <;> rfl

/-! ## The parts -/

theorem sees_clock (n : ParcelNo) : Sees n (fun X => X.now) := .outside n _ fun _ _ _ _ => rfl

theorem sees_restart (n : ParcelNo) : Sees n (fun X => X.eng.windowRestart) :=
  ⟨fun _ => rfl, fun X m _ _ => apart_restart (writeThrough_apart X m)⟩

theorem restartWindow_local (n : ParcelNo) : Local n (fun X => restartWindow X n) :=
  (Local.bind' ((Sees.dirFind n n).both (sees_clock n))
    (k := fun w X => match w.1 with
      | some e => if inWindow e then (((X.openParcel n).modify n (restartRecord w.2))).setHalf n false else X
      | none => X)
    fun w => by
      obtain ⟨d, now⟩ := w
      cases d with
      | none => exact .id
      | some e =>
        dsimp only
        split
        · exact (setHalf_local n false).comp
            ((modify_local n (f := restartRecord now) fun _ => rfl).comp (openParcel_local n))
        · exact .id).congr fun X => by unfold restartWindow; cases X.dirFind n <;> rfl

theorem expireWindow_local (n : ParcelNo) : Local n (fun X => expireWindow n X) :=
  (Local.bind' ((Sees.dirFind n n).both ((sees_clock n).both (sees_restart n)))
    (k := fun w X => match w.1 with
      | some e => if !w.2.2 && expiryDue w.2.1 e then enterLapsed n (X.openParcel n) else X
      | none => X)
    fun w => by
      obtain ⟨d, now, b⟩ := w
      cases d with
      | none => exact .id
      | some e =>
        dsimp only
        split
        · exact (enterLapsed_local n).comp (openParcel_local n)
        · exact .id).congr fun X => by unfold expireWindow; cases X.dirFind n <;> rfl

theorem passHalf_local (n : ParcelNo) : Local n (fun X => passHalf n X) :=
  (Local.bind' ((Sees.dirFind n n).both ((sees_clock n).both (sees_restart n)))
    (k := fun w X => match w.1 with
      | some e =>
        if !w.2.2 && !expiryDue w.2.1 e && halfDue w.2.1 e then offerRequests n ((X.openParcel n).setHalf n true) else X
      | none => X)
    fun w => by
      obtain ⟨d, now, b⟩ := w
      cases d with
      | none => exact .id
      | some e =>
        dsimp only
        split
        · exact (offerRequests_local n).comp ((setHalf_local n true).comp (openParcel_local n))
        · exact .id).congr fun X => by unfold passHalf; cases X.dirFind n <;> rfl

theorem persistenceTest_local (n : ParcelNo) : Local n (fun X => persistenceTest n X) :=
  (Local.bind' ((Sees.dirFind n n).both (sees_clock n))
    (k := fun w X => match w.1 with
      | some e => if persistenceDue w.2 e then testPersistence n (X.openParcel n) else X
      | none => X)
    fun w => by
      obtain ⟨d, now⟩ := w
      cases d with
      | none => exact .id
      | some e =>
        dsimp only
        split
        · exact (testPersistence_local n).comp (openParcel_local n)
        · exact .id).congr fun X => by unfold persistenceTest; cases X.dirFind n <;> rfl

/-! ## The writes at the end of a service -/

theorem writeThroughs_bare {A B : State} (h : A.bare = B.bare) (l : List ParcelNo) :
    (l.foldl State.writeThrough A).bare = (l.foldl State.writeThrough B).bare := by
  induction l generalizing A B with
  | nil => exact h
  | cons m l ih => exact ih (by rw [← writeThrough_bare A, h, writeThrough_bare])

theorem writeThroughs_coherent (h : X.Coherent) (l : List ParcelNo) : (l.foldl State.writeThrough X).Coherent := by
  induction l generalizing X with
  | nil => exact h
  | cons m l ih => exact ih (writeThrough_coherent h m)

theorem Local.swaps (hf : Local n f) (h : X.Coherent) (l : List ParcelNo) (hl : n ∉ l) :
    (f (l.foldl State.writeThrough X)).bare = (l.foldl State.writeThrough (f X)).bare := by
  induction l generalizing X with
  | nil => rfl
  | cons m l ih =>
    refine (ih (writeThrough_coherent h m) (fun hx => hl (List.mem_cons_of_mem _ hx))).trans ?_
    exact writeThroughs_bare (hf.swap X m h (fun hx => hl (hx ▸ List.mem_cons_self))) l

theorem Local.sames (hf : Local n f) (h : X.Coherent) (l : List ParcelNo) (hl : n ∉ l) :
    (f (l.foldl State.writeThrough X).bare).eng.dueWrites = (f X.bare).eng.dueWrites := by
  induction l generalizing X with
  | nil => rfl
  | cons m l ih =>
    refine (ih (writeThrough_coherent h m) (fun hx => hl (List.mem_cons_of_mem _ hx))).trans ?_
    exact hf.same X m h (fun hx => hl (hx ▸ List.mem_cons_self))

theorem writeThrough_comm (h : X.Coherent) (hm : m ≠ n) :
    ((X.writeThrough m).writeThrough n).bare = ((X.writeThrough n).writeThrough m).bare := by
  have hd := fun k => writeThrough_dirFind X k
  by_cases ho : ∃ e i, X.dirFind n = some e ∧ e.context = some i
  · obtain ⟨e, i, he, hi⟩ := ho
    by_cases hom : ∃ e i, X.dirFind m = some e ∧ e.context = some i
    · obtain ⟨e', j, he', hj⟩ := hom
      have hij : i ≠ j := by
        rintro rfl
        obtain ⟨c, hc, hn⟩ := h.opened n e i he hi
        obtain ⟨c', hc', hn'⟩ := h.opened m e' i he' hj
        rw [hc] at hc'
        obtain rfl := Option.some.inj hc'
        exact hm (hn'.symm.trans hn)
      rw [writeThrough_opened (X := X.writeThrough m) (by rw [hd]; exact he) hi,
        writeThrough_opened (X := X.writeThrough n) (by rw [hd]; exact he') hj, writeThrough_opened he hi,
        writeThrough_opened he' hj, writeBack_comm h hij]
    · have hc : ∀ Z : State, Z.dirFind = X.dirFind → Z.writeThrough m = Z := fun Z hZ =>
        writeThrough_closed fun e' he' => by
          rw [hZ] at he'
          cases hj : e'.context with
          | none => rfl
          | some j => exact absurd ⟨e', j, he', hj⟩ hom
      rw [hc X rfl, hc _ (hd n)]
  · have hc : ∀ Z : State, Z.dirFind = X.dirFind → Z.writeThrough n = Z := fun Z hZ =>
      writeThrough_closed fun e' he' => by
        rw [hZ] at he'
        cases hj : e'.context with
        | none => rfl
        | some j => exact absurd ⟨e', j, he', hj⟩ ho
    rw [hc X rfl, hc _ (hd m)]

theorem writeThrough_last (h : X.Coherent) (l : List ParcelNo) (hl : n ∉ l) :
    (l.foldl State.writeThrough (X.writeThrough n)).bare = ((l.foldl State.writeThrough X).writeThrough n).bare := by
  induction l generalizing X with
  | nil => rfl
  | cons m l ih =>
    have hm : m ≠ n := fun hx => hl (hx ▸ List.mem_cons_self)
    have h1 := ih (X := X.writeThrough m) (writeThrough_coherent h m) (fun hx => hl (List.mem_cons_of_mem _ hx))
    refine Eq.trans ?_ h1
    exact writeThroughs_bare (writeThrough_comm h (Ne.symm hm)) l

/-- One number more among the due ones is one write-through more at the end. -/
theorem writeThroughs_more (h : X.Coherent) (P : ParcelNo → Bool) (hP : P n = false) (l : List ParcelNo) (hl : l.Nodup)
    (hn : n ∈ l) : ((l.filter (fun k => k == n || P k)).foldl State.writeThrough X).bare =
      (((l.filter P).foldl State.writeThrough X).writeThrough n).bare := by
  induction l generalizing X with
  | nil => cases hn
  | cons a l ih =>
    obtain ⟨ha, hl⟩ := List.nodup_cons.1 hl
    by_cases han : a = n
    · subst han
      have : l.filter (fun k => k == a || P k) = l.filter P := by
        refine List.filter_congr fun k hk => ?_
        have : (k == a) = false := by simp only [beq_eq_false_iff_ne]; rintro rfl; exact ha hk
        rw [this]; rfl
      rw [List.filter_cons_of_pos (by simp), List.filter_cons_of_neg (by simp [hP]), this, List.foldl_cons]
      exact writeThrough_last h _ fun hx => ha (List.mem_filter.1 hx).1
    · have hn : n ∈ l := (List.mem_cons.1 hn).resolve_left (Ne.symm han)
      have hk : (a == n) = false := by simpa using han
      by_cases hPa : P a = true
      · rw [List.filter_cons_of_pos (by simp [hPa]), List.filter_cons_of_pos hPa]
        exact ih (writeThrough_coherent h a) hl hn
      · rw [List.filter_cons_of_neg (by simp [hk, hPa]), List.filter_cons_of_neg hPa]
        exact ih h hl hn

/-- The numbers that a service writes through. -/
def State.dueNumbers (X : State) : List ParcelNo := allNumbers.filter (fun n => X.eng.dueWrites.contains n)

theorem finishWrites_bare (X : State) : X.finishWrites.bare = (X.dueNumbers.foldl State.writeThrough X).bare := rfl

theorem finishWrites_due (X : State) : X.finishWrites.eng.dueWrites = [] := rfl

/-- The writes after the work of a part and those at the end of the whole come to the same. -/
theorem finishWrites_local (hf : Local n f) (hX : X.Coherent) (hn : n ∉ X.eng.dueWrites)
    (hY : Y.bare = X.finishWrites.bare) (hd : Y.eng.dueWrites = []) : (f Y).finishWrites.bare = (f X).finishWrites.bare := by
  have hnD : n ∉ X.dueNumbers := by
    intro hx; have := (List.mem_filter.1 hx).2; simp at this; exact hn this
  have hYD : Y.bare = (X.dueNumbers.foldl State.writeThrough X).bare := hY
  have e1 : (f Y).bare = (X.dueNumbers.foldl State.writeThrough (f X)).bare :=
    (hf.eq_of_bare hYD).trans (hf.swaps hX _ hnD)
  have e2 : (f Y).eng.dueWrites = (f X.bare).eng.dueWrites := by
    rw [hf.due, hd, List.append_nil, hYD, hf.sames hX _ hnD]
  have e3 : (f X).eng.dueWrites = (f X.bare).eng.dueWrites ++ X.eng.dueWrites := hf.due X
  rw [finishWrites_bare, finishWrites_bare]
  refine (writeThroughs_bare e1 _).trans ?_
  by_cases hμ : n ∈ (f X.bare).eng.dueWrites ∧ n ∈ allNumbers
  · have h1 : (f Y).dueNumbers = [n] := by
      have := due_one (n := n) (f Y).eng.dueWrites (by rintro rfl; exact absurd hμ.2 (by decide)) (by
        intro k; rw [e2]; exact ⟨hf.mine X k, fun hk => hk ▸ hμ.1⟩)
      exact this
    have h2 : (f X).dueNumbers = allNumbers.filter (fun k => k == n || X.eng.dueWrites.contains k) := by
      refine List.filter_congr fun k _ => ?_
      rw [e3, Bool.eq_iff_iff]
      simp only [List.contains_iff_mem, List.mem_append, Bool.or_eq_true, beq_iff_eq]
      exact or_congr_left ⟨hf.mine X k, fun hk => hk ▸ hμ.1⟩
    rw [h1, h2]
    exact (writeThroughs_more (hf.coherent X hX) _ (by simpa using hn) _ (by decide) hμ.2).symm
  · have hmem : ∀ k ∈ allNumbers, k ∉ (f X.bare).eng.dueWrites := by
      intro k hk hx
      have := hf.mine X k hx
      subst this
      exact hμ ⟨hx, hk⟩
    have h1 : (f Y).dueNumbers = [] := by
      refine List.filter_eq_nil_iff.2 fun k hk => ?_
      rw [e2]; simpa using hmem k hk
    have h2 : (f X).dueNumbers = X.dueNumbers := by
      refine List.filter_congr fun k hk => ?_
      rw [e3, Bool.eq_iff_iff]
      simp only [List.contains_iff_mem, List.mem_append]
      exact ⟨fun h => h.resolve_left (hmem k hk), .inr⟩
    rw [h1, h2]; rfl

/-! ## What a service of the second duty keeps -/

/-- What no part of the second duty changes. -/
def SameFrame (s t : State) : Prop :=
  t.sup = s.sup ∧ t.tmr = s.tmr ∧ t.eng.checkpointPending = s.eng.checkpointPending ∧
    t.eng.dutyPending = s.eng.dutyPending ∧ t.eng.starvation = s.eng.starvation

theorem sameFrame_closed (s : State) : EngineClosed (SameFrame s) where
  eng x h _ g := ⟨g.1, g.2.1, h.2.1.trans g.2.2.1, h.1.trans g.2.2.2.1, h.2.2.2.1.trans g.2.2.2.2⟩
  removed _ g := g
  admitted _ _ _ _ g := g
  put r g := by
    obtain ⟨x, l, h, -⟩ := storePut_eq _ r
    rw [h]; exact g
  delete _ g := g
  acc _ _ g := g
  post b g := ⟨(post_sup _ _).trans g.1, (post_tmr _ _).trans g.2.1, by rw [post_eng]; exact g.2.2⟩
  bump _ g := g
  offer f l g := ⟨(offer_sup f l _).trans g.1, (offer_tmr f l _).trans g.2.1, by rw [offer_eng]; exact g.2.2⟩
  withdraw _ g := g
  buffer b a g := by match b with | 0 => exact g | 1 => exact g
  hear _ g := g
  restart g := g

/-! ## A second duty in its parts -/

/-- A parcel whose write-through is due is in VOID or LAPSED, where no test of the second duty finds it due, or its
tests have been made. -/
structure DueSettled (done : List ParcelNo) (X : State) : Prop where
  none : X.dirFind 0#4 = none
  due : ∀ k ∈ X.eng.dueWrites, k ≠ 0#4 ∧
    (k ∈ done ∨ (X.dirFind k).map DirEntry.state = some .void ∨ (X.dirFind k).map DirEntry.state = some .lapsed)

/-- Y has made the same parts as X one by one, with the write-throughs after each. -/
structure InStep (s Y X : State) : Prop where
  bare : Y.bare = X.finishWrites.bare
  due : Y.eng.dueWrites = []
  coherent : X.Coherent
  frame : SameFrame s Y

theorem finishWrites_sees {α : Type} {a : State → α} (hb : ∀ X, a X.bare = a X)
    (hw : ∀ X m, a (X.writeThrough m) = a X) (X : State) : a X.finishWrites = a X := by
  rw [← hb, finishWrites_bare, hb]
  generalize X.dueNumbers = l
  induction l generalizing X with
  | nil => rfl
  | cons m l ih => exact (ih (X.writeThrough m)).trans (hw X m)

theorem InStep.dirFind (h : InStep s Y X) : Y.dirFind = X.dirFind := by
  rw [← bare_dirFind Y, h.bare, bare_dirFind]
  exact finishWrites_sees (a := State.dirFind) (fun _ => rfl) writeThrough_dirFind X

theorem InStep.apart (h : InStep s Y X) : Y.bare.apart = X.bare.apart := by
  rw [h.bare]
  exact finishWrites_sees (a := fun X => X.bare.apart) (fun _ => rfl)
    (fun X m => congrArg State.bare (writeThrough_apart X m)) X

theorem InStep.seen {α : Type} (h : InStep s Y X) {a : State → α} (ha : ∀ X : State, a X.bare.apart = a X) :
    a Y = a X := by
  rw [← ha, h.apart, ha]

theorem InStep.buffer (h : InStep s Y X) (b : Fin 2) : Y.eng.buffer b = X.eng.buffer b :=
  h.seen (a := fun X => X.eng.buffer b) fun _ => by match b with | 0 => rfl | 1 => rfl

theorem InStep.tmr (h : InStep s Y X) : Y.tmr = X.tmr := h.seen (a := State.tmr) fun _ => rfl

theorem InStep.sup (h : InStep s Y X) : Y.sup = X.sup := h.seen (a := State.sup) fun _ => rfl

theorem InStep.restart (h : InStep s Y X) : Y.eng.windowRestart = X.eng.windowRestart :=
  h.seen (a := fun X => X.eng.windowRestart) fun _ => rfl

/-- Work on a parcel that is not due, and the writes after it. -/
theorem InStep.step (h : InStep s Y X) (hf : Local n f) (hk : SameFrame s Y → SameFrame s (f Y))
    (hn : n ∉ X.eng.dueWrites) (l : List StoreStep) : InStep s ((f Y).finishWrites.setStoreLog l) (f X) where
  bare := finishWrites_local hf h.coherent hn h.bare h.due
  due := rfl
  coherent := hf.coherent X h.coherent
  frame := (sameFrame_closed s).finishWrites (hk h.frame)

/-- A part that does nothing. -/
theorem InStep.stay (h : InStep s Y X) (l : List StoreStep) : InStep s (Y.finishWrites.setStoreLog l) X := by
  rw [finishWrites_none h.due]
  exact ⟨h.bare, h.due, h.coherent, h.frame⟩

theorem settled_other {done : List ParcelNo} (h : DueSettled done X) (hX : X.Coherent) (hf : Local n f) (h0 : n ≠ 0#4)
    (hn : ∀ k ∈ (f X).eng.dueWrites, k = n → k ∉ X.eng.dueWrites →
      n ∈ done ∨ ((f X).dirFind k).map DirEntry.state = some .void ∨
        ((f X).dirFind k).map DirEntry.state = some .lapsed) (hns : n ∉ X.eng.dueWrites) : DueSettled done (f X) where
  none := by
    have := hf.keeps X 0#4 hX (Ne.symm h0)
    rw [h.none] at this
    cases hd : (f X).dirFind 0#4 with
    | none => rfl
    | some e => rw [hd] at this; cases this
  due k hk := by
    by_cases hkn : k = n
    · refine ⟨hkn ▸ h0, ?_⟩
      have := hn k hk hkn (hkn ▸ hns)
      rcases this with h | h
      exacts [.inl (hkn ▸ h), .inr h]
    · have hk' : k ∈ X.eng.dueWrites := by
        rw [hf.due] at hk
        exact (List.mem_append.1 hk).resolve_left fun hx => hkn (hf.mine X k hx)
      rw [hf.keeps X k hX hkn]
      exact h.due k hk'

theorem settled_due {done : List ParcelNo} (h : DueSettled done X) (hn : n ∈ X.eng.dueWrites) (hd : n ∉ done) {e}
    (he : X.dirFind n = some e) :
    e.state = .void ∨ e.state = .lapsed := by
  have := ((h.due n hn).2.resolve_left hd)
  rw [he] at this
  simpa using this

/-! ## The parts one by one -/

/-- The arbiter chooses the second duty. -/
theorem arbiter_duty (hd : s.DutyChosen) : arbiter s = some .secondDuty := by
  simp [arbiter, hd.1, hd.2]

/-- A part of the second duty sent alone, under KEEP_OPEN. -/
theorem dutyPart_eq (f : State → State) (hd : s.DutyChosen) (hk : s.sup.straps.policy = .keepOpen) :
    dutyPart f s = (f s).finishWrites := by
  simp [dutyPart, arbiter_duty hd, burstClose, hk]

/-- The second duty is chosen on a released part under KEEP_OPEN. -/
def DutyReady (s : State) : Prop := s.sup.held = false ∧ s.DutyChosen ∧ s.sup.straps.policy = .keepOpen

theorem InStep.ready (h : InStep s Y X) (hs : DutyReady s) : DutyReady Y := by
  obtain ⟨f1, f2, f3, f4, f5⟩ := h.frame
  exact ⟨by rw [f1]; exact hs.1, ⟨f3.trans hs.2.1.1, f4.trans hs.2.1.2⟩, by rw [f1]; exact hs.2.2⟩

theorem exec_part (f : State → State) (hY : DutyReady Y) :
    asService (dutyPart f) Y = .next ((f Y).finishWrites.setStoreLog Y.storeLog) := by
  simp [asService, whenReleased, hY.1, dutyPart_eq _ hY.2.1 hY.2.2]

theorem expiryDue_state {now : Second} {e : DirEntry} (h : expiryDue now e = true) :
    e.state = .closing ∨ e.state = .reconciled := by
  simp only [expiryDue, inWindow, Bool.and_eq_true, Bool.or_eq_true, beq_iff_eq] at h; exact h.1

theorem halfDue_state {now : Second} {e : DirEntry} (h : halfDue now e = true) : e.state = .closing := by
  simp only [halfDue, Bool.and_eq_true, beq_iff_eq] at h; exact h.1.1

theorem persistenceDue_state {now : Second} {e : DirEntry} (h : persistenceDue now e = true) : e.state = .transfer := by
  simp only [persistenceDue, Bool.and_eq_true, beq_iff_eq] at h; exact h.1

theorem expireWindow_settled (hs : ∀ e, X.dirFind n = some e → e.state = .void ∨ e.state = .lapsed) :
    expireWindow n X = X := by
  unfold expireWindow
  split
  · rename_i e he
    rw [if_neg]
    intro h
    simp only [Bool.and_eq_true] at h
    rcases hs e he with h1 | h1 <;> rcases expiryDue_state h.2 with h2 | h2 <;> rw [h1] at h2 <;> cases h2
  · rfl

theorem passHalf_settled (hs : ∀ e, X.dirFind n = some e → e.state = .void ∨ e.state = .lapsed) :
    passHalf n X = X := by
  unfold passHalf
  split
  · rename_i e he
    rw [if_neg]
    intro h
    simp only [Bool.and_eq_true] at h
    have h2 := halfDue_state h.2
    rcases hs e he with h1 | h1 <;> rw [h1] at h2 <;> cases h2
  · rfl

theorem persistenceTest_settled (hs : ∀ e, X.dirFind n = some e → e.state = .void ∨ e.state = .lapsed) :
    persistenceTest n X = X := by
  unfold persistenceTest
  split
  · rename_i e he
    rw [if_neg]
    intro h
    have h2 := persistenceDue_state h
    rcases hs e he with h1 | h1 <;> rw [h1] at h2 <;> cases h2
  · rfl

theorem restartWindow_settled (hs : ∀ e, X.dirFind n = some e → e.state = .void ∨ e.state = .lapsed) :
    restartWindow X n = X := by
  unfold restartWindow
  split
  · rename_i e he
    rw [if_neg]
    intro h
    simp only [inWindow, Bool.or_eq_true, beq_iff_eq] at h
    rcases hs e he with h1 | h1 <;> rcases h with h2 | h2 <;> rw [h1] at h2 <;> cases h2
  · rfl

/-! ## An open parcel stays open -/

/-- The parcel is open in some context. -/
def State.Opened (X : State) (n : ParcelNo) : Prop := ∃ i e c, X.OpenWith n i e c

theorem opened_openParcel (h : X.Coherent) (hd : X.dirFind n = some e) : (X.openParcel n).Opened n := by
  obtain ⟨-, -, i, e', c, ho, -⟩ := h.openParcel hd
  exact ⟨i, e', c, ho⟩

namespace State.Opened

theorem congr (h : X.Opened n) (g : SameRecords X Y) : Y.Opened n := by
  obtain ⟨i, e, c, h⟩ := h; exact ⟨i, e, c, h.congr g⟩

theorem modify (h : X.Opened n) {f : ParcelRecord → ParcelRecord} (hf : ∀ r, (f r).number = r.number) :
    (X.modify n f).Opened n := by
  obtain ⟨i, e, c, h⟩ := h
  exact ⟨i, _, _, h.modify f ((hf _).trans h.2.2.2)⟩

theorem post (h : X.Opened n) (b) : (X.post b).Opened n := h.congr (post_sameRecords _ _)

theorem markWrite (h : X.Opened n) (k) : (X.markWrite k).Opened n := h.congr (markWrite_sameRecords _ _)

theorem postAlarm (h : X.Opened n) (k b ft) : (postAlarm k b ft X).Opened n := by
  unfold Machine.postAlarm
  split
  · exact h
  · exact h.post _

theorem setAlarm (h : X.Opened n) (a) : (setAlarm n a X).Opened n :=
  h.modify (f := fun r => { r with alarm := a }) fun _ => rfl

theorem clearAlarmSilently (h : X.Opened n) : (clearAlarmSilently n X).Opened n := by
  unfold Machine.clearAlarmSilently
  split
  · exact h
  · split
    · exact ((h.setAlarm _).postAlarm _ _ _).markWrite _
    · exact h.setAlarm _

theorem unbindIfBound (h : X.Opened n) : (unbindIfBound n X).Opened n := by
  unfold Machine.unbindIfBound
  split
  · split
    · exact (h.congr (Y := X.setAcc (unbindParcel n X.acc)) (.of_eng rfl rfl)).modify
        (f := fun r => { r with roster := clearBindings r.roster }) fun _ => rfl
    · exact h
  · exact h

/-- A change of state shows in the directory. -/
theorem changeState_state (h : X.Opened n) {f : ParcelRecord → ParcelRecord} (hf : ∀ r, (f r).number = r.number)
    {st : ParcelState} (hs : ∀ r, (f r).state = st) (cause) : ((changeState n f cause X).dirFind n).map DirEntry.state = some st := by
  obtain ⟨i, e, c, h⟩ := h
  have hm := h.modify f ((hf _).trans h.2.2.2)
  have hd : (changeState n f cause X).dirFind n = (X.modify n f).dirFind n := by
    unfold changeState postState
    rw [(markWrite_sameRecords _ _).dirFind]
    split
    · rw [(post_sameRecords _ _).dirFind]
    · rfl
  rw [hd, hm.1]
  show some (f c.record).state = _
  rw [hs]

end State.Opened

theorem setHalf_state (X : State) (n m) (b) :
    ((X.setHalf n b).dirFind m).map DirEntry.state = (X.dirFind m).map DirEntry.state := by
  rw [setHalf_dirFind]
  split
  · rw [Option.map_map]; rfl
  · rfl

theorem enterLapsed_state (h : X.Opened n) : ((enterLapsed n X).dirFind n).map DirEntry.state = some .lapsed :=
  (setHalf_state _ _ _ _).trans (h.changeState_state (f := fun r => { r with state := .lapsed, windowStart := none })
    (fun _ => rfl) (fun _ => rfl) _)

theorem enterVoid_state (h : X.Opened n) (why cause) :
    ((enterVoid n why cause X).dirFind n).map DirEntry.state = some .void :=
  (setHalf_state _ _ _ _).trans
    (h.clearAlarmSilently.unbindIfBound.changeState_state (f := toVoid why) (fun _ => rfl) (fun _ => rfl) _)

/-! ## Parts that mark nothing -/

theorem openParcel_due (X : State) (n) : (X.openParcel n).eng.dueWrites = X.eng.dueWrites := apart_due (openParcel_apart X n)

theorem modify_due (X : State) (n f) : (X.modify n f).eng.dueWrites = X.eng.dueWrites := apart_due (modify_apart X n f)

theorem offerRequest_due (X : State) (n k) : (offerRequest n X k).eng.dueWrites = X.eng.dueWrites := by
  unfold offerRequest
  repeat' split
  · rfl
  · rfl
  · dsimp only
    split
    · rw [offer_eng]
    · rw [State.setItem, modify_due, offer_eng]
  · rfl

theorem offerRequests_due (X : State) (n) : (offerRequests n X).eng.dueWrites = X.eng.dueWrites := by
  unfold offerRequests
  split
  · rfl
  · rename_i r hr
    clear hr
    generalize List.range r.roster.length = l
    induction l generalizing X with
    | nil => rfl
    | cons k l ih => exact (ih _).trans (offerRequest_due _ _ _)

theorem passHalf_due (X : State) (n) : (passHalf n X).eng.dueWrites = X.eng.dueWrites := by
  unfold passHalf
  repeat' split
  · rw [offerRequests_due]; exact openParcel_due X n
  all_goals rfl

theorem restartWindow_due (X : State) (n) : (restartWindow X n).eng.dueWrites = X.eng.dueWrites := by
  unfold restartWindow
  repeat' split
  · exact (modify_due _ _ _).trans (openParcel_due X n)
  all_goals rfl

/-! ## The steps of a second duty -/

/-- Both ways stand at the same point of the duty, with what is due settled. -/
def DutyAt (s : State) (done : List ParcelNo) (Y X : State) : Prop := InStep s Y X ∧ DueSettled done X

theorem restartDue_eq (X : State) :
    restartDue X = (X.eng.windowRestart && decide (X.sup.straps.listen.seconds ≤ X.tmr.seconds.toNat)) := rfl

/-- WINDOW_EXPIRY of the next parcel, as a part and in the duty. -/
theorem expire_step {done : List ParcelNo} (h : DutyAt s done Y X) (hs : DutyReady s) (h0 : n ≠ 0#4) (hn : n ∉ done) :
    ∃ Y', exec (.windowExpiry n) Y = .next Y' ∧ DutyAt s done Y' (expireWindow n X) := by
  obtain ⟨h, hd⟩ := h
  refine ⟨_, exec_part _ (h.ready hs), ?_⟩
  by_cases hdue : n ∈ X.eng.dueWrites
  · have hst := fun e he => settled_due (e := e) hd hdue hn he
    rw [expireWindow_settled hst, expireWindow_settled (X := Y) (by rw [h.dirFind]; exact hst)]
    exact ⟨h.stay _, hd⟩
  · refine ⟨h.step (expireWindow_local n) (fun g => (sameFrame_closed s).expireWindow n g) hdue _, ?_⟩
    refine settled_other hd h.coherent (expireWindow_local n) h0 (fun k hk hkn hkx => ?_) hdue
    subst hkn
    refine .inr (.inr ?_)
    revert hk
    unfold expireWindow
    split
    · rename_i e he
      split
      · intro _; exact enterLapsed_state (opened_openParcel h.coherent he)
      · intro hk; exact absurd hk hkx
    · intro hk; exact absurd hk hkx

theorem half_step {done : List ParcelNo} (h : DutyAt s done Y X) (hs : DutyReady s) (h0 : n ≠ 0#4) (hn : n ∉ done) :
    ∃ Y', exec (.halfWindowPass n) Y = .next Y' ∧ DutyAt s done Y' (passHalf n X) := by
  obtain ⟨h, hd⟩ := h
  refine ⟨_, exec_part _ (h.ready hs), ?_⟩
  by_cases hdue : n ∈ X.eng.dueWrites
  · have hst := fun e he => settled_due (e := e) hd hdue hn he
    rw [passHalf_settled hst, passHalf_settled (X := Y) (by rw [h.dirFind]; exact hst)]
    exact ⟨h.stay _, hd⟩
  · refine ⟨h.step (passHalf_local n) (fun g => (sameFrame_closed s).passHalf n g) hdue _, ?_⟩
    refine settled_other hd h.coherent (passHalf_local n) h0 (fun k hk _ hkx => ?_) hdue
    rw [passHalf_due] at hk
    exact absurd hk hkx

theorem persistence_step {done : List ParcelNo} (h : DutyAt s done Y X) (hs : DutyReady s) (h0 : n ≠ 0#4) (hn : n ∉ done) :
    ∃ Y', exec (.persistenceRunOut n) Y = .next Y' ∧ DutyAt s (done ++ [n]) Y' (persistenceTest n X) := by
  obtain ⟨h, hd⟩ := h
  have hd' : DueSettled (done ++ [n]) X :=
    ⟨hd.none, fun k hk => ⟨(hd.due k hk).1, (hd.due k hk).2.imp (List.mem_append_left _) id⟩⟩
  refine ⟨_, exec_part _ (h.ready hs), ?_⟩
  by_cases hdue : n ∈ X.eng.dueWrites
  · have hst := fun e he => settled_due (e := e) hd hdue hn he
    rw [persistenceTest_settled hst, persistenceTest_settled (X := Y) (by rw [h.dirFind]; exact hst)]
    exact ⟨h.stay _, hd'⟩
  · exact ⟨h.step (persistenceTest_local n) (fun g => (sameFrame_closed s).persistenceTest n g) hdue _,
      settled_other hd' h.coherent (persistenceTest_local n) h0 (fun _ _ _ _ => .inl (by simp)) hdue⟩

theorem runsTo_append (a b : List Instr) (s t : State) : RunsTo (a ++ b) s t ↔ ∃ u, RunsTo a s u ∧ RunsTo b u t := by
  induction a generalizing s with
  | nil => exact ⟨fun h => ⟨s, rfl, h⟩, fun ⟨u, hu, h⟩ => by cases hu; exact h⟩
  | cons c a ih =>
    constructor
    · rintro ⟨u, hu, h⟩
      obtain ⟨w, h1, h2⟩ := (ih u).1 h
      exact ⟨w, ⟨u, hu, h1⟩, h2⟩
    · rintro ⟨w, ⟨u, hu, h1⟩, h2⟩
      exact ⟨u, hu, (ih u).2 ⟨w, h1, h2⟩⟩

/-- The tests of the parcels still to come. -/
theorem parcels_run (l done : List ParcelNo) (hl : (done ++ l).Nodup) (h0 : ∀ n ∈ l, n ≠ 0#4) (h : DutyAt s done Y X)
    (hs : DutyReady s) :
    ∃ v, RunsTo (l.flatMap (fun n => [.windowExpiry n, .halfWindowPass n, .persistenceRunOut n])) Y v ∧
      DutyAt s (done ++ l) v (l.foldl dutyParcel X) := by
  induction l generalizing done Y X with
  | nil => exact ⟨Y, rfl, by simpa using h⟩
  | cons n l ih =>
    have hn : n ∉ done := fun hx => (List.nodup_append.1 hl).2.2 n hx n (by simp) rfl
    have h0n := h0 n (by simp)
    obtain ⟨Y1, e1, a1⟩ := expire_step h hs h0n hn
    obtain ⟨Y2, e2, a2⟩ := half_step a1 hs h0n hn
    obtain ⟨Y3, e3, a3⟩ := persistence_step a2 hs h0n hn
    obtain ⟨v, hv, av⟩ := ih (done ++ [n]) (by simpa using hl) (fun k hk => h0 k (by simp [hk])) a3
    rw [List.append_assoc] at av
    refine ⟨v, ?_, av⟩
    exact ⟨Y1, e1, Y2, e2, Y3, e3, hv⟩

/-! ## The restart of the windows -/

theorem InStep.stepUnmarked (h : InStep s Y X) (hf : Local n f) (hk : SameFrame s Y → SameFrame s (f Y))
    (hn : n ∉ X.eng.dueWrites) (hm : ∀ Z, (f Z).eng.dueWrites = Z.eng.dueWrites) : InStep s (f Y) (f X) := by
  have := h.step hf hk hn (f Y).storeLog
  have hd : (f Y).eng.dueWrites = [] := (hm Y).trans h.due
  rw [finishWrites_none hd] at this
  exact this

theorem restart_run (l : List ParcelNo) (h0 : ∀ n ∈ l, n ≠ 0#4) (h : DutyAt s [] Y X) :
    DutyAt s [] (l.foldl restartWindow Y) (l.foldl restartWindow X) := by
  induction l generalizing Y X with
  | nil => exact h
  | cons n l ih =>
    refine ih (fun k hk => h0 k (by simp [hk])) ?_
    obtain ⟨h, hd⟩ := h
    by_cases hdue : n ∈ X.eng.dueWrites
    · have hst := fun e he => settled_due (e := e) hd hdue List.not_mem_nil he
      rw [restartWindow_settled hst, restartWindow_settled (X := Y) (by rw [h.dirFind]; exact hst)]
      exact ⟨h, hd⟩
    · refine ⟨h.stepUnmarked (restartWindow_local n) (fun g => (sameFrame_closed s).restartWindow n g) hdue
        (fun Z => restartWindow_due Z n), ?_⟩
      refine settled_other hd h.coherent (restartWindow_local n) (h0 n (by simp)) (fun k hk _ hkx => ?_) hdue
      rw [restartWindow_due] at hk
      exact absurd hk hkx

theorem restartWindows_run (h : DutyAt s [] Y X) : DutyAt s [] (restartWindows Y) (restartWindows X) := by
  have hr : restartDue Y = restartDue X := by
    rw [restartDue_eq, restartDue_eq, h.1.restart, h.1.tmr, h.1.sup]
  unfold restartWindows
  rw [hr]
  split
  · have h1 := restart_run allNumbers (by decide) h
    generalize allNumbers.foldl restartWindow Y = V at h1 ⊢
    generalize allNumbers.foldl restartWindow X = U at h1 ⊢
    obtain ⟨h, hd⟩ := h1
    have h0 : (0#4) ∉ U.eng.dueWrites := fun hx => (hd.due _ hx).1 rfl
    exact ⟨h.stepUnmarked (restart_local 0#4) (fun g => (sameFrame_closed s).restart g) h0 (fun _ => rfl), hd.none, hd.due⟩
  · exact h

/-! ## The timeouts of the assembly buffers -/

/-- A failed assembly of a parcel held in DECLARED. -/
theorem failDeclared_local (n : ParcelNo) (src : Station) (st : ParcelState) : Local n (fun X =>
    if isAmendment n src (X.openParcel n) then refuse n src .assembly (enterVoid n .amendRefused .other (X.openParcel n))
    else declareConflict n src st (X.openParcel n)) := by
  have hs : Sees n (fun X => isAmendment n src X) := by
    have := (Sees.working n n).map (fun w : Option ParcelRecord => match w with
      | some r => r.state == ParcelState.declared && (match r.decl with | some d => d.declarer == src | none => false)
      | none => false)
    exact this
  refine Local.bind' (hs.comp (openParcel_local n)) (k := fun b X =>
    if b then refuse n src .assembly (enterVoid n .amendRefused .other (X.openParcel n))
    else declareConflict n src st (X.openParcel n)) fun b => ?_
  cases b
  · exact (declareConflict_local n n src st).comp (openParcel_local n)
  · exact (refuse_local n n src .assembly).comp ((enterVoid_local n _ _).comp (openParcel_local n))

theorem timeout_step (b : Fin 2) (h : DutyAt s [] Y X) (hs : DutyReady s) :
    ∃ Y', exec (.assemblyTimeout b) Y = .next Y' ∧ DutyAt s [] Y' (timeoutAssembly b X) := by
  obtain ⟨h, hd⟩ := h
  refine ⟨_, exec_part _ (h.ready hs), ?_⟩
  have hdueEq : assemblyDue b Y = assemblyDue b X := by
    unfold assemblyDue State.now
    rw [h.buffer, h.tmr]
  have h00 : (0#4) ∉ X.eng.dueWrites := fun hx => (hd.due _ hx).1 rfl
  have hkeep : SameFrame s Y → SameFrame s (timeoutAssembly b Y) := fun g => (sameFrame_closed s).timeoutAssembly b g
  by_cases hdue : assemblyDue b X = true
  · cases hb : X.eng.buffer b with
    | none => simp [assemblyDue, hb] at hdue
    | some a =>
      have hX : timeoutAssembly b X = failAssembly a.source a.parcel (X.setBuffer b none) := by
        simp [timeoutAssembly, hdue, hb]
      have hY : timeoutAssembly b Y = failAssembly a.source a.parcel (Y.setBuffer b none) := by
        simp [timeoutAssembly, hdueEq, hdue, h.buffer, hb]
      have hsb := fun Z : State => (setBuffer_sameRecords Z b none).dirFind a.parcel
      have hdb : (X.setBuffer b none).eng.dueWrites = X.eng.dueWrites := (setBuffer_rest X b none).2.2.2.2.2.2.2.2.2.2.1
      cases hp : X.dirFind a.parcel with
      | none =>
        have hf : Local 0#4 (fun Z => refuse a.parcel a.source .assembly (Z.setBuffer b none)) :=
          (refuse_local _ _ _ _).comp (setBuffer_local _ _ _)
        have eX : timeoutAssembly b X = refuse a.parcel a.source .assembly (X.setBuffer b none) := by
          rw [hX]; simp [failAssembly, hsb, hp]
        have eY : timeoutAssembly b Y = refuse a.parcel a.source .assembly (Y.setBuffer b none) := by
          rw [hY]; simp [failAssembly, hsb, h.dirFind, hp]
        rw [eY] at hkeep
        rw [eX, eY]
        refine ⟨h.step hf hkeep h00 _, ?_⟩
        have hdir : (refuse a.parcel a.source .assembly (X.setBuffer b none)).eng = (X.setBuffer b none).eng := by
          rw [refuse, post_eng, offer_eng]
        refine ⟨?_, ?_⟩
        · rw [dirFind_congr (congrArg Engine.directory hdir), (setBuffer_sameRecords X b none).dirFind]; exact hd.none
        · rw [hdir, hdb, dirFind_congr (congrArg Engine.directory hdir),
            dirFind_congr (setBuffer_sameRecords X b none).directory]
          exact hd.due
      | some e =>
        have h0 : a.parcel ≠ 0#4 := by rintro h0; rw [h0, hd.none] at hp; cases hp
        by_cases hst : e.state = .declared
        · have hnd : a.parcel ∉ X.eng.dueWrites := fun hx => by
            rcases settled_due hd hx List.not_mem_nil hp with h1 | h1 <;> rw [hst] at h1 <;> cases h1
          have hf := (failDeclared_local a.parcel a.source .declared).comp (setBuffer_local a.parcel b none)
          have eq : ∀ Z : State, Z.dirFind a.parcel = some e → failAssembly a.source a.parcel (Z.setBuffer b none) =
              (if isAmendment a.parcel a.source ((Z.setBuffer b none).openParcel a.parcel) then
                refuse a.parcel a.source .assembly
                  (enterVoid a.parcel .amendRefused .other ((Z.setBuffer b none).openParcel a.parcel))
              else declareConflict a.parcel a.source .declared ((Z.setBuffer b none).openParcel a.parcel)) := by
            intro Z hZ
            simp [failAssembly, openIfDeclared, hsb, hZ, hst]
          have eX := hX.trans (eq X hp)
          have eY := hY.trans (eq Y (by rw [h.dirFind]; exact hp))
          rw [eY] at hkeep
          rw [eX, eY]
          refine ⟨h.step hf hkeep hnd _, ?_⟩
          have hop : ((X.setBuffer b none).openParcel a.parcel).Opened a.parcel :=
            opened_openParcel (h.coherent.congr (setBuffer_sameRecords X b none)) ((hsb X).trans hp)
          have hrd : ∀ Z : State, (refuse a.parcel a.source .assembly Z).eng = Z.eng := fun Z => by
            rw [refuse, post_eng, offer_eng]
          have hset := settled_other hd h.coherent hf h0 (fun k hk hkn hkx => by
            subst hkn
            refine .inr (.inl ?_)
            revert hk
            show a.parcel ∈ (ite _ _ _ : State).eng.dueWrites → _
            split
            · intro _
              rw [dirFind_congr (congrArg Engine.directory (hrd _))]
              exact enterVoid_state hop _ _
            · intro hk
              rw [declareConflict, post_eng] at hk
              have := openParcel_due (X.setBuffer b none) a.parcel
              exact absurd (show a.parcel ∈ X.eng.dueWrites by rw [← hdb, ← this]; exact hk) hkx) hnd
          exact hset
        · have hf : Local 0#4 (fun Z => declareConflict a.parcel a.source e.state (Z.setBuffer b none)) :=
            (declareConflict_local _ _ _ _).comp (setBuffer_local _ _ _)
          have eX : timeoutAssembly b X = declareConflict a.parcel a.source e.state (X.setBuffer b none) := by
            rw [hX]; simp [failAssembly, openIfDeclared, hsb, hp, hst]
          have eY : timeoutAssembly b Y = declareConflict a.parcel a.source e.state (Y.setBuffer b none) := by
            rw [hY]; simp [failAssembly, openIfDeclared, hsb, h.dirFind, hp, hst]
          rw [eY] at hkeep
          rw [eX, eY]
          refine ⟨h.step hf hkeep h00 _, ?_⟩
          have hdir : (declareConflict a.parcel a.source e.state (X.setBuffer b none)).eng = (X.setBuffer b none).eng := by
            rw [declareConflict, post_eng]; rfl
          refine ⟨?_, ?_⟩
          · rw [dirFind_congr (congrArg Engine.directory hdir), (setBuffer_sameRecords X b none).dirFind]; exact hd.none
          · rw [hdir, hdb, dirFind_congr (congrArg Engine.directory hdir),
            dirFind_congr (setBuffer_sameRecords X b none).directory]
            exact hd.due
  · have e : ∀ Z, assemblyDue b Z = false → timeoutAssembly b Z = Z := fun Z hZ => by simp [timeoutAssembly, hZ]
    rw [e X (by simpa using hdue), e Y (by rw [hdueEq]; simpa using hdue)]
    exact ⟨h.stay _, hd⟩

/-! ## The whole duty -/

theorem windowRestart_closed (b : Bool) : RecordClosed (fun t => t.eng.windowRestart = b) where
  eng x h _ g := h.2.2.2.2.2.2.2.trans g
  removed _ g := g
  admitted _ _ _ _ g := g
  put r g := by
    obtain ⟨x, l, h, -⟩ := storePut_eq _ r
    rw [h]; exact g
  delete _ g := g
  acc _ _ g := g
  post b g := by rw [post_eng]; exact g
  bump _ g := g
  offer f l g := by rw [offer_eng]; exact g
  withdraw _ g := g

theorem timeoutAssembly_windowRestart (X : State) (b : Fin 2) :
    (timeoutAssembly b X).eng.windowRestart = X.eng.windowRestart := by
  unfold timeoutAssembly
  repeat' split
  · exact (windowRestart_closed _).failAssembly _ _ (by match b with | 0 => rfl | 1 => rfl)
  all_goals rfl

/-- States that `bare` shows alike differ only in what it leaves out. -/
theorem eq_of_bare {A B : State} (h : A.bare = B.bare) (l : List StoreStep) : A.setStoreLog l = { B with
    storeLog := l
    eng := { B.eng with
      dutyPending := A.eng.dutyPending, starvation := A.eng.starvation, dueWrites := A.eng.dueWrites } } := by
  cases A
  cases B
  rename_i e₁ _ _ _ _ _ _ _ _ _ e₂ _ _ _ _ _ _ _
  cases e₁
  cases e₂
  simp_all [State.bare, Engine.bare, State.setStoreLog]

/-- A second duty is its parts, made in the order of R108. -/
theorem secondDuty_parts (hs : DutyReady s) (hq : s.Quiet) (hc : s.Coherent) (h0 : s.dirFind 0#4 = none) :
    ∃ u v, RunsTo [.assemblyTimeout 0, .assemblyTimeout 1] s u ∧ (restartDue s = false → restartWindows u = u) ∧
      RunsTo parcelParts (restartWindows u) v ∧
      exec .secondDuty s = .next { v with
        storeLog := s.storeLog
        eng := { v.eng with dutyPending := false, starvation := s.starvationCounted } } := by
  obtain ⟨X0, hX0⟩ : ∃ X0, X0 = s.setEng { s.eng with dutyPending := false } := ⟨_, rfl⟩
  have hX0r : SameRecords s X0 := by subst hX0; exact ⟨rfl, fun j => by cases j <;> rfl, rfl⟩
  have hX0b : s.bare = X0.bare := by subst hX0; rfl
  have hX0d : X0.eng.dueWrites = [] := by subst hX0; exact hq.2.2
  have hX0w : X0.eng.windowRestart = s.eng.windowRestart := by subst hX0; rfl
  have a0 : DutyAt s [] s X0 := by
    refine ⟨⟨?_, hq.2.2, hc.congr hX0r, ⟨rfl, rfl, rfl, rfl, rfl⟩⟩,
      ⟨by rw [hX0r.dirFind]; exact h0, fun k hk => ?_⟩⟩
    · rw [finishWrites_none hX0d]; exact hX0b
    · rw [hX0d] at hk; cases hk
  obtain ⟨u0, e0, a1⟩ := timeout_step 0 a0 hs
  obtain ⟨u, e1, a2⟩ := timeout_step 1 a1 hs
  have a3 := restartWindows_run a2
  obtain ⟨v, hv, a4⟩ := parcels_run allNumbers [] (by decide) (by decide) a3 hs
  have hbody : dutyBody s = allNumbers.foldl dutyParcel (restartWindows (timeoutAssembly 1 (timeoutAssembly 0 X0))) := by
    rw [hX0]; rfl
  refine ⟨u, v, ⟨u0, e0, u, e1, rfl⟩, fun hr => ?_, hv, ?_⟩
  · have : restartDue u = false := by
      rw [← hr, restartDue_eq, restartDue_eq, a2.1.restart, timeoutAssembly_windowRestart, timeoutAssembly_windowRestart, hX0w,
        a2.1.frame.1, a2.1.frame.2.1]
    simp [restartWindows, this]
  · rw [exec_secondDuty hs.1 hs.2.1]
    have hframe : SameFrame X0 (dutyBody s) := by
      rw [hbody]
      exact (sameFrame_closed X0).dutyWork ⟨rfl, rfl, rfl, rfl, rfl⟩
    rw [← hbody] at a4
    have hcount : ∀ X : State, (countOther X).tmr = X.tmr := fun _ => rfl
    have hclock : (countOther (dutyBody s)).tmr = s.tmr := by rw [hcount, hframe.2.1, hX0]; rfl
    rw [serve, wholeService_quiet (body := fun s => countOther (dutyBody s)) hq hclock]
    generalize dutyBody s = X at *
    have hbare : (countOther X).finishWrites.bare = v.bare := by
      rw [a4.1.bare]
      exact writeThroughs_bare (A := countOther X) (B := X) rfl _
    obtain ⟨g1, g2, -, g4, g5⟩ :=
      (sameFrame_closed (countOther X)).finishWrites (s := countOther X) ⟨rfl, rfl, rfl, rfl, rfl⟩
    obtain ⟨f1, f2, -, f4, f5⟩ := hframe
    have hcs : (countOther X).sup = s.sup := f1.trans (by rw [hX0]; rfl)
    have hct : (countOther X).tmr = s.tmr := f2.trans (by rw [hX0]; rfl)
    rw [endService_quiet (by rw [hcs]; exact hs.2.2) (by rw [g2, hct]; exact hq.2.1) g1, eq_of_bare hbare]
    have k1 : (countOther X).finishWrites.eng.dutyPending = false := by
      rw [g4]; show X.eng.dutyPending = false; rw [f4, hX0]; rfl
    have k2 : (countOther X).finishWrites.eng.starvation = s.starvationCounted := by
      rw [g5]
      show X.eng.starvation.map countService = _
      rw [f5, hX0]
      exact starvation_counted s
    have k3 : v.eng.dueWrites = [] := a4.1.due
    rw [k1, k2, finishWrites_due, ← k3]

end Sys2Proof.Machine
end

