-- ==== Sys2Proof/Laws/PerInstr.lean ====
section
/-! SUPPORT. What holds of each command as syntax, one lemma per constructor: no row of the opcode table gives bits, so
no word spells a command (notes/assumptions/32.md). -/

namespace Sys2Proof.Laws.Row

/-- No word of any length spells the command. -/
def Statement (i : Instr) : Prop := ∀ nbits w : Nat, decodeTableWord nbits w ≠ some i

theorem receiveFrame (frame : LineFrame) : Statement (.receiveFrame frame) := by intro _ _ h; cases h
theorem withdrawnRecovery : Statement (.withdrawnRecovery) := by intro _ _ h; cases h
theorem attempt : Statement (.attempt) := by intro _ _ h; cases h
theorem contentionLost : Statement (.contentionLost) := by intro _ _ h; cases h
theorem attemptEnd (outcome : AttemptOutcome) : Statement (.attemptEnd outcome) := by intro _ _ h; cases h
theorem outboundDrop : Statement (.outboundDrop) := by intro _ _ h; cases h
theorem listenPeriodEnd : Statement (.listenPeriodEnd) := by intro _ _ h; cases h
theorem secondTick : Statement (.secondTick) := by intro _ _ h; cases h
theorem cycleStart : Statement (.cycleStart) := by intro _ _ h; cases h
theorem buildMoment : Statement (.buildMoment) := by intro _ _ h; cases h
theorem markEnd : Statement (.markEnd) := by intro _ _ h; cases h
theorem cycleEnd : Statement (.cycleEnd) := by intro _ _ h; cases h
theorem secondDuty : Statement (.secondDuty) := by intro _ _ h; cases h
theorem assemblyTimeout (buffer : Fin 2) : Statement (.assemblyTimeout buffer) := by intro _ _ h; cases h
theorem windowExpiry (parcel : ParcelNo) : Statement (.windowExpiry parcel) := by intro _ _ h; cases h
theorem halfWindowPass (parcel : ParcelNo) : Statement (.halfWindowPass parcel) := by intro _ _ h; cases h
theorem persistenceRunOut (parcel : ParcelNo) : Statement (.persistenceRunOut parcel) := by intro _ _ h; cases h
theorem checkpoint : Statement (.checkpoint) := by intro _ _ h; cases h
theorem burstEndClose : Statement (.burstEndClose) := by intro _ _ h; cases h
theorem starvation : Statement (.starvation) := by intro _ _ h; cases h
theorem intakeService : Statement (.intakeService) := by intro _ _ h; cases h
theorem gaugeSlotService : Statement (.gaugeSlotService) := by intro _ _ h; cases h
theorem portRequestService : Statement (.portRequestService) := by intro _ _ h; cases h
theorem statusPoll (sent : List Byte) : Statement (.statusPoll sent) := by intro _ _ h; cases h
theorem fetch (rest : List Byte) : Statement (.fetch rest) := by intro _ _ h; cases h
theorem readStatus (params : List Byte) : Statement (.readStatus params) := by intro _ _ h; cases h
theorem readNotice (params : List Byte) : Statement (.readNotice params) := by intro _ _ h; cases h
theorem echo (params : List Byte) : Statement (.echo params) := by intro _ _ h; cases h
theorem submitDeclare (params : List Byte) : Statement (.submitDeclare params) := by intro _ _ h; cases h
theorem submitPhase (params : List Byte) : Statement (.submitPhase params) := by intro _ _ h; cases h
theorem setCycle (params : List Byte) : Statement (.setCycle params) := by intro _ _ h; cases h
theorem readParcel (params : List Byte) : Statement (.readParcel params) := by intro _ _ h; cases h
theorem readRosterItem (params : List Byte) : Statement (.readRosterItem params) := by intro _ _ h; cases h
theorem readVotes (params : List Byte) : Statement (.readVotes params) := by intro _ _ h; cases h
theorem readAcceptance (params : List Byte) : Statement (.readAcceptance params) := by intro _ _ h; cases h
theorem dropParcel (params : List Byte) : Statement (.dropParcel params) := by intro _ _ h; cases h
theorem unknownCommand (code : Byte) (params : List Byte) : Statement (.unknownCommand code params) := by intro _ _ h; cases h
theorem powerOnReset : Statement (.powerOnReset) := by intro _ _ h; cases h
theorem pinReset (cut : Option ServiceCut) : Statement (.pinReset cut) := by intro _ _ h; cases h
theorem supplyLowReset (cut : Option ServiceCut) : Statement (.supplyLowReset cut) := by intro _ _ h; cases h
theorem resetRelease (pins : StrapPins) : Statement (.resetRelease pins) := by intro _ _ h; cases h
theorem frameBrokenOff : Statement (.frameBrokenOff) := by intro _ _ h; cases h
theorem frameAbandonedOnLength : Statement (.frameAbandonedOnLength) := by intro _ _ h; cases h
theorem supplyBelowRetention : Statement (.supplyBelowRetention) := by intro _ _ h; cases h

end Sys2Proof.Laws.Row
end

