-- ==== Sys2Proof/Laws/Port.lean ====
section
/-! SUPPORT. What a request of the port and an offer of a submission do (file 10). -/

namespace Sys2Proof.Machine

/-- Each port command is one transaction of its bytes. -/
theorem exec_bytesOf {c : Instr} {sent : List Byte} {s : State} (hc : bytesOf c = some sent) :
    exec c s = .next (transaction sent s) := by
  cases c <;> simp [bytesOf, requestOf] at hc <;> subst hc <;> rfl

/-- Each REQUEST row is one transaction of its command code and parameter bytes. -/
theorem exec_request {c : Instr} {code : Byte} {ps : List Byte} {s : State} (hc : requestOf c = some (code, ps)) :
    exec c s = .next (request code ps s) := by
  refine exec_bytesOf ?_
  cases c <;> simp [requestOf] at hc <;> obtain ⟨rfl, rfl⟩ := hc <;> rfl

/-- A part that is not held heeds its port unless a reset cut the transaction off. -/
theorem heeds_eq {s : State} (h : s.sup.held = false) (hp : s.port.select ≠ .unheeded) : s.heeds = true := by
  simp [State.heeds, h, hp]

/-- A transaction that the port heeds is its bytes and the rise of PSEL. -/
theorem transaction_heeded {kind : Byte} {more : List Byte} {s : State} (h : s.heeds = true) :
    transaction (kind :: more) s = (exchange kind more s).setSelect .high := by
  simp [transaction, h]

/-- The bytes of a transaction that the port does not heed do nothing but end it. -/
theorem transaction_unheeded {kind : Byte} {more : List Byte} {s : State} (h : s.heeds = false) :
    transaction (kind :: more) s = s.setSelect .high := by
  simp [transaction, h]

/-- What a REQUEST that the port heeds does: its end, the bytes returned and the rise of PSEL. -/
theorem exec_request_heeded {c : Instr} {code : Byte} {ps : List Byte} {s : State} (h : s.sup.held = false)
    (hp : s.port.select ≠ .unheeded) (hc : requestOf c = some (code, ps)) :
    exec c s = .next (((endRequest code ps s.shown).setPdo (s.statusSent :: zeros (ps.length + 1))).setSelect .high) := by
  rw [exec_request hc, request, transaction_heeded (heeds_eq h hp)]
  rfl

/-- A FETCH in ANSWERED sends the response and makes the port IDLE. -/
theorem fetchBytes_answered {s : State} {r : Response} (n : Nat) (h : s.port.state = .answered r) :
    fetchBytes n s = (padTo n r.bytes, s.setPortState .idle) := by
  simp [fetchBytes, h]

/-- A FETCH in IDLE or WAITING sends NONE and zeros, and changes nothing. -/
theorem fetchBytes_none {s : State} (n : Nat) (h : ∀ r, s.port.state ≠ .answered r) :
    fetchBytes (n + 1) s = (8#8 :: zeros n, s) := by
  have hz : padTo (n + 1) (respond .none).bytes = 8#8 :: zeros n := by
    show (8#8 :: ([0#8, 0#8] ++ zeros (n + 1))).take (n + 1) = _
    rw [List.take_succ_cons, show ([0#8, 0#8] : List Byte) = zeros 2 from rfl, zeros, zeros,
      List.replicate_append_replicate, List.take_replicate, Nat.min_eq_left (by omega)]
    rfl
  unfold fetchBytes
  split
  · rename_i r hr
    exact absurd hr (h r)
  · rw [hz]
  · rw [hz]

/-- Byte 0 of an open transaction is the status at its beginning. -/
theorem statusSent_low {s : State} {b : Byte} (h : s.port.select = .low b) : s.statusSent = b := by
  simp [State.statusSent, h]

/-- The port status with PSEL high is the present one. -/
theorem statusSent_high {s : State} (h : s.port.select = .high) : s.statusSent = s.portStatus := by
  simp [State.statusSent, h]

/-- The port status byte by its bits (file 11, 11.5). -/
theorem portStatus_eq (s : State) :
    s.portStatus = (BitVec.ofBool s.ready ++ BitVec.ofBool s.attn ++ BitVec.ofBool s.outstanding ++
      BitVec.ofBool s.port.busy ++ 0#4 : BitVec 8) := by
  simp only [State.portStatus, statusByte]
  cases s.ready <;> cases s.attn <;> cases s.outstanding <;> cases s.port.busy <;> decide

/-- A request sent while another is outstanding is discarded, and sets BUSY (R170). -/
theorem request_outstanding {code : Byte} {ps : List Byte} {s : State} (hh : s.heeds = true)
    (h : s.outstanding = true) :
    request code ps s = { s with port := { s.port with
      busy := true
      pdo := s.statusSent :: zeros (ps.length + 1)
      select := .high } } := by
  have h2 : s.shown.outstanding = true := h
  rw [request, transaction_heeded hh]
  simp only [exchange, endRequest, h2]
  rfl

/-- An offer neither reads nor changes the port. -/
theorem offer_withPort (f : OfferedFrame) (l : Bool) (s : State) (p : ReportPort) :
    offer f l { s with port := p } = ((offer f l s).1, { (offer f l s).2 with port := p }) := by
  simp only [offer]
  repeat' split
  all_goals simp_all [State.setOutbound, State.setLine, State.bump, State.setCounters]

/-- A frame of a kind that is not replaceable is never answered REPLACED (R153). -/
theorem offer_notReplaced {f : OfferedFrame} (l : Bool) (s : State) (h : replaceable f.key = false) :
    (offer f l s).1 ≠ .replaced := by
  simp only [offer]
  repeat' split
  all_goals simp_all

theorem phaseOfCode_isSome (c : Byte) : (phaseOfCode c).isSome = decide (c.toNat ≤ 5) := by
  revert c
  decide

end Sys2Proof.Machine
end

