-- ==== Sys2Proof/Laws/Records.lean ====
section
/-! SUPPORT. The rules that judge one frame or reading for the parcels it concerns: when they open the parcel, and what
they make of its record, each in the form of a service. -/

namespace Sys2Proof.Machine

variable {s t : State} {n : ParcelNo} {i : ContextId} {e : IntakeEntry}

/-! ## Phases (R9) -/

/-- A PHASE of good form judges its parcel after it has opened it. -/
theorem applyPhase_opens {e : IntakeEntry} {p round reason} (hp : IsPhaseEntry e p round reason) (u : State) :
    applyEntry e u = applyEntry e (u.openParcel e.parcel) := by
  have h2 := openParcel_dirFind_isSome u e.parcel
  simp only [applyEntry, hp.1, applyPhase, parsePhase_of hp, openParcel_openParcel]
  cases h : u.dirFind e.parcel with
  | none => simp [h] at h2; simp [h2]; simp [State.openParcel, h]
  | some d =>
    rw [h] at h2
    simp only [Option.isSome_some, Option.isSome_iff_exists] at h2
    obtain ⟨d', h2⟩ := h2
    simp only [h2]

/-- A PHASE of good form for a parcel in VOID(CHECK), which has no declaration. -/
theorem applyEntry_phase_check {x : IntakeEntry} {p : Phase} {round reason : Byte} {de c}
    (hp : IsPhaseEntry x p round reason) (ho : s.OpenWith x.parcel i de c) (hd : c.record.decl = none) :
    applyEntry x s =
      if p = .release ∧ c.record.state ∈ legalStates .release then
        applyLegal p x.parcel reason x.arrival ((s.touch i).modify x.parcel (fun r => { r with
          lastPhase := some { phase := p, source := x.source, reason := reason, arrival := x.arrival } }))
      else (s.touch i).bump .ignoredPhases := by
  have hw := (ho.congr (touch_sameRecords s i)).working
  simp only [applyEntry, hp.1, applyPhase, ho.1, parsePhase_of hp, ho.open_eq, hw, phaseSourceOk, hd, Bool.and_eq_true,
    phaseLegal_iff, beq_iff_eq]
  by_cases h : p = .release
  · subst h; simp
  · simp [h]

theorem cancel_isBound {r : ParcelRecord} (h : r.state ∈ legalStates .cancel) : r.state.isBound = true := by
  revert h; cases r.state <;> decide

/-- The missing opening values, by their index in the roster (R11). -/
theorem missingOpenings_eq (l : List RosterItem) :
    missingOpenings 0 l = (List.range l.length).filter (fun k => match l[k]? with
      | some x => x.opening.isNone
      | none => false) := by
  have : ∀ (l : List RosterItem) (b : Nat), missingOpenings b l =
      ((List.range l.length).filter (fun k => match l[k]? with
        | some x => x.opening.isNone
        | none => false)).map (b + ·) := by
    intro l
    induction l with
    | nil => intro b; rfl
    | cons x l ih =>
      intro b
      simp only [missingOpenings, ih (b + 1), List.length_cons, List.range_succ_eq_map]
      have hh : ((List.range l.length).map Nat.succ).filter (fun k => match (x :: l)[k]? with
          | some x => x.opening.isNone
          | none => false) =
          ((List.range l.length).filter (fun k => match l[k]? with
            | some x => x.opening.isNone
            | none => false)).map Nat.succ := by
        rw [List.filter_map]
        congr 1
      by_cases hx : x.opening.isNone = true
      · simp only [hx, if_true, List.filter_cons, List.getElem?_cons_zero, hh, List.map_cons, List.map_map]
        simp
        intro a _ _
        omega
      · simp only [hx, if_false, List.filter_cons, List.getElem?_cons_zero, hh, List.map_map]
        simp
        intro a _ _
        omega
  rw [this l 0]
  simp

/-- A latest reading stands in for an opening value (R11). -/
theorem substituteOpening_eq : substituteOpening = (fun x => match x.opening, x.latest with
      | none, some l => (match l.bad, l.std with
        | false, some v =>
          { x with opening := some { value := { reading := .tank l.reading, std := v }, substituted := true } }
        | _, _ => x)
      | _, _ => x) := by
  funext x
  unfold substituteOpening
  cases x.opening <;> cases x.latest <;> rfl

/-! ## Votes (R88 to R93) -/

/-- A VOTE of good form judges its parcel after it has opened it. -/
theorem applyVote_opens {e : IntakeEntry} {v} (hp : IsVoteEntry e v) (u : State) : applyEntry e u = applyEntry e
    (u.openParcel e.parcel) := by
  have h2 := openParcel_dirFind_isSome u e.parcel
  simp only [applyEntry, hp.1, applyVote, (parseVote_iff hp.1).2 hp, openParcel_openParcel]
  cases h : u.dirFind e.parcel with
  | none => simp [h] at h2; simp [h2]; simp [State.openParcel, h]
  | some d =>
    rw [h] at h2
    simp only [Option.isSome_some, Option.isSome_iff_exists] at h2
    obtain ⟨d', h2⟩ := h2
    simp only [h2]

/-- A VOTE of good form for an open parcel is judged against its record. -/
theorem applyEntry_vote {x : IntakeEntry} {v : VoteData} {de c} (hp : IsVoteEntry x v) (ho : s.OpenWith x.parcel i de
    c) :
    applyEntry x s = judgeVote x v c.record (s.touch i) := by
  have hw := (ho.congr (touch_sameRecords s i)).working
  simp only [applyEntry, hp.1, applyVote, ho.1, (parseVote_iff hp.1).2 hp, ho.open_eq, hw]

/-- What one vote does to the vote list (R91). -/
theorem applyVoteTo_eq (src : Station) (v : VoteData) (l : List VoteEntry) : applyVoteTo src v l = l.map (fun x =>
      if x.node = src then
        (match x.status, x.vote with
        | .absent, _ => { x with status := .received, vote := some v }
        | .received, some w => if w.check = v.check then x else { x with status := .inconsistent }
        | _, _ => x)
      else x) := by
  unfold applyVoteTo
  refine List.map_congr_left fun x _ => ?_
  by_cases h : x.node = src
  · simp only [h, beq_self_eq_true, if_true, voteEntryStep]
    cases x.status <;> cases x.vote <;> simp
  · simp [h]

theorem checksEqual_iff (l : List VoteEntry) : checksEqual l = true ↔ ∀ x ∈ l, ∀ y ∈ l, x.vote.map VoteData.check =
    y.vote.map VoteData.check := by
  cases l with
  | nil => simp [checksEqual]
  | cons a l =>
    simp only [checksEqual, List.all_eq_true, beq_iff_eq, VoteEntry.checkOf]
    constructor
    · intro h
      have : ∀ x ∈ a :: l, x.vote.map VoteData.check = a.vote.map VoteData.check := by
        intro x hx; rcases List.mem_cons.1 hx with rfl | hx; rfl; exact h x hx
      intro x hx y hy; rw [this x hx, this y hy]
    · intro h x hx; exact h x (List.mem_cons_of_mem _ hx) a List.mem_cons_self

/-! ## Alarms and figures (R42, R74, R75) -/

theorem applyAlarm_opens {e : IntakeEntry} {a} (hi : e.entryIndex = 4) (ho : e.own = false) (hp : parseAlarm e = some
    a) (u : State) : applyEntry e u = applyEntry e (u.openParcel e.parcel) := by
  have h2 := openParcel_dirFind_isSome u e.parcel
  simp only [applyEntry, hi, applyAlarm, ho, hp, openParcel_openParcel]
  cases h : u.dirFind e.parcel with
  | none => simp [h] at h2; simp [h2]; simp [State.openParcel, h]
  | some d =>
    rw [h] at h2
    simp only [Option.isSome_some, Option.isSome_iff_exists] at h2
    obtain ⟨d', h2⟩ := h2
    simp [h2]

theorem applyFigure_opens {e : IntakeEntry} {a} (hi : e.entryIndex = 6) (ho : e.own = false) (h0 : e.item = 0#6)
    (hp : parseFigure e = some a) (u : State) : applyEntry e u = applyEntry e (u.openParcel e.parcel) := by
  have h2 := openParcel_dirFind_isSome u e.parcel
  simp only [applyEntry, hi, applyFigure, ho, h0, hp, openParcel_openParcel]
  cases h : u.dirFind e.parcel with
  | none => simp [h] at h2; simp [h2]; simp [State.openParcel, h]
  | some d =>
    rw [h] at h2
    simp only [Option.isSome_some, Option.isSome_iff_exists] at h2
    obtain ⟨d', h2⟩ := h2
    simp [h2]

theorem refusal_isBound {r : ParcelRecord} (h : refusalVoids r.state = true) : r.state.isBound = true := by
  revert h; cases r.state <;> decide

/-! ## Records of the roster items (R18 to R22) -/

theorem modify_eq_set {l : List RosterItem} {k : Nat} {x : RosterItem} (h : l[k]? = some x) (f : RosterItem →
    RosterItem) : l.modify k f = l.set k (f x) := by
  induction l generalizing k with
  | nil => simp at h
  | cons a l ih =>
    cases k with
    | zero => simp at h; simp [h]
    | succ k => simp at h; simp [ih h]

/-- The holders of a record in a bound state, in ascending parcel number (R18). -/
abbrev boundHolders (s : State) (l : List RosterEntry) : List RosterEntry := allNumbers.flatMap (fun n => l.filter
    (fun h => h.parcel == n && s.inBoundState n))

/-- A SNAPSHOT, LINE STATE or METER entry is taken for each bound holder (R18). -/
theorem applyRecord_eq (e : IntakeEntry) (s : State) (h : e.entryIndex = 2 ∨ e.entryIndex = 5) : applyEntry e s =
   if (boundHolders s (s.holdersOf e.source e.item)).isEmpty then
    if (s.holdersOf e.source e.item).isEmpty then s.bump .unusableRecords else s.bump .lateRecords
  else (boundHolders s (s.holdersOf e.source e.item)).foldl (fun t h => takeRecord e.kind e.payload h t) s := by
  rcases h with h | h <;> simp only [applyEntry, h] <;> rfl

theorem one_number (a : ParcelNo) (h : a ≠ 0#4) : allNumbers.flatMap (fun n => if a = n then [()] else []) = [()] := by
  revert a; decide

theorem two_numbers (a b : ParcelNo) (h : a ≠ 0#4) (hab : a < b) : allNumbers.flatMap (fun n => (if a = n then [false]
    else []) ++ (if b = n then [true] else [])) = [false, true] := by
  revert a b; decide

theorem mem_boundHolders (s : State) (l) (h) : h ∈ boundHolders s l ↔ h ∈ l.filter (fun h => h.parcel != 0#4 &&
    s.inBoundState h.parcel) := by
  simp only [boundHolders, List.mem_flatMap, List.mem_filter, Bool.and_eq_true, beq_iff_eq, bne_iff_ne]
  constructor
  · rintro ⟨a, h1, h2, rfl, h3⟩
    refine ⟨h2, ?_, h3⟩
    intro h0; rw [h0] at h1; revert h1; decide
  · rintro ⟨h1, h2, h3⟩
    refine ⟨h.parcel, ?_, h1, rfl, h3⟩
    revert h2; generalize h.parcel = a; revert a; decide

theorem boundHolders_one (s : State) (h : RosterEntry) (h0 : h.parcel ≠ 0#4) (hb : s.inBoundState h.parcel = true) :
    boundHolders s [h] = [h] := by
  have := congrArg (List.map (fun _ => h)) (one_number h.parcel h0)
  rw [List.map_flatMap] at this
  refine Eq.trans ?_ this
  refine List.flatMap_congr fun n _ => ?_
  by_cases hn : h.parcel = n
  · subst hn; simp [hb]
  · simp [hn]

theorem boundHolders_two (s : State) (h₁ h₂ : RosterEntry) (h0 : h₁.parcel ≠ 0#4) (hlt : h₁.parcel < h₂.parcel)
    (hb : s.inBoundState h₁.parcel = true) (hb2 : s.inBoundState h₂.parcel = true)
  (l) (hl : l = [h₁, h₂] ∨ l = [h₂, h₁]) : boundHolders s l = [h₁, h₂] := by
  have := congrArg (List.map (fun b => if b then h₂ else h₁)) (two_numbers h₁.parcel h₂.parcel h0 hlt)
  rw [List.map_flatMap] at this
  refine Eq.trans ?_ this
  refine List.flatMap_congr fun n _ => ?_
  have hne : h₁.parcel ≠ h₂.parcel := by intro h; rw [h] at hlt; exact absurd hlt (by simp)
  by_cases hn : h₁.parcel = n
  · subst hn; rcases hl with rfl | rfl <;> simp [hb, hne, Ne.symm hne]
  · by_cases hm : h₂.parcel = n
    · subst hm; rcases hl with rfl | rfl <;> simp [hb2, hn]
    · rcases hl with rfl | rfl <;> simp [hn, hm]

theorem boundHolders_length (s : State) (l) : (boundHolders s l).length = (l.filter (fun h => h.parcel != 0#4 &&
    s.inBoundState h.parcel)).length := by
  have hs : ∀ (a : ParcelNo) (f : ParcelNo → Bool), (allNumbers.map (fun n => if (a == n && f n) = true then 1 else
      0)).sum = if (a != 0#4 && f a) = true then 1 else 0 := by
    intro a f
    have : ∀ n, (if (a == n && f n) = true then 1 else 0) = (if a = n then (if f a then 1 else 0) else 0) := by
      intro n; by_cases h : a = n
      · subst h; simp
      · simp [h]
    simp only [this]
    cases f a
    · simp;
    · clear this; revert a; decide
  induction l with
  | nil => simp [boundHolders]
  | cons a l ih =>
    simp only [boundHolders, List.length_flatMap] at ih ⊢
    have : ∀ n, ((a :: l).filter (fun h => h.parcel == n && s.inBoundState n)).length = (if (a.parcel == n &&
        s.inBoundState n) = true then 1 else 0) + (l.filter (fun h => h.parcel == n && s.inBoundState n)).length := by
      intro n
      rw [List.filter_cons]
      split
      · rw [List.length_cons]; omega
      · simp
    simp only [this]
    rw [List.sum_map_add, ih, hs a.parcel (s.inBoundState), List.filter_cons]
    split
    · rw [List.length_cons]; omega
    · simp

/-- Of a bad form, or of a role it does not fit, a record counts once for each bound holder. -/
theorem takeRecord_fold_unusable (k : IntakeEntry) (l : List RosterEntry) (s : State) (h : ∀ h ∈ l, recordForm k.kind
    k.payload = none ∨ roleFits k.kind h.role = false) (hl : l ≠ []) :
   l.foldl (fun t h => takeRecord k.kind k.payload h t) s =
       { s with counters := { s.counters with unusableRecords := min 65535 (s.counters.unusableRecords + l.length) } }
           := by
  have ht : ∀ x ∈ l, ∀ u, takeRecord k.kind k.payload x u = u.bump .unusableRecords := by
    intro x hx u
    rcases h x hx with h1 | h1
    · by_cases hr : roleFits k.kind x.role = true
      · simp [takeRecord, h1]
      · simp [takeRecord, hr]
    · simp [takeRecord, h1]
  clear h
  induction l generalizing s with
  | nil => exact absurd rfl hl
  | cons a l ih =>
    rw [List.foldl_cons, ht a List.mem_cons_self]
    by_cases hn : l = []
    · subst hn; rfl
    · rw [ih _ hn (fun x hx => ht x (List.mem_cons_of_mem _ hx))]
      have : min 65535 (min 65535 (s.counters.unusableRecords + 1) + l.length) = min 65535 (s.counters.unusableRecords
          + (l.length + 1)) := by omega
      simp only [State.bump, State.setCounters, Counters.raise, saturate, Config.counterMax, List.length_cons]
      rw [← this]

/-- An intake service whose rule only counts. -/
theorem intake_counted (hq : s.Quiet) (rest) (k : Counters) (hc : s.HeadChosen e rest) (h : applyEntry e
    { s with acc := (s.headTaken rest).acc } = { s with acc := (s.headTaken rest).acc, counters := k }) :
   exec .intakeService s = .next { s.headTaken rest with counters := k } := by
  rw [exec_intakeService hc hq, h, endService_unwritten (by exact hq.1) (by exact hq.2.1) (by exact hq.2.2)]
  have h2 := hq.2.2
  cases s with
  | mk l a en st lg tm p su co pe =>
    cases en
    simp only at h2
    subst h2
    rfl

theorem newerThanOption_iff {a : Byte} {l : Option Byte} : newerThanOption a l = true ↔ ∀ q, l = some q → 1 ≤
    (a - q).toNat ∧ (a - q).toNat ≤ 127 := by
  cases l <;> simp [newerThanOption, newerThan]

/-- A record of good form for one bound holder is judged after that parcel has been opened. -/
theorem applyRecord_opens {e : IntakeEntry} {h : RosterEntry} {rec : Reading} (hi : e.entryIndex = 2 ∨ e.entryIndex =
    5) (hr : roleFits e.kind h.role = true) (hf : recordForm e.kind e.payload = some rec) (u : State) (h0 : h.parcel ≠
        0#4) (hb : u.inBoundState h.parcel = true)
   (hl : u.holdersOf e.source e.item = [h]) : applyEntry e u = applyEntry e (u.openParcel h.parcel) := by
  have hb' : (u.openParcel h.parcel).inBoundState h.parcel = true := by
    have h2 : ((u.openParcel h.parcel).dirFind h.parcel).map DirEntry.state = (u.dirFind h.parcel).map DirEntry.state
        := by
      have := congrArg (Option.map DirEntry.state) (openParcel_entry u h.parcel)
      rw [Option.map_map, Option.map_map] at this
      exact this
    simp only [State.inBoundState] at hb ⊢
    cases h3 : u.dirFind h.parcel with
    | none => rw [h3] at hb; simp at hb
    | some d =>
      rw [h3] at h2 hb
      cases h4 : (u.openParcel h.parcel).dirFind h.parcel with
      | none => rw [h4] at h2; simp at h2
      | some d' => rw [h4] at h2; simp at h2; simp only at hb ⊢; rw [h2]; exact hb
  have hl' : (u.openParcel h.parcel).holdersOf e.source e.item = [h] := by
    rw [← hl]; simp only [State.holdersOf]; rw [eq_of_apart (openParcel_apart u h.parcel)]
  rw [applyRecord_eq e u hi, applyRecord_eq e _ hi, hl, hl', boundHolders_one u h h0 hb, boundHolders_one _ h h0 hb']
  simp only [List.isEmpty_cons, Bool.false_eq_true, if_false, List.foldl_cons, List.foldl_nil, takeRecord, hr, hf,
      openParcel_openParcel, Bool.not_true]

/-- A change of one roster item of an open parcel, in the form of a service. -/
theorem setItem_form {e : DirEntry} {c : OpenContext} {k : Nat} {x : RosterItem} (h : s.OpenWith n i e c)
    (hx : c.record.roster[k]? = some x) (f : RosterItem → RosterItem) :
   (s.touch i).setItem n k f = s.withOpen n i (fun d => d.copyFrom
       { c.record with roster := c.record.roster.set k (f x) })
           { record := { c.record with roster := c.record.roster.set k (f x) }, dirty := true } := by
  rw [State.setItem, copy_form h]
  simp only [updateItem, modify_eq_set hx]

/-- The entry into RECONCILED when no value is missing (R82, R84), in the form of a service. -/
theorem reconcile_form {e : DirEntry} {c : OpenContext} {r : ParcelRecord} {d : Declaration} {F : DirEntry → DirEntry}
    {b : Bool} (h : s.OpenWith n i e c) (hF : KeepsPlace F) (hr : r.number = n) (hd : r.decl = some d) :
  reconcileIfComplete n (s.withOpen n i F { record := r, dirty := b }) =
    if r.roster.all hasBothValues then
      (let own := ownFigure r.number r.round d r.roster
       let u := (s.post (stateNotice { r with own := some own, state := .reconciled } .other)).markWrite n
       let o := offer (voteFrame u n r.round own) false u
       let q := { r with own := some own, state := .reconciled, voteOwed := o.1.isRefused }
       o.2.withOpen n i (fun d => (F d).copyFrom q) { record := q, dirty := true })
    else s.withOpen n i F { record := r, dirty := b } := by
  rw [reconcileIfComplete, withOpen_working h hF hr]
  simp only
  split
  · have h1 : toReconciled r = { r with own := some (ownFigure r.number r.round d r.roster), state := .reconciled } :=
        by
      simp only [toReconciled, hd]
    rw [withOpen_changeState h hF hr _ (by rw [h1]; exact hr), h1]
    have h2 := h.congr ((post_sameRecords s (stateNotice
        { r with own := some (ownFigure r.number r.round d r.roster), state := .reconciled } .other)).trans
            (markWrite_sameRecords _ n))
    rw [offerVote, withOpen_working h2 (hF.copy _) (by exact hr)]
    simp only [withOpen_offer]
    have h3 := h2.congr (offer_sameRecords (voteFrame ((s.post (stateNotice
        { r with own := some (ownFigure r.number r.round d r.roster), state := .reconciled } .other)).markWrite n) n
            r.round (ownFigure r.number r.round d r.roster)) false _)
    exact withOpen_modify h3 (hF.copy _) (by exact hr) _
  · rfl

/-! ## Gauge slots (R106, R130) -/

theorem openParcel_setPointer (s : State) (k : Nat) (n : ParcelNo) :
    (s.setEng { s.eng with slotPointer := k }).openParcel n = (s.openParcel n).setEng
        { (s.openParcel n).eng with slotPointer := k } := by
  have hb : ∀ (s : State) i, (s.setEng { s.eng with slotPointer := k }).writeBack i = (s.writeBack i).setEng
      { (s.writeBack i).eng with slotPointer := k } := by
    intro s i
    unfold State.writeBack State.storePut State.storePlace
    have hc : (s.setEng { s.eng with slotPointer := k }).eng.context i = s.eng.context i := by cases i <;> rfl
    rw [hc]
    cases s.eng.context i with
    | none => rfl
    | some c =>
      simp only
      split
      · change (match (s.store.findIdx? _).or (s.store.findIdx? _) with | some i => _ | none => _ : State).setContext _
            _ = _
        cases (s.store.findIdx? (storedUnder c.record.number)).or (s.store.findIdx? Option.isNone) <;> cases i <;> rfl
      · rfl
  have hcl : ∀ (s : State) i, (s.setEng { s.eng with slotPointer := k }).closeContext i = (s.closeContext i).setEng
      { (s.closeContext i).eng with slotPointer := k } := by
    intro s i
    unfold State.closeContext
    have hc : (s.setEng { s.eng with slotPointer := k }).eng.context i = s.eng.context i := by cases i <;> rfl
    rw [hc, hb]
    cases s.eng.context i <;> cases i <;> rfl
  unfold State.openParcel
  change (match s.dirFind n with | none => _ | some e => _) = _
  cases s.dirFind n with
  | none => rfl
  | some e =>
    simp only
    cases e.context with
    | some i => rfl
    | none =>
      simp only
      change (match s.stored n with | none => _ | some e => _) = _
      cases s.stored n with
      | none => rfl
      | some p =>
        have hv : (s.setEng { s.eng with slotPointer := k }).eng.victim = s.eng.victim := rfl
        simp only [hv, hcl]
        generalize s.eng.victim = j
        cases j <;> rfl

theorem exec_gaugeSlotService {m : Nat} (hh : s.sup.held = false) (hq : s.Quiet) (ha : arbiter s = some (.slot m)) :
    exec .gaugeSlotService s = .next ((endService (countOther (slotBody m s))).setStoreLog s.storeLog) := by
  have ht : (slotBody m s).tmr = s.tmr := by
    unfold slotBody
    split
    · exact (sameClock_recordClosed s).takeReading _ _ rfl
    · rfl
  simp only [exec, execGaugeSlotService, asService, whenReleased, hh, slotService, ha, serve]
  rw [wholeService_quiet (body := fun s => countOther (slotBody m s)) hq ht]
  rfl

theorem emptySlotAt_openParcel (m : Nat) (n) (s : State) : emptySlotAt m (s.openParcel n) = (emptySlotAt m
    s).openParcel n := by
  have h1 := openParcel_setAcc s (s.acc.setSlot m { s.acc.slot m with waiting := none, overrun := false }) n
  have h2 := openParcel_setPointer
      ({s with acc := (s.acc.setSlot m { s.acc.slot m with waiting := none, overrun := false })}) m n
  have h3 : (s.openParcel n).acc = s.acc := (openParcel_rest s n).2.1
  have e : emptySlotAt m s = State.setEng
      ({s with acc := (s.acc.setSlot m { s.acc.slot m with waiting := none, overrun := false })})
          { s.eng with slotPointer := m } := rfl
  rw [e, h2, h1]
  simp only [emptySlotAt, h3]
  rfl

theorem newerThanLatest_iff {a : Byte} {l : Option LatestReading} : newerThanOption a (l.map (fun l => l.reading.seq))
    = true ↔ ∀ x, l = some x → 1 ≤ (a - x.reading.seq).toNat ∧ (a - x.reading.seq).toNat ≤ 127 := by
  cases l <;> simp [newerThanOption, newerThan]

/-- The persistence test of an open parcel whose directory copy is that of its record (R69). -/
theorem testPersistence_form {de : DirEntry} {c : OpenContext} {r : ParcelRecord} {F : DirEntry → DirEntry} {b : Bool}
    (h : s.OpenWith n i de c) (hF : KeepsPlace F) (hr : r.number = n) (hp : (F de).persistence = persistenceCopy r)
   : testPersistence n (s.withOpen n i F { record := r, dirty := b }) =
     match persistenceCopy r with
     | none => s.withOpen n i F { record := r, dirty := b }
     | some c => if c.persistence ≤ (s.tmr.seconds - c.since).toNat then moveAlarm n (c.tag == .condition) (s.withOpen
           n i F { record := r, dirty := b }) else s.withOpen n i F { record := r, dirty := b } := by
  have ho := withOpen_open (b := b) h hF hr
  simp only [testPersistence, ho.1, hp]
  cases persistenceCopy r with
  | none => rfl
  | some c =>
    simp only [persistenceRunsOut, decide_eq_true_eq]
    rfl

end Sys2Proof.Machine
end

