-- ==== Sys2Proof/Tests/Slice0.lean ====
section
/-! SUPPORT. The model's own tests: the well-formedness checks, checks and layouts against the manual's numbers, one
step of a few commands, and for each statement a state and operands that meet its hypotheses together. -/

namespace Sys2Proof.Tests

open Sys2Proof.Machine

/-! ## Small states -/

def nextOf : Host.Outcome State Fault Refusal → Option State
  | .next s => some s
  | .fault _ => none
  | .refused _ => none

/-- Station 1 after its listen period, with no notice. -/
def awake : State := (State.reset.setLine { State.reset.line with listening := false }).setPort
  { State.reset.port with notices := [] }

def decl : Declaration :=
  { grade := 1#8, direction := .shipToShore, alpha := 0, rho := 8500, vef := 1000000, tolerance := 2000
    alarmLimit := 10, persistence := 60, window := 10, nodes := [1#6, 2#6], declarer := 2#6 }

def reading (kind seq : Byte) (volume : Nat) : TankReading :=
  { kind := kind, seq := seq, volume := BitVec.ofNat 32 volume, water := 0#32, temp := 1500#16 }

def value (seq : Byte) (volume : Nat) : Value :=
  { reading := .tank (reading 1#8 seq volume), std := BitVec.ofNat 32 volume }

def opened (seq : Byte) (volume : Nat) : OpeningValue := { value := value seq volume, substituted := false }

def latest (seq : Byte) (volume : Nat) : LatestReading :=
  { reading := reading 0#8 seq volume, arrival := 0#32, std := some (BitVec.ofNat 32 volume), bad := false }

def shipTank : RosterItem :=
  { station := 5#6, item := 1#6, role := .shipTank, binding := some { entry := 8, slot := 0 }, latest := none
    opening := none, closing := none, requestIssued := false }

def shoreTank : RosterItem := { shipTank with station := 6#6, role := .shoreTank, binding := some { entry := 9, slot := 1 } }

/-- Parcel 1 with two tanks, in a state. -/
def record (st : ParcelState) : ParcelRecord :=
  { number := 1#4, decl := some decl, state := st, voidReason := none, round := 1, lastPhase := none
    roster := [shipTank, shoreTank], running := none, alarm := quietAlarm, own := none
    votes := [{ node := 1#6, status := .absent, vote := none }, { node := 2#6, status := .absent, vote := none }]
    peers := [{ node := 1#6, figure := none, alarm := false }, { node := 2#6, figure := none, alarm := false }]
    windowStart := none, voteOwed := false, alarmOwed := false }

def withRoster (l : List RosterItem) (r : ParcelRecord) : ParcelRecord := { r with roster := l }

def boundEntry (station : Station) (slot : Nat) : BoundEntry :=
  { station := station, item := 1#6, parcel := 1#4, index := slot, slot := slot }

/-- A parcel that is held, stored and bound, and not open. -/
def stored (r : ParcelRecord) : State :=
  ((awake.setEng { awake.eng with
    directory := [dirEntryOf r]
    rosterDir := rosterEntries r.number 0 r.roster }).setStore
      (awake.store.set 0 (some { number := byte4 r.number, record := r, check := 0#32 }))).setAcc
    { awake.acc with
      entries := (awake.acc.entries.set 0 (some (boundEntry 5#6 0))).set 1 (some (boundEntry 6#6 1))
      slots := (awake.acc.slots.set 0 { emptySlot with boundTo := some 8 }).set 1 { emptySlot with boundTo := some 9 } }

/-- The same parcel, open in W0 and dirty. -/
def holding (r : ParcelRecord) : State :=
  (stored r).setEng { (stored r).eng with
    directory := [{ dirEntryOf r with context := some .w0 }], w0 := some { record := r, dirty := true } }

def at_ (now : Second) (s : State) : State := s.setTmr { s.tmr with seconds := now }

def withIntake (l : List IntakeEntry) (s : State) : State := s.setAcc { s.acc with intake := l }

def dutyDue (s : State) : State := s.setEng { s.eng with dutyPending := true }

def waitingFor (q : EngineRequest) (s : State) : State :=
  (s.setPort { s.port with state := .waiting q }).setEng { s.eng with starvation := some { count := 0, ahead := false } }

def entryOf (k : Kind) (index : Nat) (source : Station) (item : ItemNo) (payload : List Byte) : IntakeEntry :=
  { cls := k.cls, kind := k, source := source, parcel := 1#4, item := item, payload := payload, entryIndex := index
    arrival := 100#32, own := false }

def phaseEntry (p : Phase) : IntakeEntry := entryOf .phase 0 2#6 (p.code.setWidth 6) [p.code, 1#8, 9#8]

def queuedFrame (k : FrameKey) : QueuedFrame :=
  { key := k, payload := [1#8], faults := 0, inFlight := false, pendingPayload := none, withdrawn := false
    listed := false }

def queued (l : List QueuedFrame) (s : State) : State := s.setOutbound l

def presenceKey : FrameKey := mkKey .presence 1#6 0#4 0#6
def voteKey : FrameKey := mkKey .vote 1#6 1#4 1#6
def alarmKey : FrameKey := mkKey .alarm 1#6 1#4 0#6

/-- The own VOTE is in flight and the PRESENCE waits behind it. -/
def flight : State := queued [{ queuedFrame voteKey with inFlight := true }, queuedFrame presenceKey] awake

def held : State := awake.setSup { awake.sup with held := true, cause := .pin }

def pins : StrapPins := { st := 1#6, lt := 0#2, rate := false, policy := false, cyc := false }

/-- A whole good frame of station 2. -/
def frame (k : Kind) (parcel : ParcelNo) (item : ItemNo) (payload : List Byte) : LineFrame :=
  wireFrame (mkKey k 2#6 parcel item) payload

theorem wire_good (k : FrameKey) (l : List Byte) (hl : l.length ≤ 20) (hf : formFault k = false) :
    GoodFrame (wireFrame k l) := by
  unfold GoodFrame wireFrame
  refine ⟨hl, ?_, hf⟩
  dsimp only

theorem long_not_good (f : LineFrame) (h : 20 < f.payload.length) : ¬ GoodFrame f := by
  unfold GoodFrame
  omega

/-! ## The well-formedness checks -/

theorem test_long_frame_is_ill_formed :
    (Instr.receiveFrame { key := 0#24, payload := zeros 21, check := 0#16 }).wellFormed = false ∧
      (Instr.receiveFrame { key := 0#24, payload := zeros 20, check := 0#16 }).wellFormed = true := by decide

theorem test_fall_of_select_is_well_formed :
    (Instr.statusPoll []).wellFormed = true ∧ (Instr.statusPoll [1#8]).wellFormed = true := by decide

theorem test_poll_that_is_a_request_is_ill_formed :
    (Instr.statusPoll [1#8, 0x10#8]).wellFormed = false ∧ (Instr.statusPoll [2#8, 0#8]).wellFormed = false ∧
      (Instr.statusPoll [3#8, 0x10#8]).wellFormed = true := by decide

theorem test_empty_fetch_is_ill_formed :
    (Instr.fetch []).wellFormed = false ∧ (Instr.fetch [0#8]).wellFormed = true := by decide

theorem test_known_code_is_no_unknown_command :
    (Instr.unknownCommand 0x12#8 []).wellFormed = false ∧ (Instr.unknownCommand 0x13#8 []).wellFormed = true := by decide

/-! ## Numbers of the manual -/

/-- The check of the nine bytes "123456789" under R137. -/
theorem test_frame_check : check16 [0x31#8, 0x32#8, 0x33#8, 0x34#8, 0x35#8, 0x36#8, 0x37#8, 0x38#8, 0x39#8] = 0xD0DB#16 := by
  decide +kernel

/-- The quotients of the table of R43. -/
theorem test_rounding :
    roundDiv 11375 2 = 5688 ∧ roundDiv (-1715) 2 = -858 ∧ roundDiv 415625 100 = 4156 ∧ roundDiv 1 2 = 1 ∧
      roundDiv (-1) 2 = -1 ∧ roundDiv 14408127656 10000 = 1440813 := by decide

theorem test_clamps :
    holdU 4294967296 = 0xFFFFFFFF#32 ∧ holdU 4294967295 = 0xFFFFFFFF#32 ∧ holdS 2147483648 = 0x7FFFFFFF#32 ∧
      holdS (-2147483649) = 0x80000000#32 ∧ holdS (-1) = 0xFFFFFFFF#32 := by decide

theorem test_newer :
    newerThan 1#8 255#8 = true ∧ newerThan 127#8 0#8 = true ∧ newerThan 128#8 0#8 = false ∧
      newerThan 5#8 5#8 = false := by decide

theorem test_key_fields :
    let k := mkKey .declare 17#6 7#4 2#6
    keyClass k = 3#3 ∧ keyKind k = 4#5 ∧ keySource k = 17#6 ∧ keyParcel k = 7#4 ∧ keyItem k = 2#6 ∧
      k = 0x6445C2#24 := by decide

/-! ## The machine after reset -/

theorem test_reset_is_a_release :
    nextOf (exec (.resetRelease pins) { State.reset with sup := { State.reset.sup with held := true } }) =
      some State.reset := by decide

theorem test_idle : nextOf (step State.reset) = some State.reset := by decide

theorem test_step_takes_the_front :
    nextOf (step { State.reset with pending := [.echo [7#8], .secondTick] }) =
      nextOf (exec (.echo [7#8]) { State.reset with pending := [.secondTick] }) := by decide

/-! ## One step of a few commands -/

theorem test_first_tick_ends_the_listen_period :
    (nextOf (exec .secondTick State.reset)).map (fun t => (t.line.listening, t.tmr.buildsDue)) =
      some (false, [.secondary]) := by decide

theorem test_presence_is_built :
    (nextOf (exec .buildMoment { awake with tmr := { awake.tmr with buildsDue := [.secondary] } })).map
      (fun t => t.line.outbound.map (fun q => (q.key, q.payload, q.listed))) =
      some [(presenceKey, [0#8, 0#8], true)] := by decide

theorem test_good_frame_is_queued :
    (nextOf (exec (.receiveFrame (frame .presence 0#4 0#6 [0#8, 0#8])) awake)).map
      (fun t => (t.line.markDriven, t.acc.intake.map (fun e => (e.entryIndex, e.source)))) =
      some (true, [(7, 2#6)]) := by decide +kernel

theorem test_bad_frame_is_a_receive_fault :
    (nextOf (exec (.receiveFrame { frame .presence 0#4 0#6 [0#8, 0#8] with payload := [0#8, 1#8] }) awake)).map
      (fun t => (t.line.markDriven, t.line.rfc, t.acc.intake)) = some (false, 1, []) := by decide +kernel

theorem test_attempt_takes_the_vote_first :
    (nextOf (exec .attempt (queued [queuedFrame presenceKey, queuedFrame voteKey] awake))).map
      (fun t => t.line.outbound.map QueuedFrame.inFlight) = some [false, true] := by decide +kernel

theorem test_phase_opens_the_parcel :
    (nextOf (exec (.intakeService) (withIntake [phaseEntry .opening] (holding (record .declared))))).map
      (fun t => ((t.working 1#4).map ParcelRecord.state, t.acc.intake, t.port.notices.length)) =
      some (some .opening, [], 1) := by decide +kernel

theorem test_drop_is_answered_not_now :
    (nextOf (exec .portRequestService (waitingFor (.dropParcel 1#8) (stored (record .declared))))).map
      (fun t => t.port.state) = some (.answered { code := .notNow, fields := [] }) := by decide +kernel

theorem test_read_parcel_has_183_bytes :
    (nextOf (exec .portRequestService (waitingFor (.readParcel 1#8) (stored (record .declared))))).map
      (fun t => match t.port.state with | .answered a => a.fields.length | _ => 0) = some 183 := by decide +kernel

/-! ## States and operands that meet the hypotheses of each statement -/

/-! ### Supply and reset -/

/-- PSEL fell at this port status. -/
def selectedAt (status : Byte) (s : State) : State := s.setSelect (.low status)

theorem test_meets_HeldPartIgnoresCommands :
    held.sup.held = true ∧ isSupplyCommand .attempt = false ∧ bytesOf .attempt = none ∧
      bytesOf (.statusPoll []) = some [] ∧ bytesOf (.fetch [0#8]) = some [2#8, 0#8] ∧
      bytesOf (.echo []) = some [1#8, 0x12#8] ∧ (awake.setSelect .unheeded).port.select = .unheeded := by decide

theorem test_meets_ReleaseStartsEveryBlock :
    awake.sup.held = false ∧ held.sup.held = true ∧ (selectedAt 0#8 held).port.select ≠ .high := by decide

theorem test_meets_ColdOrUnnumberedReleaseHoldsNoParcel :
    ({ held with sup := { held.sup with cause := .powerOn } } : State).sup.cause = .powerOn ∧ held.sup.held = true ∧
      ({ pins with st := 0#6 } : StrapPins).st = 0#6 ∧ ({ pins with st := 63#6 } : StrapPins).st = 63#6 := by decide

/-- One record whose check matches, of a node set with station 1, and one whose check does not. -/
def warmStore : List (Option StoredParcel) :=
  [some (mkStored (record .agreed)), some { number := 15#8, record := record .transfer, check := 0#32 }]

theorem test_meets_WarmReleaseVerifiesTheStore :
    held.sup.held = true ∧ held.sup.cause ≠ .powerOn ∧ pins.st ≠ 0#6 ∧ pins.st ≠ 63#6 ∧
      (∀ q ∈ warmStore.filterMap id, 1 ≤ q.number.toNat ∧ q.number.toNat ≤ 15) ∧
      ((warmStore.filterMap id).map StoredParcel.number).Nodup ∧ nodeSetHolds pins.st (record .agreed) = true := by
  decide

theorem test_meets_WarmRelease_good_check (r : ParcelRecord) :
    (mkStored r).check = storeCheck (mkStored r).number (mkStored r).record := by
  unfold mkStored
  dsimp only

/-! ### The line -/

theorem test_meets_ReceiveFaultsRaiseRfc :
    awake.sup.held = false ∧ ¬ GoodFrame { key := presenceKey, payload := zeros 21, check := 0#16 } :=
  ⟨rfl, long_not_good _ (by simp [zeros])⟩

theorem test_meets_GoodFrameOfAnotherStationIsMarked :
    awake.sup.held = false ∧ GoodFrame (frame .presence 0#4 0#6 [0#8, 0#8]) ∧
      keySource (frame .presence 0#4 0#6 [0#8, 0#8]).key ≠ awake.sup.straps.station :=
  ⟨rfl, wire_good _ _ (by decide) (by decide), by decide⟩

def withdrawnAt (k : Nat) : State := awake.setLine { awake.line with standing := .withdrawn, goodHeard := some k }

theorem test_meets_GoodFrame_in_withdrawn :
    (withdrawnAt 62).line.standing = .withdrawn ∧ (withdrawnAt 62).line.goodHeard = some 62 ∧
      (withdrawnAt 63).line.goodHeard = some 63 ∧ (withdrawnAt 62).sup.held = false := by decide

theorem test_meets_OwnNumberHeardMakesDuplicate :
    GoodFrame (wireFrame presenceKey [0#8, 0#8]) ∧ awake.line.standing ≠ .unnumbered ∧
      keySource presenceKey = awake.sup.straps.station ∧ awake.line.standing ≠ .duplicate ∧
      awake.port.notices.length < 16 :=
  ⟨wire_good _ _ (by decide) (by decide), by decide, by decide, by decide, by decide⟩

def longIntake (n : Nat) : State := withIntake (List.replicate n (phaseEntry .opening)) awake

theorem test_meets_ControlFrameJoinsTheIntakeQueue :
    GoodFrame (frame .phase 1#4 0#6 [0#8, 1#8, 0#8]) ∧
      keyKind (frame .phase 1#4 0#6 [0#8, 1#8, 0#8]).key = Kind.phase.code ∧ fixedIndex .phase = some 0 ∧
      (longIntake 31).acc.intake.length < 32 ∧ 32 ≤ (longIntake 32).acc.intake.length ∧
      (longIntake 23).acc.intake.length = 23 ∧ (longIntake 23).acc.pressure = false ∧
      (longIntake 23).port.notices.length < 15 ∧ keyClass (frame .phase 1#4 0#6 [0#8, 1#8, 0#8]).key ≤ 4#3 :=
  ⟨wire_good _ _ (by decide) (by decide), by decide, rfl, by decide, by decide, by decide, by decide, by decide, by decide⟩

theorem test_meets_GaugeFillsItsSlotAndRequestIsNotTaken :
    GoodFrame (frame .request 1#4 0#6 [5#8, 1#8, 2#8, 1#8]) ∧
      keyKind (frame .request 1#4 0#6 [5#8, 1#8, 2#8, 1#8]).key = Kind.request.code ∧
      GoodFrame (frame .gauge 0#4 1#6 (reading 0#8 1#8 5).bytes) ∧
      keyKind (frame .gauge 0#4 1#6 (reading 0#8 1#8 5).bytes).key = Kind.gauge.code ∧
      (∀ b, some b ∈ awake.acc.entries → ¬ (b.station = 2#6 ∧ b.item = 1#6)) ∧
      (((stored (record .transfer)).acc.entries.filterMap id).find? (fun x =>
        x.station == keySource (mkKey .gauge 5#6 0#4 1#6) && x.item == keyItem (mkKey .gauge 5#6 0#4 1#6))) =
          some (boundEntry 5#6 0) := by
  refine ⟨wire_good _ _ (by decide) (by decide), by decide, wire_good _ _ (by decide) (by decide), by decide, ?_,
    by decide⟩
  intro b hb
  have : ∀ x ∈ awake.acc.entries, x = none := by decide
  exact absurd (this _ hb) (by simp)

def waitingTwo : State := queued [queuedFrame presenceKey, queuedFrame voteKey] awake
def muted (s : State) : State := s.setLine { s.line with standing := .muted }

theorem test_meets_AttemptTakesTheLowestKey :
    waitingTwo.sup.held = false ∧ waitingTwo.line.listening = false ∧ waitingTwo.KeysDistinct ∧
      (∀ x ∈ waitingTwo.line.outbound, x.inFlight = false) ∧ queuedFrame voteKey ∈ waitingTwo.line.outbound ∧
      Offerable .active (keyClass voteKey) ∧ Offerable .muted (keyClass voteKey) ∧
      ∀ x ∈ waitingTwo.line.outbound, Offerable .active (keyClass x.key) → voteKey ≤ x.key := by
  unfold State.KeysDistinct Offerable; decide +kernel

theorem test_meets_NothingIsOfferedOutOfStanding :
    State.reset.line.listening = true ∧ (withdrawnAt 0).line.standing = .withdrawn ∧
      (muted waitingTwo).line.standing = .muted ∧ waitingTwo.sup.held = false := by decide

def flyingVote : QueuedFrame := { queuedFrame voteKey with inFlight := true }

def flightOf (q : QueuedFrame) : State := queued [q, queuedFrame presenceKey] awake

theorem test_meets_LostContentionKeepsTheFrame :
    (∀ x ∈ waitingTwo.line.outbound, x.inFlight = false) ∧ (flightOf flyingVote).KeysDistinct ∧
      (flightOf flyingVote).OnlyFlying flyingVote ∧ (flightOf flyingVote).sup.held = false := by
  unfold State.KeysDistinct State.OnlyFlying; decide +kernel

theorem test_meets_CarriedAttemptLeavesTheQueue :
    (flightOf flyingVote).OnlyFlying flyingVote ∧ (flightOf flyingVote).KeysDistinct ∧ flyingVote.pendingPayload = none ∧
      (flightOf { flyingVote with withdrawn := true }).OnlyFlying { flyingVote with withdrawn := true } ∧
      (flightOf { flyingVote with pendingPayload := some [9#8] }).OnlyFlying
        { flyingVote with pendingPayload := some [9#8] } ∧
      keyKind voteKey = Kind.vote.code ∧ keyClass voteKey = Kind.vote.cls ∧ fixedIndex .vote = some 1 ∧
      (flightOf flyingVote).acc.intake.length < 32 := by
  unfold State.KeysDistinct State.OnlyFlying; decide +kernel

theorem test_meets_FaultedAttemptStaysOrDrops :
    AttemptOutcome.unheard ≠ .carried ∧ AttemptOutcome.mismatch ≠ .carried ∧
      (flightOf { flyingVote with faults := 6 }).OnlyFlying { flyingVote with faults := 6 } ∧
      (flightOf { flyingVote with faults := 7 }).OnlyFlying { flyingVote with faults := 7 } ∧
      (flightOf { flyingVote with faults := 7 }).KeysDistinct ∧
      (∀ x ∈ (flightOf { flyingVote with faults := 7 }).line.outbound, x.faults < 8) ∧
      (flightOf { flyingVote with withdrawn := true }).OnlyFlying { flyingVote with withdrawn := true } ∧
      awake.port.notices.length < 15 := by
  unfold State.KeysDistinct State.OnlyFlying; decide +kernel

def worn : QueuedFrame := { queuedFrame voteKey with faults := 8 }

theorem test_meets_DropAndRecoveryActOnlyWhenDue :
    (∀ x ∈ waitingTwo.line.outbound, ¬ (x.inFlight = false ∧ 8 ≤ x.faults)) ∧
      worn ∈ (flightOf worn).line.outbound ∧ worn.inFlight = false ∧ (flightOf worn).KeysDistinct ∧
      (∀ x ∈ (flightOf worn).line.outbound, x.inFlight = false ∧ 8 ≤ x.faults → x = worn) ∧
      (withdrawnAt 64).line.goodHeard = some 64 ∧ (withdrawnAt 63).line.goodHeard = some 63 := by
  unfold State.KeysDistinct; decide +kernel

def requestKey (n : Nat) : FrameKey := mkKey .request 1#6 1#4 (BitVec.ofNat 6 n)
def requests (n : Nat) : List QueuedFrame := (List.range n).map (fun k => queuedFrame (requestKey k))
def figureKey : FrameKey := mkKey .figure 1#6 1#4 0#6

theorem test_meets_OfferIsJudgedInOrder :
    (queued (requests 9) awake).line.outbound.length < 10 ∧ 10 ≤ (queued (requests 10) awake).line.outbound.length ∧
      voteKey ∉ (requests 10).map QueuedFrame.key ∧ keyClass voteKey ≤ 4#3 ∧ 5#3 ≤ keyClass figureKey ∧
      requestKey 0 ∈ (requests 9).map QueuedFrame.key ∧ keyKind (requestKey 0) ≠ Kind.figure.code ∧
      figureKey ∈ (queued [queuedFrame figureKey] awake).line.outbound.map QueuedFrame.key ∧
      keyKind figureKey = Kind.figure.code ∧
      (∀ q ∈ requests 9 ++ [queuedFrame figureKey], q.inFlight = false → q.key ≤ figureKey) ∧
      (∀ q ∈ requests 10, q.inFlight = false → q.key ≤ requestKey 9) ∧ keyClass (requestKey 9) ≤ 4#3 ∧
      (∀ q ∈ [flyingVote], q.inFlight = true) := by decide

theorem test_meets_DeclarationPartsAreAdmittedWhole :
    let fs : List OfferedFrame := [{ key := voteKey, payload := [] }, { key := alarmKey, payload := [] }]
    (fs.map OfferedFrame.key).Nodup ∧ (queued (requests 9 ++ [queuedFrame figureKey]) awake).KeysDistinct ∧
      (∀ f ∈ fs, f.key ∉ (requests 9 ++ [queuedFrame figureKey]).map QueuedFrame.key) ∧
      (10 - 10) + ((requests 9 ++ [queuedFrame figureKey]).filter displaceable).length < fs.length ∧
      fs.length ≤ (10 - 9) + ((requests 8 ++ [queuedFrame figureKey]).filter displaceable).length ∧
      voteKey ∈ [flyingVote].map QueuedFrame.key := by
  unfold State.KeysDistinct; decide +kernel

/-! ### The timer -/

def running (start now : Second) : State :=
  at_ now (awake.setTmr { awake.tmr with cycle := some { start := start, parity := .secondary, quiet := false } })

theorem test_meets_TickMakesTheCycleEventsDue :
    awake.tmr.cycle = none ∧ awake.sup.straps.listen.seconds ≤ (awake.tmr.seconds + 1).toNat ∧
      (awake.tmr.seconds + 1).toNat < ListenTime.s2.seconds ∧
      ((running 0#32 1#32).tmr.seconds + 1 - 0#32).toNat = (running 0#32 1#32).tmr.mark.toNat ∧
      ((running 0#32 9#32).tmr.seconds + 1 - 0#32).toNat =
        (running 0#32 9#32).tmr.mark.toNat + (running 0#32 9#32).tmr.space.toNat := by decide

theorem test_meets_CycleCommandsActOnlyWhenDue :
    awake.tmr.cycle = none ∧ awake.tmr.seconds.toNat < awake.sup.straps.listen.seconds ∧
      awake.sup.straps.listen.seconds ≤ (at_ 1#32 awake).tmr.seconds.toNat ∧
      (running 0#32 2#32).tmr.cycle = some { start := 0#32, parity := .secondary, quiet := false } := by decide

def building (p : Parity) (s : State) : State := s.setTmr { s.tmr with buildsDue := [p] }

def figured : ParcelRecord :=
  { record .transfer with running := some { p := 1#32, s := 2#32, delta := 3#32, second := 4#32, complete := true } }

def ownOf : OwnFigure :=
  { p := 1#32, s := 2#32, delta := 3#32, ratio := 4#32, verdict := .within, flags := 0#16, check := 5#32 }

theorem test_meets_BuildMomentOffersWithoutTouchingTheEngine :
    chooseParcel (building .primary awake) = none ∧
      chooseParcel (building .primary (stored figured)) = some 1#4 ∧
      (building .primary (stored figured)).recordOf 1#4 = some figured ∧ figured.running.isSome = true ∧
      chooseParcel (building .primary (stored { record .agreed with own := some ownOf })) = some 1#4 ∧
      (building .primary (stored { record .agreed with own := some ownOf })).recordOf 1#4 =
        some { record .agreed with own := some ownOf } := by decide

/-! ### Services -/

def reading1 : List Byte := (reading 0#8 5#8 700).bytes

def withSlot (payload : List Byte) (s : State) : State :=
  s.setAcc (s.acc.setSlot 0
    { boundTo := some 8, waiting := some { payload := payload, arrival := 101#32 }, overrun := true })

theorem test_meets_ArbiterTakesTheFirstRequester :
    awake.eng.slotPointer < 24 ∧ (dutyDue awake).eng.dutyPending = true ∧
      arbiter (withSlot reading1 (stored (record .transfer))) = some (.slot 0) ∧
      arbiter (waitingFor .readAcceptance awake) = some (.port .readAcceptance) ∧
      arbiter (withIntake [phaseEntry .stop] awake) = some (.intake (phaseEntry .stop)) ∧ arbiter awake = none := by
  decide

theorem test_meets_EngineServicesLeaveTheRestAlone :
    isEngineService .secondDuty = true ∧ isEngineService .buildMoment = true := by decide

theorem test_meets_CompletedServiceCountsForThePortRequest :
    arbiter (awake.setEng { awake.eng with checkpointPending := true }) = some .checkpoint ∧
      arbiter (dutyDue awake) = some .secondDuty ∧
      arbiter (withIntake [phaseEntry .stop] awake) = some (.intake (phaseEntry .stop)) ∧
      arbiter (withSlot reading1 (stored (record .transfer))) = some (.slot 0) ∧
      arbiter awake ≠ some .checkpoint ∧ arbiter awake ≠ some .secondDuty := by decide

def checkpointDue (s : State) : State := s.setEng { s.eng with checkpointPending := true }

theorem test_meets_CheckpointClosesBothContexts :
    let s := checkpointDue (holding (record .opening))
    s.eng.checkpointPending = true ∧ (∀ e ∈ s.eng.directory, e.voteOwed = false ∧ e.alarmOwed = false) ∧
      s.eng.context .w0 = some { record := record .opening, dirty := true } ∧ (s.stored 1#4).isSome = true ∧
      s.eng.context .w1 = none := by decide

theorem test_meets_SecondDutyClearsItsFlag :
    let s := at_ 2#32 (dutyDue (holding (record .opening)))
    s.sup.held = false ∧ s.DutyChosen ∧ s.Quiet ∧ restartDue s = false ∧ s.eng.buffer 0 = none ∧ s.eng.buffer 1 = none ∧
      ∀ e ∈ s.eng.directory, expiryDue s.tmr.seconds e = false ∧ halfDue s.tmr.seconds e = false ∧
        persistenceDue s.tmr.seconds e = false := by
  unfold State.DutyChosen State.Quiet; decide

def part0 (window : Nat) : Part0 :=
  { grade := 1#8, direction := 0#2, count := 2, alpha := 0, rho := 8500, vefOffset := 0, tolerance := 2000
    alarmLimit := 10, persistence := 60, window := window, nodeFields := [1#6, 2#6, 0#6, 0#6] }

def assembly (window : Nat) : Assembly :=
  { source := 2#6, parcel := 1#4, part0 := part0 window, second := 98#32, nextPart := 1, items := [] }

def assembling (window : Nat) : State := awake.setEng { awake.eng with buf0 := some (assembly window), heard := [1#6, 2#6] }

theorem test_meets_AssemblyTimeoutFreesTheBuffer :
    let s := at_ 100#32 (dutyDue (assembling 10))
    s.sup.held = false ∧ s.DutyChosen ∧ s.eng.dueWrites = [] ∧ s.eng.buffer 0 = some (assembly 10) ∧
      2 ≤ (s.tmr.seconds - 98#32).toNat ∧ (99#32 - 98#32 : Second).toNat < 2 ∧ s.dirFind 1#4 = none ∧
      s.sup.straps.policy = .keepOpen := by
  unfold State.DutyChosen; decide

/-- Parcel 1 in a window that started at 400, at a second. -/
def inWindowAt (st : ParcelState) (now : Second) : State :=
  at_ now (dutyDue (holding { record st with windowStart := some 400#32 }))

def inWindowRecord (st : ParcelState) : ParcelRecord := { record st with windowStart := some 400#32 }

theorem test_meets_WindowExpiryLapsesTheParcel :
    let s := inWindowAt .closing 1000#32
    s.sup.held = false ∧ s.DutyChosen ∧ s.eng.dueWrites = [] ∧ s.eng.windowRestart = false ∧
      s.dirFind 1#4 = some { dirEntryOf (inWindowRecord .closing) with context := some .w0 } ∧
      s.OpenIn 1#4 .w0 (inWindowRecord .closing) ∧ (s.stored 1#4).isSome = true ∧
      600 ≤ (s.tmr.seconds - 400#32).toNat ∧ (999#32 - 400#32 : Second).toNat < 600 :=
  ⟨rfl, ⟨rfl, rfl⟩, rfl, rfl, by decide, ⟨_, _, rfl, rfl, rfl, rfl, rfl⟩, by decide, by decide, by decide⟩

theorem test_meets_HalfWindowPassAsksForTheMissing :
    let s := inWindowAt .closing 700#32
    s.sup.held = false ∧ s.DutyChosen ∧ s.eng.dueWrites = [] ∧ s.eng.windowRestart = false ∧
      s.dirFind 1#4 = some { dirEntryOf (inWindowRecord .closing) with context := some .w0 } ∧
      s.OpenIn 1#4 .w0 (inWindowRecord .closing) ∧
      (s.tmr.seconds - 400#32).toNat < 600 ∧ 600 / 2 ≤ (s.tmr.seconds - 400#32).toNat ∧
      s.line.standing ≠ .duplicate ∧ s.line.standing ≠ .unnumbered ∧ s.line.outbound = [] ∧
      (inWindowRecord .closing).roster.length ≤ 10 :=
  ⟨rfl, ⟨rfl, rfl⟩, rfl, rfl, by decide, ⟨_, _, rfl, rfl, rfl, rfl, rfl⟩, by decide, by decide, by decide, by decide,
    rfl, by decide⟩

def diverging : ParcelRecord :=
  { record .transfer with alarm := { conditionSince := some 940#32, raised := false, clearSince := none } }

theorem test_meets_PersistenceRunOutMovesTheAlarm :
    let s := at_ 1000#32 (dutyDue (holding diverging))
    s.sup.held = false ∧ s.DutyChosen ∧ s.eng.dueWrites = [] ∧ s.OpenIn 1#4 .w0 diverging ∧
      (s.stored 1#4).isSome = true ∧
      (s.dirFind 1#4).map (fun e => (e.state, e.persistence)) =
        some (.transfer, some { tag := .condition, since := 940#32, persistence := 60 }) ∧
      60 ≤ (s.tmr.seconds - 940#32).toNat :=
  ⟨rfl, ⟨rfl, rfl⟩, rfl, ⟨_, _, rfl, rfl, rfl, rfl, rfl⟩, by decide, by decide, by decide⟩

def closing (s : State) : State := s.setSup { s.sup with straps := { s.sup.straps with policy := .closeAfterBurst } }

theorem test_meets_BurstEndClosesTheUnneeded :
    let s := closing (holding (record .opening))
    let u := closing (withIntake [phaseEntry .start] (holding (record .opening)))
    s.sup.straps.policy = .closeAfterBurst ∧ s.eng.context .w0 = some { record := record .opening, dirty := true } ∧
      1#4 ∉ needs s (arbiter s) ∧ 1#4 ∈ needs u (arbiter u) ∧ (s.stored 1#4).isSome = true ∧
      s.eng.context .w1 = none := by decide

/-! ### The intake head -/

theorem test_meets_IntakeServiceRemovesTheHead :
    let s := withIntake [phaseEntry .opening] awake
    s.sup.held = false ∧ s.NoneAhead ∧ s.acc.intake = [phaseEntry .opening] ∧ s.Quiet ∧
      s.dirFind (phaseEntry .opening).parcel = none ∧ (phaseEntry .opening).entryIndex = 0 ∧
      s.line.standing ≠ .unnumbered ∧ (entryOf .presence 7 2#6 0#6 [0#8, 0#8]).payload.length = 2 := by
  unfold State.NoneAhead State.Quiet; decide

def headed (e : IntakeEntry) (r : ParcelRecord) : State := withIntake [e] (holding r)

/-- What the statements on the head of the intake queue ask of the state. -/
def Ready (e : IntakeEntry) (r : ParcelRecord) : Prop :=
  (headed e r).HeadChosen e [] ∧ (headed e r).Quiet ∧ e.parcel ≠ 0#4 ∧ (headed e r).OpenIn e.parcel .w0 r ∧
    ((headed e r).stored e.parcel).isSome = true

theorem ready_of (e : IntakeEntry) (r : ParcelRecord) (he : e.parcel = 1#4) (hr : r.number = 1#4) : Ready e r := by
  refine ⟨⟨rfl, ⟨rfl, rfl, rfl⟩, rfl, ?_⟩, ⟨rfl, rfl, rfl⟩, ?_, ?_, ?_⟩
  · show Standing.active ≠ .unnumbered
    decide
  · rw [he]
    decide
  · refine ⟨{ dirEntryOf r with context := some .w0 }, _, ?_, rfl, rfl, rfl, by rw [hr, he]⟩
    show List.find? _ [{ dirEntryOf r with context := some .w0 }] = _
    simp [dirEntryOf, DirEntry.copyFrom, he, hr]
  · show (match List.find? (storedUnder e.parcel)
      (some { number := byte4 r.number, record := r, check := 0#32 } :: List.replicate 5 none) with
      | some p => p
      | none => none).isSome = true
    rw [he, hr]
    rfl

theorem test_meets_OpenStartAndStopMoveTheParcel :
    Ready (phaseEntry .opening) (record .declared) ∧ IsPhaseEntry (phaseEntry .opening) .opening 1#8 9#8 ∧
      2#6 ∈ decl.nodes ∧ Ready (phaseEntry .start) (record .opening) ∧
      IsPhaseEntry (phaseEntry .start) .start 1#8 9#8 ∧ Ready (phaseEntry .stop) (record .transfer) ∧
      IsPhaseEntry (phaseEntry .stop) .stop 1#8 9#8 ∧ (record .transfer).alarm.raised = false :=
  ⟨ready_of _ _ rfl rfl, ⟨rfl, rfl, rfl⟩, by decide, ready_of _ _ rfl rfl, ⟨rfl, rfl, rfl⟩, ready_of _ _ rfl rfl,
    ⟨rfl, rfl, rfl⟩, rfl⟩

theorem test_meets_RegaugeCancelAndReleaseEndARound :
    Ready (phaseEntry .regauge) (record .disputed) ∧ IsPhaseEntry (phaseEntry .regauge) .regauge 1#8 9#8 ∧
      (1#8 : Byte).toNat = (record .disputed).round ∧ (record .disputed).round < 4 ∧
      Ready (phaseEntry .cancel) (record .closing) ∧ IsPhaseEntry (phaseEntry .cancel) .cancel 1#8 9#8 ∧
      (record .closing).state ∈ legalStates .cancel ∧ Ready (phaseEntry .release) (record .lapsed) ∧
      IsPhaseEntry (phaseEntry .release) .release 1#8 9#8 ∧ (record .lapsed).state ∈ legalStates .release ∧
      Ready (phaseEntry .start) (record .transfer) ∧ (record .transfer).state ∉ legalStates .start :=
  ⟨ready_of _ _ rfl rfl, ⟨rfl, rfl, rfl⟩, rfl, by decide, ready_of _ _ rfl rfl, ⟨rfl, rfl, rfl⟩, by decide,
    ready_of _ _ rfl rfl, ⟨rfl, rfl, rfl⟩, by decide, ready_of _ _ rfl rfl, by decide⟩

def vote1 : VoteData := { round := 1, check := 0x1234#32, p := 10#32, s := 20#32, ratio := 30#32, flags := 1#16 }

def voteEntry (v : VoteData) : IntakeEntry :=
  entryOf .vote 1 2#6 (BitVec.ofNat 6 v.round)
    ([BitVec.ofNat 8 v.round, 1#8] ++ be32 v.p ++ be32 v.s ++ be32 v.ratio ++ be32 v.check ++ be16 v.flags)

/-- Station 1 has voted, and station 2 has the given entry. -/
def voted (st : ParcelState) (e : VoteEntry) : ParcelRecord :=
  { record st with votes := [{ node := 1#6, status := .received, vote := some vote1 }, e] }

def absentVote : VoteEntry := { node := 2#6, status := .absent, vote := none }

theorem test_meets_VotesDecideTheParcel :
    Ready (voteEntry vote1) (voted .reconciled absentVote) ∧
      Ready (voteEntry vote1) (voted .closing { absentVote with status := .received, vote := some { vote1 with check := 1#32 } }) ∧
      Ready (voteEntry vote1) (voted .transfer absentVote) ∧ (voteEntry vote1).item = BitVec.ofNat 6 vote1.round ∧
      (voteEntry vote1).source ∈ decl.nodes ∧ vote1.round = (record .closing).round :=
  ⟨ready_of _ _ rfl rfl, ready_of _ _ rfl rfl, ready_of _ _ rfl rfl, rfl, by decide, rfl⟩

def snapshot (kind : Byte) : IntakeEntry := entryOf .snapshot 2 5#6 1#6 (reading kind 4#8 700).bytes

/-- Every value is held but the closing value of the ship tank. -/
def lastMissing : ParcelRecord :=
  withRoster [{ shipTank with opening := some (opened 3#8 1000) },
    { shoreTank with opening := some (opened 3#8 50), closing := some (value 7#8 350) }] (record .closing)

theorem test_meets_RecordsBecomeOpeningAndClosingValues :
    Ready (snapshot 1#8) (record .opening) ∧ Ready (snapshot 2#8) lastMissing ∧ Ready (snapshot 2#8) (record .closing) ∧
      (headed (snapshot 1#8) (record .opening)).eng.rosterDir.filter
        (fun y => y.station == 5#6 && y.item == 1#6) =
          [{ station := 5#6, item := 1#6, parcel := 1#4, index := 0, role := .shipTank }] ∧
      roleFits .snapshot .shipTank = true ∧
      recordForm .snapshot (snapshot 1#8).payload = some (.tank (reading 1#8 4#8 700)) ∧
      recordForm .snapshot (snapshot 2#8).payload = some (.tank (reading 2#8 4#8 700)) ∧
      (Reading.tank (reading 2#8 4#8 700)).isBad 0 = false ∧ lastMissing.roster[0]?.isSome = true ∧
      (ParcelState.opening).isBound = true :=
  ⟨ready_of _ _ rfl rfl, ready_of _ _ rfl rfl, ready_of _ _ rfl rfl, by decide, rfl, by decide, by decide, by decide,
    rfl, rfl⟩

def figureEntry : IntakeEntry := entryOf .figure 6 2#6 0#6 (be32 1#32 ++ be32 2#32 ++ be32 3#32 ++ [1#8, 0#8])
def alarmEntry : IntakeEntry := entryOf .alarm 4 2#6 0#6 ([0#8, 1#8] ++ be32 9#32)
def refusalEntry : IntakeEntry := entryOf .alarm 4 2#6 1#6 ([1#8, 5#8] ++ be32 0#32)

theorem test_meets_PeerFramesEnterThePeerData :
    Ready figureEntry (record .transfer) ∧ Ready alarmEntry (record .transfer) ∧ Ready refusalEntry (record .transfer) ∧
      Ready refusalEntry (record .lapsed) ∧ figureEntry.own = false ∧ figureEntry.source ∈ decl.nodes ∧
      figureEntry.source ≠ awake.sup.straps.station ∧ figureEntry.item = 0#6 :=
  ⟨ready_of _ _ rfl rfl, ready_of _ _ rfl rfl, ready_of _ _ rfl rfl, ready_of _ _ rfl rfl, rfl, by decide, by decide,
    rfl⟩

def declared : List DeclaredItem :=
  [{ station := 5#6, item := 1#6, role := .shipTank }, { station := 6#6, item := 1#6, role := .shoreTank }]

def rosterEntry : IntakeEntry := entryOf .declare 3 2#6 1#6 (declared.flatMap DeclaredItem.bytes)

theorem test_meets_CompletedDeclarationIsJudged :
    let s := withIntake [rosterEntry] (assembling 10)
    s.HeadChosen rosterEntry [] ∧ s.Quiet ∧ s.eng.bufferFor 2#6 1#4 = some 0 ∧ s.eng.buffer 0 = some (assembly 10) ∧
      rosterEntry.payload.length = 2 * (assembly 10).part0.count ∧ s.dirFind 1#4 = none ∧
      parseItems rosterEntry.payload = declared ∧ validate 2#6 1#4 (part0 10) declared s = none ∧ s.eng.w0 = none ∧
      none ∈ s.store ∧ s.stored 1#4 = none ∧
      validate 2#6 1#4 (part0 4) declared (withIntake [rosterEntry] (assembling 4)) = some .form :=
  ⟨⟨rfl, ⟨rfl, rfl, rfl⟩, rfl, by decide⟩, ⟨rfl, rfl, rfl⟩, by decide, rfl, by decide, rfl, by decide, by decide, rfl,
    by decide, by decide, by decide⟩

/-! ### Slots and the port -/

theorem test_meets_SlotServiceStoresTheReading :
    let s := withSlot reading1 (holding (record .opening))
    arbiter s = some (.slot 0) ∧ s.Quiet ∧ s.slotBinding 0 = some (boundEntry 5#6 0) ∧
      (s.acc.slot 0).waiting = some { payload := reading1, arrival := 101#32 } ∧ routineForm [1#8] = none ∧
      routineForm reading1 = some (reading 0#8 5#8 700) ∧ s.OpenIn 1#4 .w0 (record .opening) ∧
      (record .opening).roster[0]? = some shipTank :=
  ⟨by decide, ⟨rfl, rfl, rfl⟩, by decide, by decide, rfl, by decide, ⟨_, _, rfl, rfl, rfl, rfl, rfl⟩, rfl⟩

/-- Both tanks count, and the figures agree. -/
def balanced : ParcelRecord :=
  withRoster [{ shipTank with opening := some (opened 3#8 1000) },
    { shoreTank with opening := some (opened 3#8 50), latest := some (latest 3#8 350) }] (record .transfer)

theorem test_meets_SlotService_in_transfer :
    let latest := { reading := reading 0#8 5#8 700, arrival := 101#32, std := some 700#32, bad := false : LatestReading }
    let roster := balanced.roster.set 0 { shipTank with opening := some (opened 3#8 1000), latest := some latest }
    (withSlot reading1 (holding balanced)).OpenIn 1#4 .w0 balanced ∧
      (runningFigure decl roster 105#32).complete = true ∧
      (runningFigure decl (shoreTank :: roster) 105#32).complete = false ∧ persistenceCopy balanced = none :=
  ⟨⟨_, _, rfl, rfl, rfl, rfl, rfl⟩, by decide, by decide, rfl⟩

theorem test_meets_PortRequestIsAnswered :
    let s := waitingFor (.readParcel 1#8) (holding (record .opening))
    arbiter s = some (.port (.readParcel 1#8)) ∧ s.Quiet ∧ (s.stored 1#4).isSome = true ∧
      s.OpenIn 1#4 .w0 (record .opening) ∧
      s.eng.context .w0 = some { record := record .opening, dirty := true } ∧
      ((stored (record .opening)).dirFind 1#4).map DirEntry.context = some none ∧
      ((stored (record .opening)).stored 1#4).map StoredParcel.record = some (record .opening) ∧
      awake.dirFind 1#4 = none :=
  ⟨by decide, ⟨rfl, rfl, rfl⟩, by decide, ⟨_, _, rfl, rfl, rfl, rfl, rfl⟩, rfl, by decide, by decide, rfl⟩

theorem test_meets_DropParcelRemovesOrAnswersNotNow :
    let s := waitingFor (.dropParcel (BitVec.setWidth 8 1#4)) (holding (record .disputed))
    arbiter s = some (.port (.dropParcel (BitVec.setWidth 8 1#4))) ∧ s.Quiet ∧
      (s.dirFind 1#4).map (fun e => (e.state, e.context)) = some (.disputed, some .w0) ∧
      (s.eng.context .w0).map (fun c => c.record.number) = some 1#4 ∧
      ((waitingFor .readAcceptance (stored (record .opening))).dirFind 1#4).map DirEntry.state = some .opening := by
  unfold State.Quiet; decide

theorem test_meets_PollsAndFetchesReturnTheBuffer :
    isStatusPoll [1#8] = true ∧ isStatusPoll [3#8, 0#8] = true ∧ awake.sup.held = false ∧ awake.port.state = .idle ∧
      awake.port.select = .high ∧ awake.portStatus = 0#8 ∧ (selectedAt 0x20#8 awake).port.select = .low 0x20#8 ∧
      (awake.setPortState (.answered (respond .range))).port.state = .answered (respond .range) := by
  decide

/-- A response placed after the fall of PSEL is sent by that FETCH: byte 0 shows OUTSTANDING without READY (R171). -/
theorem test_fetch_sends_a_response_placed_after_its_begin :
    let begun := nextOf (exec (.statusPoll []) (waitingFor (.dropParcel 9#8) awake))
    let placed := begun.bind (fun s => nextOf (exec .portRequestService s))
    (placed.bind (fun s => nextOf (exec (.fetch [0#8, 0#8, 0#8]) s))).map (fun t => (t.port.pdo, t.port.state)) =
      some ([0x20#8, ResponseCode.unknownParcel.code, 0#8, 0#8], .idle) := by decide

/-- A transaction that a reset cut off does nothing after the release, and the next one is taken (R168). -/
theorem test_transaction_cut_off_by_a_reset :
    let begun := nextOf (exec (.statusPoll []) awake)
    let released := (begun.bind (fun s => nextOf (exec (.pinReset none) s))).bind
      (fun s => nextOf (exec (.resetRelease pins) s))
    let tail := released.bind (fun s => nextOf (exec (.echo [7#8]) s))
    (released.map (fun s => s.port.select), tail.map (fun s => (s.port.state, s.port.select)),
      (tail.bind (fun s => nextOf (exec (.echo [7#8]) s))).map (fun s => s.port.state)) =
      (some .unheeded, some (.idle, .high), some (.answered { code := .done, fields := [7#8] })) := by decide

theorem test_meets_ReadNoticeTakesTheOldest :
    awake.port.notices = [] ∧ State.reset.port.notices.length = 1 ∧ State.reset.port.state = .idle := by decide

def declareBytes : List Byte :=
  [1#8, 2#8] ++ be16 0#16 ++ be16 8500#16 ++ be16 0#16 ++ be16 2000#16 ++ be32 10#32 ++ be16 60#16 ++
    [10#8, 0x04#8, 0x20#8, 0x00#8]

theorem test_meets_SubmitDeclareOffersItsParts :
    parsePart0 declareBytes = some (part0 10) ∧ formOk (part0 10) declared = true ∧
      declared.length = (part0 10).count ∧ formOk (part0 4) declared = false := by decide

theorem test_meets_RequestsAreTakenOnlyWhenIdle :
    requestOf (.echo []) = some (0x12#8, []) ∧ (waitingFor .readAcceptance awake).port.state ≠ .idle ∧
      awake.port.state = .idle ∧ awake.port.select ≠ .unheeded ∧ 0x13#8 ∉ commandCodes ∧ requestOf (.unknownCommand 0x13#8 []) = some (0x13#8, []) := by
  decide

theorem test_meets_the_statements_on_an_idle_port :
    awake.sup.held = false ∧ awake.port.state = .idle ∧ awake.port.select ≠ .unheeded ∧ (1 ≤ (15#8 : Byte).toNat ∧ (15#8 : Byte).toNat ≤ 15) ∧
      (5#8 : Byte).toNat ≤ 5 ∧ (1 ≤ (4#8 : Byte).toNat ∧ (4#8 : Byte).toNat ≤ 4) ∧ ¬ (6#8 : Byte).toNat ≤ 5 ∧
      (1#8 : Byte) ≠ 0#8 ∧ awake.pending = [] ∧ 0 < 10000 := by decide

/-! ## Forms and boundary values that the statements name -/

/-- Parcels 1 and 2, both open and dirty, and both stored. -/
def two (r₁ r₂ : ParcelRecord) : State :=
  (awake.setEng { awake.eng with
    directory := [{ dirEntryOf r₁ with context := some .w0 }, { dirEntryOf r₂ with context := some .w1 }]
    rosterDir := rosterEntries r₁.number 0 r₁.roster ++ rosterEntries r₂.number 0 r₂.roster
    w0 := some { record := r₁, dirty := true }, w1 := some { record := r₂, dirty := true } }).setStore
      ((awake.store.set 0 (some { number := byte4 r₁.number, record := r₁, check := 0#32 })).set 1
        (some { number := byte4 r₂.number, record := r₂, check := 0#32 }))

def record2 (st : ParcelState) : ParcelRecord := { record st with number := 2#4 }

def positions (s : State) : List (Option Nat) := (storeSteps s).map StoreStep.position

/-! ### A service cut short (R117) -/

/-- Two write-backs, a first write, and a removal; a cut after one of two write-backs leaves the second position as it
was. -/
theorem test_store_steps :
    positions (checkpointDue (two (record .opening) (record2 .opening))) = [some 0, some 1] ∧
      positions (withIntake [rosterEntry] (assembling 10)) = [some 0] ∧
      positions (withIntake [phaseEntry .release] (holding (record .agreed))) = [none] ∧
      (cutStore { complete := 1, torn := none } (checkpointDue (two (record .opening) (record2 .opening))))[1]? =
        some (some { number := 2#8, record := record2 .opening, check := 0#32 }) := by
  decide +kernel

theorem test_meets_TornWriteFailsItsCheck :
    held.sup.held = true ∧
    let s := checkpointDue (two (record .opening) (record2 .opening))
    let u := withIntake [rosterEntry] (assembling 10)
    s.sup.held = false ∧ s.storeLog = [] ∧ (storeSteps s).length ≤ 2 ∧ arbiter s = some .checkpoint ∧
      ((storeSteps s)[1]?.bind StoreStep.position = some 1 ∧ 1 < s.store.length) ∧
      ((storeSteps u)[0]?.bind StoreStep.position = some 0 ∧ (storeAfter u 0)[0]? = some none) ∧
      (storeSteps (withIntake [phaseEntry .release] (holding (record .agreed))))[0]?.bind StoreStep.position = none ∧
      arbiter (dutyDue awake) = some .secondDuty ∧ (dutyDue awake).storeLog = [] ∧
      arbiter u = some (.intake rosterEntry) ∧ u.storeLog = [] ∧
      arbiter (withSlot reading1 (stored (record .transfer))) = some (.slot 0) ∧
      (withSlot reading1 (stored (record .transfer))).storeLog = [] ∧
      arbiter (waitingFor .readAcceptance awake) = some (.port .readAcceptance) ∧
      (waitingFor .readAcceptance awake).storeLog = [] := by
  decide +kernel

/-! ### The line and the timer -/

def lineStateKey : FrameKey := mkKey .lineState 1#6 0#4 1#6

theorem test_meets_OfferIsJudgedInOrder_at_classes_4_and_5 :
    keyClass alarmKey = 4#3 ∧ keyClass lineStateKey = 5#3 ∧
      10 ≤ (queued (requests 9 ++ [queuedFrame lineStateKey]) awake).line.outbound.length ∧
      alarmKey ∉ (requests 9 ++ [queuedFrame lineStateKey]).map QueuedFrame.key ∧
      (∀ q ∈ requests 9 ++ [queuedFrame lineStateKey], q.inFlight = false → q.key ≤ lineStateKey) ∧
      (∀ q ∈ requests 9 ++ [queuedFrame alarmKey], q.inFlight = false → q.key ≤ alarmKey) ∧
      lineStateKey ∉ (requests 10).map QueuedFrame.key := by decide

def carriedRequest : QueuedFrame := { queuedFrame (requestKey 3) with inFlight := true }

theorem test_meets_CarriedAttempt_full_intake_and_request :
    (withIntake (longIntake 32).acc.intake (flightOf flyingVote)).acc.intake.length = 32 ∧
      (withIntake (longIntake 32).acc.intake (flightOf flyingVote)).OnlyFlying flyingVote ∧
      (flightOf carriedRequest).OnlyFlying carriedRequest ∧ (flightOf carriedRequest).KeysDistinct ∧
      keyKind (requestKey 3) = Kind.request.code ∧ keyClass (requestKey 3) = Kind.request.cls ∧
      fixedIndex .request = none := by
  unfold State.KeysDistinct State.OnlyFlying; decide +kernel

/-- A cycle of mark 5 and space 0: both ends fall in one second. -/
def noSpace : State := (running 0#32 4#32).setTmr { (running 0#32 4#32).tmr with mark := 5#8, space := 0#8 }

theorem test_meets_TickMakesTheCycleEventsDue_space_0 :
    (noSpace.tmr.seconds + 1 - 0#32).toNat = noSpace.tmr.mark.toNat + noSpace.tmr.space.toNat ∧
      (noSpace.tmr.seconds + 1 - 0#32).toNat = noSpace.tmr.mark.toNat ∧ noSpace.sup.held = false := by decide

theorem test_meets_BuildMoment_none_and_several :
    awake.tmr.buildsDue = [] ∧
      (building .primary (stored (record .transfer))).recordOf 1#4 = some (record .transfer) ∧
      chooseParcel (building .primary (stored (record .transfer))) = some 1#4 ∧ (record .transfer).running = none ∧
      (awake.setTmr { awake.tmr with buildsDue := [.secondary, .primary] }).tmr.buildsDue = .secondary :: [.primary] := by
  decide

/-! ### The arbiter and the second duty -/

def pointerAt (n : Nat) (s : State) : State := s.setEng { s.eng with slotPointer := n }
def pressed (s : State) : State := s.setAcc { s.acc with pressure := true }

theorem test_meets_ArbiterTakesTheFirstRequester_wrap_and_pressure :
    let s := pointerAt 23 (withSlot reading1 (stored (record .transfer)))
    s.eng.slotPointer < 24 ∧ (0 + 23 - s.eng.slotPointer) % 24 = 0 ∧ (23 + 23 - s.eng.slotPointer) % 24 = 23 ∧
      (s.acc.slot 0).waiting.isSome = true ∧ arbiter s = some (.slot 0) ∧ (pressed s).acc.pressure = true ∧
      arbiter (pressed s) = none ∧ arbiter (waitingFor .readAcceptance (pressed s)) = some (.port .readAcceptance) := by
  decide

/-- A parcel that owes its VOTE and its ALARM, whose stored copy is the record. -/
def owing : ParcelRecord := { record .reconciled with own := some ownOf, voteOwed := true, alarmOwed := true }

theorem coherent_of_one (s : State) (r : ParcelRecord) (p : StoredParcel) (hd : s.eng.directory = [dirEntryOf r])
    (h0 : s.eng.w0 = none) (h1 : s.eng.w1 = none) (hs : s.stored r.number = some p) (hp : p.record = r) :
    s.Coherent := by
  have hc : ∀ i, s.eng.context i = none := by intro i; cases i <;> assumption
  have hf : ∀ n e, s.dirFind n = some e → r.number = n ∧ e = dirEntryOf r := by
    intro n e h
    simp only [State.dirFind, hd, List.find?_cons] at h
    split at h
    · next hn => exact ⟨by simpa [dirEntryOf, DirEntry.copyFrom] using hn, (Option.some.inj h).symm⟩
    · cases h
  refine ⟨?_, ?_, ?_, ?_, ?_⟩
  · intro n e h
    obtain ⟨rfl, rfl⟩ := hf n e h
    exact ⟨p, hs, by rw [hp]⟩
  · intro n e i h he
    obtain ⟨rfl, rfl⟩ := hf n e h
    cases he
  · intro i c h
    rw [hc i] at h
    cases h
  · intro i c q h
    rw [hc i] at h
    cases h
  · intro n e x h hx
    obtain ⟨rfl, rfl⟩ := hf n e h
    have hw : s.working r.number = none := by simp [State.working, h, dirEntryOf, DirEntry.copyFrom]
    simp only [State.recordOf, hw, hs, Option.map_some, hp, Option.some.injEq] at hx
    subst hx
    rfl

theorem test_meets_CheckpointClosesBothContexts_owed :
    let s := checkpointDue (stored owing)
    s.sup.held = false ∧ s.eng.checkpointPending = true ∧ s.Quiet ∧ s.Coherent ∧ s.dirFind 0#4 = none ∧
      s.recordOf 1#4 = some owing ∧ s.isHeld 1#4 = true ∧ owing.state = .reconciled :=
  ⟨rfl, rfl, ⟨rfl, rfl, rfl⟩, coherent_of_one _ owing _ rfl rfl rfl (by rfl) rfl, rfl, rfl, rfl, rfl⟩

/-- A parcel in CLOSING after a warm reset, when the listen time is reached. -/
def restarting : State :=
  at_ 2#32 (dutyDue ((stored (inWindowRecord .closing)).setEng { (stored (inWindowRecord .closing)).eng with
    windowRestart := true }))

theorem test_meets_SecondDutyClearsItsFlag_restart :
    restarting.sup.held = false ∧ restarting.DutyChosen ∧ restarting.Quiet ∧ restarting.Coherent ∧
      restartDue restarting = true ∧ restarting.eng.buf0 = none ∧ restarting.eng.buf1 = none ∧
      (∀ e ∈ restarting.eng.directory, persistenceDue restarting.tmr.seconds e = false) ∧ 1 ≤ decl.window ∧
      restarting.recordOf 1#4 = some (inWindowRecord .closing) :=
  ⟨rfl, ⟨rfl, rfl⟩, ⟨rfl, rfl, rfl⟩, coherent_of_one _ (inWindowRecord .closing) _ rfl rfl rfl (by rfl) rfl, rfl, rfl,
    rfl, by decide, by decide, rfl⟩

/-! ### A turnaround (R109, R110) -/

/-- What a turnaround asks of the state: the parcel is held and stored and not open, and a dirty victim is stored. -/
def Turns (s : State) (n : ParcelNo) : Prop :=
  ∃ e p, s.dirFind n = some e ∧ e.context = none ∧ s.stored n = some p ∧
    ∀ v, s.eng.context s.missVictim = some v → v.dirty = true → (s.stored v.record.number).isSome = true

/-- Parcel 1 rests in the store, and parcels 2 and 3 are open and dirty. -/
def crowded (r : ParcelRecord) : State :=
  let b := two (record2 .opening) { record .opening with number := 3#4 }
  (b.setEng { b.eng with
    directory := dirEntryOf r :: b.eng.directory
    rosterDir := rosterEntries r.number 0 r.roster ++ b.eng.rosterDir }).setStore
      (b.store.set 2 (some { number := byte4 r.number, record := r, check := 0#32 }))

theorem test_meets_turnaround_of_a_dirty_victim :
    Turns (withIntake [phaseEntry .opening] (crowded (record .declared))) 1#4 ∧
      (crowded (record .declared)).missVictim = .w0 ∧
      (withIntake [phaseEntry .opening] (crowded (record .declared))).HeadChosen (phaseEntry .opening) [] :=
  ⟨⟨_, _, rfl, rfl, rfl, by intro v hv _; cases hv; rfl⟩, by decide, rfl, ⟨rfl, rfl, rfl⟩, rfl, by decide⟩

theorem turns_of_empty (s : State) (n : ParcelNo) (e : DirEntry) (p : StoredParcel) (h : s.dirFind n = some e)
    (he : e.context = none) (hp : s.stored n = some p) (hw : s.eng.w0 = none) : Turns s n := by
  refine ⟨e, p, h, he, hp, ?_⟩
  intro v hv
  simp [State.missVictim, hw, Engine.context] at hv

theorem test_meets_turnaround_of_each_statement :
    Turns (at_ 1000#32 (dutyDue (stored (inWindowRecord .closing)))) 1#4 ∧
      Turns (at_ 1000#32 (dutyDue (stored diverging))) 1#4 ∧
      Turns (withIntake [phaseEntry .opening] (stored (record .declared))) 1#4 ∧
      Turns (withIntake [voteEntry vote1] (stored (voted .reconciled absentVote))) 1#4 ∧
      Turns (withIntake [snapshot 1#8] (stored (record .opening))) 1#4 ∧
      Turns (withIntake [figureEntry] (stored (record .transfer))) 1#4 ∧
      Turns (withSlot reading1 (stored (record .transfer))) 1#4 :=
  ⟨turns_of_empty _ _ _ _ rfl rfl rfl rfl, turns_of_empty _ _ _ _ rfl rfl rfl rfl, turns_of_empty _ _ _ _ rfl rfl rfl rfl,
    turns_of_empty _ _ _ _ rfl rfl rfl rfl, turns_of_empty _ _ _ _ rfl rfl rfl rfl, turns_of_empty _ _ _ _ rfl rfl rfl rfl,
    turns_of_empty _ _ _ _ rfl rfl rfl rfl⟩

/-! ### The intake head -/

def alarmed (st : ParcelState) : ParcelRecord :=
  { record st with alarm := { conditionSince := none, raised := true, clearSince := none } }

theorem test_meets_the_statements_with_the_alarm_raised :
    Ready (phaseEntry .stop) (alarmed .transfer) ∧ Ready (phaseEntry .cancel) (alarmed .transfer) ∧
      Ready refusalEntry (alarmed .transfer) ∧ (alarmed .transfer).alarm.raised = true ∧
      (alarmed .transfer).state ∈ legalStates .cancel ∧
      (headed refusalEntry (alarmed .transfer)).port.notices.length + 2 ≤ 16 :=
  ⟨ready_of _ _ rfl rfl, ready_of _ _ rfl rfl, ready_of _ _ rfl rfl, rfl, by decide, by decide⟩

def shortPhase : IntakeEntry := entryOf .phase 0 2#6 0#6 [0#8]
def shortVote : IntakeEntry := entryOf .vote 1 2#6 1#6 [1#8]

theorem test_meets_RegaugeCancelAndReleaseEndARound_void_check :
    Ready (phaseEntry .release) (voidCheckRecord 1#4) ∧ Ready (phaseEntry .cancel) (voidCheckRecord 1#4) ∧
      (voidCheckRecord 1#4).decl = none ∧ (voidCheckRecord 1#4).state ∈ legalStates .release ∧
      Ready shortPhase (record .declared) ∧ (headed shortPhase (record .declared)).isHeld 1#4 = true ∧
      ¬ ∃ p round reason, IsPhaseEntry shortPhase p round reason :=
  ⟨ready_of _ _ rfl rfl, ready_of _ _ rfl rfl, rfl, by decide, ready_of _ _ rfl rfl, by decide, by
    rintro ⟨p, a, b, _, h, _⟩
    simp [shortPhase, entryOf] at h⟩

theorem test_meets_VotesDecideTheParcel_forms :
    IsVoteEntry (voteEntry vote1) vote1 ∧ Ready (voteEntry vote1) (voidCheckRecord 1#4) ∧
      Ready shortVote (voted .closing absentVote) ∧ ¬ ∃ v, IsVoteEntry shortVote v :=
  ⟨⟨rfl, by decide, by decide, rfl, .within, 1#16, by decide, rfl⟩, ready_of _ _ rfl rfl, ready_of _ _ rfl rfl, by
    rintro ⟨v, _, _, _, _, _, _, _, h⟩
    have := congrArg List.length h
    simp [shortVote, entryOf, be32, be16] at this⟩

/-- A received 1 in an unused bit of the flags is handled as 0 (R181). -/
theorem test_unused_vote_flags_are_dropped :
    (parseVote { voteEntry vote1 with
      payload := (voteEntry vote1).payload.take 18 ++ [0xFF#8, 0xFF#8] }).map VoteData.flags = some 0x001F#16 := by
  decide

def snapshotAt (kind seq : Byte) : IntakeEntry := entryOf .snapshot 2 5#6 1#6 (reading kind seq 700).bytes

/-- The ship tank holds an opening value of sequence number 3. -/
def openedAt3 : ParcelRecord :=
  withRoster [{ shipTank with opening := some (opened 3#8 1000) }, shoreTank] (record .opening)

theorem test_meets_Records_at_distance_127_and_128 :
    Ready (snapshotAt 1#8 130#8) openedAt3 ∧ Ready (snapshotAt 1#8 131#8) openedAt3 ∧
      (130#8 - 3#8 : Byte).toNat = 127 ∧ (131#8 - 3#8 : Byte).toNat = 128 ∧
      recordForm .snapshot (snapshotAt 1#8 130#8).payload = some (.tank (reading 1#8 130#8 700)) ∧
      recordForm .snapshot (snapshotAt 1#8 131#8).payload = some (.tank (reading 1#8 131#8 700)) :=
  ⟨ready_of _ _ rfl rfl, ready_of _ _ rfl rfl, by decide, by decide, by decide, by decide⟩

/-- The entries of the roster directory that hold the source and item of an intake entry. -/
def holdersOf (e : IntakeEntry) (s : State) : List (ParcelNo × Role) :=
  (s.eng.rosterDir.filter (fun y => y.station == e.source && y.item == e.item)).map (fun y => (y.parcel, y.role))

def bad (e : IntakeEntry) : IntakeEntry := { e with payload := (reading 3#8 4#8 700).bytes }

theorem test_meets_Records_holders :
    holdersOf (snapshot 1#8) (withIntake [snapshot 1#8] awake) = [] ∧
      holdersOf (snapshot 1#8) (headed (snapshot 1#8) (record .agreed)) = [(1#4, .shipTank)] ∧
      ParcelState.agreed.isBound = false ∧
      recordForm .snapshot (bad (snapshot 1#8)).payload = none ∧ roleFits .meter .shipTank = false ∧
      holdersOf (snapshot 1#8) (two (record .opening) (record2 .opening)) = [(1#4, .shipTank), (2#4, .shipTank)] := by
  decide

theorem test_meets_Records_of_two_parcels :
    let s := withIntake [snapshot 1#8] (two (record .opening) (record2 .opening))
    s.HeadChosen (snapshot 1#8) [] ∧ s.Quiet ∧ s.OpenIn 1#4 .w0 (record .opening) ∧ s.OpenIn 2#4 .w1 (record2 .opening) ∧
      (s.dirFind 1#4).map DirEntry.state = some .opening ∧ (s.dirFind 2#4).map DirEntry.state = some .opening ∧
      (record2 .opening).roster[0]? = some shipTank ∧ shipTank.opening = none ∧
      (Reading.tank (reading 1#8 4#8 700)).isBad 0 = false :=
  ⟨⟨rfl, ⟨rfl, rfl, rfl⟩, rfl, by decide⟩, ⟨rfl, rfl, rfl⟩, ⟨_, _, rfl, rfl, rfl, rfl, rfl⟩, ⟨_, _, rfl, rfl, rfl, rfl, rfl⟩,
    rfl, rfl, rfl, rfl, by decide⟩

/-! ### Declarations -/

def declareAt (item : ItemNo) (source : Station) (payload : List Byte) : IntakeEntry :=
  entryOf .declare 3 source item payload

/-- Part 0 with an item count and a first node. -/
def part0Bytes (count : Byte) (node : Byte) : List Byte :=
  [1#8, count] ++ be16 0#16 ++ be16 8500#16 ++ be16 0#16 ++ be16 2000#16 ++ be32 10#32 ++ be16 60#16 ++
    [10#8, node <<< 2, 0x20#8, 0x00#8]

def other (source : Station) (parcel : ParcelNo) : Assembly := { assembly 10 with source := source, parcel := parcel }

def buffers (a b : Option Assembly) : State := awake.setEng { awake.eng with buf0 := a, buf1 := b }

/-- Part 0 of a node set with the part and without it, and of an item count out of range; a buffer of the same source,
one of another source for the number, a free buffer, and both in use. -/
theorem test_meets_CompletedDeclarationIsJudged_part_0 :
    (declareAt 0#6 2#6 (part0Bytes 2#8 1#8)).payload.length = 20 ∧ (declareAt 3#6 2#6 []).item.toNat = 3 ∧
      (parsePart0 (part0Bytes 2#8 1#8)).map (fun p => (p.nodes, p.count)) = some ([1#6, 2#6], 2) ∧
      (parsePart0 (part0Bytes 2#8 3#8)).map (fun p => (p.nodes, p.count)) = some ([3#6, 2#6], 2) ∧
      (parsePart0 (part0Bytes 17#8 1#8)).map (fun p => (p.nodes, p.count)) = some ([1#6, 2#6], 17) ∧
      (buffers none (some (other 2#6 1#4))).eng.bufferFor 2#6 1#4 = some 1 ∧
      (buffers (some (other 4#6 1#4)) none).eng.bufferFor 2#6 1#4 = none ∧
      (buffers (some (other 4#6 2#4)) none).eng.bufferFor 2#6 1#4 = none ∧
      (buffers (some (other 4#6 2#4)) (some (other 4#6 3#4))).eng.bufferFor 2#6 1#4 = none := by decide

/-- A collection of 11 items: part 1 with ten, and part 2 with the last. -/
def longAssembly (next : Nat) (items : List DeclaredItem) : Assembly :=
  { assembly 10 with part0 := { part0 10 with count := 11 }, nextPart := next, items := items }

def elevenItems : List DeclaredItem :=
  (List.range 11).map (fun k => { station := BitVec.ofNat 6 (k + 5), item := 1#6
                                  role := if k = 0 then .shipTank else .shoreTank })

def packed (l : List DeclaredItem) : List Byte := l.flatMap DeclaredItem.bytes

theorem test_meets_CompletedDeclarationIsJudged_parts :
    IsNextPart (declareAt 1#6 2#6 (packed (elevenItems.take 10))) (longAssembly 1 []) ∧
      IsLastPart (declareAt 2#6 2#6 (packed (elevenItems.drop 10))) (longAssembly 2 (elevenItems.take 10)) ∧
      IsLastPart rosterEntry (assembly 10) ∧
      ¬ IsNextPart (declareAt 2#6 2#6 (packed (elevenItems.drop 10))) (longAssembly 1 []) ∧
      ¬ IsNextPart (declareAt 1#6 2#6 [0#8]) (assembly 10) ∧
      formOk { part0 10 with count := 11 } elevenItems = true ∧ elevenItems.length = 11 ∧
      (packed (elevenItems.take 10)).length = 20 := by
  unfold IsLastPart IsNextPart; decide

/-- A last part for a parcel held in DECLARED, by its declarer, and for a parcel held in another state. -/
def amending (r : ParcelRecord) (window : Nat) : State :=
  withIntake [rosterEntry] ((holding r).setEng { (holding r).eng with
    buf0 := some (assembly window), heard := [1#6, 2#6] })

theorem test_meets_CompletedDeclarationIsJudged_held :
    let s := amending (record .declared) 10
    let u := { s with acc := unbindParcel 1#4 s.acc }
    s.HeadChosen rosterEntry [] ∧ s.Quiet ∧ s.eng.bufferFor 2#6 1#4 = some 0 ∧ s.OpenIn 1#4 .w0 (record .declared) ∧
      (s.stored 1#4).isSome = true ∧ decl.declarer = rosterEntry.source ∧
      validate 2#6 1#4 (part0 10) declared u = none ∧ validate 2#6 1#4 (part0 4) declared u = some .form ∧
      ((amending (record .opening) 10).dirFind 1#4).map DirEntry.state = some .opening :=
  ⟨⟨rfl, ⟨rfl, rfl, rfl⟩, rfl, by decide⟩, ⟨rfl, rfl, rfl⟩, rfl, ⟨_, _, rfl, rfl, rfl, rfl, rfl⟩, by decide, rfl,
    by decide, by decide, by decide⟩

/-- One declaration for each answer of the checks. -/
theorem test_meets_CompletedDeclarationIsJudged_checks :
    let s := assembling 10
    let full := s.setEng { s.eng with directory := (List.range 6).map (fun k =>
      { dirEntryOf (record .agreed) with number := BitVec.ofNat 4 (k + 2) }) }
    validate 3#6 1#4 (part0 10) declared s = some .notMember ∧
      validate 2#6 1#4 (part0 10) declared (s.setEng { s.eng with heard := [1#6] }) = some .nodeUnheard ∧
      validate 2#6 2#4 (part0 10) declared ((stored (record .opening)).setEng
        { (stored (record .opening)).eng with heard := [1#6, 2#6] }) = some .tankBusy ∧
      validate 2#6 1#4 (part0 10) declared full = some .tableFull ∧
      validate 2#6 1#4 (part0 10) declared (s.setAcc { s.acc with
        entries := List.replicate 24 (some (boundEntry 9#6 0)) }) = some .noSlots := by decide

/-! ### The restart, the slots and the port -/

/-- The tanks of a stored parcel in a bound state are there to be bound at the restart. -/
theorem test_meets_WarmRelease_bound_tanks :
    let q := mkStored (record .transfer)
    q.number = byte4 1#4 ∧ q.check = storeCheck q.number q.record ∧ nodeSetHolds pins.st q.record = true ∧
      q.record.state.isBound = true ∧ (q.record.roster.zipIdx.filter (fun x => x.1.role.isTank)).length = 2 :=
  ⟨rfl, test_meets_WarmRelease_good_check _, by decide, rfl, by decide⟩

def reading1At (seq : Byte) : List Byte := (reading 0#8 seq 700).bytes

/-- The latest reading of the ship tank has sequence number 3. -/
def latestAt3 : ParcelRecord := withRoster [{ shipTank with latest := some (latest 3#8 600) }, shoreTank] (record .opening)

theorem test_meets_SlotServiceStoresTheReading_at_distance_127_and_128 :
    (withSlot (reading1At 130#8) (holding latestAt3)).OpenIn 1#4 .w0 latestAt3 ∧
      (withSlot (reading1At 131#8) (holding latestAt3)).OpenIn 1#4 .w0 latestAt3 ∧
      routineForm (reading1At 130#8) = some (reading 0#8 130#8 700) ∧
      routineForm (reading1At 131#8) = some (reading 0#8 131#8 700) ∧
      (130#8 - 3#8 : Byte).toNat = 127 ∧ (131#8 - 3#8 : Byte).toNat = 128 :=
  ⟨⟨_, _, rfl, rfl, rfl, rfl, rfl⟩, ⟨_, _, rfl, rfl, rfl, rfl, rfl⟩, by decide, by decide, by decide, by decide⟩

/-- The figures are 20 apart since second 940. -/
def apart : ParcelRecord :=
  { withRoster [{ shipTank with opening := some (opened 3#8 1000) },
      { shoreTank with opening := some (opened 3#8 50), latest := some (latest 3#8 330) }] (record .transfer) with
    alarm := { conditionSince := some 940#32, raised := false, clearSince := none } }

theorem test_meets_SlotService_persistence_runs_out :
    let l := { reading := reading 0#8 5#8 700, arrival := 101#32, std := some 700#32, bad := false : LatestReading }
    let roster := apart.roster.set 0 { shipTank with opening := some (opened 3#8 1000), latest := some l }
    (at_ 1000#32 (withSlot reading1 (holding apart))).OpenIn 1#4 .w0 apart ∧
      (runningFigure decl roster 1000#32).complete = true ∧
      decl.alarmLimit < ((runningExact decl roster).1 - (runningExact decl roster).2).natAbs ∧
      (persistenceCopy apart).map (fun c => (c.tag, decide (c.persistence ≤ (1000#32 - c.since).toNat))) =
        some (.condition, true) :=
  ⟨⟨_, _, rfl, rfl, rfl, rfl, rfl⟩, by decide, by decide, by decide⟩

theorem test_meets_SubmitDeclareOffersItsParts_eleven_items :
    (parsePart0 (part0Bytes 11#8 1#8)).map (fun p => (p.count, formOk p elevenItems)) = some (11, true) ∧
      elevenItems.length = 11 := by decide

/-! ### The forms of the second review -/

/-- A good frame heard takes rfc from 96 to 95, and the 64th in WITHDRAWN recovers. -/
theorem test_meets_GoodFrame_standing_notice :
    let muted := awake.setLine { awake.line with standing := .muted, rfc := 96 }
    muted.line.standing = .muted ∧ standingByCounts muted.line.standing muted.line.tfc (muted.line.rfc - 1) = .active ∧
      muted.port.notices.length < 16 ∧ (withdrawnAt 63).port.notices.length < 16 ∧ 64 ≤ 63 + 1 := by decide

/-- A carried own frame is the 24th of the intake queue, and is lost at a full one. -/
theorem test_meets_CarriedAttempt_pressure_and_loss :
    let s := withIntake (longIntake 23).acc.intake (flightOf flyingVote)
    let u := withIntake (longIntake 32).acc.intake (flightOf flyingVote)
    s.OnlyFlying flyingVote ∧ s.KeysDistinct ∧ s.acc.pressure = false ∧ s.acc.intake.length = 23 ∧
      s.port.notices.length < 15 ∧ u.acc.intake.length = 32 ∧ u.port.notices.length < 15 ∧ Kind.vote.cls ≤ 4#3 := by
  unfold State.KeysDistinct State.OnlyFlying; decide +kernel

/-- A faulted attempt takes tfc from 196 to 200, and MUTED to WITHDRAWN. -/
theorem test_meets_FaultedAttempt_withdrawn :
    let s := (flightOf flyingVote).setLine { (flightOf flyingVote).line with standing := .muted, tfc := 196 }
    s.OnlyFlying flyingVote ∧ s.KeysDistinct ∧
      standingByCounts s.line.standing (min 255 (s.line.tfc + 4)) s.line.rfc = .withdrawn ∧ s.port.notices.length < 16 ∧ ∀ x ∈ s.line.outbound, x.faults < 8 := by
  unfold State.KeysDistinct State.OnlyFlying; decide +kernel

/-- Positions with a number out of range, one that is repeated, and one whose copy is emptied. -/
theorem test_meets_WarmRelease_emptied_positions :
    let at' (n : Byte) : Option StoredParcel := some { number := n, record := record .agreed, check := 0#32 }
    let store := [at' 16#8, at' 5#8, none, at' 5#8, at' 0#8, at' 15#8]
    (store.zipIdx.map (fun x => x.1.filter (fun q => decide (1 ≤ q.number.toNat ∧ q.number.toNat ≤ 15) &&
      !((store.take x.2).filterMap id).any (fun y => y.number == q.number)))).map (Option.map StoredParcel.number) =
        [none, some 5#8, none, none, none, some 15#8] := by decide

/-- The outbound queue holds a VOTE of the same key, left by a removed parcel of the same number. -/
theorem test_meets_Records_busy_vote :
    let s := queued [queuedFrame voteKey] (headed (snapshot 2#8) lastMissing)
    s.HeadChosen (snapshot 2#8) [] ∧ s.Quiet ∧ s.OpenIn 1#4 .w0 lastMissing ∧ (s.stored 1#4).isSome = true ∧
      mkKey .vote s.sup.straps.station 1#4 (BitVec.ofNat 6 lastMissing.round) = voteKey ∧
      ∀ l, (offer { key := voteKey, payload := l } false s).1 = .busy :=
  ⟨⟨rfl, ⟨rfl, rfl, rfl⟩, rfl, by decide⟩, ⟨rfl, rfl, rfl⟩, ⟨_, _, rfl, rfl, rfl, rfl, rfl⟩, by decide, by decide,
    fun _ => by
      unfold offer
      dsimp only
      rw [if_neg (by decide), if_pos (by decide), if_neg (by decide)]⟩

/-- A buffer that is due, with its number held. -/
def timingOut (s : State) (source : Station) : State :=
  at_ 100#32 (dutyDue (s.setEng { s.eng with buf0 := some { assembly 10 with source := source } }))

theorem test_meets_AssemblyTimeoutFreesTheBuffer_held :
    let s := timingOut (holding (record .declared)) 2#6
    let other := timingOut (holding (record .declared)) 4#6
    s.DutyChosen ∧ s.OpenIn 1#4 .w0 (record .declared) ∧ (s.stored 1#4).isSome = true ∧ decl.declarer = 2#6 ∧
      (record .declared).alarm.raised = false ∧ other.OpenIn 1#4 .w0 (record .declared) ∧ decl.declarer ≠ 4#6 ∧
      ((timingOut (holding (record .opening)) 2#6).dirFind 1#4).map DirEntry.state = some .opening ∧
      Turns (timingOut (stored (record .declared)) 2#6) 1#4 :=
  ⟨⟨rfl, rfl⟩, ⟨_, _, rfl, rfl, rfl, rfl, rfl⟩, by decide, rfl, rfl, ⟨_, _, rfl, rfl, rfl, rfl, rfl⟩, by decide,
    by decide, turns_of_empty _ _ _ _ rfl rfl rfl rfl⟩

/-- An assembly buffer and a window are due in one second duty. -/
theorem test_meets_SecondDutyClearsItsFlag_parts :
    let s := at_ 1000#32 (dutyDue ((stored (inWindowRecord .closing)).setEng
      { (stored (inWindowRecord .closing)).eng with buf1 := some (other 4#6 2#4) }))
    s.sup.held = false ∧ s.DutyChosen ∧ s.Quiet ∧ s.Coherent ∧ s.dirFind 0#4 = none ∧ assemblyDue 1 s = true ∧
      (∀ e ∈ s.eng.directory, expiryDue s.tmr.seconds e = true) :=
  ⟨rfl, ⟨rfl, rfl⟩, ⟨rfl, rfl, rfl⟩, coherent_of_one _ (inWindowRecord .closing) _ rfl rfl rfl (by rfl) rfl, rfl,
    by decide, by decide⟩

def otherTanks : List DeclaredItem :=
  [{ station := 7#6, item := 1#6, role := .shipTank }, { station := 8#6, item := 1#6, role := .shoreTank }]

def otherEntry : IntakeEntry := entryOf .declare 3 2#6 1#6 (otherTanks.flatMap DeclaredItem.bytes)

/-- A declaration of parcel 1 is complete with both contexts in use and the victim dirty; one in DECLARED is not open. -/
theorem test_meets_CompletedDeclarationIsJudged_turnarounds :
    let b := two (record2 .opening) { record .opening with number := 3#4 }
    let s := withIntake [otherEntry] (b.setEng { b.eng with buf0 := some (assembly 10), heard := [1#6, 2#6] })
    let d := (stored (record .declared)).setEng { (stored (record .declared)).eng with buf0 := some (assembly 10) }
    s.HeadChosen otherEntry [] ∧ s.Quiet ∧ IsLastPart otherEntry (assembly 10) ∧ s.dirFind 1#4 = none ∧
      validate 2#6 1#4 (part0 10) otherTanks s = none ∧ none ∈ s.store ∧ s.stored 1#4 = none ∧ s.missVictim = .w0 ∧
      (s.eng.context .w0).map OpenContext.dirty = some true ∧ (s.stored 2#4).isSome = true ∧
      Turns (withIntake [rosterEntry] d) 1#4 :=
  ⟨⟨rfl, ⟨rfl, rfl, rfl⟩, rfl, by decide⟩, ⟨rfl, rfl, rfl⟩, by unfold IsLastPart IsNextPart; decide, by decide,
    by decide, by decide, by decide, by decide, by decide, by decide, turns_of_empty _ _ _ _ rfl rfl rfl rfl⟩

/-- Part 0 for a held number: with an item count out of range, and with both buffers in use. -/
theorem test_meets_CompletedDeclarationIsJudged_part_0_held :
    let h := holding (record .declared)
    let s := withIntake [declareAt 0#6 2#6 (part0Bytes 17#8 1#8)] h
    let u := h.setEng { h.eng with buf0 := some (other 4#6 2#4), buf1 := some (other 4#6 3#4) }
    s.OpenIn 1#4 .w0 (record .declared) ∧ s.eng.buf0 = none ∧ decl.declarer = 2#6 ∧
      (parsePart0 (part0Bytes 17#8 1#8)).map (fun p => validate 2#6 1#4 p [] s) = some (some .form) ∧
      u.OpenIn 1#4 .w0 (record .declared) ∧ u.eng.bufferFor 2#6 1#4 = none ∧ u.eng.buf0 ≠ none ∧ u.eng.buf1 ≠ none :=
  ⟨⟨_, _, rfl, rfl, rfl, rfl, rfl⟩, rfl, rfl, by decide, ⟨_, _, rfl, rfl, rfl, rfl, rfl⟩, by decide, by decide,
    by decide⟩

/-! ### Services under CLOSE_AFTER_BURST, and cycle starts that wait for the end of a service -/

/-- Each of the five services, chosen with a context open; and one after which no requester waits. -/
theorem test_meets_BurstEndClosesTheUnneeded_services :
    let s := closing (holding (record .opening))
    (checkpointDue s).Serves .checkpoint ∧ (dutyDue s).Serves .secondDuty ∧
      (withIntake [phaseEntry .start] s).Serves .intakeService ∧ (withSlot reading1 s).Serves .gaugeSlotService ∧
      (waitingFor .readAcceptance s).Serves .portRequestService ∧ isDutyPart (.windowExpiry 1#4) = true ∧
      arbiter (dutyDue s) = some .secondDuty ∧ s.sup.straps.policy = .closeAfterBurst :=
  ⟨rfl, rfl, ⟨phaseEntry .start, rfl⟩, ⟨0, rfl⟩, ⟨.readAcceptance, rfl⟩, rfl, rfl, rfl⟩

theorem test_service_ends_idle :
    (nextOf (exec .intakeService (closing (withIntake [phaseEntry .start] (holding (record .opening)))))).map
      (fun t => (arbiter t, t.eng.w0, t.eng.w1)) = some (none, none, none) := by decide +kernel

/-- A start waits for the end of a chosen service: with KEEP_OPEN, with another entry behind the head, and with a
secondary start alone. -/
theorem test_meets_BuildMoment_at_the_end_of_a_service :
    let s := building .primary (headed (phaseEntry .stop) figured)
    let u := closing (building .primary (withIntake [phaseEntry .stop, phaseEntry .cancel] (holding figured)))
    let v := closing (building .secondary (headed (phaseEntry .stop) figured))
    s.Serves .intakeService ∧ s.sup.straps.policy = .keepOpen ∧ u.Serves .intakeService ∧
      (nextOf (exec .intakeService (u.withStarts []))).map (fun t => (arbiter t).isSome) = some true ∧
      v.Serves .intakeService ∧ v.tmr.buildsDue = [.secondary] :=
  ⟨⟨phaseEntry .stop, rfl⟩, rfl, ⟨phaseEntry .stop, rfl⟩, by decide +kernel, ⟨phaseEntry .stop, rfl⟩, rfl⟩

theorem test_service_end_builds :
    (nextOf (exec .intakeService (building .secondary (headed (phaseEntry .stop) figured)))).map
      (fun t => (t.line.outbound.map QueuedFrame.key, t.tmr.buildsDue)) = some ([presenceKey], []) := by decide +kernel

/-! ### Parts of a second duty that are not due -/

/-- Each reason for which a half-window pass is not due. -/
theorem test_meets_HalfWindowPassAsksForTheMissing_not_due :
    let e := { dirEntryOf (inWindowRecord .closing) with context := some .w0 }
    (inWindowAt .closing 699#32).dirFind 1#4 = some e ∧ e.windowStart = some 400#32 ∧ e.windowLength = some 600 ∧
      (699#32 - 400#32 : Second).toNat < 600 / 2 ∧ 600 ≤ (1000#32 - 400#32 : Second).toNat ∧
      ((inWindowAt .reconciled 700#32).dirFind 1#4).map DirEntry.state = some .reconciled ∧
      (((inWindowAt .closing 700#32).setHalf 1#4 true).dirFind 1#4).map DirEntry.halfDone = some true ∧
      ((dutyDue (holding (record .closing))).dirFind 1#4).map DirEntry.windowStart = some none ∧
      ((dutyDue (holding (voidCheckRecord 1#4))).dirFind 1#4).map DirEntry.windowLength = some none ∧
      (dutyDue awake).dirFind 1#4 = none ∧ (inWindowAt .closing 700#32).DutyChosen ∧
      (inWindowAt .closing 700#32).sup.straps.policy = .keepOpen ∧ restarting.eng.windowRestart = true := by
  unfold State.DutyChosen; decide

/-- Each reason for which no persistence has run out. -/
theorem test_meets_PersistenceRunOutMovesTheAlarm_not_due :
    let s := at_ 999#32 (dutyDue (holding diverging))
    s.DutyChosen ∧ s.eng.dueWrites = [] ∧ s.sup.straps.policy = .keepOpen ∧
      (s.dirFind 1#4).map DirEntry.persistence =
        some (some { tag := .condition, since := 940#32, persistence := 60 }) ∧
      (s.tmr.seconds - 940#32).toNat < 60 ∧
      ((dutyDue (holding (record .closing))).dirFind 1#4).map DirEntry.state = some .closing ∧
      ((dutyDue (holding (record .transfer))).dirFind 1#4).map DirEntry.persistence = some none ∧
      (dutyDue awake).dirFind 1#4 = none := by
  unfold State.DutyChosen; decide

/-! ### Peer frames that have no effect -/

def fromStation (n : Station) (e : IntakeEntry) : IntakeEntry := { e with source := n }

/-- A FIGURE and an ALARM with the own flag, of bad form, from outside the node set, of the own number, and for a
parcel with no declaration. -/
theorem test_meets_PeerFramesEnterThePeerData_no_effect :
    { figureEntry with own := true }.own = true ∧ Ready { figureEntry with own := true } (record .transfer) ∧
      Ready { figureEntry with item := 1#6 } (record .transfer) ∧ ({ figureEntry with item := 1#6 }).item ≠ 0#6 ∧
      Ready { alarmEntry with payload := [0#8] } (record .transfer) ∧
      Ready (fromStation 9#6 figureEntry) (record .transfer) ∧ Ready (fromStation 9#6 refusalEntry) (record .transfer) ∧
      (9#6 : Station) ∉ decl.nodes ∧ Ready (fromStation 1#6 alarmEntry) (record .transfer) ∧
      awake.sup.straps.station = 1#6 ∧ Ready refusalEntry (voidCheckRecord 1#4) ∧ (voidCheckRecord 1#4).decl = none :=
  ⟨rfl, ready_of _ _ rfl rfl, ready_of _ _ rfl rfl, by decide, ready_of _ _ rfl rfl, ready_of _ _ rfl rfl,
    ready_of _ _ rfl rfl, by decide, ready_of _ _ rfl rfl, rfl, ready_of _ _ rfl rfl, rfl⟩

/-! ### The quantity arithmetic and the layouts -/

def meterReading (n : Nat) : MeterReading := { kind := 1#8, seq := 1#8, totaliser := BitVec.ofNat 32 n, temp := 1500#16 }

/-- A meter with both values: 100 to 300. -/
def meterItem : RosterItem :=
  { shipTank with
    role := .meter, binding := none
    opening := some { value := { reading := .meter (meterReading 100), std := 0#32 }, substituted := false }
    closing := some { reading := .meter (meterReading 300), std := 0#32 } }

theorem test_meets_DivisionRoundsHalfAway :
    meterItem.pair = some (.meter (meterReading 100), .meter (meterReading 300)) ∧
      [shipTank, meterItem].filter (fun x => x.role == .meter) = [meterItem] ∧ meterMovement decl meterItem = 200 ∧
      0 < decl.vef := by decide

/-- A VEF of 1,000,001 has the offset 1, and one of 999,999 the offset -1 in 17 bits. -/
theorem test_part_0_layout :
    (part0Layout { decl with vef := 1000001 } 2).take 8 = [1#8, 2#8, 0#8, 0#8, 0x21#8, 0x34#8, 0#8, 1#8] ∧
      (part0Layout { decl with vef := 999999 } 2).take 8 = [1#8, 0x22#8, 0#8, 0#8, 0x21#8, 0x34#8, 0xFF#8, 0xFF#8] ∧
      (part0Layout decl 2).drop 17 = [0x04#8, 0x20#8, 0#8] := by decide

/-! ### Invariants -/

theorem test_meets_invariants :
    (flightOf flyingVote).KeysDistinct ∧ (longIntake 17).Bounded ∧ (holding (record .closing)).Shaped ∧
      (holding (record .closing)).TableSound ∧
      (longIntake 17).PressureAgrees ∧ (withIntake (longIntake 32).acc.intake (awake.setAcc { awake.acc with pressure := true })).PressureAgrees := by
  unfold State.KeysDistinct State.Bounded State.Shaped State.TableSound State.PressureAgrees; decide

end Sys2Proof.Tests
end

/-! SUPPORT. The quantity arithmetic (file 03): what the one rounded division gives (R43), what the clamps and range
tests say (R44, R55, R56), and with them the statement on every division. -/

namespace Sys2Proof.Machine

/-! ## The rounded division (R43) -/

/-- `q` is the whole number nearest to `x / d`, and at a half the one farther from zero. Both sides are compared as
multiples of 1 / (2d), so that no division stands in the predicate. -/
def RoundsHalfAway (x : Int) (d : Nat) (q : Int) : Prop :=
  2 * (q * d - x).natAbs ≤ d ∧ (2 * (q * d - x).natAbs = d → x.natAbs < (q * d).natAbs)

/-- The quotient of the magnitudes lies above `n / d - 1/2` and at most at `n / d + 1/2`: the strict side is what sends
a half away from zero. -/
theorem halfUp_quotient_bounds (n : Nat) {d : Nat} (hd : 0 < d) :
    2 * n < 2 * ((2 * n + d) / (2 * d) * d) + d ∧ 2 * ((2 * n + d) / (2 * d) * d) ≤ 2 * n + d := by
  have below := Nat.div_mul_le_self (2 * n + d) (2 * d)
  have above := Nat.lt_div_mul_add (a := 2 * n + d) (b := 2 * d) (by omega)
  rw [Nat.mul_left_comm] at below above
  omega

/-- A quotient of magnitudes within those bounds, taken with the sign of the dividend, rounds it. -/
theorem roundsHalfAway_signed {x : Int} {d q : Nat} (above : 2 * x.natAbs < 2 * (q * d) + d)
    (below : 2 * (q * d) ≤ 2 * x.natAbs + d) : RoundsHalfAway x d (if 0 ≤ x then (q : Int) else -q) := by
  unfold RoundsHalfAway
  split
  case isTrue hx =>
    rw [← Int.natCast_mul]
    omega
  case isFalse hx =>
    rw [Int.neg_mul, ← Int.natCast_mul]
    omega

theorem roundDiv_roundsHalfAway (x : Int) {d : Nat} (hd : 0 < d) : RoundsHalfAway x d (roundDiv x d) := by
  obtain ⟨above, below⟩ := halfUp_quotient_bounds x.natAbs hd
  exact roundsHalfAway_signed above below

/-! ## The divisions of the chapter -/

/-- R45. -/
theorem vcf_roundsHalfAway (alpha : Nat) (temp : BitVec 16) :
    RoundsHalfAway ((alpha : Int) * (temp.toInt - 1500)) 100 (1000000 - vcf alpha temp) := by
  rw [vcf, sub_sub_cancel]
  exact roundDiv_roundsHalfAway _ (by decide)

/-- R46. -/
theorem tankExact_roundsHalfAway (alpha : Nat) (r : TankReading) :
    RoundsHalfAway (((r.volume.toNat : Int) - r.water.toNat) * vcf alpha r.temp) 1000000 (r.exact alpha) :=
  roundDiv_roundsHalfAway _ (by decide)

/-- R47, for a line that holds the parcel's grade. -/
theorem lineExact_roundsHalfAway (alpha : Nat) (r : LineReading) :
    RoundsHalfAway ((r.fill.toNat : Int) * vcf alpha r.temp) 1000000 (r.exact alpha r.grade) := by
  rw [LineReading.exact, if_pos (beq_self_eq_true r.grade)]
  exact roundDiv_roundsHalfAway _ (by decide)

/-- R48: the three divisions of a meter are this one. -/
theorem standardTotaliser_roundsHalfAway (factor totaliser : Int) :
    RoundsHalfAway (totaliser * factor) 1000000 (standardTotaliser factor totaliser) :=
  roundDiv_roundsHalfAway _ (by decide)

theorem itemQuantities_of_meter {x : RosterItem} {o c : MeterReading} (d : Declaration)
    (hx : x.pair = some (.meter o, .meter c)) :
    itemQuantities d x = (standardTotaliser (vcf d.alpha c.temp) o.totaliser.toNat,
      standardTotaliser (vcf d.alpha c.temp) c.totaliser.toNat) := by
  simp only [itemQuantities, hx]

theorem meterMovement_of_meter {x : RosterItem} {o c : MeterReading} (d : Declaration)
    (hx : x.pair = some (.meter o, .meter c)) :
    meterMovement d x =
      standardTotaliser (vcf d.alpha c.temp) ((c.totaliser.toNat : Int) - o.totaliser.toNat) := by
  simp only [meterMovement, hx]

theorem meterQuantities_roundHalfAway (d : Declaration) (x : RosterItem) (o c : MeterReading)
    (hx : x.pair = some (.meter o, .meter c)) :
    RoundsHalfAway ((o.totaliser.toNat : Int) * vcf d.alpha c.temp) 1000000 (itemQuantities d x).1 ∧
      RoundsHalfAway ((c.totaliser.toNat : Int) * vcf d.alpha c.temp) 1000000 (itemQuantities d x).2 ∧
      RoundsHalfAway (((c.totaliser.toNat : Int) - o.totaliser.toNat) * vcf d.alpha c.temp) 1000000
        (meterMovement d x) := by
  rw [itemQuantities_of_meter d hx, meterMovement_of_meter d hx]
  exact ⟨standardTotaliser_roundsHalfAway _ _, standardTotaliser_roundsHalfAway _ _,
    standardTotaliser_roundsHalfAway _ _⟩

/-- R52. -/
theorem shipFigure_roundsHalfAway (vef : Nat) (ship : Int) (hvef : 0 < vef) :
    RoundsHalfAway (ship * 1000000) vef (shipFigure vef ship) :=
  roundDiv_roundsHalfAway _ hvef

/-- R53. -/
theorem ratioOf_roundsHalfAway (delta s : Int) (hs : 0 < s) :
    RoundsHalfAway (delta * 1000000) s.toNat (ratioOf delta s) := by
  rw [ratioOf, if_pos hs]
  exact roundDiv_roundsHalfAway _ (Int.pos_iff_toNat_pos.mp hs)

/-- R57: with a meter on the roster and S above 0, the check judges the rounded deviation. -/
theorem meterDisagrees_iff {roster rest : List RosterItem} {m : RosterItem} {s : Int} (d : Declaration)
    (hm : roster.filter (fun x => x.role == .meter) = m :: rest) (hs : 0 < s) :
    meterDisagrees d roster s = true ↔
      d.tolerance < (roundDiv ((meterMovement d m - s) * 1000000) s.toNat).natAbs := by
  simp only [meterDisagrees, ofRole, hm, hs, decide_true, Bool.true_and, decide_eq_true_eq]

theorem meterDisagrees_judges_rounded (d : Declaration) (roster rest : List RosterItem) (m : RosterItem) (s : Int)
    (hm : roster.filter (fun x => x.role == .meter) = m :: rest) (hs : 0 < s) :
    ∃ q, RoundsHalfAway ((meterMovement d m - s) * 1000000) s.toNat q ∧
      (meterDisagrees d roster s = true ↔ d.tolerance < q.natAbs) :=
  ⟨_, roundDiv_roundsHalfAway _ (Int.pos_iff_toNat_pos.mp hs), meterDisagrees_iff d hm hs⟩

/-! ## Clamps and range tests, applied to rounded values (R44, R55, R56) -/

theorem holdU_eq (x : Int) : holdU x = BitVec.ofInt 32 (max 0 (min x 4294967295)) := rfl

theorem holdS_eq (x : Int) : holdS x = BitVec.ofInt 32 (max (-2147483648) (min x 2147483647)) := rfl

@[simp] theorem outsideS32_iff (x : Int) : outsideS32 x = true ↔ x < -2147483648 ∨ 2147483647 < x := by
  rw [outsideS32, Bool.or_eq_true, decide_eq_true_eq, decide_eq_true_eq, minS32, maxS32]

@[simp] theorem outsideU32_iff (x : Int) : outsideU32 x = true ↔ 4294967295 < x.natAbs := by
  rw [outsideU32, decide_eq_true_eq, maxU32]
  omega

/-- R60. -/
theorem massOf_clamps_rounded (rho : Nat) (v : Word32) :
    ∃ q, RoundsHalfAway (v.toInt * rho) 10000 q ∧
      massOf rho v = BitVec.ofInt 32 (max (-2147483648) (min q 2147483647)) :=
  ⟨_, roundDiv_roundsHalfAway _ (by decide), holdS_eq _⟩

/-- R56. -/
theorem rangeExceeded_iff (d : Declaration) (roster : List RosterItem) :
    rangeExceeded d roster = true ↔
      (∃ x ∈ roster, 4294967295 < (itemQuantities d x).1.natAbs ∨ 4294967295 < (itemQuantities d x).2.natAbs ∨
        4294967295 < (meterMovement d x).natAbs) ∨
      4294967295 < (movements d roster).1.natAbs ∨ 4294967295 < (movements d roster).2.natAbs ∨
        4294967295 < (lineChange d roster).natAbs := by
  simp only [rangeExceeded, Bool.or_eq_true, List.any_eq_true, outsideU32_iff, or_assoc]

/-! ## The flags of an own figure (file 11, 11.2.3) -/

@[simp] theorem figureFlags_overflow_bit (substituted meterDisagree overflow zeroBase range : Bool) :
    (figureFlags substituted meterDisagree overflow zeroBase range).getLsbD 2 = overflow := by
  revert substituted meterDisagree overflow zeroBase range
  decide

@[simp] theorem figureFlags_range_bit (substituted meterDisagree overflow zeroBase range : Bool) :
    (figureFlags substituted meterDisagree overflow zeroBase range).getLsbD 4 = range := by
  revert substituted meterDisagree overflow zeroBase range
  decide

/-- R55: OVERFLOW of an own figure is judged on the exact P, S, difference and ratio. -/
theorem ownFigure_overflow_iff (n : ParcelNo) (round : Nat) (d : Declaration) (roster : List RosterItem) {p s : Int}
    (hp : shipFigure d.vef (movements d roster).1 = p)
    (hs : shoreFigure d.direction (movements d roster).2 (lineChange d roster) = s) :
    (ownFigure n round d roster).flags.getLsbD 2 = true ↔
      (p < -2147483648 ∨ 2147483647 < p) ∨ (s < -2147483648 ∨ 2147483647 < s) ∨
        (p - s < -2147483648 ∨ 2147483647 < p - s) ∨
        (ratioOf (p - s) s < -2147483648 ∨ 2147483647 < ratioOf (p - s) s) := by
  simp only [ownFigure, hp, hs, figureFlags_overflow_bit, Bool.or_eq_true, outsideS32_iff, or_assoc]

theorem ownFigure_range_bit (n : ParcelNo) (round : Nat) (d : Declaration) (roster : List RosterItem) :
    (ownFigure n round d roster).flags.getLsbD 4 = rangeExceeded d roster :=
  figureFlags_range_bit ..

/-! ## The statement -/

/-- Settles O55: each division of the chapter is the one rounded division, and each clamp and range test takes its
result. -/
theorem divisionRoundsHalfAway : Obligations.DivisionRoundsHalfAway := by
  unfold Obligations.DivisionRoundsHalfAway
  exact ⟨fun x _ hd => roundDiv_roundsHalfAway x hd, vcf_roundsHalfAway, tankExact_roundsHalfAway,
    lineExact_roundsHalfAway, meterQuantities_roundHalfAway, shipFigure_roundsHalfAway, ratioOf_roundsHalfAway,
    meterDisagrees_judges_rounded, massOf_clamps_rounded, fun d r => holdU_eq (r.exact d), rangeExceeded_iff,
    fun _ _ _ => ⟨holdS_eq _, holdS_eq _, holdS_eq _⟩,
    fun n round d roster => ⟨holdS_eq _, holdS_eq _, holdS_eq _, holdS_eq _,
      ownFigure_overflow_iff n round d roster rfl rfl, ownFigure_range_bit n round d roster⟩⟩

end Sys2Proof.Machine

/-! SUPPORT. Attempts (file 08): which frames the standing lets onto the line, which frame the offering order chooses,
what an attempt that begins puts in flight, and with them the statement on R150. -/

namespace Sys2Proof.Machine

/-! ## The standing and the choice (R150, R152) -/

theorem mayOffer_iff (st : Standing) (cls : BitVec 3) : mayOffer st cls = true ↔ Offerable st cls := by
  unfold mayOffer Offerable
  cases st <;> simp

/-- The standings in which no class goes to the line. -/
theorem not_offerable {st : Standing} (h : st = .withdrawn ∨ st = .duplicate ∨ st = .unnumbered) (cls : BitVec 3) :
    ¬ Offerable st cls := by
  rcases h with rfl | rfl | rfl <;> simp [Offerable]

theorem lowestKey_mem {l : List QueuedFrame} {q : QueuedFrame} (h : lowestKey l = some q) : q ∈ l := by
  induction l generalizing q with
  | nil => cases h
  | cons x rest ih =>
    unfold lowestKey at h
    split at h
    case h_1 => cases h; exact List.mem_cons_self
    case h_2 g hg =>
      split at h
      · cases h; exact List.mem_cons_self
      · cases h; exact List.mem_cons_of_mem _ (ih hg)

theorem chosen_offerable {l : LineInterface} {q : QueuedFrame} (h : l.chosen = some q) :
    q ∈ l.outbound ∧ Offerable l.standing (keyClass q.key) := by
  obtain ⟨hq, hmay⟩ := List.mem_filter.mp (lowestKey_mem h)
  exact ⟨hq, (mayOffer_iff _ _).mp hmay⟩

/-! ## The begin of an attempt (R138) -/

theorem exec_attempt {s : State} (hh : s.sup.held = false) : exec .attempt s = .next (beginAttempt s) := by
  show whenReleased beginAttempt s = _
  simp only [whenReleased, hh, Bool.false_eq_true, if_false]

/-- The frame that the attempt takes goes in flight, and the line is driven with it. -/
def LineInterface.begun (l : LineInterface) (q : QueuedFrame) : LineInterface :=
  { l with
    outbound := mapKey q.key (fun q => { q with inFlight := true }) l.outbound
    driving := some (wireFrame q.key q.payload) }

/-- An ATTEMPT begins nothing, or it takes the chosen frame when the listen period is over and no attempt is in
flight. -/
theorem beginAttempt_cases (s : State) :
    beginAttempt s = s ∨ ∃ q, s.line.listening = false ∧ s.line.flying = none ∧ s.line.chosen = some q ∧
      beginAttempt s = s.setLine (s.line.begun q) := by
  unfold beginAttempt
  split
  case isTrue => exact .inl rfl
  case isFalse hfree =>
    obtain ⟨hlisten, hfly⟩ : s.line.listening = false ∧ s.line.flying = none := by simpa using hfree
    split
    case h_1 => exact .inl rfl
    case h_2 q hq => exact .inr ⟨q, hlisten, hfly, hq, rfl⟩

/-- The attempt on one frame leaves the queued frames of every other key as they were. -/
theorem mem_begun {l : LineInterface} {q x : QueuedFrame} (hx : x ∈ (l.begun q).outbound) :
    x ∈ l.outbound ∨ x.key = q.key := by
  obtain ⟨y, hy, rfl⟩ := List.mem_map.mp hx
  by_cases hk : y.key = q.key
  · exact .inr (by simp [hk])
  · exact .inl (by simpa [hk] using hy)

/-! ## Where nothing begins, and what MUTED lets begin (R150) -/

theorem beginAttempt_of_listening {s : State} (h : s.line.listening = true) : beginAttempt s = s := by
  obtain hsame | ⟨_, hlisten, -⟩ := beginAttempt_cases s
  · exact hsame
  · exact absurd h (by simp [hlisten])

theorem beginAttempt_of_silent {s : State} (h : ∀ cls, ¬ Offerable s.line.standing cls) : beginAttempt s = s := by
  obtain hsame | ⟨q, -, -, hq, -⟩ := beginAttempt_cases s
  · exact hsame
  · exact absurd (chosen_offerable hq).2 (h _)

/-- A queued frame that an ATTEMPT changes has a class that the standing lets onto the line. -/
theorem mem_beginAttempt {s : State} {x : QueuedFrame} (hx : x ∈ (beginAttempt s).line.outbound) :
    x ∈ s.line.outbound ∨ Offerable s.line.standing (keyClass x.key) := by
  obtain hsame | ⟨q, -, -, hq, hbegun⟩ := beginAttempt_cases s
  · rw [hsame] at hx
    exact .inl hx
  · rw [hbegun] at hx
    obtain hold | hkey := mem_begun hx
    · exact .inl hold
    · rw [hkey]
      exact .inr (chosen_offerable hq).2

theorem offerable_muted {cls : BitVec 3} (h : Offerable .muted cls) : cls ≤ 2#3 := by
  simpa [Offerable] using h

/-- Settles O14: an attempt takes the chosen frame alone, and the choice is among the frames of a class that the
standing lets onto the line. -/
theorem nothingIsOfferedOutOfStanding : Obligations.NothingIsOfferedOutOfStanding := by
  unfold Obligations.NothingIsOfferedOutOfStanding
  intro s hh
  rw [exec_attempt hh]
  refine ⟨fun hnone => congrArg _ ?_, fun hmuted => ⟨beginAttempt s, rfl, fun x hx hfly => ?_⟩⟩
  · obtain hlisten | hsilent := hnone
    · exact beginAttempt_of_listening hlisten
    · exact beginAttempt_of_silent (not_offerable hsilent)
  · obtain hold | hmay := mem_beginAttempt hx
    · exact .inl ⟨x, hold, rfl, hfly⟩
    · rw [hmuted] at hmay
      exact .inr (offerable_muted hmay)

end Sys2Proof.Machine

/-! SUPPORT. The forms of a command, the forms of a release, and with them the statements on a step, on a part held in
reset, on the reset conditions and on the invariants that every step keeps. -/

namespace Sys2Proof.Machine

/-! ## The forms of a command -/

/-- A command sends bytes on the port, or acts on the supply, or does its work while the part is released. -/
theorem exec_forms (c : Instr) :
    (∃ sent, bytesOf c = some sent) ∨ isSupplyCommand c = true ∨ ∃ f, exec c = whenReleased f := by
  cases c
  case powerOnReset | pinReset | supplyLowReset | resetRelease | supplyBelowRetention => exact .inr (.inl rfl)
  case statusPoll | fetch | readStatus | readNotice | echo | submitDeclare | submitPhase | setCycle | readParcel |
      readRosterItem | readVotes | readAcceptance | dropParcel | unknownCommand => exact .inl ⟨_, rfl⟩
  all_goals exact .inr (.inr ⟨_, rfl⟩)

theorem whenReleased_held {s : State} (f : State → State) (h : s.sup.held = true) : whenReleased f s = .next s :=
  if_pos h

theorem whenReleased_released {s : State} (f : State → State) (h : s.sup.held = false) :
    whenReleased f s = .next (f s) := by
  simp [whenReleased, h]

theorem whenReleased_next (f : State → State) (s : State) : ∃ t, whenReleased f s = .next t := by
  cases h : s.sup.held
  · exact ⟨_, whenReleased_released f h⟩
  · exact ⟨_, whenReleased_held f h⟩

theorem execSupply_next {c : Instr} (h : isSupplyCommand c = true) (s : State) : ∃ t, exec c s = .next t := by
  cases c <;> simp only [isSupplyCommand, Bool.false_eq_true] at h
  case resetRelease pins =>
    show ∃ t, (if s.sup.held then .next (release pins s) else .next s) = Host.Outcome.next t
    split
    · exact ⟨_, rfl⟩
    · exact ⟨_, rfl⟩
  all_goals exact ⟨_, rfl⟩

/-- No command ends in a fault or is refused. -/
theorem exec_next (c : Instr) (s : State) : ∃ t, exec c s = .next t := by
  obtain ⟨sent, hsent⟩ | hsup | ⟨f, hf⟩ := exec_forms c
  · exact ⟨_, exec_bytesOf hsent⟩
  · exact execSupply_next hsup s
  · rw [hf]
    exact whenReleased_next f s

/-! ## A step -/

theorem step_front (c : Instr) (rest : List Instr) (s : State) :
    step { s with pending := c :: rest } = exec c { s with pending := rest } := rfl

theorem step_idle {s : State} (h : s.pending = []) : step s = .next s := by
  simp only [step, h]

theorem step_cons {s : State} {c : Instr} {rest : List Instr} (h : s.pending = c :: rest) :
    step s = exec c (s.setPending rest) := by
  simp only [step, h]

theorem step_next (s : State) : ∃ t, step s = .next t := by
  cases h : s.pending with
  | nil => exact ⟨s, step_idle h⟩
  | cons c rest =>
    rw [step_cons h]
    exact exec_next c _

/-- A property that the blocks and a release keep, and that says nothing of the waiting commands, is kept by a step. -/
theorem step_keeps {P : State → Prop} (h : BlockClosed P) (hrel : ∀ s pins, P s → P (release pins s))
    (hpend : ∀ s l, P s → P (s.setPending l)) {s t : State} (hs : P s) (ht : step s = .next t) : P t := by
  cases hp : s.pending with
  | nil =>
    rw [step_idle hp] at ht
    cases ht
    exact hs
  | cons c rest =>
    rw [step_cons hp] at ht
    exact exec_keeps h hrel c (hpend s rest hs) ht

/-- Settles O1. -/
theorem stepRunsTheFrontCommand : Obligations.StepRunsTheFrontCommand :=
  ⟨step_front, fun _ => step_idle⟩

/-! ## A held part (R178) -/

theorem ready_of_held {s : State} (h : s.sup.held = true) : s.ready = false := by simp [State.ready, h]

theorem attn_of_held {s : State} (h : s.sup.held = true) : s.attn = false := by simp [State.attn, h]

theorem heeds_eq_false {s : State} (h : s.sup.held = true ∨ s.port.select = .unheeded) : s.heeds = false := by
  obtain h | h := h <;> simp [State.heeds, h]

/-- A part that is held does nothing on a command that is neither a supply command nor one of the port. -/
theorem exec_held {c : Instr} {s : State} (hsup : isSupplyCommand c = false) (hport : bytesOf c = none)
    (h : s.sup.held = true) : exec c s = .next s := by
  obtain ⟨sent, hsent⟩ | hs | ⟨f, hf⟩ := exec_forms c
  · simp [hport] at hsent
  · simp [hsup] at hs
  · rw [hf]
    exact whenReleased_held f h

theorem transaction_fall_held {s : State} (h : s.sup.held = true) : transaction [] s = s.setSelect .unheeded := by
  simp [transaction, selectFalls, h]

/-- Settles O2. -/
theorem heldPartIgnoresCommands : Obligations.HeldPartIgnoresCommands := by
  unfold Obligations.HeldPartIgnoresCommands
  intro c s hsup
  refine ⟨fun hh => ⟨ready_of_held hh, attn_of_held hh, fun hport => exec_held hsup hport hh, fun hfall => ?_⟩,
    fun kind more hbytes hoff => ?_⟩
  · rw [exec_bytesOf hfall, transaction_fall_held hh]
    rfl
  · rw [exec_bytesOf hbytes, transaction_unheeded (heeds_eq_false hoff)]
    rfl

/-- Settles O3. -/
theorem resetConditionsHoldThePart : Obligations.ResetConditionsHoldThePart :=
  fun _ => ⟨rfl, rfl, rfl, rfl⟩

/-! ## The release -/

/-- The reset values of every block and the RESTART notice: a release before the restart of the parcels. -/
def freshlyReleased (pins : StrapPins) (s : State) : State :=
  (freshState (strapsOfPins pins) s.sup.cause (if s.sup.cause == .powerOn then emptyStore else s.store)
    s.port.select.afterReset s.pending).post (.restart s.sup.cause (strapsOfPins pins).station)

theorem release_eq (pins : StrapPins) (s : State) :
    release pins s = if s.sup.cause == .powerOn || (strapsOfPins pins).unnumbered then freshlyReleased pins s
      else (restartParcels (freshlyReleased pins s)).setStoreLog [] := rfl

theorem freshlyReleased_store_length {s : State} (pins : StrapPins) (h : s.store.length = 6) :
    (freshlyReleased pins s).store.length = 6 := by
  rw [freshlyReleased, post_store]
  show (if s.sup.cause == .powerOn then emptyStore else s.store).length = 6
  split
  · rfl
  · exact h

theorem freshlyReleased_directory (pins : StrapPins) (s : State) :
    (freshlyReleased pins s).eng.directory = [] := by
  rw [freshlyReleased, post_eng]
  rfl

/-! ## The invariants at a release -/

theorem bounded_freshState (straps cause store e l) : (freshState straps cause store e l).Bounded := by
  refine ⟨Nat.zero_le _, Nat.zero_le _, Nat.zero_le _, Nat.zero_le _, Nat.zero_le _, ?_⟩
  show ∀ n ∈ Counters.zero.toList, n ≤ 65535
  decide

theorem bounded_release (s : State) (pins : StrapPins) : (release pins s).Bounded :=
  bounded_recordClosed.release bounded_blockClosed.toStoreClosed (fun _ _ h => h)
    (fun straps cause store e _ => bounded_freshState straps cause store e _) pins

theorem pressureAgrees_release (s : State) (pins : StrapPins) : (release pins s).PressureAgrees :=
  pressureAgrees_recordClosed.release pressureAgrees_blockClosed.toStoreClosed (fun _ _ h => h)
    (fun _ _ _ _ _ => ⟨fun h => absurd h Bool.false_ne_true, fun _ => Nat.zero_lt_succ 23⟩) pins

theorem keysDistinct_release (s : State) (pins : StrapPins) : (release pins s).KeysDistinct :=
  keysDistinct_recordClosed.release keysDistinct_blockClosed.toStoreClosed (fun _ _ h => h)
    (fun _ _ _ _ _ => List.nodup_nil) pins

theorem shaped_freshState (straps cause) {store : List (Option StoredParcel)} (e l) (h : store.length = 6) :
    (freshState straps cause store e l).Shaped :=
  ⟨h, List.length_replicate, List.length_replicate, Nat.lt_succ_self 23⟩

theorem shaped_release {s : State} (pins : StrapPins) (h : s.Shaped) : (release pins s).Shaped := by
  refine shaped_recordClosed.release shaped_blockClosed.toStoreClosed (fun _ _ h => h)
    (fun straps cause store e hstore => shaped_freshState straps cause e _ ?_) pins
  obtain rfl | rfl := hstore
  · rfl
  · exact h.1

/-- A release with a station number holds the verified parcels, and one without holds none: the table is sound. -/
theorem tableKept_release {s : State} (pins : StrapPins) (h : s.TableKept) : (release pins s).TableKept := by
  have hlen := freshlyReleased_store_length pins h.1
  have hdir := freshlyReleased_directory pins s
  rw [release_eq]
  split
  · exact ⟨hlen, by simp [State.TableSound, hdir]⟩
  · exact tableKept_recordClosed.restartParcels (holdVerified_kept _ _ hlen hdir)

/-! ## The statements -/

/-- Settles O58. -/
theorem stepKeepsTheLimits : Obligations.StepKeepsTheLimits := by
  intro s hlimits hpressure
  obtain ⟨t, ht⟩ := step_next s
  exact ⟨t, ht, step_keeps bounded_blockClosed (fun s pins _ => bounded_release s pins) (fun _ _ h => h) hlimits ht,
    step_keeps pressureAgrees_blockClosed (fun s pins _ => pressureAgrees_release s pins) (fun _ _ h => h) hpressure ht⟩

/-- Settles O59. -/
theorem stepKeepsKeysDistinct : Obligations.StepKeepsKeysDistinct := fun _ _ hs ht =>
  step_keeps keysDistinct_blockClosed (fun s pins _ => keysDistinct_release s pins) (fun _ _ h => h) hs ht

/-- Settles O60: the sizes are an invariant of their own, and the table with the length of the store another. -/
theorem stepKeepsTheParcelTable : Obligations.StepKeepsTheParcelTable := by
  intro s t hsizes htable ht
  have hkept : t.TableKept :=
    step_keeps tableKept_blockClosed (fun _ pins h => tableKept_release pins h) (fun _ _ h => h) ⟨hsizes.1, htable⟩ ht
  exact ⟨step_keeps shaped_blockClosed (fun _ pins h => shaped_release pins h) (fun _ _ h => h) hsizes ht, hkept.2⟩

/-- Settles O57: the reset values are those of one concrete state. -/
theorem resetMeetsTheInvariants : Obligations.ResetMeetsTheInvariants := by
  unfold Obligations.ResetMeetsTheInvariants State.Bounded State.PressureAgrees State.KeysDistinct State.Shaped
    State.TableSound
  decide

end Sys2Proof.Machine

/-! SUPPORT. Reception (files 07 and 08): what a notice, a judgement of the standing, an append and an arrival do to the
notices and the counts, what a good and a bad frame of another station do, and with them the statements on
RECEIVE_FRAME. -/

namespace Sys2Proof.Machine

/-! ## Notices (R176) -/

theorem post_of_room {s : State} (b : NoticeBody) (h : s.port.notices.length < 16) :
    s.post b = s.setPort { s.port with notices := s.port.notices ++ [{ second := s.tmr.seconds, body := b }] } :=
  if_pos h

theorem post_of_full {s : State} (b : NoticeBody) (h : 16 ≤ s.port.notices.length) : s.post b = s.bump .noticesLost :=
  if_neg (Nat.not_lt.mpr h)

theorem post_counters (s : State) (b : NoticeBody) :
    (s.post b).counters = s.counters ∨ (s.post b).counters = s.counters.raise .noticesLost := by
  obtain h | h := Nat.lt_or_ge s.port.notices.length 16
  · exact .inl (by rw [post_of_room b h]; rfl)
  · exact .inr (by rw [post_of_full b h]; rfl)

theorem post_notices_length (s : State) (b : NoticeBody) :
    (s.post b).port.notices.length ≤ s.port.notices.length + 1 := by
  obtain h | h := Nat.lt_or_ge s.port.notices.length 16
  · simp [post_of_room b h]
  · simp [post_of_full b h]

/-- The counts of R103 that no notice moves. -/
def Counters.SameButLost (x y : Counters) : Prop := { x with noticesLost := y.noticesLost } = y

theorem sameButLost_refl (x : Counters) : x.SameButLost x := rfl

theorem post_sameButLost (s : State) (b : NoticeBody) : (s.post b).counters.SameButLost s.counters := by
  obtain h | h := post_counters s b <;> rw [h] <;> rfl

namespace Counters.SameButLost

variable {x y : Counters} (h : x.SameButLost y)
include h

theorem slotOverruns : x.slotOverruns = y.slotOverruns := by rw [← h]
theorem intakeLost : x.intakeLost = y.intakeLost := by rw [← h]
theorem outboundDrops : x.outboundDrops = y.outboundDrops := by rw [← h]
theorem displacements : x.displacements = y.displacements := by rw [← h]

end Counters.SameButLost

/-! ## The standing (R144, R145) -/

theorem judgeStanding_moved {s : State} (h : standingByCounts s.line.standing s.line.tfc s.line.rfc ≠ s.line.standing) :
    judgeStanding s = postStanding 0#6 (s.setLine (judgeStanding s).line) := by
  have hmoved : ¬ (judgedStanding s.line == s.line.standing) = true := by simpa [judgedStanding_eq] using h
  unfold judgeStanding
  rw [if_neg hmoved, postStanding_line]
  rfl

/-- A judgement leaves the state, or posts one notice on a change of the line. -/
theorem judgeStanding_cases (s : State) :
    judgeStanding s = s ∨ ∃ l, judgeStanding s = postStanding 0#6 (s.setLine l) := by
  by_cases h : standingByCounts s.line.standing s.line.tfc s.line.rfc = s.line.standing
  · exact .inl (judgeStanding_keeps (by rw [judgeStanding_line]; exact h))
  · exact .inr ⟨_, judgeStanding_moved h⟩

theorem judgeStanding_posted {s : State} (h : (judgeStanding s).line.standing ≠ s.line.standing) :
    Posted s (judgeStanding s) (.standing (judgeStanding s).line.standing s.line.tfc s.line.rfc 0#6) := by
  have hline := judgeStanding_line s
  rw [hline] at h ⊢
  rw [judgeStanding_moved h, hline]
  exact posted_post s (s.setLine _) _ rfl rfl rfl

theorem recoverStep_due {s : State} {k : Nat} (hs : s.line.standing = .withdrawn) (hk : s.line.goodHeard = some k)
    (h : 64 ≤ k) : recoverStep s =
      postStanding 0#6 (s.setLine { s.line with standing := .active, tfc := 0, rfc := 0, goodHeard := none }) := by
  simp [recoverStep, hs, hk, Config.recoveryCount, h]

theorem recoverStep_idle {s : State} (h : s.line.standing ≠ .withdrawn ∨ ∀ k, s.line.goodHeard = some k → k < 64) :
    recoverStep s = s := by
  unfold recoverStep
  split
  case h_1 k hs hk =>
    have hlt : k < 64 := h.elim (absurd hs) (fun h => h k hk)
    exact if_neg (Nat.not_le.mpr hlt)
  case h_2 => rfl

theorem recoverStep_cases (s : State) :
    recoverStep s = s ∨ ∃ l, recoverStep s = postStanding 0#6 (s.setLine l) := by
  unfold recoverStep
  split
  · split
    · exact .inr ⟨_, rfl⟩
    · exact .inl rfl
  · exact .inl rfl

theorem postStanding_notices_length (heard : Station) (s : State) :
    (postStanding heard s).port.notices.length ≤ s.port.notices.length + 1 := post_notices_length s _

theorem postStanding_sameButLost (heard : Station) (s : State) :
    (postStanding heard s).counters.SameButLost s.counters := post_sameButLost s _

theorem judgeStanding_notices_length (s : State) :
    (judgeStanding s).port.notices.length ≤ s.port.notices.length + 1 := by
  obtain h | ⟨l, h⟩ := judgeStanding_cases s <;> rw [h]
  · exact Nat.le_succ _
  · exact postStanding_notices_length _ (s.setLine l)

theorem judgeStanding_sameButLost (s : State) : (judgeStanding s).counters.SameButLost s.counters := by
  obtain h | ⟨l, h⟩ := judgeStanding_cases s <;> rw [h]
  · exact sameButLost_refl _
  · exact postStanding_sameButLost _ (s.setLine l)

theorem recoverStep_notices_length (s : State) :
    (recoverStep s).port.notices.length ≤ s.port.notices.length + 1 := by
  obtain h | ⟨l, h⟩ := recoverStep_cases s <;> rw [h]
  · exact Nat.le_succ _
  · exact postStanding_notices_length _ (s.setLine l)

theorem recoverStep_sameButLost (s : State) : (recoverStep s).counters.SameButLost s.counters := by
  obtain h | ⟨l, h⟩ := recoverStep_cases s <;> rw [h]
  · exact sameButLost_refl _
  · exact postStanding_sameButLost _ (s.setLine l)

/-! ## The intake queue (R132, R134) -/

theorem appendIntake_of_room {e : IntakeEntry} {s : State} (h : s.acc.intake.length < 32) :
    appendIntake e s =
      if s.acc.pressure = false ∧ 24 ≤ s.acc.intake.length + 1 then
        (s.setAcc { s.acc with intake := s.acc.intake ++ [e], pressure := true }).post
          (.intakePressure (s.acc.intake.length + 1))
      else s.setAcc { s.acc with intake := s.acc.intake ++ [e] } := by
  simp [appendIntake, Config.intakeSize, Config.pressureOn, h]

theorem appendIntake_of_full {e : IntakeEntry} {s : State} (h : 32 ≤ s.acc.intake.length) :
    appendIntake e s =
      if e.cls ≤ 4#3 then (s.bump .intakeLost).post (.intakeLost e.kind e.parcel) else s.bump .intakeLost := by
  simp [appendIntake, Config.intakeSize, postsIntakeLost, Nat.not_lt.mpr h]

theorem appendIntake_acc_room {e : IntakeEntry} {s : State} (h : s.acc.intake.length < 32) :
    (appendIntake e s).acc = { s.acc with
      intake := s.acc.intake ++ [e]
      pressure := s.acc.pressure || decide (24 ≤ s.acc.intake.length + 1) } := by
  rw [appendIntake_of_room h]
  split
  case isTrue hc => simp [hc.2]
  case isFalse hc =>
    cases hp : s.acc.pressure
    · have hshort : ¬ 24 ≤ s.acc.intake.length + 1 := fun hl => hc ⟨hp, hl⟩
      simp [hp, hshort]
    · simp [hp]

theorem appendIntake_counters_room {e : IntakeEntry} {s : State} (h : s.acc.intake.length < 32) :
    (appendIntake e s).counters.SameButLost s.counters := by
  rw [appendIntake_of_room h]
  split
  · exact post_sameButLost _ _
  · exact sameButLost_refl _

theorem appendIntake_acc_full {e : IntakeEntry} {s : State} (h : 32 ≤ s.acc.intake.length) :
    (appendIntake e s).acc = s.acc := by
  rw [appendIntake_of_full h]
  split <;> simp

theorem appendIntake_counters_full {e : IntakeEntry} {s : State} (h : 32 ≤ s.acc.intake.length) :
    (appendIntake e s).counters.SameButLost (s.counters.raise .intakeLost) := by
  rw [appendIntake_of_full h]
  split
  · exact post_sameButLost _ _
  · exact sameButLost_refl _

theorem mem_appendIntake_pressure {e : IntakeEntry} {s : State} (hp : s.acc.pressure = false)
    (hl : s.acc.intake.length = 23) (hn : s.port.notices.length < 16) :
    { second := s.tmr.seconds, body := .intakePressure 24 } ∈ (appendIntake e s).port.notices := by
  rw [appendIntake_of_room (by omega), if_pos ⟨hp, by omega⟩, hl, post_of_room _ (by exact hn)]
  exact List.mem_append_right _ List.mem_cons_self

theorem mem_appendIntake_lost {e : IntakeEntry} {s : State} (hl : 32 ≤ s.acc.intake.length) (hc : e.cls ≤ 4#3)
    (hn : s.port.notices.length < 16) :
    { second := s.tmr.seconds, body := .intakeLost e.kind e.parcel } ∈ (appendIntake e s).port.notices := by
  rw [appendIntake_of_full hl, if_pos hc, post_of_room _ (by exact hn)]
  exact List.mem_append_right _ List.mem_cons_self

/-! ## The acceptance table (R122, R123, R124) -/

@[simp] theorem kindOfCode_code (k : Kind) : kindOfCode k.code = some k := by cases k <;> decide

/-- The entry that an arrival of a kind with a fixed entry becomes. -/
def arrivedEntry (own : Bool) (key : FrameKey) (payload : List Byte) (k : Kind) (i : Nat) (now : Second) : IntakeEntry :=
  { cls := keyClass key, kind := k, source := keySource key, parcel := keyParcel key, item := keyItem key
    payload := payload, entryIndex := i, arrival := now, own := own }

theorem search_fixed {a : AcceptanceUnit} {key : FrameKey} {k : Kind} {i : Nat} (hk : keyKind key = k.code)
    (hc : keyClass key = k.cls) (hi : fixedIndex k = some i) : a.search key = some i ∧ i < 8 := by
  cases k <;> cases hi <;>
    simp [AcceptanceUnit.search, AcceptanceUnit.table, fixedEntries, MaskForm.matchesKey, List.findIdx?_cons, hk, hc,
      Kind.code, Kind.cls]

theorem arrive_fixed {own : Bool} {key : FrameKey} {payload : List Byte} {k : Kind} {i : Nat} {s : State}
    (hk : keyKind key = k.code) (hc : keyClass key = k.cls) (hi : fixedIndex k = some i) :
    arrive own key payload s = appendIntake (arrivedEntry own key payload k i s.tmr.seconds) s := by
  obtain ⟨hsearch, hlt⟩ := search_fixed (a := s.acc) hk hc hi
  simp only [arrive, hsearch, hk, kindOfCode_code, Config.firstBindable, hlt, if_true]
  rfl

/-- No fixed entry takes a REQUEST or a GAUGE, so that the search goes on among the bound entries. -/
theorem search_bindable {a : AcceptanceUnit} {key : FrameKey} {k : Kind} (hk : keyKind key = k.code)
    (hc : keyClass key = k.cls) (hi : fixedIndex k = none) :
    a.search key = (a.entries.findIdx? (fun e => match entryMask e with
      | some f => f.matchesKey key
      | none => false)).map (· + 8) := by
  cases k <;> cases hi <;>
    simp [AcceptanceUnit.search, AcceptanceUnit.table, fixedEntries, MaskForm.matchesKey, List.findIdx?_cons, hk, hc,
      Kind.code, Kind.cls, List.findIdx?_map, Function.comp_def, Option.map_map] <;> rfl

/-- The first entry that an accepted predicate picks among the bindable ones is the first bound entry with it. -/
theorem findIdx?_of_find?_filterMap {p : BoundEntry → Bool} {l : List (Option BoundEntry)} {b : BoundEntry}
    (h : (l.filterMap id).find? p = some b) :
    ∃ n, l.findIdx? (fun e => e.any p) = some n ∧ l[n]? = some (some b) := by
  induction l with
  | nil => cases h
  | cons e rest ih =>
    cases e with
    | none =>
      obtain ⟨n, hn, hb⟩ := ih (by simpa using h)
      exact ⟨n + 1, by simp [List.findIdx?_cons, hn], by simpa using hb⟩
    | some x =>
      cases hp : p x with
      | true =>
        obtain rfl : x = b := by simpa [hp] using h
        exact ⟨0, by simp [List.findIdx?_cons, hp], rfl⟩
      | false =>
        obtain ⟨n, hn, hb⟩ := ih (by simpa [hp] using h)
        exact ⟨n + 1, by simp [List.findIdx?_cons, hp, hn], by simpa using hb⟩

/-- A bound entry names the source and the item of a GAUGE (R122). -/
def BoundEntry.names (key : FrameKey) (b : BoundEntry) : Bool := b.station == keySource key && b.item == keyItem key

theorem search_gauge {a : AcceptanceUnit} {key : FrameKey} (hk : keyKind key = Kind.gauge.code)
    (hc : keyClass key = Kind.gauge.cls) :
    a.search key = (a.entries.findIdx? (fun e => e.any (BoundEntry.names key))).map (· + 8) := by
  rw [search_bindable hk hc rfl]
  congr 2
  funext e
  cases e with
  | none => rfl
  | some b =>
    simp only [entryMask, MaskForm.matchesKey, hk, BEq.rfl, Bool.true_and, Option.any_some, BoundEntry.names]
    rw [Bool.beq_comm (a := keySource key), Bool.beq_comm (a := keyItem key)]

theorem arrive_request {own : Bool} {key : FrameKey} {payload : List Byte} {s : State}
    (hk : keyKind key = Kind.request.code) (hc : keyClass key = Kind.request.cls) : arrive own key payload s = s := by
  have hsearch : s.acc.search key = none := by
    rw [search_bindable hk hc rfl, List.findIdx?_eq_none_iff.mpr]
    · rfl
    · intro e _
      cases e with
      | none => rfl
      | some b => simp [entryMask, MaskForm.matchesKey, hk, Kind.code]
  simp only [arrive, hsearch]

theorem arrive_gauge_unbound {own : Bool} {key : FrameKey} {payload : List Byte} {s : State}
    (hk : keyKind key = Kind.gauge.code) (hc : keyClass key = Kind.gauge.cls)
    (h : ∀ b, some b ∈ s.acc.entries → BoundEntry.names key b = false) : arrive own key payload s = s := by
  have hsearch : s.acc.search key = none := by
    rw [search_gauge hk hc, List.findIdx?_eq_none_iff.mpr]
    · rfl
    · intro e he
      cases e with
      | none => rfl
      | some b => exact h b he
  simp only [arrive, hsearch]

theorem arrive_gauge_bound {own : Bool} {key : FrameKey} {payload : List Byte} {s : State} {b : BoundEntry}
    (hk : keyKind key = Kind.gauge.code) (hc : keyClass key = Kind.gauge.cls)
    (h : (s.acc.entries.filterMap id).find? (BoundEntry.names key) = some b) :
    arrive own key payload s = fillSlot b.slot payload s := by
  obtain ⟨n, hn, hb⟩ := findIdx?_of_find?_filterMap h
  have hsearch : s.acc.search key = some (n + 8) := by rw [search_gauge hk hc, hn]; rfl
  have hentry : s.acc.entry (n + 8) = some b := by
    simp [AcceptanceUnit.entry, Config.firstBindable, List.getD_eq_getElem?_getD, hb]
  simp [arrive, hsearch, hk, Config.firstBindable, hentry]

theorem fillSlot_acc (n : Nat) (payload : List Byte) (s : State) :
    (fillSlot n payload s).acc = { s.acc with
      slots := s.acc.slots.set n { s.acc.slot n with
        waiting := some { payload := payload, arrival := s.tmr.seconds }
        overrun := (s.acc.slot n).overrun || (s.acc.slot n).waiting.isSome } } := by
  unfold fillSlot GaugeSlot.full
  cases h : (s.acc.slot n).waiting.isSome <;> simp [h, AcceptanceUnit.setSlot, State.now]

theorem fillSlot_slotOverruns (n : Nat) (payload : List Byte) (s : State) :
    (fillSlot n payload s).counters.slotOverruns =
      if (s.acc.slot n).waiting.isSome then min 65535 (s.counters.slotOverruns + 1) else s.counters.slotOverruns := by
  unfold fillSlot GaugeSlot.full
  cases h : (s.acc.slot n).waiting.isSome <;> simp [h, Counters.raise, saturate, Config.counterMax]

/-- An arrival moves no count of the outbound queue. -/
theorem arrive_outboundCounts (own : Bool) (key : FrameKey) (payload : List Byte) (s : State) :
    (arrive own key payload s).counters.outboundDrops = s.counters.outboundDrops ∧
      (arrive own key payload s).counters.displacements = s.counters.displacements := by
  refine arrive_keeps (P := fun t => t.counters.outboundDrops = s.counters.outboundDrops ∧
    t.counters.displacements = s.counters.displacements) own key payload (fun e => ?_) (fun n => ?_) ⟨rfl, rfl⟩
  · obtain h | h := Nat.lt_or_ge s.acc.intake.length 32
    · have hc := appendIntake_counters_room (e := e) h
      exact ⟨hc.outboundDrops, hc.displacements⟩
    · have hc := appendIntake_counters_full (e := e) h
      exact ⟨hc.outboundDrops, hc.displacements⟩
  · unfold fillSlot
    dsimp only
    split <;> exact ⟨rfl, rfl⟩

end Sys2Proof.Machine

/-! SUPPORT. The statements on RECEIVE_FRAME and the two broken receptions (file 08, 8.3 to 8.5; file 07, 7.1 to 7.5). -/

namespace Sys2Proof.Machine

theorem exec_receiveFrame {s : State} (f : LineFrame) (h : s.sup.held = false) :
    exec (.receiveFrame f) s = .next (receiveFrame f s) := whenReleased_released _ h

theorem receiveFrame_good {f : LineFrame} (s : State) (h : GoodFrame f) :
    receiveFrame f s = arrive false f.key f.payload (goodFrame f.key s) := by
  rw [receiveFrame, goodLineFrame_of h, if_pos rfl]

theorem receiveFrame_faulty {f : LineFrame} (s : State) (h : ¬ GoodFrame f) : receiveFrame f s = receiveFault s := by
  rw [receiveFrame, goodLineFrame_false h, if_neg Bool.false_ne_true]

/-- A good frame has the class of its kind (R140). -/
theorem GoodFrame.keyClass_eq {f : LineFrame} {k : Kind} (h : GoodFrame f) (hk : keyKind f.key = k.code) :
    keyClass f.key = k.cls := by
  obtain ⟨-, -, hform⟩ := h
  simp only [formFault, hk, kindOfCode_code, Bool.or_eq_false_iff, bne_eq_false_iff_eq] at hform
  exact hform.1.1

/-! ## A receive fault (R140) -/

/-- The line with one more receive fault, before the standing is judged. -/
def LineInterface.faulted (l : LineInterface) : LineInterface :=
  { l with
    rfc := min 255 (l.rfc + 1)
    markDriven := false
    goodHeard := if l.standing = .withdrawn then some 0 else l.goodHeard }

theorem receiveFault_eq (s : State) : receiveFault s = judgeStanding (s.setLine s.line.faulted) := by
  simp only [receiveFault, restartHeard_eq, countUp, Config.faultCountMax, LineInterface.faulted]

/-- Entered or kept, WITHDRAWN has its count of good frames at 0 after a receive fault (R145). -/
theorem receiveFault_line_eq (s : State) :
    (receiveFault s).line = { s.line with
      rfc := min 255 (s.line.rfc + 1)
      markDriven := false
      standing := standingByCounts s.line.standing s.line.tfc (min 255 (s.line.rfc + 1))
      goodHeard :=
        if standingByCounts s.line.standing s.line.tfc (min 255 (s.line.rfc + 1)) = .withdrawn then some 0
        else s.line.goodHeard } := by
  rw [receiveFault_eq, judgeStanding_line]
  by_cases hold : s.line.standing = .withdrawn
  · simp [LineInterface.faulted, hold, standingByCounts]
  · by_cases hnew : standingByCounts s.line.standing s.line.tfc (min 255 (s.line.rfc + 1)) = .withdrawn
    · simp [LineInterface.faulted, hold, hnew, Ne.symm hold]
    · simp [LineInterface.faulted, hold, hnew]

theorem receiveFault_posted {s : State} (h : (receiveFault s).line.standing ≠ s.line.standing) :
    Posted s (receiveFault s)
      (.standing (receiveFault s).line.standing s.line.tfc (min 255 (s.line.rfc + 1)) 0#6) := by
  rw [receiveFault_eq] at h ⊢
  exact judgeStanding_posted (s := s.setLine s.line.faulted) h

theorem receiveFault_silent {s : State} (h : (receiveFault s).line.standing = s.line.standing) :
    receiveFault s = s.setLine s.line.faulted := by
  rw [receiveFault_eq] at h ⊢
  exact judgeStanding_keeps h

/-- Settles O8: the three receive faults are one, which changes the line and posts STANDING at most. -/
theorem receiveFaultsRaiseRfc : Obligations.ReceiveFaultsRaiseRfc := by
  intro f s hh hbad
  obtain ⟨hacc, heng, hstore, htmr, hsup, hpending⟩ := receiveFault_rest s
  refine ⟨receiveFault s, ?_, whenReleased_released _ hh, whenReleased_released _ hh, receiveFault_line_eq s,
    receiveFault_posted, fun hsame => ?_, hacc, heng, hstore, htmr, hsup, hpending⟩
  · rw [exec_receiveFrame f hh, receiveFrame_faulty s hbad]
  · rw [receiveFault_silent hsame]
    exact ⟨rfl, rfl⟩

/-! ## A good frame (R140, R143, R145) -/

/-- The line with the mark driven and RFC lowered. -/
def LineInterface.marked (l : LineInterface) : LineInterface := { l with rfc := l.rfc - 1, markDriven := true }

/-- The line with the mark driven, RFC lowered and, in WITHDRAWN, one more good frame heard. -/
def LineInterface.heard (l : LineInterface) : LineInterface :=
  { l.marked with goodHeard := if l.standing = .withdrawn then some (l.goodHeard.getD 0 + 1) else l.goodHeard }

theorem goodFrame_other {s : State} {key : FrameKey}
    (h : s.line.standing = .unnumbered ∨ keySource key ≠ s.sup.straps.station) :
    goodFrame key s = recoverStep (judgeStanding (s.setLine s.line.heard)) := by
  have hdup : isDuplicateFrame (s.setLine s.line.marked) key = false := by
    simp only [isDuplicateFrame, State.station, Bool.and_eq_false_iff, beq_eq_false_iff_ne, bne_eq_false_iff_eq]
    exact h.symm
  show (if isDuplicateFrame (s.setLine s.line.marked) key then _ else
    recoverStep (judgeStanding (s.setLine (countHeard s.line.marked)))) = _
  rw [hdup, if_neg Bool.false_ne_true, countHeard_eq]
  rfl

/-- Outside WITHDRAWN the standing is judged, and a standing that becomes WITHDRAWN has heard no frame yet. -/
theorem goodFrame_judged {s : State} {key : FrameKey}
    (h : s.line.standing = .unnumbered ∨ keySource key ≠ s.sup.straps.station) (hw : s.line.standing ≠ .withdrawn) :
    goodFrame key s = judgeStanding (s.setLine s.line.heard) := by
  rw [goodFrame_other h]
  refine recoverStep_idle ?_
  rw [judgeStanding_line]
  by_cases hnew : standingByCounts s.line.standing s.line.tfc (s.line.rfc - 1) = .withdrawn
  · refine .inr fun k hk => ?_
    have hzero : some 0 = some k := by
      simpa [LineInterface.heard, LineInterface.marked, hnew, Ne.symm hw] using hk
    cases hzero
    decide
  · exact .inl hnew

theorem goodFrame_counted {s : State} {key : FrameKey}
    (h : s.line.standing = .unnumbered ∨ keySource key ≠ s.sup.straps.station) (hw : s.line.standing = .withdrawn) :
    goodFrame key s = recoverStep (s.setLine s.line.heard) := by
  rw [goodFrame_other h, judgeStanding_keeps]
  rw [judgeStanding_line]
  simp [LineInterface.heard, LineInterface.marked, hw, standingByCounts]

theorem goodFrame_duplicate {s : State} {key : FrameKey} (hn : s.line.standing ≠ .unnumbered)
    (h : keySource key = s.sup.straps.station) :
    goodFrame key s = if s.line.standing = .duplicate then s.setLine s.line.marked
      else enterDuplicate (keySource key) (s.setLine s.line.marked) := by
  have hdup : isDuplicateFrame (s.setLine s.line.marked) key = true := by
    simp only [isDuplicateFrame, State.station, Bool.and_eq_true, beq_iff_eq, bne_iff_ne]
    exact ⟨h, hn⟩
  show (if isDuplicateFrame (s.setLine s.line.marked) key then
    if s.line.standing == .duplicate then s.setLine s.line.marked
    else enterDuplicate (keySource key) (s.setLine s.line.marked) else _) = _
  rw [hdup, if_pos rfl]
  simp only [beq_iff_eq]

/-- A good frame leaves the line changed, or posts one notice besides, and changes no other block. -/
theorem goodFrame_cases (key : FrameKey) (s : State) :
    ∃ l, goodFrame key s = s.setLine l ∨ ∃ b, goodFrame key s = (s.setLine l).post b := by
  by_cases hn : s.line.standing = .unnumbered ∨ keySource key ≠ s.sup.straps.station
  · by_cases hw : s.line.standing = .withdrawn
    · rw [goodFrame_counted hn hw]
      obtain h | ⟨l, h⟩ := recoverStep_cases (s.setLine s.line.heard)
      · exact ⟨_, .inl h⟩
      · exact ⟨_, .inr ⟨_, h⟩⟩
    · rw [goodFrame_judged hn hw]
      obtain h | ⟨l, h⟩ := judgeStanding_cases (s.setLine s.line.heard)
      · exact ⟨_, .inl h⟩
      · exact ⟨_, .inr ⟨_, h⟩⟩
  · obtain ⟨hn, hsource⟩ : s.line.standing ≠ .unnumbered ∧ keySource key = s.sup.straps.station := by
      simpa using hn
    rw [goodFrame_duplicate hn hsource]
    split
    · exact ⟨_, .inl rfl⟩
    · exact ⟨_, .inr ⟨_, rfl⟩⟩

theorem goodFrame_rest (key : FrameKey) (s : State) :
    (goodFrame key s).acc = s.acc ∧ (goodFrame key s).eng = s.eng ∧ (goodFrame key s).store = s.store ∧
      (goodFrame key s).tmr = s.tmr ∧ (goodFrame key s).sup = s.sup ∧ (goodFrame key s).pending = s.pending := by
  obtain ⟨l, h | ⟨b, h⟩⟩ := goodFrame_cases key s <;> simp [h]

theorem goodFrame_sameButLost (key : FrameKey) (s : State) : (goodFrame key s).counters.SameButLost s.counters := by
  obtain ⟨l, h | ⟨b, h⟩⟩ := goodFrame_cases key s <;> rw [h]
  · exact sameButLost_refl _
  · exact post_sameButLost (s.setLine l) b

theorem goodFrame_notices_length (key : FrameKey) (s : State) :
    (goodFrame key s).port.notices.length ≤ s.port.notices.length + 1 := by
  obtain ⟨l, h | ⟨b, h⟩⟩ := goodFrame_cases key s <;> rw [h]
  · exact Nat.le_succ _
  · exact post_notices_length (s.setLine l) b

theorem receiveGood_rest (key : FrameKey) (payload : List Byte) (s : State) :
    let t := arrive false key payload (goodFrame key s)
    t.line = (goodFrame key s).line ∧ t.eng = s.eng ∧ t.store = s.store ∧ t.tmr = s.tmr ∧ t.sup = s.sup ∧
      t.pending = s.pending := by
  obtain ⟨-, heng, hstore, htmr, hsup, hpending⟩ := goodFrame_rest key s
  obtain ⟨aline, aeng, astore, atmr, asup, apending⟩ := arrive_rest false key payload (goodFrame key s)
  exact ⟨aline, aeng.trans heng, astore.trans hstore, atmr.trans htmr, asup.trans hsup, apending.trans hpending⟩

/-- What hearing another station changes of the line. -/
theorem goodFrame_line_judged {s : State} {key : FrameKey}
    (h : s.line.standing = .unnumbered ∨ keySource key ≠ s.sup.straps.station) (hw : s.line.standing ≠ .withdrawn) :
    (goodFrame key s).line = { s.line with
      rfc := s.line.rfc - 1
      markDriven := true
      standing := standingByCounts s.line.standing s.line.tfc (s.line.rfc - 1)
      goodHeard := (goodFrame key s).line.goodHeard } := by
  rw [goodFrame_judged h hw, judgeStanding_line]
  rfl

theorem goodFrame_line_counted {s : State} {key : FrameKey} {k : Nat}
    (h : s.line.standing = .unnumbered ∨ keySource key ≠ s.sup.straps.station) (hw : s.line.standing = .withdrawn)
    (hk : s.line.goodHeard = some k) :
    (goodFrame key s).line = if 64 ≤ k + 1 then
        { s.line with markDriven := true, standing := .active, tfc := 0, rfc := 0, goodHeard := none }
      else { s.line with markDriven := true, rfc := s.line.rfc - 1, goodHeard := some (k + 1) } := by
  have hheard : s.line.heard.goodHeard = some (k + 1) := by simp [LineInterface.heard, hw, hk]
  rw [goodFrame_counted h hw]
  split
  case isTrue hdue =>
    rw [recoverStep_due (s := s.setLine s.line.heard) hw hheard hdue, postStanding_line]
    rfl
  case isFalse hdue =>
    rw [recoverStep_idle (.inr fun j hj => ?_)]
    · simp [LineInterface.heard, LineInterface.marked, hw, hk]
    · rw [State.setLine_line, hheard] at hj
      cases hj
      omega

/-- The mark is driven, and the queue, the attempt in flight and the listen period stay. -/
theorem goodFrame_line_kept {s : State} {key : FrameKey}
    (h : s.line.standing = .unnumbered ∨ keySource key ≠ s.sup.straps.station) :
    (goodFrame key s).line.markDriven = true ∧ (goodFrame key s).line.outbound = s.line.outbound ∧
      (goodFrame key s).line.driving = s.line.driving ∧ (goodFrame key s).line.listening = s.line.listening := by
  rw [goodFrame_other h]
  obtain ⟨-, -, -, -, -, -, hout, hdrive, hlisten, hmark⟩ :=
    recoverStep_rest (judgeStanding (s.setLine s.line.heard))
  rw [hout, hdrive, hlisten, hmark, judgeStanding_line]
  exact ⟨rfl, rfl, rfl, rfl⟩

theorem goodFrame_posts {s : State} {key : FrameKey}
    (h : s.line.standing = .unnumbered ∨ keySource key ≠ s.sup.straps.station)
    (hmoved : (goodFrame key s).line.standing ≠ s.line.standing) (hn : s.port.notices.length < 16) :
    (goodFrame key s).port.notices = s.port.notices ++
      [{ second := s.tmr.seconds
         body := .standing (goodFrame key s).line.standing (goodFrame key s).line.tfc (goodFrame key s).line.rfc
           0#6 }] := by
  by_cases hw : s.line.standing = .withdrawn
  · rw [goodFrame_counted h hw] at hmoved ⊢
    exact recoverStep_posts (s := s.setLine s.line.heard) hmoved hn
  · rw [goodFrame_judged h hw] at hmoved ⊢
    exact judgeStanding_posts (s := s.setLine s.line.heard) hmoved hn

/-- Settles O9. -/
theorem goodFrameOfAnotherStationIsMarked : Obligations.GoodFrameOfAnotherStationIsMarked := by
  intro f s hh hgood hother
  obtain ⟨hline, hrest⟩ := receiveGood_rest f.key f.payload s
  obtain ⟨hmark, hout, hdrive, hlisten⟩ := goodFrame_line_kept hother
  refine ⟨_, (exec_receiveFrame f hh).trans (congrArg _ (receiveFrame_good s hgood)), ?_⟩
  rw [hline]
  refine ⟨hmark, hout, hdrive, hlisten, fun hw => ?_, fun k hw hk => ?_, fun hmoved hn => ?_, hrest⟩
  · rw [goodFrame_line_judged hother hw]
    exact ⟨rfl, rfl, rfl⟩
  · rw [goodFrame_line_counted hother hw hk]
    split
    · exact ⟨rfl, rfl, rfl, rfl⟩
    · exact ⟨hw, rfl, rfl, rfl⟩
  · exact arrive_posted (goodFrame_posts hother hmoved hn)

/-- Settles O10. -/
theorem ownNumberHeardMakesDuplicate : Obligations.OwnNumberHeardMakesDuplicate := by
  intro f s hh hgood hn hown
  have hdup := goodFrame_duplicate hn hown
  have hcounts := goodFrame_sameButLost f.key s
  obtain ⟨hdrops, hdisp⟩ := arrive_outboundCounts false f.key f.payload (goodFrame f.key s)
  obtain ⟨hline, hrest⟩ := receiveGood_rest f.key f.payload s
  refine ⟨_, (exec_receiveFrame f hh).trans (congrArg _ (receiveFrame_good s hgood)), fun hd => ?_, fun hd => ⟨?_, ?_⟩,
    hdrops.trans hcounts.outboundDrops, hdisp.trans hcounts.displacements, hrest⟩
  · rw [hline, hdup, if_pos hd]
    rfl
  · rw [hline, hdup, if_neg hd, enterDuplicate, postStanding_line]
    rfl
  · intro hroom
    refine arrive_posted ?_
    rw [hdup, if_neg hd, hown]
    exact postStanding_posts (s := s) s.sup.straps.station _ hroom

/-! ## Acceptance (R122, R124, R128, R132, R134) -/

/-- Settles O11. -/
theorem controlFrameJoinsTheIntakeQueue : Obligations.ControlFrameJoinsTheIntakeQueue := by
  intro f k i s hh hgood hk hi
  obtain ⟨hacc, -, -, htmr, -, -⟩ := goodFrame_rest f.key s
  have hcounts := goodFrame_sameButLost f.key s
  have hnotices := goodFrame_notices_length f.key s
  refine ⟨_, (exec_receiveFrame f hh).trans (congrArg _ (receiveFrame_good s hgood)), ?_⟩
  rw [arrive_fixed hk (hgood.keyClass_eq hk) hi, ← hacc, ← htmr, ← hcounts.intakeLost]
  refine ⟨fun hroom => ⟨appendIntake_acc_room hroom, (appendIntake_counters_room hroom).intakeLost⟩,
    fun hfull => ⟨appendIntake_acc_full hfull, (appendIntake_counters_full hfull).intakeLost⟩,
    fun hp hl hn => mem_appendIntake_pressure hp hl (by omega),
    fun hfull hc hn => mem_appendIntake_lost hfull hc (by omega)⟩

/-- Settles O12. -/
theorem gaugeFillsItsSlotAndRequestIsNotTaken : Obligations.GaugeFillsItsSlotAndRequestIsNotTaken := by
  intro f s hh hgood
  obtain ⟨hacc, -, -, htmr, -, -⟩ := goodFrame_rest f.key s
  have hcounts := goodFrame_sameButLost f.key s
  refine ⟨_, (exec_receiveFrame f hh).trans (congrArg _ (receiveFrame_good s hgood)), ?_⟩
  rw [← hacc, ← htmr, ← hcounts.slotOverruns]
  refine ⟨fun hk => ?_, fun hk hnone => ?_, fun b hk hb => ?_⟩
  · rw [arrive_request hk (hgood.keyClass_eq hk)]
  · rw [arrive_gauge_unbound hk (hgood.keyClass_eq hk) fun b hb => ?_]
    simpa [BoundEntry.names] using hnone b hb
  · rw [arrive_gauge_bound hk (hgood.keyClass_eq hk) hb]
    exact ⟨fillSlot_acc _ _ _, fillSlot_slotOverruns _ _ _⟩

end Sys2Proof.Machine

/-! SUPPORT. Attempts and their ends (file 08, 8.1, 8.2, 8.3.1, 8.6.1 and 8.6.2), the drop and the recovery sent alone,
and with them the statements on ATTEMPT, CONTENTION_LOST, ATTEMPT_END, OUTBOUND_DROP and WITHDRAWN_RECOVERY. -/

namespace Sys2Proof.Machine

/-! ## Frames of one key -/

theorem eq_of_key_eq {l : List QueuedFrame} (h : (l.map QueuedFrame.key).Nodup) {x q : QueuedFrame} (hx : x ∈ l)
    (hq : q ∈ l) (hk : x.key = q.key) : x = q := List.inj_on_of_nodup_map h hx hq hk

/-- With distinct keys, a change of the frames of one key is a change of one frame. -/
theorem mapKey_eq_map {l : List QueuedFrame} (h : (l.map QueuedFrame.key).Nodup) {q : QueuedFrame} (hq : q ∈ l)
    {f g : QueuedFrame → QueuedFrame} (hfg : f q = g q) :
    mapKey q.key f l = l.map (fun x => if x.key = q.key then g x else x) := by
  refine List.map_congr_left fun x hx => ?_
  by_cases hk : x.key = q.key
  · obtain rfl := eq_of_key_eq h hx hq hk
    simp [hfg]
  · simp [hk]

theorem removeKey_mapKey (k : FrameKey) {f : QueuedFrame → QueuedFrame} (hf : ∀ x, (f x).key = x.key)
    (l : List QueuedFrame) : removeKey k (mapKey k f l) = removeKey k l := by
  induction l with
  | nil => rfl
  | cons x rest ih =>
    simp only [removeKey, mapKey, List.map_cons, List.filter_cons] at ih ⊢
    rw [ih]
    by_cases hk : x.key = k <;> simp [hk, hf]

theorem find?_of_unique {α : Type} {p : α → Bool} {l : List α} {q : α} (hq : q ∈ l) (hp : p q = true)
    (huniq : ∀ x ∈ l, p x = true → x = q) : l.find? p = some q := by
  cases h : l.find? p with
  | none => exact absurd hp (List.find?_eq_none.mp h q hq)
  | some x => rw [huniq x (List.mem_of_find?_eq_some h) (List.find?_some h)]

theorem flying_of_onlyFlying {s : State} {q : QueuedFrame} (h : s.OnlyFlying q) : s.line.flying = some q := by
  obtain ⟨hq, hfly, huniq⟩ := h
  exact find?_of_unique hq hfly huniq

theorem flying_eq_none {s : State} (h : ∀ x ∈ s.line.outbound, x.inFlight = false) : s.line.flying = none :=
  List.find?_eq_none.mpr fun x hx => by simp [h x hx]

/-! ## The begin of an attempt (R138, R152) -/

theorem lowestKey_of_min {l : List QueuedFrame} {q : QueuedFrame} (hd : (l.map QueuedFrame.key).Nodup) (hq : q ∈ l)
    (hmin : ∀ x ∈ l, q.key ≤ x.key) : lowestKey l = some q := by
  induction l generalizing q with
  | nil => cases hq
  | cons x rest ih =>
    have hmem := fun h => @lowestKey_mem rest h
    obtain ⟨hx, hrest⟩ := List.nodup_cons.mp hd
    unfold lowestKey
    obtain rfl | hq := List.mem_cons.mp hq
    · split
      case h_1 => rfl
      case h_2 h hlow =>
        have hle := hmin h (List.mem_cons_of_mem _ (hmem h hlow))
        have hne : q.key ≠ h.key := fun he => hx (he ▸ List.mem_map_of_mem (hmem h hlow))
        rw [if_pos (BitVec.lt_of_le_ne hle hne)]
    · rw [ih hrest hq fun y hy => hmin y (List.mem_cons_of_mem _ hy)]
      have hle := hmin x List.mem_cons_self
      exact if_neg (BitVec.not_lt.mpr hle)

theorem chosen_of_min {l : LineInterface} {q : QueuedFrame} (hd : (l.outbound.map QueuedFrame.key).Nodup)
    (hq : q ∈ l.outbound) (hmay : Offerable l.standing (keyClass q.key))
    (hmin : ∀ x ∈ l.outbound, Offerable l.standing (keyClass x.key) → q.key ≤ x.key) : l.chosen = some q := by
  refine lowestKey_of_min (nodup_filter_keys _ _ hd) (List.mem_filter.mpr ⟨hq, (mayOffer_iff _ _).mpr hmay⟩) fun x hx => ?_
  obtain ⟨hx, hoffer⟩ := List.mem_filter.mp hx
  exact hmin x hx ((mayOffer_iff _ _).mp hoffer)

theorem beginAttempt_of_chosen {s : State} {q : QueuedFrame} (hl : s.line.listening = false)
    (hfly : s.line.flying = none) (hq : s.line.chosen = some q) : beginAttempt s = s.setLine (s.line.begun q) := by
  unfold beginAttempt
  rw [hl, hfly, hq]
  rfl

/-- Settles O13. -/
theorem attemptTakesTheLowestKey : Obligations.AttemptTakesTheLowestKey := by
  intro q s hh hl hd hnone hq hmay hmin
  rw [exec_attempt hh, beginAttempt_of_chosen hl (flying_eq_none hnone) (chosen_of_min hd hq hmay hmin),
    LineInterface.begun, mapKey_eq_map hd hq rfl]
  rfl

/-! ## Contention lost (R139) -/

theorem exec_contentionLost {s : State} (h : s.sup.held = false) :
    exec .contentionLost s = .next (loseContention s) := whenReleased_released _ h

/-- Settles O15. -/
theorem lostContentionKeepsTheFrame : Obligations.LostContentionKeepsTheFrame := by
  intro s hh
  rw [exec_contentionLost hh]
  refine ⟨fun hnone => ?_, fun q hd honly => ?_⟩
  · rw [loseContention, flying_eq_none hnone]
  · have hmap := mapKey_eq_map hd honly.1 (f := landed) (g := landed) rfl
    rw [loseContention, flying_of_onlyFlying honly]
    simp only [keepUncarried, hmap]
    rfl

/-! ## The end of an attempt (R141) -/

theorem exec_attemptEnd {s : State} (o : AttemptOutcome) (h : s.sup.held = false) :
    exec (.attemptEnd o) s = .next (endAttempt o s) := whenReleased_released _ h

theorem endAttempt_none {s : State} (o : AttemptOutcome) (h : s.line.flying = none) : endAttempt o s = s := by
  simp only [endAttempt, h]

theorem endAttempt_carried {s : State} {q : QueuedFrame} (h : s.line.flying = some q) :
    endAttempt .carried s = endCarried q s := by
  simp only [endAttempt, h]

theorem endAttempt_faulted {s : State} {q : QueuedFrame} {o : AttemptOutcome} (h : s.line.flying = some q)
    (ho : o ≠ .carried) : endAttempt o s = endFaulted q s := by
  cases o with
  | carried => exact absurd rfl ho
  | unheard => simp only [endAttempt, h]
  | mismatch => simp only [endAttempt, h]

/-! ## The judgement after a change of the line -/

/-- State u is s with line l, after the standing has been judged (R144, R145). -/
structure JudgedFrom (s u : State) (l : LineInterface) : Prop where
  acc : u.acc = s.acc
  blocks : u.eng = s.eng ∧ u.store = s.store ∧ u.tmr = s.tmr ∧ u.sup = s.sup ∧ u.pending = s.pending
  counts : u.line.tfc = l.tfc ∧ u.line.rfc = l.rfc ∧ u.line.standing = standingByCounts l.standing l.tfc l.rfc
  outbound : u.line.outbound = l.outbound
  driving : u.line.driving = l.driving
  goodHeard : u.line.goodHeard =
    if u.line.standing = .withdrawn ∧ l.standing ≠ .withdrawn then some 0 else l.goodHeard
  counters : u.counters.SameButLost s.counters
  noticesLength : u.port.notices.length ≤ s.port.notices.length + 1
  posts : u.line.standing ≠ l.standing → s.port.notices.length < 16 →
    u.port.notices = s.port.notices ++
      [{ second := s.tmr.seconds, body := .standing u.line.standing u.line.tfc u.line.rfc 0#6 }]
  silent : u.line.standing = l.standing → u.port = s.port

/-- Entered, WITHDRAWN has heard no good frame (R145). -/
theorem judgeStanding_goodHeard (s : State) :
    (judgeStanding s).line.goodHeard =
      if (judgeStanding s).line.standing = .withdrawn ∧ s.line.standing ≠ .withdrawn then some 0
      else s.line.goodHeard := by
  rw [judgeStanding_line]
  dsimp only
  by_cases hnew : standingByCounts s.line.standing s.line.tfc s.line.rfc = .withdrawn
  · simp only [hnew, and_true, true_and, ne_comm]
  · simp [hnew]

theorem judgeStanding_from (s : State) (l : LineInterface) : JudgedFrom s (judgeStanding (s.setLine l)) l := by
  obtain ⟨hacc, hblocks⟩ := judgeStanding_rest (s.setLine l)
  have hline := judgeStanding_line (s.setLine l)
  exact {
    acc := hacc
    blocks := hblocks
    counts := by rw [hline]; exact ⟨rfl, rfl, rfl⟩
    outbound := by rw [hline]; rfl
    driving := by rw [hline]; rfl
    goodHeard := judgeStanding_goodHeard (s.setLine l)
    counters := judgeStanding_sameButLost (s.setLine l)
    noticesLength := judgeStanding_notices_length (s.setLine l)
    posts := judgeStanding_posts (s := s.setLine l)
    silent := fun h => by rw [judgeStanding_keeps (s := s.setLine l) h]; rfl }

namespace JudgedFrom

variable {s u : State} {l : LineInterface} (h : JudgedFrom s u l) {own : Bool} {key : FrameKey} {payload : List Byte}
  {k : Kind} {i : Nat}
include h

/-- The frame arrives where the intake queue has room. -/
theorem arrive_room (hk : keyKind key = k.code) (hc : keyClass key = k.cls) (hi : fixedIndex k = some i)
    (hroom : s.acc.intake.length < 32) :
    let t := arrive own key payload u
    t.acc = { s.acc with
        intake := s.acc.intake ++ [arrivedEntry own key payload k i s.tmr.seconds]
        pressure := s.acc.pressure || decide (24 ≤ s.acc.intake.length + 1) } ∧
      t.counters.intakeLost = s.counters.intakeLost ∧
      (s.acc.pressure = false → s.acc.intake.length = 23 → s.port.notices.length < 15 →
        { second := s.tmr.seconds, body := .intakePressure 24 } ∈ t.port.notices) := by
  obtain ⟨-, -, htmr, -, -⟩ := h.blocks
  rw [← h.acc] at hroom ⊢
  rw [← htmr, ← h.counters.intakeLost, arrive_fixed hk hc hi]
  exact ⟨appendIntake_acc_room hroom, (appendIntake_counters_room hroom).intakeLost,
    fun hp hl hn => mem_appendIntake_pressure hp hl (lt_of_le_of_lt h.noticesLength (Nat.succ_lt_succ hn))⟩

/-- The frame arrives where the intake queue is full. -/
theorem arrive_full (hk : keyKind key = k.code) (hc : keyClass key = k.cls) (hi : fixedIndex k = some i)
    (hfull : 32 ≤ s.acc.intake.length) :
    let t := arrive own key payload u
    t.acc = s.acc ∧ t.counters.intakeLost = min 65535 (s.counters.intakeLost + 1) ∧
      (k.cls ≤ 4#3 → s.port.notices.length < 15 →
        { second := s.tmr.seconds, body := .intakeLost k (keyParcel key) } ∈ t.port.notices) := by
  obtain ⟨-, -, htmr, -, -⟩ := h.blocks
  rw [← h.acc] at hfull ⊢
  rw [← htmr, ← h.counters.intakeLost, arrive_fixed hk hc hi]
  exact ⟨appendIntake_acc_full hfull, (appendIntake_counters_full hfull).intakeLost,
    fun hcls hn => mem_appendIntake_lost hfull (by rw [← hc] at hcls; exact hcls)
      (lt_of_le_of_lt h.noticesLength (Nat.succ_lt_succ hn))⟩

end JudgedFrom

/-! ## A carried attempt -/

/-- The line after a carried attempt of q, before the standing is judged. -/
def LineInterface.carried (l : LineInterface) (q : QueuedFrame) : LineInterface :=
  { l with tfc := l.tfc - 1, driving := none, outbound := keepCarried q l.outbound }

theorem endCarried_eq (q : QueuedFrame) (s : State) :
    endCarried q s = arrive true q.key q.payload (judgeStanding (s.setLine (s.line.carried q))) := rfl

theorem keepCarried_leaves {q : QueuedFrame} (h : q.withdrawn = true ∨ q.pendingPayload = none)
    (l : List QueuedFrame) : keepCarried q l = l.filter (fun x => x.key != q.key) := by
  obtain h | h := h <;> simp [keepCarried, h, removeKey]

theorem keepCarried_stays {q : QueuedFrame} {p : List Byte} {l : List QueuedFrame}
    (hd : (l.map QueuedFrame.key).Nodup) (hq : q ∈ l) (hw : q.withdrawn = false) (hp : q.pendingPayload = some p) :
    keepCarried q l = l.map (fun x =>
      if x.key = q.key then { x with inFlight := false, payload := p, pendingPayload := none, faults := 0 } else x) := by
  rw [keepCarried, if_neg (by simp [hw, hp])]
  refine mapKey_eq_map hd hq
    (g := fun x => { x with inFlight := false, payload := p, pendingPayload := none, faults := 0 }) ?_
  simp [landed, hp]

/-- Settles O16: the standing is judged on the lowered count, and then the frame sent arrives as an own one. -/
theorem carriedAttemptLeavesTheQueue : Obligations.CarriedAttemptLeavesTheQueue := by
  intro s hh
  refine ⟨fun hnone => ?_, fun q hd honly => ?_⟩
  · rw [exec_attemptEnd _ hh, endAttempt_none _ (flying_eq_none hnone)]
  have hj := judgeStanding_from s (s.line.carried q)
  have hexec : exec (.attemptEnd .carried) s =
      .next (arrive true q.key q.payload (judgeStanding (s.setLine (s.line.carried q)))) := by
    rw [exec_attemptEnd _ hh, endAttempt_carried (flying_of_onlyFlying honly), endCarried_eq]
  generalize judgeStanding (s.setLine (s.line.carried q)) = u at hj hexec
  obtain ⟨aline, aeng, astore, atmr, asup, apending⟩ := arrive_rest true q.key q.payload u
  refine ⟨_, hexec, ?_⟩
  rw [aline, aeng, astore, atmr, asup, apending, hj.outbound]
  obtain ⟨htfc, hrfc, hstanding⟩ := hj.counts
  refine ⟨htfc, hrfc, hstanding, hj.driving, fun hleaves => keepCarried_leaves hleaves _,
    fun p hw hp => keepCarried_stays hd honly.1 hw hp, fun k i hk hc hi hroom => ?_,
    fun k i hk hc hi hfull => hj.arrive_full hk hc hi hfull, fun hmoved hn => arrive_posted (hj.posts hmoved hn),
    fun hk hc => by rw [arrive_request hk hc, hj.acc], hj.blocks⟩
  obtain ⟨hacc, hlost, hpressure⟩ := hj.arrive_room (own := true) (payload := q.payload) hk hc hi hroom
  rw [hacc]
  exact ⟨rfl, rfl, rfl, rfl, hlost, hpressure⟩

/-! ## A drop and a recovery (R142, R145) -/

/-- The drop of one frame, with its count and its notice. -/
def State.dropped (s : State) (q : QueuedFrame) : State :=
  ((s.setOutbound (removeKey q.key s.line.outbound)).bump .outboundDrops).post
    (.frameDropped (keyClass q.key) (keyKind q.key) (keyParcel q.key) (keyItem q.key))

theorem dropExhausted_some {s : State} {q : QueuedFrame} (h : s.line.outbound.find? exhausted = some q) :
    dropExhausted s = s.dropped q := by
  simp only [dropExhausted, h]
  rfl

theorem dropExhausted_none {s : State} (h : s.line.outbound.find? exhausted = none) : dropExhausted s = s := by
  simp only [dropExhausted, h]

theorem exhausted_iff (q : QueuedFrame) : exhausted q = true ↔ q.inFlight = false ∧ 8 ≤ q.faults := by
  simp only [exhausted, Config.faultLimit, Bool.and_eq_true, Bool.not_eq_true', decide_eq_true_eq]

theorem dropped_line (s : State) (q : QueuedFrame) :
    (s.dropped q).line = { s.line with outbound := s.line.outbound.filter (fun x => x.key != q.key) } := by
  rw [State.dropped, post_line]
  rfl

theorem dropped_outboundDrops (s : State) (q : QueuedFrame) :
    (s.dropped q).counters.outboundDrops = min 65535 (s.counters.outboundDrops + 1) := by
  rw [State.dropped, (post_sameButLost _ _).outboundDrops]
  rfl

theorem dropped_posted (s : State) (q : QueuedFrame) :
    Posted s (s.dropped q) (.frameDropped (keyClass q.key) (keyKind q.key) (keyParcel q.key) (keyItem q.key)) :=
  posted_post s _ _ rfl rfl rfl

theorem dropped_rest (s : State) (q : QueuedFrame) :
    (s.dropped q).acc = s.acc ∧ (s.dropped q).eng = s.eng ∧ (s.dropped q).store = s.store ∧
      (s.dropped q).tmr = s.tmr ∧ (s.dropped q).sup = s.sup ∧ (s.dropped q).pending = s.pending := by
  simp [State.dropped, State.setOutbound]

/-- Settles O18. -/
theorem dropAndRecoveryActOnlyWhenDue : Obligations.DropAndRecoveryActOnlyWhenDue := by
  intro s hh
  have hdrop : exec .outboundDrop s = .next (dropExhausted s) := whenReleased_released _ hh
  have hrecover : exec .withdrawnRecovery s = .next (recoverStep s) := whenReleased_released _ hh
  rw [hdrop, hrecover]
  refine ⟨fun hnone => ?_, fun q hq hfly hfaults _ honly => ?_, fun k hw hk h64 => ?_, fun hnot => ?_⟩
  · rw [dropExhausted_none (List.find?_eq_none.mpr fun x hx => by rw [exhausted_iff]; exact hnone x hx)]
  · have hfind : s.line.outbound.find? exhausted = some q :=
      find?_of_unique hq ((exhausted_iff q).mpr ⟨hfly, hfaults⟩) fun x hx h => honly x hx ((exhausted_iff x).mp h)
    obtain ⟨hacc, heng, hstore, htmr, hsup, -⟩ := dropped_rest s q
    exact ⟨_, congrArg _ (dropExhausted_some hfind), dropped_line s q, dropped_outboundDrops s q, dropped_posted s q,
      hacc, heng, hstore, htmr, hsup⟩
  · obtain ⟨hacc, heng, hstore, htmr, hsup, -⟩ := recoverStep_rest s
    refine ⟨_, rfl, ?_, ?_, hacc, heng, hstore, htmr, hsup⟩
    · rw [recoverStep_due hw hk h64, postStanding_line]
      rfl
    · rw [recoverStep_due hw hk h64]
      exact posted_post s _ _ rfl rfl rfl
  · rw [recoverStep_idle hnot]

/-! ## A faulted attempt (R141, R142) -/

/-- The line after a faulted attempt of q, before the standing is judged and a frame dropped. -/
def LineInterface.unheard (l : LineInterface) (q : QueuedFrame) : LineInterface :=
  { l with
    tfc := min 255 (l.tfc + 4)
    driving := none
    outbound := keepUncarried q (fun q => { landed q with faults := q.faults + 1 }) l.outbound }

theorem endFaulted_eq (q : QueuedFrame) (s : State) :
    endFaulted q s = dropExhausted (judgeStanding (s.setLine (s.line.unheard q))) := rfl

/-- The frame of a faulted attempt, one fault further. -/
def QueuedFrame.faultedOnce (q : QueuedFrame) : QueuedFrame := { landed q with faults := q.faults + 1 }

theorem unheard_withdrawn {l : LineInterface} {q : QueuedFrame} (h : q.withdrawn = true) :
    (l.unheard q).outbound = l.outbound.filter (fun x => x.key != q.key) := if_pos h

theorem unheard_kept {l : LineInterface} {q : QueuedFrame} (h : q.withdrawn = false) :
    (l.unheard q).outbound = mapKey q.key QueuedFrame.faultedOnce l.outbound :=
  if_neg (by simp [h])

/-- Of the frames of fewer than eight faulted attempts, a further fault exhausts the one whose eighth it is. -/
theorem exhausted_mapKey {l : List QueuedFrame} {q x : QueuedFrame} (hd : (l.map QueuedFrame.key).Nodup) (hq : q ∈ l)
    (h8 : ∀ x ∈ l, x.faults < 8) (hx : x ∈ mapKey q.key QueuedFrame.faultedOnce l) (he : exhausted x = true) :
    x = q.faultedOnce ∧ q.faults = 7 := by
  obtain ⟨-, hfaults⟩ := (exhausted_iff x).mp he
  obtain ⟨y, hy, rfl⟩ := List.mem_map.mp hx
  have hlt := h8 y hy
  by_cases hk : y.key = q.key
  · obtain rfl := eq_of_key_eq hd hy hq hk
    rw [if_pos (beq_self_eq_true y.key)] at hfaults ⊢
    have hge : 8 ≤ y.faults + 1 := hfaults
    exact ⟨rfl, by omega⟩
  · rw [if_neg (by simpa using hk)] at hfaults
    omega

theorem find?_exhausted_stays {l : LineInterface} {q : QueuedFrame} (hd : (l.outbound.map QueuedFrame.key).Nodup)
    (hq : q ∈ l.outbound) (h8 : ∀ x ∈ l.outbound, x.faults < 8) (h : q.withdrawn = true ∨ q.faults < 7) :
    (l.unheard q).outbound.find? exhausted = none := by
  refine List.find?_eq_none.mpr fun x hx he => ?_
  cases hw : q.withdrawn with
  | true =>
    rw [unheard_withdrawn hw] at hx
    have hlt := h8 x (List.mem_filter.mp hx).1
    have hge := ((exhausted_iff x).mp he).2
    omega
  | false =>
    rw [unheard_kept hw] at hx
    have heq := (exhausted_mapKey hd hq h8 hx he).2
    have hlt : q.faults < 7 := h.resolve_left (by simp [hw])
    omega

theorem find?_exhausted_eighth {l : LineInterface} {q : QueuedFrame} (hd : (l.outbound.map QueuedFrame.key).Nodup)
    (hq : q ∈ l.outbound) (h8 : ∀ x ∈ l.outbound, x.faults < 8) (hw : q.withdrawn = false) (h7 : q.faults = 7) :
    (l.unheard q).outbound.find? exhausted = some q.faultedOnce := by
  rw [unheard_kept hw]
  refine find?_of_unique ?_ ?_ fun x hx he => (exhausted_mapKey hd hq h8 hx he).1
  · exact List.mem_map.mpr ⟨q, hq, by simp⟩
  · exact (exhausted_iff _).mpr ⟨rfl, by simp [QueuedFrame.faultedOnce, h7]⟩

theorem faultedOnce_key (q : QueuedFrame) : q.faultedOnce.key = q.key := rfl

/-- The judged state of a faulted attempt whose frame stays or was withdrawn. -/
theorem endFaulted_stays {s u : State} {q : QueuedFrame} (hj : JudgedFrom s u (s.line.unheard q))
    (hd : (s.line.outbound.map QueuedFrame.key).Nodup) (hq : q ∈ s.line.outbound)
    (h8 : ∀ x ∈ s.line.outbound, x.faults < 8) (h : q.withdrawn = true ∨ q.faults < 7) : dropExhausted u = u :=
  dropExhausted_none (by rw [hj.outbound]; exact find?_exhausted_stays hd hq h8 h)

theorem endFaulted_drops {s u : State} {q : QueuedFrame} (hj : JudgedFrom s u (s.line.unheard q))
    (hd : (s.line.outbound.map QueuedFrame.key).Nodup) (hq : q ∈ s.line.outbound)
    (h8 : ∀ x ∈ s.line.outbound, x.faults < 8) (hw : q.withdrawn = false) (h7 : q.faults = 7) :
    dropExhausted u = u.dropped q.faultedOnce :=
  dropExhausted_some (by rw [hj.outbound]; exact find?_exhausted_eighth hd hq h8 hw h7)

/-- A notice posted before a drop stays in front of that of the drop. -/
theorem dropped_behind {s u : State} {q : QueuedFrame} {x : Notice} (h : u.port.notices = s.port.notices ++ [x]) :
    ∃ l, (u.dropped q).port.notices = s.port.notices ++ x :: l := by
  obtain ⟨l, hl⟩ : u.port.notices <+: (u.dropped q).port.notices :=
    post_prefix ((u.setOutbound (removeKey q.key u.line.outbound)).bump .outboundDrops) _
  exact ⟨l, by rw [← hl, h, List.append_assoc]; rfl⟩

/-- Settles O17: the standing is judged first; then the frame of an eighth fault, and no other, is dropped. -/
theorem faultedAttemptStaysOrDrops : Obligations.FaultedAttemptStaysOrDrops := by
  intro o q s ho hh hd honly h8
  have hq := honly.1
  have hj := judgeStanding_from s (s.line.unheard q)
  have hexec : exec (.attemptEnd o) s = .next (dropExhausted (judgeStanding (s.setLine (s.line.unheard q)))) := by
    rw [exec_attemptEnd _ hh, endAttempt_faulted (flying_of_onlyFlying honly) ho, endFaulted_eq]
  generalize judgeStanding (s.setLine (s.line.unheard q)) = u at hj hexec
  obtain ⟨htfc, hrfc, hstanding⟩ := hj.counts
  have hblocks := hj.blocks
  by_cases hstays : q.withdrawn = true ∨ q.faults < 7
  · rw [endFaulted_stays hj hd hq h8 hstays] at hexec
    refine ⟨u, hexec, htfc, hrfc, hstanding, hj.driving, hj.goodHeard, fun hmoved hn => ⟨[], hj.posts hmoved hn⟩,
      fun hsame _ => hj.silent hsame, fun hw => ⟨hj.outbound.trans (unheard_withdrawn hw), hj.counters.outboundDrops⟩,
      fun hw _ => ⟨?_, hj.counters.outboundDrops⟩, fun hw h7 => ?_, hj.acc, hblocks⟩
    · rw [hj.outbound, unheard_kept hw]
      exact mapKey_eq_map hd hq rfl
    · simp [hw, h7] at hstays
  · obtain ⟨hw, h7⟩ : q.withdrawn = false ∧ q.faults = 7 := by
      have hlt := h8 q hq
      simp only [not_or, Bool.not_eq_true, not_lt] at hstays
      exact ⟨hstays.1, by omega⟩
    rw [endFaulted_drops hj hd hq h8 hw h7] at hexec
    obtain ⟨dacc, deng, dstore, dtmr, dsup, dpending⟩ := dropped_rest u q.faultedOnce
    refine ⟨_, hexec, ?_⟩
    rw [dropped_line, dacc, deng, dstore, dtmr, dsup, dpending]
    refine ⟨htfc, hrfc, hstanding, hj.driving, hj.goodHeard, fun hmoved hn => dropped_behind (hj.posts hmoved hn),
      fun _ hnot => absurd hnot hstays, fun hwt => absurd (.inl hwt) hstays, fun _ h => absurd (.inr h) hstays,
      fun _ _ => ⟨?_, ?_, fun hn => ?_⟩, hj.acc, hblocks⟩
    · show removeKey q.key u.line.outbound = removeKey q.key s.line.outbound
      rw [hj.outbound, unheard_kept hw]
      exact removeKey_mapKey q.key faultedOnce_key _
    · rw [dropped_outboundDrops, hj.counters.outboundDrops]
    · obtain ⟨hnew, -⟩ := (dropped_posted u q.faultedOnce).1 (lt_of_le_of_lt hj.noticesLength (Nat.succ_lt_succ hn))
      obtain ⟨-, -, htmr, -, -⟩ := hblocks
      rw [hnew, htmr]
      exact List.mem_append_right _ List.mem_cons_self

end Sys2Proof.Machine

/-! SUPPORT. The outbound queue (file 08, 8.6): the judgement of one offer, what the displacement of the highest keys
keeps, and with them the statements on an offer and on a group of offers. -/

namespace Sys2Proof.Machine

/-! ## The judgement of one offer (R153) -/

theorem silenced_iff (l : LineInterface) :
    l.silenced = true ↔ l.standing = .duplicate ∨ l.standing = .unnumbered := by
  unfold LineInterface.silenced
  cases l.standing <;> decide

theorem silenced_eq_false {l : LineInterface} (hd : l.standing ≠ .duplicate) (hu : l.standing ≠ .unnumbered) :
    l.silenced = false := by
  rw [← Bool.not_eq_true, silenced_iff]
  simp [hd, hu]

theorem replaceable_iff (k : FrameKey) : replaceable k = true ↔
    keyKind k = Kind.figure.code ∨ keyKind k = Kind.presence.code ∨ keyKind k = Kind.alarm.code := by
  simp [replaceable, or_assoc]

theorem hasKey_eq_false {k : FrameKey} {l : List QueuedFrame} (h : k ∉ l.map QueuedFrame.key) : hasKey k l = false := by
  rw [← Bool.not_eq_true, hasKey_iff]
  exact h

theorem highestKey_eq_none {l : List QueuedFrame} : highestKey l = none ↔ l = [] := by
  cases l with
  | nil => simp [highestKey]
  | cons q rest =>
    unfold highestKey
    split
    · simp
    · split <;> simp

theorem le_highestKey {l : List QueuedFrame} {h q : QueuedFrame} (hh : highestKey l = some h) (hq : q ∈ l) :
    q.key ≤ h.key := by
  induction l generalizing h with
  | nil => cases hq
  | cons x rest ih =>
    unfold highestKey at hh
    split at hh
    case h_1 hnone =>
      cases hh
      rw [highestKey_eq_none.mp hnone, List.mem_singleton] at hq
      exact hq ▸ BitVec.le_refl _
    case h_2 g hg =>
      split at hh
      case isTrue hlt =>
        cases hh
        obtain rfl | hq := List.mem_cons.mp hq
        · exact BitVec.le_refl _
        · exact BitVec.le_trans (ih hg hq) (BitVec.le_of_lt hlt)
      case isFalse hnlt =>
        cases hh
        obtain rfl | hq := List.mem_cons.mp hq
        · exact BitVec.not_lt.mp hnlt
        · exact ih hg hq

theorem exists_highestKey {l : List QueuedFrame} {q : QueuedFrame} (hq : q ∈ l) : ∃ h, highestKey l = some h := by
  cases h : highestKey l with
  | none => rw [highestKey_eq_none.mp h] at hq; cases hq
  | some x => exact ⟨x, rfl⟩

/-- The frame of the highest key among those not in flight has the key that is highest. -/
theorem highestKey_waiting {l : List QueuedFrame} {h : QueuedFrame} (hh : h ∈ l) (hfly : h.inFlight = false)
    (hmax : ∀ q ∈ l, q.inFlight = false → q.key ≤ h.key) :
    ∃ g, highestKey (l.filter (fun q => !q.inFlight)) = some g ∧ g.inFlight = false ∧ g.key = h.key := by
  have hmem : h ∈ l.filter (fun q => !q.inFlight) := List.mem_filter.mpr ⟨hh, by simp [hfly]⟩
  obtain ⟨g, hg⟩ := exists_highestKey hmem
  obtain ⟨hgl, hgfly⟩ := List.mem_filter.mp (highestKey_mem _ _ hg)
  have hgfly : g.inFlight = false := by simpa using hgfly
  exact ⟨g, hg, hgfly, BitVec.le_antisymm (hmax g hgl hgfly) (le_highestKey hg hmem)⟩

section Offer

variable {f : OfferedFrame} {listed : Bool} {s : State}

theorem offer_silenced (h : s.line.silenced = true) : offer f listed s = (.silenced, s) := if_pos h

variable (hs : s.line.silenced = false)
include hs

theorem offer_replaced (hk : f.key ∈ s.line.outbound.map QueuedFrame.key) (hr : replaceable f.key = true) :
    offer f listed s = (.replaced, s.setOutbound (s.line.outbound.map
      (fun q => if q.key == f.key then replacePayload f.payload listed q else q))) := by
  simp [offer, hs, (hasKey_iff _ _).mpr hk, hr]

theorem offer_busy (hk : f.key ∈ s.line.outbound.map QueuedFrame.key) (hr : replaceable f.key = false) :
    offer f listed s = (.busy, s) := by
  simp [offer, hs, (hasKey_iff _ _).mpr hk, hr]

variable (hk : f.key ∉ s.line.outbound.map QueuedFrame.key)
include hk

theorem offer_admitted (hl : s.line.outbound.length < 10) :
    offer f listed s = (.admitted, s.setOutbound (s.line.outbound ++ [newQueued f listed])) := by
  simp [offer, hs, hasKey_eq_false hk, Config.outboundSize, hl]

variable (hl : 10 ≤ s.line.outbound.length)
include hl

theorem offer_full_lowClass (hc : ¬ keyClass f.key ≤ 4#3) : offer f listed s = (.queueFull, s) := by
  simp [offer, hs, hasKey_eq_false hk, Config.outboundSize, Nat.not_lt.mpr hl, BitVec.not_le.mp hc]

theorem offer_full_allFlying (hc : keyClass f.key ≤ 4#3)
    (h : highestKey (s.line.outbound.filter (fun q => !q.inFlight)) = none) : offer f listed s = (.queueFull, s) := by
  simp [offer, hs, hasKey_eq_false hk, Config.outboundSize, Nat.not_lt.mpr hl, hc, h]

theorem offer_full_highest {h : QueuedFrame} (hc : keyClass f.key ≤ 4#3)
    (hh : highestKey (s.line.outbound.filter (fun q => !q.inFlight)) = some h) :
    offer f listed s = if displaceable h = true then
      (.displaced, (s.setOutbound (removeKey h.key s.line.outbound ++ [newQueued f listed])).bump .displacements)
      else (.queueFull, s) := by
  simp [offer, hs, hasKey_eq_false hk, Config.outboundSize, Nat.not_lt.mpr hl, hc, hh]

end Offer

theorem class_low_or_high (c : BitVec 3) : ¬ c ≤ 4#3 ↔ 5#3 ≤ c := by
  revert c
  decide

theorem replacePayload_eq (p : List Byte) (listed : Bool) (q : QueuedFrame) :
    replacePayload p listed q =
      if q.inFlight then { q with pendingPayload := some p, listed := q.listed || listed }
      else { q with payload := p, listed := q.listed || listed } := rfl

/-- Settles O19. -/
theorem offerIsJudgedInOrder : Obligations.OfferIsJudgedInOrder := by
  intro f listed s
  refine ⟨fun h => offer_silenced ((silenced_iff _).mpr h), fun hd hu => ?_⟩
  have hs := silenced_eq_false hd hu
  refine ⟨fun hk => ⟨fun hr => ?_, fun hr => ?_⟩, fun hk => ⟨offer_admitted hs hk, fun hl => ⟨fun hc => ?_, fun hc =>
    ⟨fun hfly => ?_, fun h hh hfly hmax => ?_⟩⟩⟩⟩
  · rw [offer_replaced hs hk ((replaceable_iff _).mpr hr)]
    simp only [beq_iff_eq, replacePayload_eq]
    rfl
  · exact offer_busy hs hk (by rw [← Bool.not_eq_true, replaceable_iff]; exact hr)
  · exact offer_full_lowClass hs hk hl ((class_low_or_high _).mpr hc)
  · refine offer_full_allFlying hs hk hl hc (highestKey_eq_none.mpr (List.filter_eq_nil_iff.mpr fun q hq => ?_))
    simp [hfly q hq]
  · obtain ⟨g, hg, hgfly, hkey⟩ := highestKey_waiting hh hfly hmax
    rw [offer_full_highest hs hk hl hc hg]
    have hdisp : displaceable g = true ↔ 5#3 ≤ keyClass h.key := by simp [displaceable, hgfly, hkey]
    refine ⟨fun hlow => if_neg ?_, fun hhigh => ?_⟩
    · rw [hdisp, ← class_low_or_high]
      exact not_not_intro hlow
    · rw [if_pos (hdisp.mpr hhigh), hkey]
      rfl

/-! ## The displacement of the highest keys (R155) -/

/-- The queue without the n displaceable frames of the highest keys. -/
def keptOf : Nat → List QueuedFrame → List QueuedFrame
  | 0, l => l
  | n + 1, l =>
    match highestKey (l.filter displaceable) with
    | none => l
    | some h => keptOf n (removeKey h.key l)

theorem keptOf_succ {n : Nat} {l : List QueuedFrame} {h : QueuedFrame} (hh : highestKey (l.filter displaceable) = some h) :
    keptOf (n + 1) l = keptOf n (removeKey h.key l) := by
  simp only [keptOf, hh]

theorem keptOf_sublist (n : Nat) (l : List QueuedFrame) : (keptOf n l).Sublist l := by
  induction n generalizing l with
  | zero => exact .refl l
  | succ n ih =>
    unfold keptOf
    split
    · exact .refl l
    · exact (ih _).trans List.filter_sublist

theorem removeKey_length_of_nodup {l : List QueuedFrame} {q : QueuedFrame} (hd : (l.map QueuedFrame.key).Nodup)
    (hq : q ∈ l) : (removeKey q.key l).length + 1 = l.length := by
  induction l with
  | nil => cases hq
  | cons x rest ih =>
    obtain ⟨hx, hrest⟩ := List.nodup_cons.mp hd
    by_cases hk : x.key = q.key
    · have hall : removeKey q.key rest = rest :=
        List.filter_eq_self.mpr fun y hy => by
          simpa [← hk] using fun he : y.key = x.key => hx (he ▸ List.mem_map_of_mem hy)
      have hcons : removeKey q.key (x :: rest) = removeKey q.key rest := by simp [removeKey, hk]
      rw [hcons, hall, List.length_cons]
    · have hq : q ∈ rest := (List.mem_cons.mp hq).resolve_left fun he => hk (he ▸ rfl)
      have hcons : removeKey q.key (x :: rest) = x :: removeKey q.key rest := by simp [removeKey, hk]
      rw [hcons, List.length_cons, List.length_cons, ih hrest hq]

/-- While enough frames are displaceable there is a highest one, and without it one fewer is. -/
theorem exists_displaced {n : Nat} {l : List QueuedFrame} (hd : (l.map QueuedFrame.key).Nodup)
    (hn : n + 1 ≤ (l.filter displaceable).length) :
    ∃ h, highestKey (l.filter displaceable) = some h ∧ h ∈ l ∧ displaceable h = true ∧
      (removeKey h.key l).length + 1 = l.length ∧ ((removeKey h.key l).map QueuedFrame.key).Nodup ∧
      n ≤ ((removeKey h.key l).filter displaceable).length := by
  obtain ⟨x, hx⟩ := List.exists_mem_of_length_pos (Nat.lt_of_lt_of_le (Nat.succ_pos n) hn)
  obtain ⟨h, hh⟩ := exists_highestKey hx
  obtain ⟨hhl, hhd⟩ := List.mem_filter.mp (highestKey_mem _ _ hh)
  have hlen := removeKey_length_of_nodup hd hhl
  have hcount := removeKey_displaceable h.key l
  exact ⟨h, hh, hhl, hhd, hlen, nodup_filter_keys _ _ hd, by omega⟩

theorem keptOf_length {n : Nat} {l : List QueuedFrame} (hd : (l.map QueuedFrame.key).Nodup)
    (hn : n ≤ (l.filter displaceable).length) : (keptOf n l).length + n = l.length := by
  induction n generalizing l with
  | zero => rfl
  | succ n ih =>
    obtain ⟨h, hh, -, -, hlen, hd', hn'⟩ := exists_displaced hd hn
    rw [keptOf_succ hh, ← hlen, ← ih hd' hn']
    omega

theorem mem_removeKey {k : FrameKey} {l : List QueuedFrame} {x : QueuedFrame} :
    x ∈ removeKey k l ↔ x ∈ l ∧ x.key ≠ k := by
  simp [removeKey]

theorem mem_keptOf {n : Nat} {l : List QueuedFrame} (hd : (l.map QueuedFrame.key).Nodup)
    (hn : n ≤ (l.filter displaceable).length) {x : QueuedFrame} (hx : x ∈ l) (hnot : displaceable x = false) :
    x ∈ keptOf n l := by
  induction n generalizing l with
  | zero => exact hx
  | succ n ih =>
    obtain ⟨h, hh, hhl, hhd, -, hd', hn'⟩ := exists_displaced hd hn
    rw [keptOf_succ hh]
    refine ih hd' hn' (mem_removeKey.mpr ⟨hx, fun hk => ?_⟩)
    rw [eq_of_key_eq hd hx hhl hk, hhd] at hnot
    cases hnot

/-- The frames displaced have higher keys than every displaceable one that is kept. -/
theorem keptOf_highest {n : Nat} {l : List QueuedFrame} (hd : (l.map QueuedFrame.key).Nodup)
    (hn : n ≤ (l.filter displaceable).length) {x y : QueuedFrame} (hx : x ∈ l) (hy : y ∈ keptOf n l)
    (hgone : x ∉ keptOf n l) (hdisp : displaceable y = true) : y.key < x.key := by
  induction n generalizing l with
  | zero => exact absurd hx hgone
  | succ n ih =>
    obtain ⟨h, hh, hhl, -, -, hd', hn'⟩ := exists_displaced hd hn
    rw [keptOf_succ hh] at hy hgone
    by_cases hk : x.key = h.key
    · obtain ⟨hyl, hyk⟩ := mem_removeKey.mp ((keptOf_sublist _ _).subset hy)
      rw [hk]
      exact BitVec.lt_of_le_ne (le_highestKey hh (List.mem_filter.mpr ⟨hyl, hdisp⟩)) hyk
    · exact ih hd' hn' (mem_removeKey.mpr ⟨hx, hk⟩) hy hgone

/-- The displacements count after n more displacements (R103). -/
def displacedCount (n d : Nat) : Nat := if n = 0 then d else min 65535 (d + n)

theorem displacedCount_succ (n d : Nat) : displacedCount n (min 65535 (d + 1)) = displacedCount (n + 1) d := by
  unfold displacedCount
  split <;> simp <;> omega

theorem displaceHighest_eq {n : Nat} {s : State} (hd : s.KeysDistinct)
    (hn : n ≤ (s.line.outbound.filter displaceable).length) :
    displaceHighest n s = (s.setOutbound (keptOf n s.line.outbound)).setCounters
      { s.counters with displacements := displacedCount n s.counters.displacements } := by
  induction n generalizing s with
  | zero => rfl
  | succ n ih =>
    obtain ⟨h, hh, -, -, -, hd', hn'⟩ := exists_displaced hd hn
    have hstep : displaceHighest (n + 1) s =
        displaceHighest n ((s.setOutbound (removeKey h.key s.line.outbound)).bump .displacements) := by
      simp only [displaceHighest, hh]
    rw [hstep, ih (s := (s.setOutbound (removeKey h.key s.line.outbound)).bump .displacements) hd' hn', keptOf_succ hh,
      ← displacedCount_succ]
    rfl

/-! ## A group (R155) -/

section Group

variable {fs : List OfferedFrame} {s : State}

theorem offerGroup_silenced (h : s.line.silenced = true) : offerGroup fs s = (.silenced, s) := if_pos h

variable (hs : s.line.silenced = false)
include hs

theorem offerGroup_busy (h : ∃ f ∈ fs, f.key ∈ s.line.outbound.map QueuedFrame.key) :
    offerGroup fs s = (.busy, s) := by
  have hany : fs.any (fun f => hasKey f.key s.line.outbound) = true := by simpa [hasKey_iff] using h
  simp only [offerGroup, hs, hany, Bool.false_eq_true, if_false, if_true]

theorem offerGroup_judged (h : ∀ f ∈ fs, f.key ∉ s.line.outbound.map QueuedFrame.key) :
    offerGroup fs s =
      if (10 - s.line.outbound.length) + (s.line.outbound.filter displaceable).length < fs.length then (.queueFull, s)
      else (if 10 - s.line.outbound.length < fs.length then .displaced else .admitted,
        (displaceHighest (fs.length - (10 - s.line.outbound.length)) s).setOutbound
          ((displaceHighest (fs.length - (10 - s.line.outbound.length)) s).line.outbound ++
            fs.map (fun f => newQueued f false))) := by
  have hany : fs.any (fun f => hasKey f.key s.line.outbound) = false := by
    rw [List.any_eq_false]
    exact fun f hf => by simp [hasKey_eq_false (h f hf)]
  simp only [offerGroup, hs, hany, Bool.false_eq_true, if_false, Config.outboundSize]

end Group

/-- Settles O20. -/
theorem declarationPartsAreAdmittedWhole : Obligations.DeclarationPartsAreAdmittedWhole := by
  intro fs s _ hd
  refine ⟨fun h => offerGroup_silenced ((silenced_iff _).mpr h), fun hdup hun => ?_⟩
  have hs := silenced_eq_false hdup hun
  refine ⟨offerGroup_busy hs, fun hfree => ⟨fun hfull => ?_, fun hroom => ?_⟩⟩
  · rw [offerGroup_judged hs hfree, if_pos hfull]
  · have hn : fs.length - (10 - s.line.outbound.length) ≤ (s.line.outbound.filter displaceable).length := by omega
    refine ⟨keptOf (fs.length - (10 - s.line.outbound.length)) s.line.outbound, keptOf_sublist _ _, keptOf_length hd hn,
      fun x hx hnot => mem_keptOf hd hn hx hnot, fun x hx y hy hgone hdisp => keptOf_highest hd hn hx hy hgone hdisp, ?_⟩
    rw [offerGroup_judged hs hfree, if_neg (Nat.not_lt.mpr hroom), displaceHighest_eq hd hn, displacedCount]
    simp only [Nat.sub_eq_zero_iff_le]
    rfl

end Sys2Proof.Machine

/-! SUPPORT. The Publication Timer (file 09): the events of a tick, what a build moment builds, the rotation, and with
them the statements on SECOND_TICK, the events of a cycle sent alone, BUILD_MOMENT and the rotation. -/

namespace Sys2Proof.Machine

/-! ## The events of a cycle (R149, R159, R165, R166) -/

theorem listenReached_iff (s : State) :
    s.listenReached = true ↔ s.sup.straps.listen.seconds ≤ s.tmr.seconds.toNat := decide_eq_true_iff

theorem quietStanding_iff (st : Standing) : quietStanding st = true ↔ st = .muted ∨ st = .withdrawn := by
  cases st <;> decide

/-- The starts that wait for their build moment after a cycle start (R161, R164). -/
theorem startCycle_buildsDue (s : State) (p : Parity) :
    (if quietStanding s.line.standing then s.tmr.buildsDue else s.tmr.buildsDue ++ [p]) =
      if s.line.standing = .muted ∨ s.line.standing = .withdrawn then s.tmr.buildsDue
      else s.tmr.buildsDue ++ [p] := by
  simp only [quietStanding_iff]

theorem Parity.other_eq (p : Parity) : p.other = if p = .secondary then .primary else .secondary := by
  cases p <;> rfl

theorem listenStep_eq (s : State) :
    listenStep s = s.setLine { s.line with
      listening := s.line.listening && decide (s.tmr.seconds.toNat < s.sup.straps.listen.seconds) } := by
  unfold listenStep
  split
  case isTrue h =>
    rw [listenReached_iff] at h
    simp [Nat.not_lt.mpr h]
  case isFalse h =>
    rw [listenReached_iff] at h
    simp only [Nat.not_le.mp h, decide_true, Bool.and_true]
    rfl

theorem endCycle_eq (s : State) :
    endCycle s = (s.setEng { s.eng with checkpointPending := true }).setTmr { s.tmr with
      mark := (s.tmr.pendingLengths.getD (s.tmr.mark, s.tmr.space)).1
      space := (s.tmr.pendingLengths.getD (s.tmr.mark, s.tmr.space)).2
      pendingLengths := none } := by
  obtain ⟨line, acc, eng, store, log, ⟨seconds, mark, space, lengths, cycle, pointer, builds⟩, port, sup, counters, cmds⟩ := s
  cases lengths <;> rfl

section Cycle

variable {s : State}

theorem markEndStep_noCycle (h : s.tmr.cycle = none) : markEndStep s = s := by
  simp [markEndStep, State.markEndDue, State.cycleElapsed, h]

theorem markEndStep_cycle {c : Cycle} (h : s.tmr.cycle = some c) :
    markEndStep s = if (s.tmr.seconds - c.start).toNat = s.tmr.mark.toNat then endMark s else s := by
  simp [markEndStep, State.markEndDue, State.cycleElapsed, h, elapsed, State.now]

theorem cycleEndDue_noCycle (h : s.tmr.cycle = none) : s.cycleEndDue = false := by
  simp [State.cycleEndDue, State.cycleElapsed, h]

theorem cycleEndDue_cycle {c : Cycle} (h : s.tmr.cycle = some c) :
    s.cycleEndDue = decide ((s.tmr.seconds - c.start).toNat = s.tmr.mark.toNat + s.tmr.space.toNat) := by
  simp only [State.cycleEndDue, State.cycleElapsed, h, elapsed, State.now, Option.map_some, Option.some_beq_some]
  rfl

theorem cycleStep_first (h : s.tmr.cycle = none) (hl : s.sup.straps.listen.seconds ≤ s.tmr.seconds.toNat) :
    cycleStep s = startCycle s := by
  simp [cycleStep, State.firstCycleDue, h, (listenReached_iff s).mpr hl]

theorem cycleStep_listening (h : s.tmr.cycle = none) (hl : s.tmr.seconds.toNat < s.sup.straps.listen.seconds) :
    cycleStep s = s := by
  have hl : s.listenReached = false := by
    rw [← Bool.not_eq_true, listenReached_iff]
    exact Nat.not_le.mpr hl
  simp [cycleStep, State.firstCycleDue, h, hl, cycleEndDue_noCycle]

theorem cycleStep_cycle {c : Cycle} (h : s.tmr.cycle = some c) :
    cycleStep s = if (s.tmr.seconds - c.start).toNat = s.tmr.mark.toNat + s.tmr.space.toNat
      then startCycle (endCycle s) else s := by
  simp [cycleStep, State.firstCycleDue, h, cycleEndDue_cycle]

/-- The cycle that a cycle end starts, with the pending lengths taken (R160, R161, R166). -/
theorem startCycle_endCycle {c : Cycle} (h : s.tmr.cycle = some c) :
    startCycle (endCycle s) = { s with
      eng := { s.eng with checkpointPending := true }
      tmr := { s.tmr with
        mark := (s.tmr.pendingLengths.getD (s.tmr.mark, s.tmr.space)).1
        space := (s.tmr.pendingLengths.getD (s.tmr.mark, s.tmr.space)).2
        pendingLengths := none
        cycle := some
          { start := s.tmr.seconds
            parity := if c.parity = .secondary then .primary else .secondary
            quiet := quietStanding s.line.standing }
        buildsDue :=
          if quietStanding s.line.standing then s.tmr.buildsDue
          else s.tmr.buildsDue ++ [if c.parity = .secondary then .primary else .secondary] } } := by
  rw [endCycle_eq, ← Parity.other_eq]
  simp only [startCycle, State.setTmr_tmr, State.setTmr_line, State.setEng_line, h]
  rfl

end Cycle

/-- A cycle step changes the cycle and its lengths, the starts that wait, and the checkpoint flag at most. -/
theorem cycleStep_rest (s : State) :
    (cycleStep s).line = s.line ∧
      (cycleStep s).eng = { s.eng with checkpointPending := (cycleStep s).eng.checkpointPending } ∧
      (cycleStep s).tmr.seconds = s.tmr.seconds ∧ (cycleStep s).tmr.pointer = s.tmr.pointer ∧
      (cycleStep s).acc = s.acc ∧ (cycleStep s).store = s.store ∧ (cycleStep s).port = s.port ∧
      (cycleStep s).sup = s.sup ∧ (cycleStep s).counters = s.counters ∧ (cycleStep s).pending = s.pending := by
  unfold cycleStep
  split
  · exact ⟨rfl, rfl, rfl, rfl, rfl, rfl, rfl, rfl, rfl, rfl⟩
  · split
    · rw [endCycle_eq]
      exact ⟨rfl, rfl, rfl, rfl, rfl, rfl, rfl, rfl, rfl, rfl⟩
    · exact ⟨rfl, rfl, rfl, rfl, rfl, rfl, rfl, rfl, rfl, rfl⟩

/-! ## The tick (R158) -/

/-- The state at the new count with its listen period, and not yet its mark end or its cycle step. -/
def State.counted1 (s : State) : State :=
  { s with
    tmr := { s.tmr with seconds := s.tmr.seconds + 1 }
    eng := { s.eng with dutyPending := true }
    line := { s.line with
      listening := s.line.listening && decide ((s.tmr.seconds + 1).toNat < s.sup.straps.listen.seconds) } }

theorem tick_eq (s : State) : tick s = cycleStep (markEndStep s.counted1) := by
  rw [tick, listenStep_eq]
  rfl

theorem exec_secondTick {s : State} (h : s.sup.held = false) :
    exec .secondTick s = .next (cycleStep (markEndStep s.counted1)) := by
  rw [← tick_eq]
  exact whenReleased_released _ h

theorem markEndStep_eq (s : State) : ∃ l, markEndStep s = s.setOutbound l := by
  unfold markEndStep
  split
  · exact ⟨_, rfl⟩
  · exact ⟨s.line.outbound, rfl⟩

/-- Settles O21. -/
theorem secondTickCountsAndAsksForTheDuty : Obligations.SecondTickCountsAndAsksForTheDuty := by
  intro s hh
  obtain ⟨l, hl⟩ := markEndStep_eq s.counted1
  obtain ⟨hline, heng, hseconds, hpointer, hacc, hstore, hport, hsup, hcounters, hpending⟩ :=
    cycleStep_rest (s.counted1.setOutbound l)
  refine ⟨_, exec_secondTick hh, ?_⟩
  rw [hl]
  exact ⟨hseconds, heng, by rw [hline]; rfl, hpointer, hacc, hstore, hport, hsup, hcounters, hpending⟩

/-- The mark end within a tick. -/
theorem markEndStep_outbound {s : State} {c : Cycle} (h : s.tmr.cycle = some c) :
    (markEndStep s).line.outbound =
      if (s.tmr.seconds - c.start).toNat = s.tmr.mark.toNat then withdrawListed s.line.outbound
      else s.line.outbound := by
  rw [markEndStep_cycle h]
  split <;> rfl

/-- Settles O22: the mark end comes before the cycle end, and they change different blocks. -/
theorem tickMakesTheCycleEventsDue : Obligations.TickMakesTheCycleEventsDue := by
  intro s hh
  refine ⟨_, exec_secondTick hh, fun hc => ?_, fun c hc => ?_⟩
  · rw [markEndStep_noCycle (s := s.counted1) hc]
    obtain hl | hl := Nat.lt_or_ge (s.tmr.seconds + 1).toNat s.sup.straps.listen.seconds
    · rw [cycleStep_listening (s := s.counted1) hc hl]
      exact ⟨rfl, rfl, rfl, rfl, rfl, fun _ => ⟨hc, rfl⟩, fun hge => absurd hl (Nat.not_lt.mpr hge)⟩
    · rw [cycleStep_first (s := s.counted1) hc hl]
      refine ⟨rfl, rfl, rfl, rfl, rfl, fun hlt => absurd hl (Nat.not_le.mpr hlt), fun _ => ?_⟩
      rw [← startCycle_buildsDue]
      simp only [startCycle, State.setTmr_tmr, State.counted1, hc]
      exact ⟨rfl, rfl⟩
  · have hout := markEndStep_outbound (s := s.counted1) hc
    obtain ⟨l, hl⟩ := markEndStep_eq s.counted1
    rw [hl] at hout ⊢
    have hstep := cycleStep_cycle (s := s.counted1.setOutbound l) (c := c) hc
    rw [(cycleStep_rest _).1, hout]
    refine ⟨fun hend => ?_, fun hend => ?_, fun hmark => if_pos hmark, fun hmark => if_neg hmark⟩
    · rw [hstep, if_pos (by exact hend), startCycle_endCycle (s := s.counted1.setOutbound l) hc, ← startCycle_buildsDue]
      exact ⟨rfl, rfl, rfl, rfl, rfl⟩
    · rw [hstep, if_neg (by exact hend)]
      exact ⟨rfl, rfl, rfl, rfl, rfl, rfl⟩

/-! ## The events sent alone -/

/-- Settles O23. -/
theorem cycleCommandsActOnlyWhenDue : Obligations.CycleCommandsActOnlyWhenDue := by
  intro s hh
  have hlisten : exec .listenPeriodEnd s = .next (listenStep s) := whenReleased_released _ hh
  have hmark : exec .markEnd s = .next (markEndStep s) := whenReleased_released _ hh
  have hstart : exec .cycleStart s = .next (cycleStep s) := whenReleased_released _ hh
  have hend : exec .cycleEnd s = .next (if s.cycleEndDue then startCycle (endCycle s) else s) :=
    whenReleased_released _ hh
  rw [hlisten, hmark, hstart, hend]
  refine ⟨?_, fun hc => ⟨?_, ?_, fun hl => ?_, fun hl => ?_⟩, fun c hc => ⟨?_, ?_, ?_⟩⟩
  · simp only [listenStep, listenReached_iff]
    rfl
  · rw [markEndStep_noCycle hc]
  · rw [cycleEndDue_noCycle hc, if_neg Bool.false_ne_true]
  · rw [cycleStep_listening hc hl]
  · rw [cycleStep_first hc hl]
    simp only [startCycle, hc]
    rfl
  · rw [markEndStep_cycle hc]
    rfl
  · rw [cycleStep_cycle hc, cycleEndDue_cycle hc]
    simp only [decide_eq_true_eq]
  · rw [cycleEndDue_cycle hc, startCycle_endCycle hc]
    simp only [decide_eq_true_eq]

/-! ## The build moment (R162, R163, R164) -/

theorem exec_buildMoment {s : State} (h : s.sup.held = false) : exec .buildMoment s = .next (buildAll s) :=
  whenReleased_released _ h

theorem buildAll_of_due {s : State} {l : List Parity} (h : s.tmr.buildsDue = l) :
    buildAll s = l.foldl buildOne { s with tmr := { s.tmr with buildsDue := [] } } := by
  subst h
  rfl

/-- The builds of several starts are those of the first and then those of the rest. -/
theorem buildAll_cons {s : State} {p : Parity} {rest : List Parity} (h : s.tmr.buildsDue = p :: rest) :
    buildAll ((buildAll (s.withStarts [p])).withStarts rest) = buildAll s := by
  have hdue := buildAll_buildsDue (s.withStarts [p])
  have hfirst : buildAll (s.withStarts [p]) = buildOne (s.withStarts []) p := rfl
  have hempty : ((buildAll (s.withStarts [p])).withStarts rest).withStarts [] = buildOne (s.withStarts []) p :=
    (withStarts_eq hdue).trans hfirst
  calc buildAll ((buildAll (s.withStarts [p])).withStarts rest)
    _ = rest.foldl buildOne (((buildAll (s.withStarts [p])).withStarts rest).withStarts []) := rfl
    _ = rest.foldl buildOne (buildOne (s.withStarts []) p) := by rw [hempty]
    _ = buildAll s := (buildAll_of_due h).symm

/-- An offer neither reads nor changes the timer. -/
theorem offer_setTmr (f : OfferedFrame) (l : Bool) (s : State) (x : PublicationTimer) :
    offer f l (s.setTmr x) = ((offer f l s).1, (offer f l s).2.setTmr x) := by
  by_cases hs : s.line.silenced = true
  · rw [offer_silenced hs, offer_silenced (s := s.setTmr x) hs]
  rw [Bool.not_eq_true] at hs
  by_cases hk : f.key ∈ s.line.outbound.map QueuedFrame.key
  · cases hr : replaceable f.key with
    | false => rw [offer_busy hs hk hr, offer_busy (s := s.setTmr x) hs hk hr]
    | true =>
      rw [offer_replaced hs hk hr, offer_replaced (s := s.setTmr x) hs hk hr]
      rfl
  obtain hl | hl := Nat.lt_or_ge s.line.outbound.length 10
  · rw [offer_admitted hs hk hl, offer_admitted (s := s.setTmr x) hs hk hl]
    rfl
  by_cases hc : keyClass f.key ≤ 4#3
  · cases hh : highestKey (s.line.outbound.filter (fun q => !q.inFlight)) with
    | none => rw [offer_full_allFlying hs hk hl hc hh, offer_full_allFlying (s := s.setTmr x) hs hk hl hc hh]
    | some h =>
      rw [offer_full_highest hs hk hl hc hh, offer_full_highest (s := s.setTmr x) hs hk hl hc hh]
      split <;> rfl
  · rw [offer_full_lowClass hs hk hl hc, offer_full_lowClass (s := s.setTmr x) hs hk hl hc]

theorem publishPrimary_none {s : State} (h : chooseParcel s = none) : publishPrimary s = s := by
  simp only [publishPrimary, h]

theorem publishPrimary_some {s : State} {n : ParcelNo} {f : OfferedFrame} (h : chooseParcel s = some n)
    (hf : publicationFrame s n = some f) :
    publishPrimary s = (offer f true (s.setTmr { s.tmr with pointer := n })).2 := by
  simp only [publishPrimary, h, hf, offerListed, offer_setTmr, offer_tmr]

theorem publicationFrame_transfer {s : State} {n : ParcelNo} {r : ParcelRecord} (hr : s.recordOf n = some r)
    (hs : r.state = .transfer) : publicationFrame s n = some (figureFrame s n r) := by
  simp [publicationFrame, hr, hs]

theorem publicationFrame_vote {s : State} {n : ParcelNo} {r : ParcelRecord} {o : OwnFigure}
    (hr : s.recordOf n = some r) (hs : r.state ≠ .transfer) (ho : r.own = some o) :
    publicationFrame s n = some (voteFrame s n r.round o) := by
  simp [publicationFrame, hr, hs, ho]

theorem figurePayload_some {r : ParcelRecord} {f : RunningFigure} (h : r.running = some f) :
    figurePayload r = be32 f.p ++ be32 f.s ++ be32 f.delta ++
      [if r.alarm.raised then 1#8 else 0#8, if f.complete then 1#8 else 0#8] := by
  simp only [figurePayload, h]
  rfl

theorem figurePayload_none {r : ParcelRecord} (h : r.running = none) :
    figurePayload r = List.replicate 12 0#8 ++ [if r.alarm.raised then 1#8 else 0#8, 0#8] := by
  simp only [figurePayload, h]
  rfl

/-- One primary start, with a parcel chosen: its frame is offered with the pointer moved to it (R163). -/
theorem buildAll_primary {s : State} {n : ParcelNo} {f : OfferedFrame} (hd : s.tmr.buildsDue = [.primary])
    (hc : chooseParcel s = some n) (hf : publicationFrame s n = some f) :
    buildAll s = (offer f true { s with tmr := { s.tmr with buildsDue := [], pointer := n } }).2 := by
  rw [buildAll_of_due hd]
  exact publishPrimary_some (s := s.withStarts []) hc hf

/-- Settles O24. -/
theorem buildMomentOffersWithoutTouchingTheEngine : Obligations.BuildMomentOffersWithoutTouchingTheEngine := by
  intro s hh
  refine ⟨⟨buildAll s, exec_buildMoment hh, buildAll_eng s, ?_, ?_, buildAll_buildsDue s, fun hd => ?_, fun hd => ?_,
    fun hd hc => ?_, fun n r f hd hc hr hs hf => ?_, fun n r hd hc hr hs hf => ?_, fun p rest hd => ?_,
    fun n r o hd hc hr hs ho => ?_⟩, fun c t₀ hserves h0 => serves_builds hh hserves h0⟩
  · rw [buildAll_outside]
    rfl
  · rw [buildAll_outside]
    rfl
  · rw [buildAll_of_due hd]
    exact withStarts_eq hd
  · rw [buildAll_of_due hd]
    rfl
  · rw [buildAll_of_due hd]
    exact publishPrimary_none (s := s.withStarts []) hc
  · rw [buildAll_primary hd hc (publicationFrame_transfer hr hs), figureFrame, figurePayload_some hf]
    rfl
  · rw [buildAll_primary hd hc (publicationFrame_transfer hr hs), figureFrame, figurePayload_none hf]
    rfl
  · have hsup : (buildAll (s.withStarts [p])).sup = s.sup := by
      rw [buildAll_outside]
      rfl
    exact ⟨_, exec_buildMoment (s := s.withStarts [p]) hh,
      (exec_buildMoment (s := (buildAll (s.withStarts [p])).withStarts rest) (hsup ▸ hh)).trans
        (congrArg _ (buildAll_cons hd))⟩
  · rw [buildAll_primary hd hc (publicationFrame_vote hr hs ho)]
    rfl

/-! ## The first of an order (R106, R163) -/

/-- In a list ordered by place, the first that a test accepts is the accepted one of the least place. -/
theorem find?_eq_some_iff_of_ordered {α : Type} {l : List α} {place : α → Nat} {p : α → Bool}
    (h : l.Pairwise (fun a b => place a < place b)) {n : α} :
    l.find? p = some n ↔ (n ∈ l ∧ p n = true) ∧ ∀ m, m ∈ l ∧ p m = true → place n ≤ place m := by
  induction l with
  | nil => simp
  | cons x rest ih =>
    obtain ⟨hx, hrest⟩ := List.pairwise_cons.mp h
    cases hp : p x with
    | true =>
      rw [List.find?_cons_of_pos hp, Option.some.injEq]
      refine ⟨?_, fun h => ?_⟩
      · rintro rfl
        refine ⟨⟨List.mem_cons_self, hp⟩, fun m hm => ?_⟩
        obtain rfl | hm := List.mem_cons.mp hm.1
        · exact Nat.le_refl _
        · exact Nat.le_of_lt (hx m hm)
      · obtain ⟨⟨hn, -⟩, hmin⟩ := h
        obtain rfl | hn := List.mem_cons.mp hn
        · rfl
        · exact absurd (hmin x ⟨List.mem_cons_self, hp⟩) (Nat.not_le.mpr (hx n hn))
    | false =>
      have hmem : ∀ m, (m ∈ x :: rest ∧ p m = true) ↔ (m ∈ rest ∧ p m = true) := fun m =>
        and_congr_left fun hpm => by
          have hne : m ≠ x := fun he => by simp [he, hp] at hpm
          simp [hne]
      rw [List.find?_cons_of_neg (by simp [hp]), ih hrest]
      simp only [hmem]

/-- The place of a parcel number in the rotation: the number after the pointer is the first. -/
def rotationPlace (pointer n : ParcelNo) : Nat := (n.toNat + 29 - pointer.toNat) % 15

theorem rotation_ordered (pointer : ParcelNo) :
    (rotation pointer).Pairwise (fun a b => rotationPlace pointer a < rotationPlace pointer b) := by
  revert pointer
  decide

theorem mem_rotation {pointer n : ParcelNo} : n ∈ rotation pointer ↔ n ≠ 0#4 := by
  revert pointer n
  decide

theorem publishable_iff (s : State) (n : ParcelNo) : s.publishable n = true ↔ ∃ e, s.dirFind n = some e ∧
    (e.state = .transfer ∨ e.state = .reconciled ∨ e.state = .agreed) := by
  unfold State.publishable
  cases s.dirFind n with
  | none => simp
  | some e => simp [publishes, or_assoc]

/-- Settles O25: the rotation is the nonzero numbers in the order of their places. -/
theorem rotationPicksTheNextParcel : Obligations.RotationPicksTheNextParcel := by
  intro s
  simp only [← publishable_iff, chooseParcel]
  refine ⟨fun n => ?_, ?_⟩
  · rw [find?_eq_some_iff_of_ordered (rotation_ordered s.tmr.pointer)]
    simp only [mem_rotation, rotationPlace]
  · rw [List.find?_eq_none]
    simp only [mem_rotation, not_and]

end Sys2Proof.Machine

/-! SUPPORT. The arbiter and the frame of a service (file 06): which requester is chosen, what every service leaves alone
and how it counts for a waiting port request, and with them the statements on the arbiter and on the services. -/

namespace Sys2Proof.Machine

/-! ## The arbiter (R104 to R106) -/

theorem portWaiting_waiting {s : State} {r : EngineRequest} (h : s.port.state = .waiting r) :
    s.portWaiting = some r := by
  simp only [State.portWaiting, h]

theorem portWaiting_none {s : State} (h : ∀ r, s.port.state ≠ .waiting r) : s.portWaiting = none := by
  unfold State.portWaiting
  split
  case h_1 r hr => exact absurd hr (h r)
  all_goals rfl

theorem arbiter_checkpoint {s : State} (h : s.eng.checkpointPending = true) : arbiter s = some .checkpoint := by
  simp [arbiter, h]

theorem arbiter_secondDuty {s : State} (hc : s.eng.checkpointPending = false) (hd : s.eng.dutyPending = true) :
    arbiter s = some .secondDuty := by
  simp [arbiter, hc, hd]

theorem arbiter_starved {s : State} {r : EngineRequest} {c : Starvation} (hc : s.eng.checkpointPending = false)
    (hd : s.eng.dutyPending = false) (hw : s.port.state = .waiting r) (hs : s.eng.starvation = some c)
    (ha : c.ahead = true) : arbiter s = some (.port r) := by
  simp [arbiter, hc, hd, State.portStarved, State.portRequest, portWaiting_waiting hw, hs, ha]

theorem arbiter_head {s : State} {e : IntakeEntry} {rest : List IntakeEntry} (h : s.NoneAhead)
    (hq : s.acc.intake = e :: rest) : arbiter s = some (.intake e) := by
  obtain ⟨hc, hd, hs⟩ := h
  simp [arbiter, hc, hd, hs, hq]

theorem arbiter_noHead {s : State} (h : s.NoneAhead) (hq : s.acc.intake = []) :
    arbiter s = s.slotRequest.or s.portRequest := by
  obtain ⟨hc, hd, hs⟩ := h
  simp [arbiter, hc, hd, hs, hq]

/-- The place of a slot in the rotation: the slot after the pointer is the first (R106). -/
def slotPlace (pointer n : Nat) : Nat := (n + 23 - pointer) % 24

theorem slotOrder_ordered {pointer : Nat} (h : pointer < 24) :
    (slotOrder pointer).Pairwise (fun a b => slotPlace pointer a < slotPlace pointer b) := by
  have hplace : ∀ k < 24, slotPlace pointer ((pointer + 1 + k) % 24) = k := by
    intro k hk
    unfold slotPlace
    omega
  refine List.pairwise_map.mpr (List.pairwise_lt_range.imp_of_mem fun ha hb hab => ?_)
  rwa [hplace _ (List.mem_range.mp ha), hplace _ (List.mem_range.mp hb)]

theorem mem_slotOrder {pointer n : Nat} (h : pointer < 24) : n ∈ slotOrder pointer ↔ n < 24 := by
  simp only [slotOrder, Config.slotCount, List.mem_map, List.mem_range]
  exact ⟨fun ⟨k, _, hn⟩ => by omega, fun hn => ⟨(n + 23 - pointer) % 24, by omega, by omega⟩⟩

theorem slotRequest_full {s : State} {n : Nat} (h : s.eng.slotPointer < 24) (hp : s.acc.pressure = false)
    (hn : n < 24 ∧ (s.acc.slot n).full = true)
    (hmin : ∀ m, m < 24 ∧ (s.acc.slot m).full = true → slotPlace s.eng.slotPointer n ≤ slotPlace s.eng.slotPointer m) :
    s.slotRequest = some (.slot n) := by
  have hnext : s.nextSlot = some n := by
    rw [State.nextSlot, find?_eq_some_iff_of_ordered (slotOrder_ordered h)]
    simp only [mem_slotOrder h]
    exact ⟨hn, hmin⟩
  simp [State.slotRequest, hp, hnext]

theorem slotRequest_none {s : State} (h : s.eng.slotPointer < 24)
    (hn : s.acc.pressure = true ∨ ∀ n, ¬ (n < 24 ∧ (s.acc.slot n).full = true)) : s.slotRequest = none := by
  obtain hp | hn := hn
  · simp [State.slotRequest, hp]
  · have hnext : s.nextSlot = none := by
      rw [State.nextSlot, List.find?_eq_none]
      simp only [mem_slotOrder h]
      exact fun n hlt hfull => hn n ⟨hlt, hfull⟩
    simp [State.slotRequest, hnext]

/-- Settles O26. -/
theorem arbiterTakesTheFirstRequester : Obligations.ArbiterTakesTheFirstRequester := by
  intro s hpointer
  refine ⟨arbiter_checkpoint, arbiter_secondDuty, fun r c hc hd hw hs ha => arbiter_starved hc hd hw hs ha,
    fun hahead => ⟨fun e rest hq => arbiter_head hahead hq, fun hq => ⟨fun n hp hn hmin => ?_, fun hnone => ?_⟩⟩⟩
  · rw [arbiter_noHead hahead hq, slotRequest_full hpointer hp hn hmin]
    rfl
  · rw [arbiter_noHead hahead hq, slotRequest_none hpointer hnone]
    refine ⟨fun r hr => ?_, fun hr => ?_⟩
    · rw [State.portRequest, portWaiting_waiting hr]
      rfl
    · rw [State.portRequest, portWaiting_none hr]
      rfl

/-! ## The frame of a service -/

/-- A service whose work turns one property of records into another turns the one into the other as a whole: its
closings and its end keep both. -/
theorem wholeService_from {P Q : State → Prop} (h : RecordClosed P) (g : RecordClosed Q)
    (hstarts : ∀ t l, P t → P (t.withStarts l)) (gstarts : ∀ t l, Q t → Q (t.withStarts l))
    (gbuild : ∀ t, Q t → Q (buildAll t)) {body : State → State} (hbody : ∀ t, P t → Q (body t)) {s : State}
    (hs : P s) : Q (wholeService body s) :=
  g.endService gbuild (gstarts _ _ (hbody _ (hstarts _ _ (h.burstClose hs))))

theorem exec_asService {c : Instr} {f : State → State} {s : State} (hc : exec c = asService f)
    (h : s.sup.held = false) : exec c s = .next ((f s).setStoreLog s.storeLog) := by
  rw [hc]
  exact whenReleased_released _ h

section Bodies

variable {P : State → Prop} {s : State}

theorem RecordClosed.checkpointBody (h : RecordClosed P) (hs : P (s.setEng { s.eng with checkpointPending := false })) :
    P (checkpointBody s) := h.checkpointWork hs

theorem EngineClosed.dutyBody (h : EngineClosed P) (hs : P (s.setEng { s.eng with dutyPending := false })) :
    P (dutyBody s) := h.dutyWork hs

theorem EngineClosed.intakeBody (h : EngineClosed P) (e : IntakeEntry) (hs : P (takeHead s.acc.intake.tail s)) :
    P (intakeBody e s) := h.applyUnlessUnnumbered e hs

theorem RecordClosed.slotBody (h : RecordClosed P) (n : Nat) (hs : P (emptySlotAt n s)) : P (slotBody n s) := by
  unfold Machine.slotBody
  split
  · exact h.takeReading _ _ hs
  · exact hs

end Bodies

/-! ## What every service leaves alone -/

theorem sameOutside_refl (s : State) : SameOutside s s :=
  ⟨rfl, rfl, rfl, rfl, rfl, rfl, rfl, rfl, rfl, rfl, rfl, rfl, rfl, rfl, rfl, rfl, rfl⟩

theorem sameOutside_buildAll {s t : State} (h : SameOutside s t) : SameOutside s (buildAll t) :=
  buildAll_keeps (sameOutside_recordClosed s) (fun _ _ _ h => h) h

theorem sameOutside_wholeService {body : State → State} {s : State}
    (hbody : ∀ t, SameOutside s t → SameOutside s (body t)) : SameOutside s (wholeService body s) :=
  wholeService_from (sameOutside_recordClosed s) (sameOutside_recordClosed s) (fun _ _ h => h) (fun _ _ h => h)
    (fun _ => sameOutside_buildAll) hbody (sameOutside_refl s)

theorem sameOutside_serve {body : State → State} {s : State}
    (hbody : ∀ t, SameOutside s t → SameOutside s (body t)) : SameOutside s (serve body s) := by
  refine sameOutside_wholeService fun t ht => ?_
  have h := hbody t ht
  revert h
  generalize body t = u
  exact fun h => h

theorem sameOutside_checkpointService (s : State) : SameOutside s (checkpointService s) := by
  unfold checkpointService
  split
  · exact sameOutside_serve fun _ ht => (sameOutside_recordClosed s).checkpointBody ht
  · exact sameOutside_refl s

theorem sameOutside_dutyService (s : State) : SameOutside s (dutyService s) := by
  unfold dutyService
  split
  · exact sameOutside_serve fun _ ht => (sameOutside_engineClosed s).dutyBody ht
  · exact sameOutside_refl s

theorem sameOutside_intakeService (s : State) : SameOutside s (intakeService s) := by
  unfold intakeService
  split
  · exact sameOutside_serve fun _ ht => (sameOutside_engineClosed s).intakeBody _ ht
  · exact sameOutside_refl s

theorem sameOutside_slotService (s : State) : SameOutside s (slotService s) := by
  unfold slotService
  split
  · exact sameOutside_serve fun _ ht => (sameOutside_recordClosed s).slotBody _ ht
  · exact sameOutside_refl s

theorem sameOutside_portService (s : State) : SameOutside s (portService s) := by
  unfold portService
  split
  · exact sameOutside_wholeService fun t ht => (sameOutside_recordClosed s).portAnswer _ ht
  · exact sameOutside_refl s

theorem sameOutside_dutyPart {part : State → State} {s : State}
    (hpart : ∀ t, SameOutside s t → SameOutside s (part t)) : SameOutside s (dutyPart part s) :=
  (sameOutside_recordClosed s).dutyPart part hpart (sameOutside_refl s)

/-- A command that does its work on a released part leaves outside what its work leaves. -/
theorem sameOutside_released {c : Instr} {f : State → State} {s : State} (hc : exec c = whenReleased f)
    (hf : SameOutside s (f s)) : ∃ t, exec c s = .next t ∧ SameOutside s t := by
  rw [hc]
  cases hh : s.sup.held with
  | true => exact ⟨s, whenReleased_held f hh, sameOutside_refl s⟩
  | false => exact ⟨f s, whenReleased_released f hh, hf⟩

theorem sameOutside_service {c : Instr} {f : State → State} {s : State} (hc : exec c = asService f)
    (hf : SameOutside s (f s)) : ∃ t, exec c s = .next t ∧ SameOutside s t :=
  sameOutside_released (f := fun s => (f s).setStoreLog s.storeLog) hc hf

/-- Settles O27. -/
theorem engineServicesLeaveTheRestAlone : Obligations.EngineServicesLeaveTheRestAlone := by
  intro c s hc
  have he := sameOutside_engineClosed s
  cases c <;> simp only [isEngineService, Bool.false_eq_true] at hc
  case secondDuty => exact sameOutside_service rfl (sameOutside_dutyService s)
  case assemblyTimeout b =>
    exact sameOutside_service rfl (sameOutside_dutyPart fun _ ht => he.timeoutAssembly b ht)
  case windowExpiry n => exact sameOutside_service rfl (sameOutside_dutyPart fun _ ht => he.expireWindow n ht)
  case halfWindowPass n => exact sameOutside_service rfl (sameOutside_dutyPart fun _ ht => he.passHalf n ht)
  case persistenceRunOut n => exact sameOutside_service rfl (sameOutside_dutyPart fun _ ht => he.persistenceTest n ht)
  case checkpoint => exact sameOutside_service rfl (sameOutside_checkpointService s)
  case burstEndClose => exact sameOutside_service rfl (he.burstClose (sameOutside_refl s))
  case starvation => exact sameOutside_released (f := starve) rfl (sameOutside_refl s)
  case intakeService => exact sameOutside_service rfl (sameOutside_intakeService s)
  case gaugeSlotService => exact sameOutside_service rfl (sameOutside_slotService s)
  case portRequestService => exact sameOutside_service rfl (sameOutside_portService s)
  case buildMoment => exact sameOutside_released rfl (sameOutside_buildAll (sameOutside_refl s))

/-! ## What a service counts for the port request (R105) -/

/-- The work of a service leaves the starvation count as it is. -/
theorem starvation_engineClosed (v : Option Starvation) : EngineClosed (fun s => s.eng.starvation = v) where
  eng x hx _ h := by
    obtain ⟨-, -, -, hstarved, -⟩ := hx
    exact hstarved.trans h
  removed _ h := h
  admitted _ _ _ _ h := h
  put {s} r h := by obtain ⟨x, l, e, -⟩ := storePut_eq s r; rw [e]; exact h
  delete _ h := h
  acc _ _ h := h
  post b h := by rw [post_eng]; exact h
  bump _ h := h
  offer f l h := by rw [offer_eng]; exact h
  withdraw _ h := h
  buffer {s} b a h := by obtain ⟨x, y, e⟩ := setBuffer_eq s b a; rw [e]; exact h
  hear _ h := h
  restart h := h

theorem starvation_serve {body : State → State} {s : State}
    (hbody : ∀ v t, t.eng.starvation = v → (body t).eng.starvation = v) :
    (serve body s).eng.starvation = s.starvationCounted := by
  rw [← starvation_counted]
  refine wholeService_from (P := fun t => t.eng.starvation = s.eng.starvation)
    (Q := fun t => t.eng.starvation = s.eng.starvation.map countService)
    (starvation_engineClosed _).toRecordClosed (starvation_engineClosed _).toRecordClosed (fun _ _ h => h)
    (fun _ _ h => h) (fun t h => by rw [buildAll_eng]; exact h) (fun t h => ?_) rfl
  show (body t).eng.starvation.map countService = _
  rw [hbody _ t h]

theorem checkpointService_chosen {s : State} (h : arbiter s = some .checkpoint) :
    checkpointService s = serve checkpointBody s := by
  simp only [checkpointService, h]

theorem dutyService_chosen {s : State} (h : arbiter s = some .secondDuty) : dutyService s = serve dutyBody s := by
  simp only [dutyService, h]

theorem intakeService_chosen {s : State} {e : IntakeEntry} (h : arbiter s = some (.intake e)) :
    intakeService s = serve (intakeBody e) s := by
  simp only [intakeService, h]

theorem slotService_chosen {s : State} {n : Nat} (h : arbiter s = some (.slot n)) :
    slotService s = serve (slotBody n) s := by
  simp only [slotService, h]

theorem portService_chosen {s : State} {r : EngineRequest} (h : arbiter s = some (.port r)) :
    portService s = wholeService (portBody r) s := by
  simp only [portService, h]

theorem checkpointService_idle {s : State} (h : arbiter s ≠ some .checkpoint) : checkpointService s = s := by
  unfold checkpointService
  split
  · exact absurd ‹_› h
  · rfl

theorem dutyService_idle {s : State} (h : arbiter s ≠ some .secondDuty) : dutyService s = s := by
  unfold dutyService
  split
  · exact absurd ‹_› h
  · rfl

theorem intakeService_idle {s : State} (h : ∀ e, arbiter s ≠ some (.intake e)) : intakeService s = s := by
  unfold intakeService
  split
  · exact absurd ‹_› (h _)
  · rfl

theorem slotService_idle {s : State} (h : ∀ n, arbiter s ≠ some (.slot n)) : slotService s = s := by
  unfold slotService
  split
  · exact absurd ‹_› (h _)
  · rfl

theorem moveAhead_eq (c : Starvation) : moveAhead c = { c with ahead := c.ahead || decide (8 ≤ c.count) } := by
  unfold moveAhead Config.starvationLimit
  split
  case isTrue h => simp [h]
  case isFalse h => simp [h]

/-- Settles O28. -/
theorem completedServiceCountsForThePortRequest : Obligations.CompletedServiceCountsForThePortRequest := by
  intro s hh
  have hcheckpoint := exec_asService (c := .checkpoint) (f := checkpointService) rfl hh
  have hduty := exec_asService (c := .secondDuty) (f := dutyService) rfl hh
  have hintake := exec_asService (c := .intakeService) (f := intakeService) rfl hh
  have hslot := exec_asService (c := .gaugeSlotService) (f := slotService) rfl hh
  have hstarve : exec .starvation s = .next (starve s) := whenReleased_released _ hh
  rw [hcheckpoint, hduty, hintake, hslot, hstarve]
  refine ⟨fun ha => ⟨_, rfl, ?_⟩, fun ha => ⟨_, rfl, ?_⟩, fun e ha => ⟨_, rfl, ?_⟩, fun n ha => ⟨_, rfl, ?_⟩, ?_,
    fun ha => ?_, fun ha => ?_, fun ha => ?_, fun ha => ?_⟩
  · rw [State.setStoreLog_eng, checkpointService_chosen ha]
    exact starvation_serve fun v _ h => (starvation_engineClosed v).checkpointBody h
  · rw [State.setStoreLog_eng, dutyService_chosen ha]
    exact starvation_serve fun v _ h => (starvation_engineClosed v).dutyBody h
  · rw [State.setStoreLog_eng, intakeService_chosen ha]
    exact starvation_serve fun v _ h => (starvation_engineClosed v).intakeBody e h
  · rw [State.setStoreLog_eng, slotService_chosen ha]
    exact starvation_serve fun v _ h => (starvation_engineClosed v).slotBody n h
  · rw [starve, funext moveAhead_eq]
    rfl
  · rw [checkpointService_idle ha, State.setStoreLog_self]
  · rw [dutyService_idle ha, State.setStoreLog_self]
  · rw [intakeService_idle ha, State.setStoreLog_self]
  · rw [slotService_idle ha, State.setStoreLog_self]

end Sys2Proof.Machine

/-! SUPPORT. A reset that falls in a service, and the release (file 06, 6.5 and 6.6; file 10, 10.5 and 10.6): the store
that a cut leaves, what the restart of the parcels leaves alone, and with them the statements on both. -/

namespace Sys2Proof.Machine

/-! ## The store that a cut leaves (R117) -/

theorem cutShort_held {s : State} (cut : Option ServiceCut) (h : s.sup.held = true) : cutShort cut s = s := by
  cases cut with
  | none => rfl
  | some c => exact if_pos h

theorem cutShort_released {s : State} (c : ServiceCut) (h : s.sup.held = false) :
    cutShort (some c) s = { s with store := cutStore c s } := if_neg (by simp [h])

theorem cutStore_complete {c : ServiceCut} {s : State}
    (h : c.torn = none ∨ (storeSteps s)[c.complete]?.bind StoreStep.position = none) :
    cutStore c s = storeAfter s c.complete := by
  unfold cutStore
  split
  case h_1 number i _ htorn hstep => simp [htorn, hstep] at h
  case h_2 => rfl

theorem cutStore_torn {c : ServiceCut} {s : State} {number : Byte} {x : StoreStep} {i : Nat}
    (ht : c.torn = some number) (hx : (storeSteps s)[c.complete]? = some x) (hi : x.position = some i) :
    cutStore c s = (storeAfter s c.complete).modify i (fun p => some (tornPosition number p)) := by
  obtain ⟨position, after⟩ := x
  obtain rfl : position = some i := hi
  simp only [cutStore, ht, hx]

/-- No check is its own complement, so a torn position never passes. -/
theorem tornPosition_check (number : Byte) (p : Option StoredParcel) :
    (tornPosition number p).check ≠ storeCheck (tornPosition number p).number (tornPosition number p).record := by
  have hne : ∀ w : Word32, ~~~w ≠ w := fun w h => by
    have hbit := congrArg (fun x => x.getLsbD 0) h
    simp at hbit
  cases p with
  | none => exact hne _
  | some q => exact hne _

theorem list_modify_eq_set {α : Type} {l : List α} {i : Nat} (f : α → α) (h : i < l.length) :
    l.modify i f = l.set i (f l[i]) := by
  rw [List.modify_eq_set_getElem?, List.getElem?_eq_getElem h]
  rfl

theorem serviceInProgress_eq {s : State} :
    (arbiter s = some .checkpoint → serviceInProgress s = checkpointService s) ∧
      (arbiter s = some .secondDuty → serviceInProgress s = dutyService s) ∧
      (∀ e, arbiter s = some (.intake e) → serviceInProgress s = intakeService s) ∧
      (∀ m, arbiter s = some (.slot m) → serviceInProgress s = slotService s) ∧
      ∀ q, arbiter s = some (.port q) → serviceInProgress s = portService s := by
  refine ⟨fun h => ?_, fun h => ?_, fun e h => ?_, fun m h => ?_, fun q h => ?_⟩
  · simp only [serviceInProgress, checkpointService, h]
  · simp only [serviceInProgress, dutyService, h]
  · simp only [serviceInProgress, intakeService, h]
  · simp only [serviceInProgress, slotService, h]
  · simp only [serviceInProgress, portService, h]

/-- A command whose service is the one in progress leaves the store that its last change left. -/
theorem exec_store_of_inProgress {c : Instr} {f : State → State} {s : State} {k : Nat} (hc : exec c = asService f)
    (hk : (storeSteps s).length ≤ k) (hlog : s.storeLog = []) (hh : s.sup.held = false)
    (hf : serviceInProgress s = f s) : ∃ t, exec c s = .next t ∧ t.store = storeAfter s k := by
  refine ⟨_, exec_asService hc hh, ?_⟩
  rw [State.setStoreLog_store, storeAfter_all s k hk, ← hlog, State.setStoreLog_self, hf]

/-- Settles O4. -/
theorem tornWriteFailsItsCheck : Obligations.TornWriteFailsItsCheck := by
  intro c s
  obtain ⟨hcheckpoint, hduty, hintake, hslot, hport⟩ := serviceInProgress_eq (s := s)
  refine ⟨fun hh => ?_, fun hh => ⟨cutStore c s, ?_, ?_, cutStore_complete, fun number i x ht hx hi hlt => ?_⟩, rfl,
    fun k x hx => ⟨storeAfter_succ s k x hx, (storeSteps_chain s).2 k x hx⟩, fun k hk hlog hh =>
    ⟨fun ha => exec_store_of_inProgress rfl hk hlog hh (hcheckpoint ha),
      fun ha => exec_store_of_inProgress rfl hk hlog hh (hduty ha),
      fun e ha => exec_store_of_inProgress rfl hk hlog hh (hintake e ha),
      fun m ha => exec_store_of_inProgress rfl hk hlog hh (hslot m ha),
      fun q ha => exec_store_of_inProgress rfl hk hlog hh (hport q ha)⟩⟩
  · show Host.Outcome.next (holdWarm .pin (cutShort (some c) s)) = _ ∧
      Host.Outcome.next (holdWarm .supplyLow (cutShort (some c) s)) = _
    rw [cutShort_held _ hh]
    exact ⟨rfl, rfl⟩
  · show Host.Outcome.next (holdWarm .pin (cutShort (some c) s)) = _
    rw [cutShort_released c hh]
    rfl
  · show Host.Outcome.next (holdWarm .supplyLow (cutShort (some c) s)) = _
    rw [cutShort_released c hh]
    rfl
  · have hlt : i < (storeAfter s c.complete).length := by rw [storeAfter_length]; exact hlt
    rw [cutStore_torn ht hx hi, list_modify_eq_set _ hlt, List.getElem?_eq_getElem hlt]
    refine ⟨_, rfl, tornPosition_check _ _, fun hnone => ?_, fun q hq => ?_⟩
    · rw [Option.some.inj hnone]
      rfl
    · rw [Option.some.inj hq]
      rfl

/-! ## The straps (R177) -/

theorem unnumbered_iff (pins : StrapPins) :
    (strapsOfPins pins).unnumbered = true ↔ pins.st = 0#6 ∨ pins.st = 63#6 := by
  simp [Straps.unnumbered, strapsOfPins]

theorem listenOfPins_seconds (lt : BitVec 2) : (listenOfPins lt).seconds = 2 ^ lt.toNat := by
  revert lt
  decide

/-! ## What the restart of the parcels leaves alone (R119, R120) -/

/-- State t is s but for the store, the bindings and the directories. -/
def SameButParcels (s t : State) : Prop :=
  t = { s with
    store := t.store
    storeLog := t.storeLog
    acc := { s.acc with entries := t.acc.entries, slots := t.acc.slots }
    eng := { s.eng with directory := t.eng.directory, rosterDir := t.eng.rosterDir } }

theorem sameButParcels_refl (s : State) : SameButParcels s s := rfl

theorem SameButParcels.trans {s t u : State} (h : SameButParcels s t) (g : SameButParcels t u) :
    SameButParcels s u := by
  unfold SameButParcels at *
  rw [g, h]

theorem SameButParcels.foldl {α : Type} {f : State → α → State} (hf : ∀ t a, SameButParcels t (f t a)) (l : List α)
    (s : State) : SameButParcels s (l.foldl f s) :=
  fold_keeps f (fun t a ht => ht.trans (hf t a)) l (sameButParcels_refl s)

theorem sameButParcels_holdParcel (s : State) (r : ParcelRecord) : SameButParcels s (holdParcel s r) := rfl

theorem sameButParcels_setStore (s : State) (x : List (Option StoredParcel)) : SameButParcels s (s.setStore x) := rfl

theorem sameButParcels_storePut (s : State) (r : ParcelRecord) : SameButParcels s (s.storePut r) := by
  obtain ⟨x, l, h, -⟩ := storePut_eq s r
  rw [h]
  rfl

theorem sameButParcels_setAcc {s : State} {a : AcceptanceUnit} (h : SameIntake a s.acc) :
    SameButParcels s (s.setAcc a) := by
  obtain ⟨hintake, hpressure, -, -⟩ := h
  obtain ⟨intake, pressure, entries, slots⟩ := a
  subst hintake hpressure
  rfl

theorem sameButParcels_rebindParcel (s : State) (n : ParcelNo) : SameButParcels s (rebindParcel s n) := by
  unfold rebindParcel
  split
  · split
    · exact (sameButParcels_setAcc (sameIntake_bindRoster _ _ _ _)).trans (sameButParcels_storePut _ _)
    · exact sameButParcels_refl s
  · exact sameButParcels_refl s

/-- The restart before its notices: the verified parcels held and their tanks bound. -/
def restartedParcels (s : State) : State :=
  allNumbers.foldl rebindParcel
    ((verifyStore s.station s.store).held.foldl holdParcel (s.setStore (verifyStore s.station s.store).store))

/-- The notices of the numbers whose record failed. -/
def failNotices (s : State) : List NoticeBody :=
  (allNumbers.filter (fun n => (verifyStore s.station s.store).failed.contains n)).map
    (fun n => .parcelState n (some .void) 0 (some .check) .other)

theorem restartParcels_eq (s : State) : restartParcels s = (restartedParcels s).postAll (failNotices s) := rfl

theorem sameButParcels_restartedParcels (s : State) : SameButParcels s (restartedParcels s) :=
  ((sameButParcels_setStore s _).trans (.foldl sameButParcels_holdParcel _ _)).trans
    (.foldl sameButParcels_rebindParcel _ _)

/-- Notices that find room are appended, and nothing else changes. -/
theorem postAll_of_room {s : State} {l : List NoticeBody} (h : s.port.notices.length + l.length ≤ 16) :
    s.postAll l = s.setPort { s.port with
      notices := s.port.notices ++ l.map (fun b => { second := s.tmr.seconds, body := b }) } := by
  induction l generalizing s with
  | nil =>
    simp only [List.map_nil, List.append_nil]
    rfl
  | cons b rest ih =>
    rw [List.length_cons] at h
    have hroom : s.port.notices.length < 16 := by omega
    show (s.post b).postAll rest = _
    rw [post_of_room b hroom, ih (by simp only [State.setPort_port, List.length_append, List.length_singleton]; omega)]
    simp

theorem failNotices_length (s : State) : (failNotices s).length ≤ 15 := by
  rw [failNotices, List.length_map]
  exact (List.length_filter_le _ _).trans_eq rfl

/-- A fresh state with its RESTART notice. -/
theorem freshlyReleased_eq (pins : StrapPins) (s : State) :
    freshlyReleased pins s =
      (freshState (strapsOfPins pins) s.sup.cause (if s.sup.cause == .powerOn then emptyStore else s.store)
        s.port.select.afterReset s.pending).setPort
      { state := .idle, busy := false
        notices := [{ second := 0#32, body := .restart s.sup.cause pins.st }]
        pdo := [], select := s.port.select.afterReset } := rfl

/-- The notices after a release (R119, R176). -/
def releaseNotices (pins : StrapPins) (s : State) : List Notice :=
  { second := 0#32, body := .restart s.sup.cause pins.st } ::
    (failNotices (freshlyReleased pins s)).map (fun b => { second := 0#32, body := b })

theorem restartParcels_freshlyReleased (pins : StrapPins) (s : State) :
    restartParcels (freshlyReleased pins s) = (restartedParcels (freshlyReleased pins s)).setPort
      { (freshlyReleased pins s).port with notices := releaseNotices pins s } := by
  have hsame := sameButParcels_restartedParcels (freshlyReleased pins s)
  have hport : (restartedParcels (freshlyReleased pins s)).port = (freshlyReleased pins s).port := by rw [hsame]
  have htmr : (restartedParcels (freshlyReleased pins s)).tmr = (freshlyReleased pins s).tmr := by rw [hsame]
  have hlen := failNotices_length (freshlyReleased pins s)
  rw [restartParcels_eq, postAll_of_room, hport, htmr]
  · rfl
  · rw [hport]
    exact Nat.add_le_add (Nat.le_refl 1) hlen

theorem release_cold {pins : StrapPins} {s : State} (h : s.sup.cause = .powerOn ∨ pins.st = 0#6 ∨ pins.st = 63#6) :
    release pins s = freshlyReleased pins s := by
  rw [release_eq, if_pos]
  rw [Bool.or_eq_true, unnumbered_iff, beq_iff_eq]
  exact h

theorem release_warm {pins : StrapPins} {s : State} (hc : s.sup.cause ≠ .powerOn) (h0 : pins.st ≠ 0#6)
    (h63 : pins.st ≠ 63#6) : release pins s = ((restartedParcels (freshlyReleased pins s)).setPort
      { (freshlyReleased pins s).port with notices := releaseNotices pins s }).setStoreLog [] := by
  rw [release_eq, if_neg, restartParcels_freshlyReleased]
  rw [Bool.or_eq_true, unnumbered_iff, beq_iff_eq]
  exact fun h => h.elim hc fun h => h.elim h0 h63

/-- Whatever the cause, a release leaves the fresh state but for the parcels and the notices after RESTART. -/
theorem release_fresh (pins : StrapPins) (s : State) :
    ∃ l, SameButParcels ((freshlyReleased pins s).setPort { (freshlyReleased pins s).port with
      notices := { second := 0#32, body := .restart s.sup.cause pins.st } :: l }) (release pins s) := by
  by_cases h : s.sup.cause = .powerOn ∨ pins.st = 0#6 ∨ pins.st = 63#6
  · rw [release_cold h]
    exact ⟨[], rfl⟩
  · obtain ⟨hc, h0, h63⟩ : s.sup.cause ≠ .powerOn ∧ pins.st ≠ 0#6 ∧ pins.st ≠ 63#6 := by simpa using h
    rw [release_warm hc h0 h63]
    have hsame := sameButParcels_restartedParcels (freshlyReleased pins s)
    refine ⟨(failNotices (freshlyReleased pins s)).map (fun b => { second := 0#32, body := b }), ?_⟩
    generalize restartedParcels (freshlyReleased pins s) = u at hsame
    rw [hsame]
    rfl

theorem exec_resetRelease {s : State} (pins : StrapPins) (h : s.sup.held = true) :
    exec (.resetRelease pins) s = .next (release pins s) := if_pos h

theorem exec_resetRelease_released {s : State} (pins : StrapPins) (h : s.sup.held = false) :
    exec (.resetRelease pins) s = .next s := if_neg (by simp [h])

theorem afterReset_eq (x : Select) : x.afterReset = if x = .high then .high else .unheeded := by
  cases x <;> rfl

/-- Settles O5. -/
theorem releaseStartsEveryBlock : Obligations.ReleaseStartsEveryBlock := by
  intro pins s
  refine ⟨exec_resetRelease_released pins, fun hh => ⟨_, exec_resetRelease pins hh, ?_⟩⟩
  obtain ⟨l, h⟩ := release_fresh pins s
  generalize release pins s = t at h
  rw [h, freshlyReleased_eq, afterReset_eq]
  have hun : ∀ {α : Type} (x y : α), (if (strapsOfPins pins).unnumbered then x else y) =
      if pins.st = 0#6 ∨ pins.st = 63#6 then x else y := fun x y => by simp only [unnumbered_iff]
  refine ⟨?_, ?_, rfl, rfl, hun _ _, rfl, rfl, rfl, rfl, rfl, rfl, rfl, rfl, rfl, rfl, rfl, rfl, rfl, rfl, rfl, rfl, rfl,
    rfl, rfl, rfl, listenOfPins_seconds pins.lt, rfl, rfl, rfl, rfl, rfl, rfl⟩
  · show LineInterface.mk (if (strapsOfPins pins).unnumbered then .unnumbered else .active) _ _ _ _ _ _ _ = _
    rw [hun]
  · cases hcyc : pins.cyc <;>
      simp only [State.setPort_tmr, freshState, strapsOfPins, hcyc, if_true, if_false, Bool.false_eq_true]

/-- Settles O6. -/
theorem coldOrUnnumberedReleaseHoldsNoParcel : Obligations.ColdOrUnnumberedReleaseHoldsNoParcel := by
  intro pins s hh hcold
  refine ⟨_, (exec_resetRelease pins hh).trans (congrArg _ (release_cold hcold)), ?_⟩
  rw [freshlyReleased_eq]
  refine ⟨rfl, rfl, rfl, rfl, rfl, ?_⟩
  show (if s.sup.cause == .powerOn then emptyStore else s.store) = _
  simp only [beq_iff_eq]
  rfl

end Sys2Proof.Machine

/-! SUPPORT. The own figure (file 03; R49 to R59) and the transactions of the port (file 10; file 11, 11.5): what a
request that is taken at once answers, and with them the statements on both. -/

namespace Sys2Proof.Machine

/-! ## The own figure -/

theorem figureFlags_lt (substituted meterDisagree overflow zeroBase range : Bool) :
    (figureFlags substituted meterDisagree overflow zeroBase range).toNat < 32 := by
  revert substituted meterDisagree overflow zeroBase range
  decide

@[simp] theorem figureFlags_zeroBase_bit (substituted meterDisagree overflow zeroBase range : Bool) :
    (figureFlags substituted meterDisagree overflow zeroBase range).getLsbD 3 = zeroBase := by
  revert substituted meterDisagree overflow zeroBase range
  decide

@[simp] theorem figureFlags_meter_bit (substituted meterDisagree overflow zeroBase range : Bool) :
    (figureFlags substituted meterDisagree overflow zeroBase range).getLsbD 1 = meterDisagree := by
  revert substituted meterDisagree overflow zeroBase range
  decide

@[simp] theorem figureFlags_substituted_bit (substituted meterDisagree overflow zeroBase range : Bool) :
    (figureFlags substituted meterDisagree overflow zeroBase range).getLsbD 0 = substituted := by
  revert substituted meterDisagree overflow zeroBase range
  decide

theorem shoreFigure_eq (dir : Direction) (shore lines : Int) :
    shoreFigure dir shore lines = if dir = .shipToShore then shore + lines else shore - lines := by
  cases dir <;> rfl

theorem verdictOf_eq (zeroBase overflow range : Bool) (ratio : Word32) (tolerance : Nat) :
    verdictOf zeroBase overflow range ratio tolerance =
      if zeroBase ∨ overflow ∨ range then .none else if ratio.toInt.natAbs ≤ tolerance then .within else .outside := by
  simp only [verdictOf, Bool.or_eq_true, or_assoc]

/-- Settles O56. -/
theorem ownFigureFollowsItsRules : Obligations.OwnFigureFollowsItsRules := by
  intro n round d roster
  simp only [← shoreFigure_eq]
  refine ⟨holdS_eq _, holdS_eq _, holdS_eq _, holdS_eq _, ?_, ownFigure_overflow_iff n round d roster rfl rfl,
    ownFigure_range_bit n round d roster, figureFlags_meter_bit .., figureFlags_substituted_bit .., figureFlags_lt ..,
    ?_, rfl⟩
  · exact (Bool.eq_iff_iff.mp (figureFlags_zeroBase_bit ..)).trans decide_eq_true_iff
  · refine (verdictOf_eq ..).trans ?_
    simp only [ownFigure, figureFlags_zeroBase_bit, figureFlags_overflow_bit, figureFlags_range_bit]
    congr

/-! ## A request that the port takes -/

/-- What a transaction leaves in the port beside its state: BUSY shown, the bytes returned and PSEL high. -/
theorem exec_outstanding {c : Instr} {code : Byte} {ps : List Byte} {s : State} (hh : s.sup.held = false)
    (hp : s.port.select ≠ .unheeded) (hc : requestOf c = some (code, ps)) (ho : s.port.state ≠ .idle) :
    exec c s = .next { s with port := { s.port with
      busy := true, pdo := s.statusSent :: List.replicate (ps.length + 1) 0#8, select := .high } } := by
  have hout : s.outstanding = true := by
    unfold State.outstanding
    split
    case h_1 hidle => exact absurd hidle ho
    all_goals rfl
  rw [exec_request hc, request_outstanding (heeds_eq hh hp) hout]
  rfl

section Idle

variable {c : Instr} {code : Byte} {ps : List Byte} {s : State} (hh : s.sup.held = false)
  (hp : s.port.select ≠ .unheeded) (hi : s.port.state = .idle) (hc : requestOf c = some (code, ps))
include hh hp hi hc

/-- A request that is answered at once. -/
theorem exec_answered {r : Response} {t : State} (ht : takeRequest code ps s.shown = .answer r t) :
    exec c s = .next { t with port := { t.port with
      state := .answered r, pdo := s.statusSent :: List.replicate (ps.length + 1) 0#8, select := .high } } := by
  have hout : s.shown.outstanding = false := by simp only [State.outstanding, State.shown, State.setPort_port, hi]
  rw [exec_request_heeded hh hp hc, endRequest, hout, ht]
  rfl

/-- A request that waits for the engine. -/
theorem exec_waits {q : EngineRequest} (ht : takeRequest code ps s.shown = .engine q) :
    exec c s = .next { s with
      port := { s.port with
        state := .waiting q, busy := false, pdo := s.statusSent :: List.replicate (ps.length + 1) 0#8, select := .high }
      eng := { s.eng with starvation := some { count := 0, ahead := false } } } := by
  have hout : s.shown.outstanding = false := by simp only [State.outstanding, State.shown, State.setPort_port, hi]
  rw [exec_request_heeded hh hp hc, endRequest, hout, ht]
  rfl

end Idle

/-- Settles O47. -/
theorem echoReturnsItsByte : Obligations.EchoReturnsItsByte :=
  fun _ hh hp hi => ⟨fun x more => exec_answered hh hp hi (c := .echo (x :: more)) rfl rfl,
    exec_answered hh hp hi (c := .echo []) rfl rfl⟩

/-- Settles O50. -/
theorem engineCommandsWait : Obligations.EngineCommandsWait :=
  fun _ hh hp hi p k more => ⟨exec_waits hh hp hi (c := .readParcel (p :: more)) rfl rfl,
    exec_waits hh hp hi (c := .readRosterItem (p :: k :: more)) rfl rfl,
    exec_waits hh hp hi (c := .readVotes (p :: more)) rfl rfl, exec_waits hh hp hi (c := .readAcceptance more) rfl rfl,
    exec_waits hh hp hi (c := .dropParcel (p :: more)) rfl rfl⟩

theorem exec_fetch_heeded {b : Byte} {rest : List Byte} {s : State} (h : s.heeds = true) :
    exec (.fetch (b :: rest)) s = .next (((fetchBytes (rest.length + 1) s.shown).2.setPdo
      (s.statusSent :: (fetchBytes (rest.length + 1) s.shown).1)).setSelect .high) := by
  show Host.Outcome.next (transaction (0x02#8 :: b :: rest) s) = _
  rw [transaction_heeded h]
  rfl

/-- Settles O46. -/
theorem pollsAndFetchesReturnTheBuffer : Obligations.PollsAndFetchesReturnTheBuffer := by
  intro s hh
  simp only [← portStatus_eq]
  refine ⟨?_, fun status hstatus => ?_⟩
  · show Host.Outcome.next (selectFalls s) = _
    rw [selectFalls, hh]
    rfl
  · have hsent : s.statusSent = status := by
      obtain ⟨hhigh, rfl⟩ | hlow := hstatus
      · exact statusSent_high hhigh
      · exact statusSent_low hlow
    have hheeds : s.heeds = true := heeds_eq hh (by
      obtain ⟨hhigh, -⟩ | hlow := hstatus
      · simp [hhigh]
      · simp [hlow])
    refine ⟨fun sent hpoll => ?_, ?_, fun b rest => ⟨fun a ha => ?_, fun hnone => ?_⟩⟩
    · match sent, hpoll with
      | [kind], _ =>
        show Host.Outcome.next (transaction [kind] s) = _
        rw [transaction_heeded hheeds, ← hsent]
        rfl
      | kind :: code :: more, hpoll =>
        show Host.Outcome.next (transaction (kind :: code :: more) s) = _
        obtain ⟨h1, h2⟩ : (kind == 0x01#8) = false ∧ (kind == 0x02#8) = false := by
          simpa [isStatusPoll] using hpoll
        rw [transaction_heeded hheeds, ← hsent]
        simp only [exchange, h1, h2, Bool.false_eq_true, if_false]
        rfl
    · show Host.Outcome.next (transaction [0x02#8] s) = _
      rw [transaction_heeded hheeds, ← hsent]
      rfl
    · rw [exec_fetch_heeded hheeds, fetchBytes_answered _ (show s.shown.port.state = .answered a from ha), ← hsent]
      rfl
    · rw [exec_fetch_heeded hheeds, fetchBytes_none _ (show ∀ r, s.shown.port.state ≠ .answered r from hnone), ← hsent]
      rfl

/-! ## READ_STATUS, READ_NOTICE and SET_CYCLE -/

theorem pendingBytes_eq (x : Option (Byte × Byte)) : pendingBytes x =
    match x with | some (m, p) => [1#8, m, p] | none => [0#8, 0#8, 0#8] := by
  cases x <;> rfl

theorem parityCode_map_eq (x : Option Cycle) : parityCode (x.map (fun c => c.parity)) =
    match x with | none => 0#8 | some c => if c.parity = .secondary then 1#8 else 2#8 := by
  rcases x with _ | ⟨_, parity, _⟩
  · rfl
  · cases parity <;> rfl

theorem strapCodes_eq (x : Straps) :
    x.rate.code = (if x.rate = .kbit125 then 0#8 else 1#8) ∧ x.policy.code = (if x.policy = .keepOpen then 0#8 else 1#8) ∧
      x.cycle.code = if x.cycle = .cycleA then 0#8 else 1#8 := by
  refine ⟨?_, ?_, ?_⟩
  · cases x.rate <;> rfl
  · cases x.policy <;> rfl
  · cases x.cycle <;> rfl

theorem statusFields_length (s : State) : (statusFields s).length = 47 + s.eng.heard.length := by
  rw [statusFields]
  simp only [List.length_append, List.length_map]
  have hpending : (pendingBytes s.tmr.pendingLengths).length = 3 := by cases s.tmr.pendingLengths <;> rfl
  rw [hpending]
  rfl

/-- Settles O48. -/
theorem readStatusReportsTheRegisters : Obligations.ReadStatusReportsTheRegisters := by
  intro more s hh hp hi fields
  have hfields : statusFields s = fields := by
    obtain ⟨hrate, hpolicy, hcycle⟩ := strapCodes_eq s.sup.straps
    rw [statusFields, pendingBytes_eq, parityCode_map_eq, hrate, hpolicy, hcycle]
    rfl
  exact ⟨hfields ▸ statusFields_length s,
    exec_answered hh hp hi (c := .readStatus more) rfl (congrArg (fun l => Taken.answer (done l) s.shown) hfields)⟩

/-- Settles O49. -/
theorem readNoticeTakesTheOldest : Obligations.ReadNoticeTakesTheOldest := by
  intro more s hh hp hi
  refine ⟨fun hempty => ?_, fun x rest hx => ⟨noticeLayout_length x, codesOfTheManual, _, ?_, ?_, rfl⟩⟩
  · have htake : takeNotice s.shown = (respond .none, s.shown) := by
      simp only [takeNotice, State.shown, State.setPort_port, hempty]
    exact exec_answered hh hp hi (c := .readNotice more) rfl (congrArg answerNow htake)
  · have htake : takeNotice s.shown = (done (noticeLayout x), s.shown.setPort { s.shown.port with notices := rest }) := by
      simp only [takeNotice, State.shown, State.setPort_port, hx, notice_layout]
    exact exec_answered hh hp hi (c := .readNotice more) rfl (congrArg answerNow htake)
  · simp [State.attn, hh]

/-- Settles O53. -/
theorem setCycleKeepsPendingLengths : Obligations.SetCycleKeepsPendingLengths := by
  intro m p more s hh hp hi
  refine ⟨fun h0 => ?_, fun h0 => ?_⟩
  · have hset : setCycle m p s.shown = (respond .range, s.shown) := if_pos (by simp [h0])
    exact exec_answered hh hp hi (c := .setCycle (m :: p :: more)) rfl (congrArg answerNow hset)
  · have hset : setCycle m p s.shown = (done [], s.shown.setTmr { s.shown.tmr with pendingLengths := some (m, p) }) :=
      if_neg (by simp [h0])
    exact exec_answered hh hp hi (c := .setCycle (m :: p :: more)) rfl (congrArg answerNow hset)

/-! ## Submissions (R173) -/

theorem submissionCode_eq (a : Answer) : submissionCode a =
    if a = .busy then .busy else if a = .queueFull then .queueFull else if a = .silenced then .silenced else .done := by
  cases a <;> rfl

theorem parcelInRange_iff (b : Byte) : parcelInRange b = true ↔ 1 ≤ b.toNat ∧ b.toNat ≤ 15 := by
  simp [parcelInRange]

theorem offer_shown (f : OfferedFrame) (listed : Bool) (s : State) :
    offer f listed s.shown = ((offer f listed s).1, (offer f listed s).2.setPort s.shown.port) :=
  offer_withPort f listed s _

/-- Settles O51. -/
theorem submitPhaseAnswersByTheQueue : Obligations.SubmitPhaseAnswersByTheQueue := by
  intro p c r x more s hh hp hi answered inRange o
  have hcond : (parcelInRange p && (phaseOfCode c).isSome && decide (1 ≤ r.toNat) && decide (r.toNat ≤ 4)) = true ↔
      inRange := by
    simp only [Bool.and_eq_true, parcelInRange_iff, phaseOfCode_isSome, decide_eq_true_eq, and_assoc, inRange]
  rw [← submissionCode_eq]
  refine ⟨fun hin => ?_, fun hout => ?_⟩
  · have hsub : submitPhase p c r x s.shown = (respond (submissionCode o.1), o.2.setPort s.shown.port) := by
      rw [submitPhase, if_pos (hcond.mpr hin), offer_shown]
      rfl
    exact exec_answered hh hp hi (c := .submitPhase (p :: c :: r :: x :: more)) rfl (congrArg answerNow hsub)
  · have hsub : submitPhase p c r x s.shown = (respond .range, s.shown) := if_neg (mt hcond.mp hout)
    exact exec_answered hh hp hi (c := .submitPhase (p :: c :: r :: x :: more)) rfl (congrArg answerNow hsub)

/-! ## SUBMIT_DECLARE -/

theorem displaceHighest_withPort (n : Nat) (s : State) (p : ReportPort) :
    displaceHighest n (s.setPort p) = (displaceHighest n s).setPort p := by
  induction n generalizing s with
  | zero => rfl
  | succ n ih =>
    rw [displaceHighest, displaceHighest, State.setPort_line]
    cases highestKey (s.line.outbound.filter displaceable) with
    | none => rfl
    | some h => exact ih ((s.setOutbound (removeKey h.key s.line.outbound)).bump .displacements)

/-- A group neither reads nor changes the port. -/
theorem offerGroup_withPort (fs : List OfferedFrame) (s : State) (p : ReportPort) :
    offerGroup fs (s.setPort p) = ((offerGroup fs s).1, (offerGroup fs s).2.setPort p) := by
  unfold offerGroup
  simp only [State.setPort_line, displaceHighest_withPort]
  split
  · rfl
  split
  · rfl
  split
  · rfl
  · rfl

/-- A roster item as SUBMIT_DECLARE sends it (file 11, 11.5). -/
def DeclaredItem.sent (x : DeclaredItem) : List Byte := [x.station.setWidth 8, x.item.setWidth 8, x.role.code.setWidth 8]

theorem submittedItem_eq_none {a b c : Byte} (h : 63 < a.toNat ∨ 63 < b.toNat ∨ 3 < c.toNat) :
    submittedItem a b c = none := by
  refine if_neg fun hok => ?_
  simp only [Bool.and_eq_true, decide_eq_true_eq] at hok
  omega

theorem roleOfCode_code (r : Role) : roleOfCode r.code = r := by cases r <;> rfl

theorem submittedItem_sent (x : DeclaredItem) :
    submittedItem (x.station.setWidth 8) (x.item.setWidth 8) (x.role.code.setWidth 8) = some x := by
  obtain ⟨station, item, role⟩ := x
  rw [submittedItem, if_pos]
  · simp [roleOfCode_code]
  · have hs := station.isLt
    have hi := item.isLt
    have hr := role.code.isLt
    simp only [BitVec.toNat_setWidth, Bool.and_eq_true, decide_eq_true_eq]
    omega

theorem submittedItems_sent (items : List DeclaredItem) : submittedItems (items.flatMap DeclaredItem.sent) = some items := by
  induction items with
  | nil => rfl
  | cons x items ih =>
    show submittedItems (x.station.setWidth 8 :: x.item.setWidth 8 :: x.role.code.setWidth 8 ::
      items.flatMap DeclaredItem.sent) = _
    simp only [submittedItems, submittedItem_sent, ih]

/-- A byte out of its range spoils the roster. -/
theorem submittedItems_eq_none {l : List Byte} {j : Nat} {a b c : Byte} (ha : l[3 * j]? = some a)
    (hb : l[3 * j + 1]? = some b) (hc : l[3 * j + 2]? = some c) (h : 63 < a.toNat ∨ 63 < b.toNat ∨ 3 < c.toNat) :
    submittedItems l = none := by
  induction j generalizing l with
  | zero =>
    match l, ha, hb, hc with
    | x :: y :: z :: rest, ha, hb, hc =>
      obtain rfl : x = a := by simpa using ha
      obtain rfl : y = b := by simpa using hb
      obtain rfl : z = c := by simpa using hc
      simp only [submittedItems, submittedItem_eq_none h]
  | succ j ih =>
    match l, ha, hb, hc with
    | x :: y :: z :: rest, ha, hb, hc =>
      have hrest : submittedItems rest = none := ih (by simpa [Nat.mul_succ] using ha)
        (by simpa [Nat.mul_succ] using hb) (by simpa [Nat.mul_succ] using hc)
      rw [submittedItems, hrest]
      split
      case h_1 hnone => simp at hnone
      case h_2 => rfl

theorem parsePart0_some {l : List Byte} {f : Part0} (h : parsePart0 l = some f) :
    l.length = 20 ∧ countOf l = f.count := by
  unfold parsePart0 at h
  split at h
  case h_1 =>
    obtain rfl := Option.some.inj h
    exact ⟨rfl, rfl⟩
  case h_2 => exact absurd h (by simp)

theorem takeSubmitDeclare_cons (p : Byte) (l : List Byte) (s : State) : takeSubmitDeclare (p :: l) s =
    if l.length < 20 + rosterParams (countOf (l.take 20)) then (respond .range, s)
    else submitDeclare p (l.take 20) ((l.drop 20).take (rosterParams (countOf (l.take 20)))) s := rfl

theorem takeSubmitDeclare_few {params : List Byte} (s : State) (hl : params.length < 21) :
    takeSubmitDeclare params s = (respond .range, s) := by
  match params, hl with
  | [], _ => rfl
  | p :: l, hl =>
    rw [takeSubmitDeclare_cons]
    exact if_pos (by simp only [List.length_cons] at hl; omega)

section SubmitDeclare

variable {p : Byte} {part0 rest : List Byte} {f : Part0} {s : State} (hf : parsePart0 part0 = some f)
include hf

theorem takeSubmitDeclare_short (h : rest.length < rosterParams f.count) :
    takeSubmitDeclare (p :: part0 ++ rest) s = (respond .range, s) := by
  obtain ⟨hlen, hcount⟩ := parsePart0_some hf
  rw [List.cons_append, takeSubmitDeclare_cons, List.take_left' hlen, hcount, List.length_append, hlen]
  exact if_pos (by omega)

theorem takeSubmitDeclare_long (h : rosterParams f.count ≤ rest.length) :
    takeSubmitDeclare (p :: part0 ++ rest) s = submitDeclare p part0 (rest.take (rosterParams f.count)) s := by
  obtain ⟨hlen, hcount⟩ := parsePart0_some hf
  rw [List.cons_append, takeSubmitDeclare_cons, List.take_left' hlen, List.drop_left' hlen, hcount, List.length_append,
    hlen]
  exact if_neg (by omega)

theorem submitDeclare_unread (h : submittedItems rest = none) : submitDeclare p part0 rest s = (respond .range, s) := by
  simp only [submitDeclare, hf, h]

theorem submitDeclare_refused {items : List DeclaredItem} (h : submittedItems rest = some items)
    (hbad : ¬ (parcelInRange p = true ∧ formOk f items = true)) :
    submitDeclare p part0 rest s = (respond .range, s) := by
  rw [submitDeclare, hf, h]
  exact if_neg (by rwa [Bool.and_eq_true])

theorem submitDeclare_offered {items : List DeclaredItem} (h : submittedItems rest = some items)
    (hp : parcelInRange p = true) (hform : formOk f items = true) :
    submitDeclare p part0 rest s = (respond (submissionCode (offerGroup (declareFrames s (p.setWidth 4) part0 items) s).1),
      (offerGroup (declareFrames s (p.setWidth 4) part0 items) s).2) := by
  rw [submitDeclare, hf, h]
  exact if_pos (by rw [hp, hform]; rfl)

/-- An item count that no declaration has, or a roster cut short. -/
theorem takeSubmitDeclare_count (h : f.count < 2 ∨ 16 < f.count ∨ rest.length < 3 * f.count) :
    takeSubmitDeclare (p :: part0 ++ rest) s = (respond .range, s) := by
  by_cases hcount : 2 ≤ f.count ∧ f.count ≤ 16
  · exact takeSubmitDeclare_short hf (by rw [rosterParams, if_pos hcount]; omega)
  · have hneed : rosterParams f.count = 0 := if_neg hcount
    have hform : formOk f [] ≠ true := fun hok => by
      obtain ⟨⟨-, -, h2, h16, -⟩, -⟩ := (formOk_iff f []).mp hok
      exact hcount ⟨h2, h16⟩
    rw [takeSubmitDeclare_long hf (by omega), hneed]
    exact submitDeclare_refused hf (items := []) rfl fun hok => hform hok.2

/-- A roster of the counted length, in its bytes or not. -/
theorem takeSubmitDeclare_counted (h2 : 2 ≤ f.count) (h16 : f.count ≤ 16) (h : 3 * f.count ≤ rest.length) :
    takeSubmitDeclare (p :: part0 ++ rest) s = submitDeclare p part0 (rest.take (3 * f.count)) s := by
  have hneed : rosterParams f.count = 3 * f.count := if_pos ⟨h2, h16⟩
  rw [takeSubmitDeclare_long hf (hneed.trans_le h), hneed]

end SubmitDeclare

theorem flatMap_sent_length (items : List DeclaredItem) : (items.flatMap DeclaredItem.sent).length = 3 * items.length :=
  flatMap_length (n := 3) (f := DeclaredItem.sent) (fun _ => rfl) items

/-- Settles O52. -/
theorem submitDeclareOffersItsParts : Obligations.SubmitDeclareOffersItsParts := by
  intro s hh hp hi answered sent packed
  have hend : ∀ {params : List Byte} {code : ResponseCode} {t : State},
      takeSubmitDeclare params s.shown = (respond code, t.setPort s.shown.port) →
        exec (.submitDeclare params) s = answered params.length code t :=
    fun {params _ _} h => exec_answered hh hp hi (c := .submitDeclare params) rfl (congrArg answerNow h)
  refine ⟨fun params hshort => ?_, fun p part0 rest f hf => ?_⟩
  · exact hend (takeSubmitDeclare_few s.shown hshort)
  · intro ended n
    have hn : (p :: part0 ++ rest).length = n := by
      simp only [List.cons_append, List.length_cons, List.length_append, (parsePart0_some hf).1, n]
      omega
    have hrange : takeSubmitDeclare (p :: part0 ++ rest) s.shown = (respond .range, s.shown) → ended = answered n .range s :=
      fun h => by rw [← hn]; exact hend h
    have hcases : (f.count < 2 ∨ 16 < f.count ∨ rest.length < 3 * f.count) ∨
        2 ≤ f.count ∧ f.count ≤ 16 ∧ 3 * f.count ≤ rest.length := by omega
    refine ⟨fun h => hrange (takeSubmitDeclare_count hf h), fun j a b c hj ha hb hc hbad => hrange ?_,
      fun items more hlen hrest => ?_⟩
    · obtain hcount | ⟨h2, h16, hlong⟩ := hcases
      · exact takeSubmitDeclare_count hf hcount
      · rw [takeSubmitDeclare_counted hf h2 h16 hlong]
        refine submitDeclare_unread hf (submittedItems_eq_none (j := j) ?_ ?_ ?_ hbad)
        · rwa [List.getElem?_take_of_lt (by omega)]
        · rwa [List.getElem?_take_of_lt (by omega)]
        · rwa [List.getElem?_take_of_lt (by omega)]
    · intro own o
      have hrest : rest = items.flatMap DeclaredItem.sent ++ more := hrest
      have hitems : submittedItems (rest.take (3 * f.count)) = some items := by
        rw [hrest, ← hlen, ← flatMap_sent_length, List.take_left' rfl]
        exact submittedItems_sent items
      rw [← submissionCode_eq]
      refine ⟨fun h1 h15 hform => ?_, fun hbad => hrange ?_⟩
      · obtain ⟨⟨-, -, h2, h16, -⟩, -⟩ := (formOk_iff f items).mp hform
        have hlong : 3 * f.count ≤ rest.length := by
          rw [hrest, List.length_append, flatMap_sent_length, hlen]
          omega
        have htake : takeSubmitDeclare (p :: part0 ++ rest) s.shown =
            (respond (submissionCode o.1), o.2.setPort s.shown.port) := by
          rw [takeSubmitDeclare_counted hf h2 h16 hlong,
            submitDeclare_offered hf hitems ((parcelInRange_iff p).mpr ⟨h1, h15⟩) hform, State.shown, offerGroup_withPort]
          rfl
        rw [← hn]
        exact hend htake
      · obtain hcount | ⟨h2, h16, hlong⟩ := hcases
        · exact takeSubmitDeclare_count hf hcount
        · rw [takeSubmitDeclare_counted hf h2 h16 hlong]
          refine submitDeclare_refused hf hitems fun ⟨hpr, hform⟩ => ?_
          obtain ⟨h1, h15⟩ := (parcelInRange_iff p).mp hpr
          obtain h0 | h16 | hnot := hbad
          · omega
          · omega
          · simp [hform] at hnot

/-! ## What every request shares (R169, R170) -/

theorem takeRequest_unknown {code : Byte} (params : List Byte) (s : State) (h : code ∉ commandCodes) :
    takeRequest code params s = .answer (respond .unknownCommand) s := by
  simp only [commandCodes, List.mem_cons, List.not_mem_nil, or_false, not_or] at h
  simp only [takeRequest, beq_iff_eq, h, if_false]

theorem takeRequest_short_one {code : Byte} {params : List Byte} (s : State) (hl : params.length < 1)
    (h : code = 0x12#8 ∨ code = 0x20#8 ∨ code = 0x22#8 ∨ code = 0x41#8) :
    takeRequest code params s = .answer (respond .range) s := by
  obtain rfl := List.length_eq_zero_iff.mp (Nat.lt_one_iff.mp hl)
  obtain rfl | rfl | rfl | rfl := h
  all_goals rfl

theorem takeRequest_short_two {code : Byte} {params : List Byte} (s : State) (hl : params.length < 2)
    (h : code = 0x21#8 ∨ code = 0x40#8) : takeRequest code params s = .answer (respond .range) s := by
  match params, hl with
  | [], _ => obtain rfl | rfl := h <;> rfl
  | [_], _ => obtain rfl | rfl := h <;> rfl

theorem takeRequest_short_phase {params : List Byte} (s : State) (hl : params.length < 4) :
    takeRequest 0x31#8 params s = .answer (respond .range) s := by
  match params, hl with
  | [], _ => rfl
  | [_], _ => rfl
  | [_, _], _ => rfl
  | [_, _, _], _ => rfl

/-- Settles O54. -/
theorem requestsAreTakenOnlyWhenIdle : Obligations.RequestsAreTakenOnlyWhenIdle := by
  intro c code params s hh hp hc returned need
  refine ⟨exec_outstanding hh hp hc, fun hi hcode => exec_answered hh hp hi hc (takeRequest_unknown params s.shown hcode),
    fun hi hshort => exec_answered hh hp hi hc (t := s.shown) ?_⟩
  dsimp only [need] at hshort
  split at hshort
  case isTrue hone => exact takeRequest_short_one s.shown hshort hone
  split at hshort
  case isTrue htwo => exact takeRequest_short_two s.shown hshort htwo
  split at hshort
  case isTrue hphase => exact hphase ▸ takeRequest_short_phase s.shown hshort
  split at hshort
  case isTrue hdeclare => exact hdeclare ▸ congrArg answerNow (takeSubmitDeclare_few s.shown hshort)
  · exact absurd hshort (Nat.not_lt_zero _)

end Sys2Proof.Machine

/-! SUPPORT. The burst rule and the head of the intake queue (file 06, R112; file 07, R133 and R134): what the closings of
a choice store, how an intake service takes its entry, and with them the statements on both. -/

namespace Sys2Proof.Machine

variable {s : State} {i : ContextId}

/-! ## What a closing stores -/

/-- A closing leaves the stored copy of every number but that of its context. -/
theorem closeContext_stored_other {m : ParcelNo} (h : ∀ c, s.eng.context i = some c → c.record.number ≠ m) :
    (s.closeContext i).stored m = s.stored m := by
  unfold State.closeContext State.writeBack
  cases hc : s.eng.context i with
  | none => rfl
  | some c =>
    by_cases hd : c.dirty = true
    · simp only [hd, if_true]
      exact stored_storePut_other s c.record (h c hc).symm
    · simp only [hd]
      rfl

theorem closeUnneeded_stored_other {l : List ParcelNo} {m : ParcelNo}
    (h : ∀ c, s.eng.context i = some c → c.record.number ≠ m) : (closeUnneeded l i s).stored m = s.stored m := by
  unfold closeUnneeded
  split
  · split
    · rfl
    · exact closeContext_stored_other h
  · rfl

/-- The closing of a dirty record that nothing needs stores it. -/
theorem closeUnneeded_stored_dirty {l : List ParcelNo} {c : OpenContext} (hc : s.eng.context i = some c)
    (hl : c.record.number ∉ l) (hd : c.dirty = true) (hs : (s.stored c.record.number).isSome = true) :
    (closeUnneeded l i s).stored c.record.number = some (mkStored c.record) := by
  have hclose : closeUnneeded l i s = s.closeContext i := by
    have hn : l.contains c.record.number = false := by simpa using hl
    simp only [closeUnneeded, hc, hn, Bool.false_eq_true, if_false]
  rw [hclose, closeContext_stored (fun d hd' _ => by rw [hc] at hd'; rw [← Option.some.inj hd']; exact hs), hc]
  exact if_pos ⟨hd, rfl⟩

theorem burstClose_keepOpen (h : s.sup.straps.policy = .keepOpen) : burstClose s = s := by
  simp only [burstClose, h]

theorem burstClose_stored_dirty {c : OpenContext} (hp : s.sup.straps.policy = .closeAfterBurst)
    (hc : s.eng.context i = some c) (hn : c.record.number ∉ needs s (arbiter s)) (hd : c.dirty = true)
    (hs : (s.stored c.record.number).isSome = true)
    (ho : ∀ d, s.eng.context (otherContext i) = some d → d.record.number ≠ c.record.number) :
    (burstClose s).stored c.record.number = some (mkStored c.record) := by
  simp only [burstClose, hp]
  cases i with
  | w0 =>
    rw [closeUnneeded_stored_other, closeUnneeded_stored_dirty hc hn hd hs]
    intro d hd
    rw [closeUnneeded_context, if_neg (by decide)] at hd
    exact ho d hd
  | w1 =>
    refine closeUnneeded_stored_dirty ?_ hn hd ?_
    · rwa [closeUnneeded_context, if_neg (by decide)]
    · rwa [closeUnneeded_stored_other (i := .w0) ho]

/-- Settles O35. -/
theorem burstEndClosesTheUnneeded : Obligations.BurstEndClosesTheUnneeded := by
  intro s hh
  have hexec : exec .burstEndClose s = .next ((burstClose s).setStoreLog s.storeLog) := exec_asService rfl hh
  refine ⟨fun hp => ?_, fun hp => ⟨_, hexec, fun i c hc => ⟨fun hn => ?_, fun hn => ⟨?_, fun hd hs ho => ?_⟩⟩,
    apart_line (burstClose_apart s), apart_acc (burstClose_apart s), apart_tmr (burstClose_apart s),
    apart_port (burstClose_apart s), apart_counters (burstClose_apart s)⟩,
    fun c => ⟨begins_of_serves hh, begins_of_dutyPart hh, serves_idle hh⟩⟩
  · rw [hexec, burstClose_keepOpen hp, State.setStoreLog_self]
  · rw [State.setStoreLog_eng, burstClose_context hp, hc]
    simp [hn]
  · rw [State.setStoreLog_eng, burstClose_context hp, hc]
    simp [hn]
  · exact burstClose_stored_dirty hp hc hn hd hs ho

/-! ## The head of the intake queue -/

/-- The queue behind the head and pressure mode stay as they are through the work of an intake service. -/
theorem intakeIs_engineClosed (l : List IntakeEntry) (p : Bool) :
    EngineClosed (fun t => t.acc.intake = l ∧ t.acc.pressure = p) where
  eng _ _ _ h := h
  removed _ h := h
  admitted _ _ _ _ h := h
  put {s} r h := by obtain ⟨x, y, e, -⟩ := storePut_eq s r; rw [e]; exact h
  delete _ h := h
  acc _ ha h := by
    obtain ⟨hintake, hpressure, -⟩ := ha
    exact ⟨hintake.trans h.1, hpressure.trans h.2⟩
  post b h := by rw [post_acc]; exact h
  bump _ h := h
  offer f l h := by rw [offer_acc]; exact h
  withdraw _ h := h
  buffer {s} b a h := by obtain ⟨x, y, e⟩ := setBuffer_eq s b a; rw [e]; exact h
  hear _ h := h
  restart h := h

theorem serve_takes_head (e : IntakeEntry) (rest : List IntakeEntry) (h : s.acc.intake = e :: rest) :
    (serve (intakeBody e) s).acc.intake = rest ∧
      (serve (intakeBody e) s).acc.pressure = (s.acc.pressure && decide (16 < rest.length)) := by
  refine wholeService_from (intakeIs_engineClosed (e :: rest) s.acc.pressure).toRecordClosed
    (intakeIs_engineClosed rest _).toRecordClosed (fun _ _ h => h) (fun _ _ h => h)
    (fun _ h => buildAll_keeps (intakeIs_engineClosed rest _).toRecordClosed (fun _ _ _ h => h) h) (fun t ht => ?_) ⟨h, rfl⟩
  obtain ⟨hintake, hpressure⟩ := ht
  refine (intakeIs_engineClosed rest _).intakeBody e ⟨?_, ?_⟩
  · rw [takeHead, hintake]
    rfl
  · rw [takeHead, hintake, hpressure]
    show (s.acc.pressure && !decide (rest.length ≤ 16)) = _
    rw [← decide_not]
    simp only [Nat.not_le]

section Quiet

variable {e : IntakeEntry} {rest : List IntakeEntry} (hh : s.sup.held = false) (hn : s.NoneAhead)
  (hi : s.acc.intake = e :: rest) (hq : s.Quiet)
include hh hn hi hq

/-- In UNNUMBERED the removal of the head is all (R133). -/
theorem intake_unnumbered (hu : s.line.standing = .unnumbered) :
    exec .intakeService s = .next (s.headTaken rest) := by
  have hbody : intakeBody e s = { s with acc := (s.headTaken rest).acc } := by
    rw [intakeBody, applyUnlessUnnumbered, takeHead_eq hi]
    exact if_pos (by simp [hu])
  rw [exec_asService (c := .intakeService) rfl hh, intakeService_chosen (arbiter_head hn hi), serve,
    wholeService_quiet hq, hbody, endService_none (by exact hq.1) (by exact hq.2.1) (by exact hq.2.2)]
  · rw [State.headTaken, ← starvation_counted]
    rfl
  · rw [hbody]
    rfl

/-- An entry whose rule changes nothing is only removed, whatever the standing. -/
theorem intake_idle (h : applyEntry e { s with acc := (s.headTaken rest).acc } = { s with acc := (s.headTaken rest).acc }) :
    exec .intakeService s = .next (s.headTaken rest) := by
  by_cases hu : s.line.standing = .unnumbered
  · exact intake_unnumbered hh hn hi hq hu
  · exact intake_plain ⟨hh, hn, hi, hu⟩ hq h

end Quiet

/-- A PHASE, VOTE, ALARM or FIGURE of a parcel that is not held has no effect. -/
theorem applyEntry_unheld {e : IntakeEntry} (hx : e.entryIndex = 0 ∨ e.entryIndex = 1 ∨ e.entryIndex = 4 ∨ e.entryIndex = 6)
    (hd : s.dirFind e.parcel = none) : applyEntry e s = s := by
  obtain hx | hx | hx | hx := hx
  · simp only [applyEntry, hx, applyPhase, hd]
  · simp only [applyEntry, hx, applyVote, hd]
  · simp only [applyEntry, hx, applyAlarm, hd]
    split
    · rfl
    · cases parseAlarm e <;> rfl
  · simp only [applyEntry, hx, applyFigure, hd]
    split
    · rfl
    · cases parseFigure e <;> rfl

theorem applyEntry_presence {e : IntakeEntry} (hx : e.entryIndex = 7) : applyEntry e s =
    if e.payload.length = 2 then s.setEng { s.eng with heard := insertStation e.source s.eng.heard } else s := by
  simp only [applyEntry, hx, applyPresence, beq_iff_eq]

theorem mem_insertStation {m n : Station} {l : List Station} : m ∈ insertStation n l ↔ m = n ∨ m ∈ l := by
  induction l with
  | nil => simp [insertStation]
  | cons a l ih =>
    unfold insertStation
    split
    case isTrue h =>
      obtain rfl : n = a := by simpa using h
      simp
    split
    · rw [List.mem_cons]
    · rw [List.mem_cons, ih, List.mem_cons, or_left_comm]

/-- Settles O36. -/
theorem intakeServiceRemovesTheHead : Obligations.IntakeServiceRemovesTheHead := by
  intro e rest s hh hn hi
  refine ⟨⟨_, exec_asService (c := .intakeService) rfl hh, ?_⟩, fun hq => ⟨intake_unnumbered hh hn hi hq,
    fun hx hd => intake_idle hh hn hi hq (applyEntry_unheld hx hd), fun hx hlen => intake_idle hh hn hi hq ?_,
    fun hx hlen hu => ⟨_, ?_, fun m => mem_insertStation⟩⟩⟩
  · rw [intakeService_chosen (arbiter_head hn hi)]
    exact serve_takes_head e rest hi
  · rw [applyEntry_presence hx, if_neg hlen]
  · rw [exec_intakeService ⟨hh, hn, hi, hu⟩ hq, applyEntry_presence hx, if_pos hlen,
      endService_none (by exact hq.1) (by exact hq.2.1) (by exact hq.2.2), State.headTaken, ← starvation_counted]
    rfl

end Sys2Proof.Machine

/-! SUPPORT. The second duty as a whole (file 06, R108 and R121): what its flags are after it, a duty that finds nothing
due, a duty that restarts the windows, and with them the statement on it. -/

namespace Sys2Proof.Machine

variable {s t : State} {n : ParcelNo}

/-! ## The flags -/

theorem RecordClosed.and {P Q : State → Prop} (h : RecordClosed P) (g : RecordClosed Q) :
    RecordClosed (fun t => P t ∧ Q t) where
  eng x hx hn k := ⟨h.eng x hx hn k.1, g.eng x hx hn k.2⟩
  removed n k := ⟨h.removed n k.1, g.removed n k.2⟩
  admitted e h0 hn hl k := ⟨h.admitted e h0 hn hl k.1, g.admitted e h0 hn hl k.2⟩
  put r k := ⟨h.put r k.1, g.put r k.2⟩
  delete n k := ⟨h.delete n k.1, g.delete n k.2⟩
  acc a ha k := ⟨h.acc a ha k.1, g.acc a ha k.2⟩
  post b k := ⟨h.post b k.1, g.post b k.2⟩
  bump c k := ⟨h.bump c k.1, g.bump c k.2⟩
  offer f l k := ⟨h.offer f l k.1, g.offer f l k.2⟩
  withdraw f k := ⟨h.withdraw f k.1, g.withdraw f k.2⟩

/-- The state in which a second duty begins its parts. -/
def State.dutyTaken (s : State) : State := s.setEng { s.eng with dutyPending := false }

theorem dutyTaken_sameRecords (s : State) : SameRecords s s.dutyTaken := ⟨rfl, fun j => by cases j <;> rfl, rfl⟩

theorem dutyBody_eq (s : State) : dutyBody s =
    allNumbers.foldl dutyParcel (restartWindows (timeoutAssembly 1 (timeoutAssembly 0 s.dutyTaken))) := rfl

theorem dutyBody_frame (s : State) : SameFrame s.dutyTaken (dutyBody s) :=
  (sameFrame_closed s.dutyTaken).dutyWork ⟨rfl, rfl, rfl, rfl, rfl⟩

theorem dutyFold_windowRestart {b : Bool} (l : List ParcelNo) (h : s.eng.windowRestart = b) :
    (l.foldl dutyParcel s).eng.windowRestart = b :=
  fold_keeps (P := fun t => t.eng.windowRestart = b) dutyParcel
    (fun _ _ ht => (windowRestart_closed b).dutyParcel _ ht) l h

/-- The restart of the windows is to come as long as the listen time has not been reached. -/
theorem dutyBody_windowRestart (s : State) : (dutyBody s).eng.windowRestart =
    (s.eng.windowRestart && decide (s.tmr.seconds.toNat < s.sup.straps.listen.seconds)) := by
  rw [dutyBody_eq]
  refine dutyFold_windowRestart allNumbers ?_
  obtain ⟨hsup, htmr, -⟩ : SameFrame s.dutyTaken (timeoutAssembly 1 (timeoutAssembly 0 s.dutyTaken)) :=
    (sameFrame_closed _).timeoutAssembly 1 ((sameFrame_closed _).timeoutAssembly 0 ⟨rfl, rfl, rfl, rfl, rfl⟩)
  have hw : (timeoutAssembly 1 (timeoutAssembly 0 s.dutyTaken)).eng.windowRestart = s.eng.windowRestart := by
    rw [timeoutAssembly_windowRestart, timeoutAssembly_windowRestart]
    rfl
  generalize timeoutAssembly 1 (timeoutAssembly 0 s.dutyTaken) = u at *
  have hdue : restartDue u =
      (s.eng.windowRestart && decide (s.sup.straps.listen.seconds ≤ s.tmr.seconds.toNat)) := by
    rw [restartDue_eq, hw, hsup, htmr]
    rfl
  unfold restartWindows
  split
  case isTrue h =>
    rw [hdue, Bool.and_eq_true, decide_eq_true_eq] at h
    simp [h.2]
  case isFalse h =>
    rw [hdue, Bool.and_eq_true, decide_eq_true_eq, not_and, Nat.not_le] at h
    rw [hw]
    cases hr : s.eng.windowRestart with
    | false => rfl
    | true => simp [h hr]

/-- A service of another requester than the port turns one property of records into another as its work does. -/
theorem serve_from {P Q : State → Prop} (h : RecordClosed P) (g : RecordClosed Q)
    (hstarts : ∀ t l, P t → P (t.withStarts l)) (gstarts : ∀ t l, Q t → Q (t.withStarts l))
    (gbuild : ∀ t, Q t → Q (buildAll t)) {body : State → State} (hbody : ∀ t, P t → Q (countOther (body t)))
    (hs : P s) : Q (serve body s) :=
  wholeService_from h g hstarts gstarts gbuild hbody hs

theorem duty_flags (s : State) : (countOther (dutyBody s)).eng.dutyPending = false ∧
    (countOther (dutyBody s)).eng.windowRestart =
      (s.eng.windowRestart && decide (s.tmr.seconds.toNat < s.sup.straps.listen.seconds)) := by
  obtain ⟨-, -, -, hpend, -⟩ := dutyBody_frame s
  have hrestart := dutyBody_windowRestart s
  generalize dutyBody s = u at *
  exact ⟨hpend, hrestart⟩

theorem serve_duty_flags (s : State) : (serve dutyBody s).eng.dutyPending = false ∧
    (serve dutyBody s).eng.windowRestart =
      (s.eng.windowRestart && decide (s.tmr.seconds.toNat < s.sup.straps.listen.seconds)) := by
  have hpending : RecordClosed (fun t => t.eng.dutyPending = false) :=
    { eng := fun x hx _ h => hx.1.trans h
      removed := fun _ h => h
      admitted := fun _ _ _ _ h => h
      put := fun {s} r h => by obtain ⟨x, l, e, -⟩ := storePut_eq s r; rw [e]; exact h
      delete := fun _ h => h
      acc := fun _ _ h => h
      post := fun b h => by rw [post_eng]; exact h
      bump := fun _ h => h
      offer := fun f l h => by rw [offer_eng]; exact h
      withdraw := fun _ h => h }
  refine serve_from (P := fun t => SameOutside s t ∧ t.eng.windowRestart = s.eng.windowRestart)
    ((sameOutside_recordClosed s).and (windowRestart_closed s.eng.windowRestart))
    (hpending.and (windowRestart_closed _)) (fun _ _ h => h) (fun _ _ h => h)
    (fun t h => by rw [buildAll_eng]; exact h) (fun t ht => ?_) ⟨sameOutside_refl s, rfl⟩
  obtain ⟨⟨-, -, -, -, -, -, -, hseconds, -, -, -, -, hsup, -⟩, hw⟩ := ht
  rw [← hsup, ← hseconds, ← hw]
  exact duty_flags t

/-! ## A duty under KEEP_OPEN -/

/-- A second duty with no build moment waiting and no service in progress is its parts and its end. -/
theorem exec_duty_quiet (hh : s.sup.held = false) (hd : s.DutyChosen) (hq : s.Quiet) :
    exec .secondDuty s = .next ((endService (countOther (dutyBody s))).setStoreLog s.storeLog) := by
  obtain ⟨-, htmr, -⟩ := dutyBody_frame s
  rw [exec_secondDuty hh hd, serve, wholeService_quiet hq]
  rw [countOther_tmr]
  exact htmr

theorem dutyTaken_counted (hq : s.Quiet) (l : List StoreStep) :
    (endService (countOther s.dutyTaken)).setStoreLog l = { s with
      storeLog := l, eng := { s.eng with dutyPending := false, starvation := s.starvationCounted } } := by
  obtain ⟨hk, hb, hw⟩ := hq
  rw [endService_none (by exact hk) (by exact hb) (by exact hw), ← starvation_counted]
  rfl

theorem dirFind_mem {e : DirEntry} (h : s.dirFind n = some e) : e ∈ s.eng.directory := List.mem_of_find?_eq_some h

/-- No assembly buffer is due. -/
theorem dutyBody_timeouts (hb : ∀ b a, s.eng.buffer b = some a → (s.tmr.seconds - a.second).toNat < 2) :
    dutyBody s = allNumbers.foldl dutyParcel (restartWindows s.dutyTaken) := by
  have h : ∀ b, timeoutAssembly b s.dutyTaken = s.dutyTaken := fun b => by
    refine timeoutAssembly_none fun a ha => hb b a ?_
    match b with
    | 0 => exact ha
    | 1 => exact ha
  rw [dutyBody_eq, h, h]

/-- A duty that finds nothing due changes nothing but its flag. -/
theorem dutyBody_nothing (hr : restartDue s = false)
    (hb : ∀ b a, s.eng.buffer b = some a → (s.tmr.seconds - a.second).toNat < 2)
    (hn : ∀ e ∈ s.eng.directory, expiryDue s.tmr.seconds e = false ∧ halfDue s.tmr.seconds e = false ∧
      persistenceDue s.tmr.seconds e = false) : dutyBody s = s.dutyTaken := by
  have hdue : ¬ restartDue s.dutyTaken = true := fun h => Bool.false_ne_true (hr.symm.trans h)
  rw [dutyBody_timeouts hb, restartWindows, if_neg hdue, dutyFold_none]
  exact fun n _ e he => hn e (dirFind_mem he)

/-! ## A duty that restarts the windows (R121) -/

theorem expiryDue_of_closed {now : Second} {d e : DirEntry} (h : d.closed = e.closed) :
    expiryDue now d = expiryDue now e ∧ halfDue now d = halfDue now e ∧ persistenceDue now d = persistenceDue now e :=
  ⟨show expiryDue now d.closed = expiryDue now e.closed by rw [h],
    show halfDue now d.closed = halfDue now e.closed by rw [h],
    show persistenceDue now d.closed = persistenceDue now e.closed by rw [h]⟩

theorem inWindow_iff (e : DirEntry) : inWindow e = true ↔ e.state = .closing ∨ e.state = .reconciled := by
  simp [inWindow]

/-- Nothing is due in a directory entry whose window has just been restarted. -/
theorem notDue_of_restarted {now : Second} {e : DirEntry} {r : ParcelRecord}
    (hs : r.state = .closing ∨ r.state = .reconciled) (hw : ∀ d, r.decl = some d → 1 ≤ d.window) :
    expiryDue now (e.copyFrom (restartRecord now r)) = false ∧ halfDue now (e.copyFrom (restartRecord now r)) = false ∧
      persistenceDue now (e.copyFrom (restartRecord now r)) = false := by
  have hstart : windowElapsed now (e.copyFrom (restartRecord now r)) = r.decl.map (fun d => (0, d.window * 60)) := by
    simp only [windowElapsed, DirEntry.copyFrom, restartRecord, elapsed]
    cases r.decl with
    | none => rfl
    | some d => simp
  refine ⟨?_, ?_, ?_⟩
  · rw [expiryDue, hstart]
    cases hd : r.decl with
    | none => simp
    | some d =>
      have := hw d hd
      simp only [Option.map_some, Bool.and_eq_false_imp, decide_eq_false_iff_not]
      omega
  · rw [halfDue, hstart]
    cases hd : r.decl with
    | none => simp
    | some d =>
      have := hw d hd
      simp only [Option.map_some, Bool.and_eq_false_imp, decide_eq_false_iff_not]
      omega
  · obtain hs | hs := hs
    · simp [persistenceDue, DirEntry.copyFrom, restartRecord, hs]
    · simp [persistenceDue, DirEntry.copyFrom, restartRecord, hs]

/-- No restart of the windows is to come any more. -/
def State.restartDone (s : State) : State := s.setEng { s.eng with windowRestart := false }

theorem restartDone_windowRestart (s : State) : s.restartDone.eng.windowRestart = false := rfl

theorem restartDone_sameRecords (s : State) : SameRecords s s.restartDone := ⟨rfl, fun j => by cases j <;> rfl, rfl⟩

theorem restartWindows_due (h : restartDue s = true) :
    restartWindows s = (allNumbers.foldl restartWindow s).restartDone := if_pos h

/-- The state after a restart of the windows with nothing else due. -/
def State.windowsRestarted (s : State) : State := (allNumbers.foldl restartWindow s.dutyTaken).restartDone

theorem windowsRestarted_sameRecords (s : State) :
    SameRecords (allNumbers.foldl restartWindow s.dutyTaken) s.windowsRestarted := restartDone_sameRecords _

theorem restartDone_rest (h : t.apart = s.dutyTaken.apart) : t.restartDone.line = s.line ∧ t.restartDone.acc = s.acc ∧
    t.restartDone.port = s.port ∧ t.restartDone.counters = s.counters ∧ t.restartDone.sup = s.sup ∧
    t.restartDone.tmr = s.tmr ∧ t.restartDone.eng.dueWrites = s.eng.dueWrites :=
  have hline := apart_line h
  have hacc := apart_acc h
  have hport := apart_port h
  have hcounters := apart_counters h
  have hsup := apart_sup h
  have htmr := apart_tmr h
  have hdue := apart_due h
  ⟨hline, hacc, hport, hcounters, hsup, htmr, hdue⟩

theorem restarted_of_coherent (h : s.Coherent) :
    Restarted s.dutyTaken allNumbers (allNumbers.foldl restartWindow s.dutyTaken) :=
  restarted_all (h.congr (dutyTaken_sameRecords s))

section Restart

variable (hc : s.Coherent)
include hc

theorem windowsRestarted_rest : s.windowsRestarted.line = s.line ∧ s.windowsRestarted.acc = s.acc ∧
    s.windowsRestarted.port = s.port ∧ s.windowsRestarted.counters = s.counters ∧ s.windowsRestarted.sup = s.sup ∧
    s.windowsRestarted.tmr = s.tmr ∧ s.windowsRestarted.eng.dueWrites = s.eng.dueWrites :=
  restartDone_rest (restarted_of_coherent hc).apart

/-- A parcel in a window after the restart. -/
theorem windowsRestarted_in {e : DirEntry} {r : ParcelRecord} (h0 : n ≠ 0#4) (hd : s.dirFind n = some e)
    (hr : s.recordOf n = some r) (hs : r.state = .closing ∨ r.state = .reconciled) :
    s.windowsRestarted.recordOf n = some (restartRecord s.now r) ∧
      (s.windowsRestarted.dirFind n).map DirEntry.closed =
        some (DirEntry.closed { e.copyFrom (restartRecord s.now r) with halfDone := false }) := by
  have hwin : inWindow e = true := by
    rw [inWindow_iff, ← hc.copies n e r hd hr]
    exact hs
  rw [(windowsRestarted_sameRecords s).recordOf, (windowsRestarted_sameRecords s).dirFind]
  exact (restarted_of_coherent hc).rec_in n e r (mem_allNumbers h0) (((dutyTaken_sameRecords s).dirFind n).trans hd) hwin
    (((dutyTaken_sameRecords s).recordOf n).trans hr)

/-- A parcel that is in no window is as it was. -/
theorem windowsRestarted_out (hw : ∀ e, s.dirFind n = some e → inWindow e = false) :
    s.windowsRestarted.recordOf n = s.recordOf n ∧
      (s.windowsRestarted.dirFind n).map DirEntry.closed = (s.dirFind n).map DirEntry.closed := by
  rw [(windowsRestarted_sameRecords s).recordOf, (windowsRestarted_sameRecords s).dirFind]
  exact (restarted_of_coherent hc).rec_out n (.inr hw)

/-- With every window restarted, and no persistence run out, no parcel has anything due. -/
theorem windowsRestarted_notDue (hp : ∀ e ∈ s.eng.directory, persistenceDue s.tmr.seconds e = false)
    (hw : ∀ n r, s.recordOf n = some r → ∀ d, r.decl = some d → 1 ≤ d.window) (h0 : n ≠ 0#4) {d : DirEntry}
    (hd : s.windowsRestarted.dirFind n = some d) :
    expiryDue s.tmr.seconds d = false ∧ halfDue s.tmr.seconds d = false ∧ persistenceDue s.tmr.seconds d = false := by
  have hsame : ∀ {e : DirEntry}, (s.windowsRestarted.dirFind n).map DirEntry.closed = some e.closed →
      expiryDue s.tmr.seconds d = expiryDue s.tmr.seconds e ∧ halfDue s.tmr.seconds d = halfDue s.tmr.seconds e ∧
        persistenceDue s.tmr.seconds d = persistenceDue s.tmr.seconds e := fun he => by
    rw [hd] at he
    exact expiryDue_of_closed (Option.some.inj he)
  cases he : s.dirFind n with
  | none =>
    obtain ⟨-, hnone⟩ := windowsRestarted_out hc (n := n) (fun e h => by rw [he] at h; cases h)
    rw [hd, he] at hnone
    cases hnone
  | some e =>
    obtain ⟨r, hr, -⟩ := hc.held he
    have hcopy := hc.copies n e r he hr
    by_cases hs : r.state = .closing ∨ r.state = .reconciled
    · obtain ⟨-, hin⟩ := windowsRestarted_in hc h0 he hr hs
      obtain ⟨h1, h2, h3⟩ := hsame hin
      obtain ⟨k1, k2, k3⟩ := notDue_of_restarted (now := s.tmr.seconds) (e := { e with halfDone := false }) hs (hw n r hr)
      exact ⟨h1.trans k1, h2.trans k2, h3.trans k3⟩
    · have hwin : inWindow e = false := by
        rw [Bool.eq_false_iff, Ne, inWindow_iff, ← hcopy]
        exact hs
      obtain ⟨-, hout⟩ := windowsRestarted_out hc (n := n) (fun d hd => by
        rw [he] at hd
        rw [← Option.some.inj hd]
        exact hwin)
      rw [he] at hout
      obtain ⟨h1, h2, h3⟩ := hsame hout
      refine ⟨h1.trans (by rw [expiryDue, hwin]; rfl), h2.trans ?_, h3.trans (hp e (dirFind_mem he))⟩
      have hst : (e.state == .closing) = false := by
        simp only [beq_eq_false_iff_ne, ne_eq]
        exact fun h => Bool.false_ne_true (hwin.symm.trans ((inWindow_iff e).mpr (.inl h)))
      rw [halfDue, hst]
      rfl

theorem dutyBody_restart (hr : restartDue s = true)
    (hb : ∀ b a, s.eng.buffer b = some a → (s.tmr.seconds - a.second).toNat < 2)
    (hp : ∀ e ∈ s.eng.directory, persistenceDue s.tmr.seconds e = false)
    (hw : ∀ n r, s.recordOf n = some r → ∀ d, r.decl = some d → 1 ≤ d.window) : dutyBody s = s.windowsRestarted := by
  have hrestart : restartWindows s.dutyTaken = s.windowsRestarted := restartWindows_due hr
  rw [dutyBody_timeouts hb, hrestart, dutyFold_none]
  intro n hn e he
  obtain ⟨-, -, -, -, -, htmr, -⟩ := windowsRestarted_rest hc
  have hnow : s.windowsRestarted.now = s.tmr.seconds :=
    congrArg PublicationTimer.seconds htmr
  rw [hnow]
  refine windowsRestarted_notDue hc hp hw ?_ he
  rintro rfl
  revert hn
  decide

end Restart

/-- Settles O30. -/
theorem secondDutyClearsItsFlag : Obligations.SecondDutyClearsItsFlag := by
  intro s hh hd
  refine ⟨⟨_, exec_secondDuty hh hd, by rw [State.setStoreLog_eng]; exact serve_duty_flags s⟩, fun hq hr hb hn => ?_,
    fun hq hc hr hb hp hw => ?_,
    fun hq hc h0 => secondDuty_parts ⟨hh, hd, hq.1⟩ hq hc h0⟩
  · rw [exec_duty_quiet hh hd hq, dutyBody_nothing hr hb hn, dutyTaken_counted hq]
  · obtain ⟨hline, hacc, hport, hcounters, hsup, htmr, hdue⟩ := windowsRestarted_rest hc
    obtain ⟨hk, hbuilds, hwrites⟩ := hq
    refine ⟨_, exec_duty_quiet hh hd ⟨hk, hbuilds, hwrites⟩, ?_⟩
    rw [dutyBody_restart hc hr hb hp hw, endService_none (by rw [hsup, hk]) (by rw [htmr, hbuilds]) (hdue.trans hwrites)]
    have hin := fun n e r => windowsRestarted_in hc (n := n) (e := e) (r := r)
    have hout := fun n => windowsRestarted_out hc (n := n)
    have hdone : s.windowsRestarted.eng.windowRestart = false := restartDone_windowRestart _
    generalize s.windowsRestarted = w at *
    have hsame : SameRecords w ((countOther w).setStoreLog s.storeLog) :=
      (countOther_sameRecords _).trans (setStoreLog_sameRecords _ _)
    refine ⟨hdone, hline, hacc, hport, hcounters, fun n e r h0 he hr => ⟨fun hs => ?_, fun hs1 hs2 => ?_⟩⟩
    · obtain ⟨hrec, hdir⟩ := hin n e r h0 he hr hs
      rw [hsame.recordOf, hsame.dirFind]
      refine ⟨hrec, ?_⟩
      obtain ⟨d, hd, hclosed⟩ := Option.map_eq_some_iff.mp hdir
      exact ⟨d, hd, (congrArg DirEntry.windowStart hclosed : _), (congrArg DirEntry.halfDone hclosed : _),
        (congrArg DirEntry.state hclosed : _)⟩
    · have hwin : ∀ d, s.dirFind n = some d → inWindow d = false := fun d hd => by
        rw [he] at hd
        rw [Bool.eq_false_iff, Ne, inWindow_iff, ← Option.some.inj hd, ← hc.copies n e r he hr]
        exact not_or.mpr ⟨hs1, hs2⟩
      obtain ⟨hrec, hdir⟩ := hout n hwin
      rw [hsame.recordOf, hsame.dirFind]
      refine ⟨hrec.trans hr, ?_⟩
      rw [he] at hdir
      obtain ⟨d, hd, hclosed⟩ := Option.map_eq_some_iff.mp hdir
      exact ⟨d, hd, congrArg (fun x : DirEntry => { x with context := e.context }) hclosed⟩

end Sys2Proof.Machine

/-! SUPPORT. One part of the second duty, sent alone (file 06, R108 and R112; R30, R69, R78 to R80): what a part that finds
its open parcel due leaves, whatever the burst rule closes before it, and with that the statements on the parts. -/

namespace Sys2Proof.Machine

variable {s t u : State} {n m : ParcelNo} {i j : ContextId} {e : DirEntry} {c : OpenContext} {r : ParcelRecord} {b : Bool}
  {F : DirEntry → DirEntry}

/-! ## The closings leave a needed parcel open -/

theorem closeUnneeded_openWith {l : List ParcelNo} (h : s.OpenWith n i e c) (hn : n ∈ l) :
    (closeUnneeded l j s).OpenWith n i e c := by
  unfold closeUnneeded
  split
  case h_2 => exact h
  case h_1 d hd =>
    split
    case isTrue => exact h
    case isFalse hout =>
      obtain ⟨hdir, hctx, hi, hnum⟩ := h
      have hne : d.record.number ≠ n := fun hx => hout (by rw [hx]; exact List.contains_iff_mem.mpr hn)
      have hij : i ≠ j := by
        rintro rfl
        rw [hi] at hd
        exact hne (Option.some.inj hd ▸ hnum)
      refine ⟨?_, hctx, by rw [closeContext_context, if_neg hij, hi], hnum⟩
      rw [closeContext_dirFind, hdir, hd]
      simp [hne]

theorem closeUnneeded_stored_needed {l : List ParcelNo} (hn : n ∈ l) :
    (closeUnneeded l j s).stored n = s.stored n := by
  unfold closeUnneeded
  split
  case h_2 => rfl
  case h_1 d hd =>
    split
    case isTrue => rfl
    case isFalse hout =>
      refine closeContext_stored_other fun c hc hx => hout ?_
      rw [hd] at hc
      rw [Option.some.inj hc, hx]
      exact List.contains_iff_mem.mpr hn

theorem burstClose_openWith (h : s.OpenWith n i e c) (hn : n ∈ needs s (arbiter s)) :
    (burstClose s).OpenWith n i e c := by
  unfold burstClose
  split
  · exact h
  · exact closeUnneeded_openWith (closeUnneeded_openWith h hn) hn

theorem burstClose_stored_needed (hn : n ∈ needs s (arbiter s)) : (burstClose s).stored n = s.stored n := by
  unfold burstClose
  split
  · rfl
  · rw [closeUnneeded_stored_needed hn, closeUnneeded_stored_needed hn]

theorem burstClose_dutyPending (s : State) : (burstClose s).eng.dutyPending = s.eng.dutyPending :=
  congrArg (fun x => x.eng.dutyPending) (burstClose_apart s)

/-- A second duty needs the parcels in whose directory entries it finds something due. -/
theorem needs_of_entryDue (hd : s.DutyChosen) (he : s.dirFind n = some e) (hdue : entryDue s e = true) :
    n ∈ needs s (arbiter s) := by
  rw [arbiter_duty hd]
  refine List.mem_append_left _ (List.mem_append_left _ (List.mem_map.mpr ⟨e, ?_, dirFind_number he⟩))
  exact List.mem_filter.mpr ⟨dirFind_mem he, hdue⟩

/-! ## The frame of a part -/

section Part

variable {k : Instr} {f : State → State} (hk : exec k = asService (dutyPart f)) (hh : s.sup.held = false)
  (hd : s.DutyChosen)
include hk hh hd

theorem exec_dutyPart : exec k s = .next ((f (burstClose s)).finishWrites.setStoreLog s.storeLog) := by
  rw [exec_asService hk hh]
  simp only [dutyPart, arbiter_duty hd]

/-- Under KEEP_OPEN a part that finds nothing to do changes nothing. -/
theorem exec_dutyPart_idle (hw : s.eng.dueWrites = []) (hp : s.sup.straps.policy = .keepOpen) (hf : f s = s) :
    exec k s = .next s := by
  rw [exec_dutyPart hk hh hd, burstClose_keepOpen hp, hf, finishWrites_none hw, State.setStoreLog_self]

/-- A part that changes its one open parcel, and marks it, leaves its record written through. -/
theorem exec_dutyPart_written (hw : s.eng.dueWrites = []) (h0 : n ≠ 0#4) (ho : s.OpenWith n i e c)
    (hn : n ∈ needs s (arbiter s)) (hs : (s.stored n).isSome = true)
    (hf : f (burstClose s) = u.withOpen n i F { record := r, dirty := true }) (hu : Beside n (burstClose s) u)
    (hm : n ∈ u.eng.dueWrites) (hF : KeepsPlace F) (hr : r.number = n) :
    ∃ t, exec k s = .next t ∧ t.working n = some r ∧ t.stored n = some (mkStored r) ∧ t.dirFind n = some (F e) ∧
      OthersKept (burstClose s) t n ∧ t.line = u.line ∧ t.acc = u.acc ∧ t.port = u.port ∧ t.counters = u.counters ∧
      t.eng.dutyPending = u.eng.dutyPending ∧ t.eng.buf0 = u.eng.buf0 ∧ t.eng.buf1 = u.eng.buf1 := by
  have hob : (burstClose s).OpenWith n i e c := burstClose_openWith ho hn
  have hou : u.OpenWith n i e c := hob.congr hu.records
  have hopen := withOpen_open (b := true) hou hF hr
  have hstored : ((u.withOpen n i F { record := r, dirty := true }).stored n).isSome = true := by
    have heq : (u.withOpen n i F { record := r, dirty := true }).stored n = u.stored n := by cases i <;> rfl
    rw [heq, hu.records.stored, burstClose_stored_needed hn, hs]
  have hdue : ∀ m, m ∈ (u.withOpen n i F { record := r, dirty := true }).eng.dueWrites ↔ m = n := by
    have heq : (u.withOpen n i F { record := r, dirty := true }).eng.dueWrites = u.eng.dueWrites := by cases i <;> rfl
    rw [heq]
    exact hu.due_iff ((apart_due (burstClose_apart s)).trans hw) hm
  obtain ⟨v, hv, hvo, hvs, hvk, hline, hacc, hport, hcounters, -, -, -, -, -, -, h0', h1', hpend⟩ :=
    finishWrites_one h0 hdue hopen rfl hstored
  refine ⟨_, exec_dutyPart hk hh hd, ?_⟩
  rw [hf, hv]
  have hlog := setStoreLog_sameRecords v s.storeLog
  refine ⟨(hlog.working n).trans hvo.working, (hlog.stored n).trans hvs, (hlog.dirFind n).trans hvo.1, ?_, hline, hacc,
    hport, hcounters, hpend.trans ?_, h0'.trans ?_, h1'.trans ?_⟩
  · exact (hu.records.othersKept n).trans ((withOpen_othersKept hou hF hr).trans (hvk.trans (hlog.othersKept n)))
  · cases i <;> rfl
  · cases i <;> rfl
  · cases i <;> rfl

/-- A part that changes its one open parcel, and marks none, leaves its record in the context. -/
theorem exec_dutyPart_unwritten (hw : s.eng.dueWrites = []) (ho : s.OpenWith n i e c) (hn : n ∈ needs s (arbiter s))
    (hf : f (burstClose s) = u.withOpen n i F { record := r, dirty := b }) (hu : Beside n (burstClose s) u)
    (hm : n ∉ u.eng.dueWrites) (hF : KeepsPlace F) (hr : r.number = n) :
    ∃ t, exec k s = .next t ∧ t.working n = some r ∧ t.dirFind n = some (F e) ∧ t.line = u.line ∧ t.acc = u.acc ∧
      t.port = u.port ∧ t.counters = u.counters ∧ t.eng.dutyPending = u.eng.dutyPending := by
  have hou : u.OpenWith n i e c := (burstClose_openWith ho hn).congr hu.records
  have hdue : (u.withOpen n i F { record := r, dirty := b }).eng.dueWrites = [] := by
    have heq : (u.withOpen n i F { record := r, dirty := b }).eng.dueWrites = u.eng.dueWrites := by cases i <;> rfl
    rw [heq]
    exact hu.due_nil ((apart_due (burstClose_apart s)).trans hw) hm
  refine ⟨_, exec_dutyPart hk hh hd, ?_⟩
  rw [hf, finishWrites_none hdue]
  have hlog := setStoreLog_sameRecords (u.withOpen n i F { record := r, dirty := b }) s.storeLog
  refine ⟨(hlog.working n).trans (withOpen_working hou hF hr), (hlog.dirFind n).trans (withOpen_open (b := b) hou hF hr).1,
    rfl, rfl, rfl, rfl, ?_⟩
  cases i <;> rfl

/-- A part whose work opens the parcel first acts after the turnaround. -/
theorem actsAfterTurnaround_part (hp : s.sup.straps.policy = .keepOpen) (hf : f (s.openParcel n) = f s) :
    ActsAfterTurnaround k s n := by
  intro e p he hc hs hv
  obtain ⟨-, -, -, -, hsup, -, -, -, hcheck, hduty, -⟩ := openParcel_rest s n
  have hd' : (s.openParcel n).DutyChosen := ⟨hcheck.trans hd.1, hduty.trans hd.2⟩
  refine ⟨s.openParcel n, _, openParcel_turned he hc hs hv, exec_dutyPart hk (by rw [hsup, hh]) hd', ?_⟩
  rw [exec_dutyPart hk hh hd, burstClose_keepOpen hp, burstClose_keepOpen (by rw [hsup, hp]), hf]
  rfl

end Part

/-- An opening changes nothing that a test of the second duty looks at. -/
theorem openParcel_sees (he : s.dirFind n = some e) :
    ∃ d, (s.openParcel n).dirFind n = some d ∧ d.closed = e.closed ∧ (s.openParcel n).now = s.now ∧
      (s.openParcel n).eng.windowRestart = s.eng.windowRestart := by
  obtain ⟨-, -, htmr, -, -, -, -, -, -, -, -, -, hrestart⟩ := openParcel_rest s n
  have hentry := openParcel_entry s n
  rw [he] at hentry
  obtain ⟨d, hd, hclosed⟩ := Option.map_eq_some_iff.mp hentry
  exact ⟨d, hd, hclosed, congrArg PublicationTimer.seconds htmr, hrestart⟩

/-! ## WINDOW_EXPIRY (R78) -/

theorem expireWindow_due (he : s.dirFind n = some e) (hr : s.eng.windowRestart = false) (hx : expiryDue s.now e = true) :
    expireWindow n s = enterLapsed n (s.openParcel n) := by
  simp only [expireWindow, he, hr, hx]
  rfl

theorem expireWindow_idle (h : ∀ e, s.dirFind n = some e → s.eng.windowRestart = true ∨ expiryDue s.now e = false) :
    expireWindow n s = s := by
  unfold expireWindow
  split
  case h_1 e he =>
    obtain hr | hx := h e he
    · simp [hr]
    · simp [hx]
  case h_2 => rfl

theorem expireWindow_opens (he : s.dirFind n = some e) (hr : s.eng.windowRestart = false)
    (hx : expiryDue s.now e = true) : expireWindow n (s.openParcel n) = expireWindow n s := by
  obtain ⟨d, hd, hclosed, hnow, hrestart⟩ := openParcel_sees he
  rw [expireWindow_due he hr hx, expireWindow_due hd (hrestart.trans hr), openParcel_openParcel]
  rw [hnow, (expiryDue_of_closed hclosed).1, hx]

theorem enterLapsed_form (h : s.OpenWith n i e c) :
    enterLapsed n (s.touch i) = ((s.post (.parcelState n (some .lapsed) c.record.round none .other)).markWrite n).withOpen
      n i (fun d => { d.copyFrom { c.record with state := .lapsed, windowStart := none } with halfDone := false })
      { record := { c.record with state := .lapsed, windowStart := none }, dirty := true } := by
  obtain ⟨-, -, -, hnum⟩ := id h
  rw [enterLapsed, h.form,
    withOpen_changeState (b := c.dirty) h keepsPlace_id hnum (fun r => { r with state := .lapsed, windowStart := none }) hnum,
    withOpen_setHalf _ _ _ _ (keepsPlace_id.copy _)]
  subst hnum
  rfl

/-- The window test by the fields of the directory entry. -/
theorem expiryDue_iff {now : Second} {e : DirEntry} : expiryDue now e = true ↔
    (e.state = .closing ∨ e.state = .reconciled) ∧ ∃ w len, e.windowStart = some w ∧ e.windowLength = some len ∧
      len ≤ (now - w).toNat := by
  rw [expiryDue, Bool.and_eq_true, inWindow_iff, windowElapsed]
  refine and_congr_right fun _ => ?_
  cases e.windowStart with
  | none => simp
  | some w =>
    cases e.windowLength with
    | none => simp
    | some len =>
      simp only [Option.some.injEq, exists_and_left, exists_eq_left', decide_eq_true_eq]
      rfl

/-- Settles O32. -/
theorem windowExpiryLapsesTheParcel : Obligations.WindowExpiryLapsesTheParcel := by
  intro n i r e s hh hd hw
  have hk : exec (.windowExpiry n) = asService (dutyPart (expireWindow n)) := rfl
  refine ⟨fun hp => ⟨fun hnone => ?_, fun he hnot => ?_, fun he hr hx => ?_⟩,
    fun w len hr h0 he hopen hs hst hstart hlen hrun => ?_⟩
  · refine exec_dutyPart_idle hk hh hd hw hp (expireWindow_idle fun e he => ?_)
    rw [hnone] at he
    cases he
  · refine exec_dutyPart_idle hk hh hd hw hp (expireWindow_idle fun e' he' => ?_)
    obtain rfl := Option.some.inj (he.symm.trans he')
    obtain hr | hnot := hnot
    · exact .inl hr
    · refine .inr (Bool.eq_false_iff.mpr fun hx => ?_)
      obtain ⟨hst, w, len, hstart, hlen, hrun⟩ := expiryDue_iff.mp hx
      obtain ⟨h1, h2⟩ | hnone | ⟨w', len', hw', hlen', hrun'⟩ := hnot
      · exact hst.elim h1 h2
      · rw [hstart] at hnone
        cases hnone
      · rw [hstart] at hw'
        rw [hlen] at hlen'
        cases hw'
        cases hlen'
        exact absurd hrun (Nat.not_le.mpr hrun')
  · exact actsAfterTurnaround_part hk hh hd hp (expireWindow_opens he hr hx)
  · have hx : expiryDue s.tmr.seconds e = true := expiryDue_iff.mpr ⟨hst, w, len, hstart, hlen, hrun⟩
    obtain ⟨e', c, ho, rfl, -⟩ := hopen.with
    obtain ⟨hdir, -, -, hnum⟩ := id ho
    obtain rfl := Option.some.inj (he.symm.trans hdir)
    have hneed := needs_of_entryDue hd he (by simp [entryDue, hr, State.now, hx])
    have hapart := burstClose_apart s
    have hob := burstClose_openWith ho hneed
    have hf : expireWindow n (burstClose s) = _ :=
      (expireWindow_due hob.1 ((apart_restart hapart).trans hr)
        (by rw [State.now, apart_tmr hapart]; exact hx)).trans
        ((congrArg _ hob.open_eq).trans (enterLapsed_form hob))
    obtain ⟨t, ht, hwork, hstored, hentry, -, hline, hacc, hport, hcounters, hpend, -⟩ :=
      exec_dutyPart_written hk hh hd hw h0 ho hneed hs hf ((Beside.post _).trans .markWrite) (Beside.mem_markWrite _ _)
        ((keepsPlace_id.copy _).half false) hnum
    refine ⟨t, ht, hwork, hstored, ⟨_, hentry, rfl, rfl, rfl, rfl⟩, ?_, ?_, ?_, ?_⟩
    · exact (posted_post s (burstClose s) _ (apart_port hapart) (congrArg _ (apart_counters hapart))
        (congrArg _ (apart_tmr hapart))).congr hport (congrArg _ hcounters)
    · exact hline.trans ((post_line _ _).trans (apart_line hapart))
    · exact hacc.trans ((post_acc _ _).trans (apart_acc hapart))
    · refine hpend.trans ?_
      show ((burstClose s).post _).eng.dutyPending = true
      rw [post_eng]
      rw [burstClose_dutyPending, hd.2]

/-! ## PERSISTENCE_RUN_OUT (R69) -/

theorem persistenceDue_iff {now : Second} {e : DirEntry} : persistenceDue now e = true ↔
    e.state = .transfer ∧ ∃ c, e.persistence = some c ∧ c.persistence ≤ (now - c.since).toNat := by
  rw [persistenceDue, Bool.and_eq_true, beq_iff_eq]
  refine and_congr_right fun _ => ?_
  cases e.persistence with
  | none => simp
  | some c =>
    simp only [Option.some.injEq, exists_eq_left', persistenceRunsOut, decide_eq_true_eq]
    rfl

theorem persistenceTest_due (he : s.dirFind n = some e) (hx : persistenceDue s.now e = true) :
    persistenceTest n s = testPersistence n (s.openParcel n) := by
  simp only [persistenceTest, he, hx, if_true]

theorem persistenceTest_idle (h : ∀ e, s.dirFind n = some e → persistenceDue s.now e = false) :
    persistenceTest n s = s := by
  unfold persistenceTest
  split
  case h_1 e he => simp [h e he]
  case h_2 => rfl

theorem persistenceTest_opens (he : s.dirFind n = some e) (hx : persistenceDue s.now e = true) :
    persistenceTest n (s.openParcel n) = persistenceTest n s := by
  obtain ⟨d, hd, hclosed, hnow, -⟩ := openParcel_sees he
  rw [persistenceTest_due he hx, persistenceTest_due hd, openParcel_openParcel]
  rw [hnow, (expiryDue_of_closed hclosed).2.2, hx]

theorem testPersistence_runsOut {p : PersistenceCopy} (he : s.dirFind n = some e) (hp : e.persistence = some p)
    (hx : p.persistence ≤ (s.tmr.seconds - p.since).toNat) :
    testPersistence n s = moveAlarm n (p.tag == .condition) s := by
  simp only [testPersistence, he, hp, persistenceRunsOut]
  exact if_pos (decide_eq_true hx)

theorem heldDelta_eq (r : ParcelRecord) : heldDelta r = (r.running.map RunningFigure.delta).getD 0#32 := by
  unfold heldDelta
  cases r.running <;> rfl

/-- The ALARM DIVERGENCE frame of a record by its bytes (R70). -/
theorem alarmFrame_eq (s : State) (n : ParcelNo) (r : ParcelRecord) : alarmFrame s n r =
    { key := mkKey .alarm s.sup.straps.station n 0#6
      payload := [0#8, if r.alarm.raised then 1#8 else 0#8] ++ be32 ((r.running.map RunningFigure.delta).getD 0#32) } := by
  rw [← heldDelta_eq]
  rfl

theorem isRefused_eq (a : Answer) : a.isRefused = (decide (a = .queueFull) || decide (a = .silenced)) := by
  cases a <;> rfl

/-- Settles O34. -/
theorem persistenceRunOutMovesTheAlarm : Obligations.PersistenceRunOutMovesTheAlarm := by
  intro n e s hh hd hw
  have hk : exec (.persistenceRunOut n) = asService (dutyPart (persistenceTest n)) := rfl
  refine ⟨fun hp => ⟨fun hnone => ?_, fun he hnot => ?_⟩, fun p h0 he hst hpers hrun => ?_⟩
  · refine exec_dutyPart_idle hk hh hd hw hp (persistenceTest_idle fun e he => ?_)
    rw [hnone] at he
    cases he
  · refine exec_dutyPart_idle hk hh hd hw hp (persistenceTest_idle fun e' he' => Bool.eq_false_iff.mpr fun hx => ?_)
    obtain rfl := Option.some.inj (he.symm.trans he')
    obtain ⟨hst, c, hc, hrun⟩ := persistenceDue_iff.mp hx
    obtain h | hnone | ⟨c', hc', hrun'⟩ := hnot
    · exact h hst
    · rw [hc] at hnone
      cases hnone
    · rw [hc] at hc'
      cases hc'
      exact absurd hrun (Nat.not_le.mpr hrun')
  · have hx : persistenceDue s.tmr.seconds e = true := persistenceDue_iff.mpr ⟨hst, p, hpers, hrun⟩
    refine ⟨fun hp => actsAfterTurnaround_part hk hh hd hp (persistenceTest_opens he hx), fun i r hopen hs => ?_⟩
    obtain ⟨e', c, ho, rfl, -⟩ := hopen.with
    obtain ⟨hdir, -, -, hnum⟩ := id ho
    obtain rfl := Option.some.inj (he.symm.trans hdir)
    have hneed := needs_of_entryDue hd he (by simp [entryDue, State.now, hx])
    have hapart := burstClose_apart s
    have hob := burstClose_openWith ho hneed
    intro raised delta o refused record
    have hseconds : (burstClose s).tmr.seconds = s.tmr.seconds := congrArg _ (apart_tmr hapart)
    have htag : (p.tag == .condition) = raised := by
      show _ = decide _
      cases p.tag <;> rfl
    have hf : persistenceTest n (burstClose s) = _ :=
      (persistenceTest_due hob.1 (by rw [State.now, hseconds]; exact hx)).trans
        ((congrArg _ hob.open_eq).trans
          ((testPersistence_runsOut (((touch_sameRecords _ _).dirFind n).trans hob.1) hpers
            (by rw [show ((burstClose s).touch i).tmr = (burstClose s).tmr from rfl, hseconds]; exact hrun)).trans
            ((congrArg _ hob.form).trans (moveAlarm_form (b := c.dirty) hob keepsPlace_id hnum (p.tag == .condition)))))
    rw [htag] at hf
    simp only [alarmFrame_eq, apart_sup hapart, heldDelta_eq, id_eq] at hf
    obtain ⟨hanswer, hqueue⟩ := offer_line_congr
      { key := mkKey .alarm s.sup.straps.station n 0#6, payload := [0#8, if raised then 1#8 else 0#8] ++ be32 delta }
      false (apart_line hapart)
    obtain ⟨t, ht, hwork, hstored, -, -, hline, hacc, hport, hcounters, hpend, -⟩ :=
      exec_dutyPart_written hk hh hd hw h0 ho hneed hs hf (((Beside.offer _ _).trans (.post _)).trans .markWrite)
        (Beside.mem_markWrite _ _) (keepsPlace_id.copy _) hnum
    have hrecord : { c.record with
        alarm := { conditionSince := none, raised := raised, clearSince := none }
        alarmOwed := (offer
          { key := mkKey .alarm s.sup.straps.station n 0#6
            payload := [0#8, if raised then 1#8 else 0#8] ++ be32 delta } false (burstClose s)).1.isRefused } = record := by
      rw [hanswer, isRefused_eq]
    rw [hrecord] at hwork hstored
    refine ⟨t, ht, hwork, hstored, ?_, ?_, ?_, ?_⟩
    · exact hline.trans ((post_line _ _).trans hqueue)
    · have hfate : fateOf (offer
          { key := mkKey .alarm s.sup.straps.station n 0#6
            payload := [0#8, if raised then 1#8 else 0#8] ++ be32 delta } false (burstClose s)).1 =
          if refused then .refused else .admitted := by
        rw [hanswer, fateOf, isRefused_eq]
      rw [hfate] at hport hcounters
      exact (posted_post s _ _ ((offer_port _ _ _).trans (apart_port hapart))
        ((offer_noticesLost _ _ _).trans (congrArg _ (apart_counters hapart)))
        ((congrArg _ (offer_tmr _ _ _)).trans hseconds)).congr hport (congrArg _ hcounters)
    · exact hacc.trans ((post_acc _ _).trans ((offer_acc _ _ _).trans (apart_acc hapart)))
    · refine hpend.trans ?_
      show (State.post _ _).eng.dutyPending = true
      rw [post_eng, offer_eng, burstClose_dutyPending, hd.2]

end Sys2Proof.Machine

/-! SUPPORT. The half-window pass (file 05, R79 to R81): its REQUESTs as a fold of offers, the form in which they leave
the parcel, and with them the statement on HALF_WINDOW_PASS. -/

namespace Sys2Proof.Machine

variable {s t u : State} {n : ParcelNo} {i : ContextId} {e : DirEntry} {c : OpenContext} {r : ParcelRecord} {b : Bool}
  {F : DirEntry → DirEntry}

/-! ## One REQUEST and a list of them -/

/-- The item of an index lacks its closing value and has not been asked for. -/
def missingAt (r : ParcelRecord) (k : Nat) : Bool :=
  match r.roster[k]? with
  | some x => x.closing.isNone && !x.requestIssued
  | none => false

/-- The REQUEST for the item of an index (R80). -/
def requestAt (s : State) (n : ParcelNo) (r : ParcelRecord) (k : Nat) : OfferedFrame :=
  { key := mkKey .request s.sup.straps.station n (BitVec.ofNat 6 k)
    payload := (match r.roster[k]? with
      | some x => [byte6 x.station, byte6 x.item, 2#8, BitVec.ofNat 8 r.round]
      | none => []) }

/-- One REQUEST offered; an index that the queue does not refuse is noted. -/
def askOne (request : Nat → OfferedFrame) (x : State × List Nat) (k : Nat) : State × List Nat :=
  ((offer (request k) false x.1).2, if (offer (request k) false x.1).1.isRefused then x.2 else x.2 ++ [k])

/-- REQUESTs offered in order. -/
def askAll (request : Nat → OfferedFrame) (s : State) (ks : List Nat) : State × List Nat :=
  ks.foldl (askOne request) (s, [])

/-- The record once the REQUESTs of some indices have been issued. -/
def issued (r : ParcelRecord) (l : List Nat) : ParcelRecord :=
  { r with roster := r.roster.mapIdx (fun k x => if k ∈ l then { x with requestIssued := true } else x) }

theorem askAll_append (request : Nat → OfferedFrame) (s : State) (ks : List Nat) (k : Nat) :
    askAll request s (ks ++ [k]) = askOne request (askAll request s ks) k := by
  rw [askAll, List.foldl_append]
  rfl

/-- Offers change the line and the counters alone. -/
theorem askAll_outside (request : Nat → OfferedFrame) (s : State) (ks : List Nat) : (askAll request s ks).1 =
    s.withOutside (askAll request s ks).1.line s.tmr (askAll request s ks).1.counters := by
  induction ks using List.reverseRecOn with
  | nil => rfl
  | append_singleton ks k ih =>
    rw [askAll_append]
    generalize askAll request s ks = x at ih
    have hstep := congrArg (fun z : State =>
      z.withOutside (offer (request k) false x.1).2.line z.tmr (offer (request k) false x.1).2.counters) ih
    exact (offer_withOutside (request k) false x.1).trans hstep

/-- Offers look at nothing that the records show. -/
theorem askAll_withRecords (request : Nat → OfferedFrame) (s : State) (ks : List Nat) (x y l) :
    askAll request (s.withRecords x y l) ks =
      ((askAll request s ks).1.withRecords x y l, (askAll request s ks).2) := by
  induction ks using List.reverseRecOn with
  | nil => rfl
  | append_singleton ks k ih =>
    have hanswer : (offer (request k) false ((askAll request s ks).1.withRecords x y l)).1 =
        (offer (request k) false (askAll request s ks).1).1 := (offer_line_congr (t := (askAll request s ks).1.withRecords x y l)
          (s := (askAll request s ks).1) (request k) false rfl).1
    rw [askAll_append, askAll_append, ih, askOne, askOne, offer_withRecords]
    dsimp only
    rw [hanswer]

theorem issued_getElem? {l : List Nat} {k : Nat} (h : k ∉ l) : (issued r l).roster[k]? = r.roster[k]? := by
  rw [issued, List.getElem?_mapIdx]
  simp [h]

theorem issued_nil (r : ParcelRecord) : issued r [] = r := by
  have hroster : r.roster.mapIdx (fun k x => if k ∈ ([] : List Nat) then { x with requestIssued := true } else x) =
      r.roster := by
    refine List.ext_getElem? fun j => ?_
    rw [List.getElem?_mapIdx]
    cases r.roster[j]? <;> simp
  rw [issued, hroster]

theorem issued_append (r : ParcelRecord) (l : List Nat) (k : Nat) : issued r (l ++ [k]) =
    { issued r l with roster := updateItem k (fun x => { x with requestIssued := true }) (issued r l).roster } := by
  have hroster : (issued r (l ++ [k])).roster =
      updateItem k (fun x => { x with requestIssued := true }) (issued r l).roster := by
    refine List.ext_getElem? fun j => ?_
    rw [updateItem, List.getElem?_modify, issued, issued, List.getElem?_mapIdx, List.getElem?_mapIdx]
    cases r.roster[j]? with
    | none => simp
    | some x =>
      by_cases hj : k = j
      · subst hj
        simp only [List.mem_append, List.mem_singleton, or_true, if_true, Option.map_some]
        split
        · rfl
        · rfl
      · simp [hj, Ne.symm hj]
  rw [← hroster]
  rfl

/-! ## The pass in the form of a service -/

/-- One REQUEST of the pass for an item that has not been judged yet. -/
theorem offerRequest_form {l : List Nat} {k : Nat} (h : u.OpenWith n i e c) (hF : KeepsPlace F) (hr : r.number = n)
    (hk : k ∉ l) :
    ∃ F' b', offerRequest n (u.withOpen n i F { record := issued r l, dirty := b }) k =
        (if missingAt r k then askOne (requestAt u n r) (u, l) k else (u, l)).1.withOpen n i F'
          { record := issued r (if missingAt r k then askOne (requestAt u n r) (u, l) k else (u, l)).2, dirty := b' } ∧
      KeepsPlace F' ∧ ((F' e).halfDone = (F e).halfDone) ∧ ((F e).state = r.state → (F' e).state = r.state) := by
  have hnum : (issued r l).number = n := hr
  rw [offerRequest, withOpen_working h hF hnum]
  dsimp only
  rw [issued_getElem? hk]
  cases hx : r.roster[k]? with
  | none =>
    have hm : missingAt r k = false := by simp only [missingAt, hx]
    refine ⟨F, b, ?_, hF, rfl, id⟩
    rw [hm]
    rfl
  | some x =>
    have hm : missingAt r k = (x.closing.isNone && !x.requestIssued) := by simp only [missingAt, hx]
    dsimp only
    rw [← hm]
    by_cases hmiss : missingAt r k = true
    · rw [if_pos hmiss, if_pos hmiss]
      have hframe : ownFrame (u.withOpen n i F { record := issued r l, dirty := b }) .request n (BitVec.ofNat 6 k)
          (requestPayload (issued r l).round x) = requestAt u n r k := by
        rw [requestAt, hx]
        cases i <;> rfl
      rw [hframe, withOpen_offer]
      dsimp only
      by_cases href : (offer (requestAt u n r k) false u).1.isRefused = true
      · refine ⟨F, b, ?_, hF, rfl, id⟩
        rw [if_pos href, askOne]
        simp only [href, if_true]
      · refine ⟨fun d => (F d).copyFrom (issued r (l ++ [k])), true, ?_, hF.copy _, rfl, fun _ => rfl⟩
        rw [if_neg href, askOne, State.setItem, withOpen_modify (h.congr (offer_sameRecords _ _ _)) hF hnum]
        simp only [href, if_false, Bool.false_eq_true, issued_append]
    · rw [if_neg hmiss, if_neg hmiss]
      exact ⟨F, b, rfl, hF, rfl, id⟩

/-- The REQUESTs of the first indices, in the form of a service. -/
theorem offerRequests_form (h : u.OpenWith n i e c) (hF : KeepsPlace F) (hr : r.number = n)
    (hst : (F e).state = r.state) (k : Nat) :
    let asked := askAll (requestAt u n r) u ((List.range k).filter (missingAt r))
    (∀ j ∈ asked.2, j < k) ∧ ∃ F' b',
      (List.range k).foldl (offerRequest n) (u.withOpen n i F { record := r, dirty := b }) =
        asked.1.withOpen n i F' { record := issued r asked.2, dirty := b' } ∧
      KeepsPlace F' ∧ (F' e).halfDone = (F e).halfDone ∧ (F' e).state = r.state := by
  induction k with
  | zero =>
    intro asked
    refine ⟨fun j hj => absurd hj List.not_mem_nil, F, b, ?_, hF, rfl, hst⟩
    show _ = State.withOpen u n i F { record := issued r [], dirty := b }
    rw [issued_nil]
    rfl
  | succ k ih =>
    obtain ⟨hlt, G, d, hfold, hG, hhalf, hstate⟩ := ih
    have hout := askAll_outside (requestAt u n r) u ((List.range k).filter (missingAt r))
    generalize hasked : askAll (requestAt u n r) u ((List.range k).filter (missingAt r)) = asked at *
    have hopen : asked.1.OpenWith n i e c := by
      rw [hout]
      exact h.congr ⟨rfl, fun j => by cases j <;> rfl, rfl⟩
    have hreq : requestAt asked.1 n r = requestAt u n r := by
      rw [hout]
      rfl
    obtain ⟨F', b', hstep, hF', hhalf', hstate'⟩ :=
      offerRequest_form (b := d) hopen hG hr (fun hk => absurd (hlt k hk) (Nat.lt_irrefl k))
    have hnext : askAll (requestAt u n r) u ((List.range (k + 1)).filter (missingAt r)) =
        if missingAt r k then askOne (requestAt asked.1 n r) (asked.1, asked.2) k else (asked.1, asked.2) := by
      rw [List.range_succ, List.filter_append, hreq]
      by_cases hm : missingAt r k = true
      · rw [if_pos hm, List.filter_cons_of_pos hm, List.filter_nil, askAll_append, hasked]
      · rw [if_neg hm, List.filter_cons_of_neg hm, List.filter_nil, List.append_nil, hasked]
    intro next
    rw [show next = _ from hnext]
    refine ⟨fun j hj => ?_, F', b', ?_, hF', hhalf'.trans hhalf, hstate' hstate⟩
    · split at hj
      · simp only [askOne] at hj
        split at hj
        · exact (hlt j hj).trans (Nat.lt_succ_self k)
        · obtain hj | hj := List.mem_append.mp hj
          · exact (hlt j hj).trans (Nat.lt_succ_self k)
          · rw [List.mem_singleton.mp hj]
            exact Nat.lt_succ_self k
      · exact (hlt j hj).trans (Nat.lt_succ_self k)
    · rw [List.range_succ, List.foldl_append, hfold]
      exact hstep

/-! ## An empty queue -/

theorem requestAt_key_inj {j k : Nat} (hj : j < 64) (hk : k < 64) (h : (requestAt s n r j).key = (requestAt s n r k).key) :
    j = k := by
  have hitem := congrArg keyItem h
  simp only [requestAt, keyItem_mkKey] at hitem
  have hnat := congrArg BitVec.toNat hitem
  simp only [BitVec.toNat_ofNat] at hnat
  omega

/-- With an empty queue that is not silenced, up to ten REQUESTs are all admitted. -/
theorem askAll_admitted (hs : s.line.silenced = false) (hq : s.line.outbound = []) (ks : List Nat) (hd : ks.Nodup)
    (hlt : ∀ k ∈ ks, k < 64) (hlen : ks.length ≤ 10) : askAll (requestAt s n r) s ks =
      (s.setOutbound (ks.map (fun k => newQueued (requestAt s n r k) false)), ks) := by
  induction ks using List.reverseRecOn with
  | nil =>
    show (s, ([] : List Nat)) = _
    rw [List.map_nil, ← hq]
    rfl
  | append_singleton ks k ih =>
    obtain ⟨hd', -, hfresh⟩ := List.nodup_append.mp hd
    rw [List.length_append, List.length_singleton] at hlen
    rw [askAll_append, ih hd' (fun j hj => hlt j (List.mem_append_left _ hj)) (by omega), askOne]
    have hnotin : (requestAt s n r k).key ∉
        (ks.map (fun k => newQueued (requestAt s n r k) false)).map QueuedFrame.key := by
      rw [List.map_map]
      intro hin
      obtain ⟨j, hj, hkey⟩ := List.mem_map.mp hin
      exact hfresh j hj k (List.mem_singleton_self k) (requestAt_key_inj (hlt j (List.mem_append_left _ hj))
        (hlt k (List.mem_append_right _ (List.mem_singleton_self k))) hkey)
    have hroom : (ks.map (fun k => newQueued (requestAt s n r k) false)).length < 10 := by
      rw [List.length_map]
      omega
    have hoffer := offer_admitted (f := requestAt s n r k) (listed := false)
      (s := s.setOutbound (ks.map (fun k => newQueued (requestAt s n r k) false))) hs hnotin hroom
    dsimp only
    rw [hoffer, List.map_append]
    rfl

/-! ## HALF_WINDOW_PASS -/

theorem isRefused_iff (a : Answer) : a.isRefused = true ↔ a = .queueFull ∨ a = .silenced := by
  cases a <;> decide

/-- Every item without a closing value has been asked for once the missing ones have. -/
theorem issued_missing (r : ParcelRecord) : issued r ((List.range r.roster.length).filter (missingAt r)) =
    { r with roster := r.roster.map (fun x => if x.closing.isNone then { x with requestIssued := true } else x) } := by
  have hroster : (issued r ((List.range r.roster.length).filter (missingAt r))).roster =
      r.roster.map (fun x => if x.closing.isNone then { x with requestIssued := true } else x) := by
    refine List.ext_getElem? fun j => ?_
    rw [issued, List.getElem?_mapIdx, List.getElem?_map]
    cases hx : r.roster[j]? with
    | none => rfl
    | some x =>
      have hlt : j < r.roster.length := (List.getElem?_eq_some_iff.mp hx).1
      have hm : missingAt r j = (x.closing.isNone && !x.requestIssued) := by simp only [missingAt, hx]
      simp only [Option.map_some, List.mem_filter, List.mem_range, hlt, true_and, hm]
      obtain ⟨station, item, role, binding, latest, opening, closing, requested⟩ := x
      cases closing <;> cases requested <;> rfl
  rw [← hroster]
  rfl

theorem halfDue_iff {now : Second} {e : DirEntry} : halfDue now e = true ↔
    e.state = .closing ∧ e.halfDone = false ∧ ∃ w len, e.windowStart = some w ∧ e.windowLength = some len ∧
      len / 2 ≤ (now - w).toNat := by
  rw [halfDue, Bool.and_eq_true, Bool.and_eq_true, beq_iff_eq, Bool.not_eq_true', and_assoc, windowElapsed]
  refine and_congr_right fun _ => and_congr_right fun _ => ?_
  cases e.windowStart with
  | none => simp
  | some w =>
    cases e.windowLength with
    | none => simp
    | some len =>
      simp only [Option.some.injEq, exists_and_left, exists_eq_left', decide_eq_true_eq]
      rfl

theorem passHalf_acts (he : s.dirFind n = some e) (hr : s.eng.windowRestart = false) (hx : expiryDue s.now e = false)
    (hhalf : halfDue s.now e = true) : passHalf n s = offerRequests n ((s.openParcel n).setHalf n true) := by
  simp only [passHalf, he, hr, hx, hhalf]
  rfl

theorem passHalf_idle (h : ∀ e, s.dirFind n = some e →
    s.eng.windowRestart = true ∨ expiryDue s.now e = true ∨ halfDue s.now e = false) : passHalf n s = s := by
  unfold passHalf
  split
  case h_1 e he =>
    obtain hr | hx | hx := h e he
    · simp [hr]
    · simp [hx]
    · simp [hx]
  case h_2 => rfl

theorem passHalf_opens (he : s.dirFind n = some e) (hr : s.eng.windowRestart = false) (hx : expiryDue s.now e = false)
    (hhalf : halfDue s.now e = true) : passHalf n (s.openParcel n) = passHalf n s := by
  obtain ⟨d, hd, hclosed, hnow, hrestart⟩ := openParcel_sees he
  obtain ⟨h1, h2, -⟩ := expiryDue_of_closed (now := s.now) hclosed
  rw [passHalf_acts he hr hx hhalf, passHalf_acts hd (hrestart.trans hr) (by rw [hnow, h1, hx]) (by rw [hnow, h2, hhalf]),
    openParcel_openParcel]

/-- The pass of an open parcel. -/
theorem offerRequests_open (h : s.OpenWith n i e c) : offerRequests n ((s.openParcel n).setHalf n true) =
    (List.range c.record.roster.length).foldl (offerRequest n)
      (s.withOpen n i (fun d => { d with halfDone := true }) { record := c.record, dirty := c.dirty }) := by
  obtain ⟨-, -, -, hnum⟩ := id h
  rw [h.open_eq, h.form, withOpen_setHalf _ _ _ _ keepsPlace_id]
  have hwork := withOpen_working (b := c.dirty) h (keepsPlace_id.half true) hnum
  simp only [id_eq] at hwork ⊢
  rw [offerRequests, hwork]

/-- Settles O33. -/
theorem halfWindowPassAsksForTheMissing : Obligations.HalfWindowPassAsksForTheMissing := by
  intro n e s hh hd hw
  have hk : exec (.halfWindowPass n) = asService (dutyPart (passHalf n)) := rfl
  refine ⟨fun hp => ⟨fun hnone => ?_, fun he hnot => ?_⟩, fun w len hr he hst hdone hstart hlen hbefore hrun => ?_⟩
  · refine exec_dutyPart_idle hk hh hd hw hp (passHalf_idle fun e he => ?_)
    rw [hnone] at he
    cases he
  · refine exec_dutyPart_idle hk hh hd hw hp (passHalf_idle fun e' he' => ?_)
    obtain rfl := Option.some.inj (he.symm.trans he')
    by_cases hhalf : halfDue s.tmr.seconds e = true
    · obtain ⟨hst, hdone, w, len, hstart, hlen, hrun⟩ := halfDue_iff.mp hhalf
      obtain hr | h | h | h | h | ⟨w', len', hw', hlen', hrun'⟩ := hnot
      · exact .inl hr
      · exact absurd hst h
      · exact absurd h (by rw [hdone]; decide)
      · rw [hstart] at h
        cases h
      · rw [hlen] at h
        cases h
      · rw [hstart] at hw'
        rw [hlen] at hlen'
        cases hw'
        cases hlen'
        obtain hrun' | hrun' := hrun'
        · exact absurd hrun (Nat.not_le.mpr hrun')
        · exact .inr (.inl (expiryDue_iff.mpr ⟨.inl hst, w, len, hstart, hlen, hrun'⟩))
    · exact .inr (.inr (Bool.eq_false_iff.mpr hhalf))
  · have hx : expiryDue s.tmr.seconds e = false := Bool.eq_false_iff.mpr fun hx => by
      obtain ⟨-, w', len', hw', hlen', hrun'⟩ := expiryDue_iff.mp hx
      rw [hstart] at hw'
      rw [hlen] at hlen'
      cases hw'
      cases hlen'
      exact absurd hbefore (Nat.not_lt.mpr hrun')
    have hhalf : halfDue s.tmr.seconds e = true := halfDue_iff.mpr ⟨hst, hdone, w, len, hstart, hlen, hrun⟩
    refine ⟨fun hp => actsAfterTurnaround_part hk hh hd hp (passHalf_opens he hr hx hhalf),
      fun i r hopen hstate hlen16 => ?_⟩
    intro missing request asked
    obtain ⟨e', c, ho, rfl, -⟩ := hopen.with
    obtain ⟨hdir, -, -, hnum⟩ := id ho
    obtain rfl := Option.some.inj (he.symm.trans hdir)
    have hneed := needs_of_entryDue hd he (by simp [entryDue, hr, State.now, hhalf])
    have hapart := burstClose_apart s
    have hob := burstClose_openWith ho hneed
    have hseconds : (burstClose s).now = s.tmr.seconds := congrArg PublicationTimer.seconds (apart_tmr hapart)
    have hport₀ := apart_port hapart
    have hacc₀ := apart_acc hapart
    have hof : requestAt (burstClose s) n c.record = requestAt s n c.record := by
      unfold requestAt
      rw [apart_sup hapart]
    have hasked : asked = askAll (requestAt s n c.record) s missing := by
      show List.foldl _ (s, []) missing = List.foldl _ (s, []) missing
      congr 1
      funext x k
      refine Prod.ext rfl ?_
      simp only [askOne, isRefused_iff]
      rfl
    have hburst : askAll (requestAt s n c.record) (burstClose s) missing =
        (asked.1.withRecords (burstClose s).eng (burstClose s).store (burstClose s).storeLog, asked.2) := by
      conv_lhs => rw [withRecords_of_apart hapart]
      rw [askAll_withRecords, ← hasked]
    obtain ⟨-, G, d, hfold, hG, hdone', hstate'⟩ := offerRequests_form (b := c.dirty) hob (keepsPlace_id.half true) hnum
      (hst.trans hstate.symm) c.record.roster.length
    have hout := askAll_outside (requestAt s n c.record) (burstClose s) missing
    rw [hof] at hfold
    have hf : passHalf n (burstClose s) = _ :=
      (passHalf_acts hob.1 ((apart_restart hapart).trans hr) (by rw [hseconds]; exact hx)
        (by rw [hseconds]; exact hhalf)).trans ((offerRequests_open hob).trans hfold)
    change passHalf n (burstClose s) = State.withOpen (askAll (requestAt s n c.record) (burstClose s) missing).1 n i G
      { record := issued c.record (askAll (requestAt s n c.record) (burstClose s) missing).2, dirty := d } at hf
    have hline' : (askAll (requestAt s n c.record) (burstClose s) missing).1.line = asked.1.line := by rw [hburst]; rfl
    have hcounters' : (askAll (requestAt s n c.record) (burstClose s) missing).1.counters = asked.1.counters := by
      rw [hburst]
      rfl
    have hnotes : (askAll (requestAt s n c.record) (burstClose s) missing).2 = asked.2 := by rw [hburst]
    rw [hnotes, hout] at hf
    rw [hline', hcounters'] at hf
    have hdue : n ∉ (burstClose s).eng.dueWrites := by
      rw [apart_due hapart, hw]
      exact List.not_mem_nil
    obtain ⟨t, ht, hwork, hentry, hline, hacc, hport, hcounters, hpend⟩ :=
      exec_dutyPart_unwritten hk hh hd hw ho hneed hf (.of_eng rfl rfl rfl rfl) hdue hG hnum
    refine ⟨t, ht, hline, hcounters, hwork, ⟨_, hentry, hdone', hstate'⟩, hport.trans hport₀,
      hacc.trans hacc₀, hpend.trans ((burstClose_dutyPending s).trans hd.2), fun h1 h2 hq hten => ?_⟩
    have hall : askAll (requestAt s n c.record) s missing = _ :=
      askAll_admitted (silenced_eq_false h1 h2) hq missing (List.nodup_range.filter _)
        (fun k hk => (List.mem_range.mp (List.mem_filter.mp hk).1).trans_le (hlen16.trans (by decide))) hten
    rw [← hasked] at hall
    rw [hall] at hline hcounters hwork
    refine ⟨hline, hcounters, hwork.trans (congrArg some ?_)⟩
    exact issued_missing c.record

end Sys2Proof.Machine

/-! SUPPORT. ASSEMBLY_TIMEOUT (file 02, R30 to R32; file 06, R108): the buffer that a part of the second duty frees, the
refusal, the conflict or the void of its parcel, and with them the statement on it. -/

namespace Sys2Proof.Machine

variable {s t u X : State} {n : ParcelNo} {b : Fin 2} {a : Assembly} {source : Station} {reason : RefusalReason}

/-- The assembly buffers and the flag of the second duty, which no work on a record changes. -/
def BuffersAre (x y : Option Assembly) (d : Bool) (t : State) : Prop :=
  t.eng.buf0 = x ∧ t.eng.buf1 = y ∧ t.eng.dutyPending = d

theorem buffersAre_of_eng {x y : Option Assembly} {d : Bool} (h : BuffersAre x y d s) (he : t.eng = s.eng) :
    BuffersAre x y d t := by
  unfold BuffersAre
  rw [he]
  exact h

theorem buffersAre_closed (x y : Option Assembly) (d : Bool) : RecordClosed (BuffersAre x y d) where
  eng z hz _ h := by
    obtain ⟨hduty, -, -, -, h0, h1, -⟩ := hz
    obtain ⟨k0, k1, k2⟩ := h
    exact ⟨h0.trans k0, h1.trans k1, hduty.trans k2⟩
  removed _ h := h
  admitted _ _ _ _ h := h
  put {s} r h := by
    obtain ⟨z, l, e, -⟩ := storePut_eq s r
    exact buffersAre_of_eng h (by rw [e]; rfl)
  delete _ h := h
  acc _ _ h := h
  post c h := buffersAre_of_eng h (post_eng _ c)
  bump _ h := h
  offer f l h := buffersAre_of_eng h (offer_eng f l _)
  withdraw _ h := h

/-- What a refusal leaves of a state that shows nothing new outside the engine (R41). -/
theorem refused_of_refuse (hline : X.line = s.line) (hport : X.port = s.port) (hcounters : X.counters = s.counters)
    (htmr : X.tmr = s.tmr) (hsup : X.sup = s.sup) (tline : t.line = (refuse n source reason X).line)
    (tport : t.port = (refuse n source reason X).port)
    (tcounters : t.counters = (refuse n source reason X).counters) : Refused s t n source reason := by
  have hframe := refusal_frame n reason hsup
  obtain ⟨hanswer, hqueue⟩ := offer_line_congr (refusalFrame s n reason) false hline
  rw [refuse, hframe] at tline tport tcounters
  refine ⟨tline.trans ((post_line _ _).trans hqueue), ?_⟩
  rw [show (offer { key := mkKey .alarm s.sup.straps.station n 1#6
                    payload := [1#8, reason.code, 0#8, 0#8, 0#8, 0#8] } false s).1 = _ from hanswer.symm]
  exact (posted_post s _ _ ((offer_port _ _ _).trans hport) ((offer_noticesLost _ _ _).trans (congrArg _ hcounters))
    (congrArg _ ((offer_tmr _ _ _).trans htmr))).congr tport (congrArg _ tcounters)

theorem setBuffer_buffersAre (hd : s.eng.dutyPending = true) :
    BuffersAre (s.setBuffer b none).eng.buf0 (s.setBuffer b none).eng.buf1 true (s.setBuffer b none) := by
  refine ⟨rfl, rfl, ?_⟩
  match b with
  | 0 => exact hd
  | 1 => exact hd

theorem buffer_burstClose (s : State) (b : Fin 2) : (burstClose s).eng.buffer b = s.eng.buffer b :=
  buffer_of b (congrArg (fun x => x.eng.buf0) (burstClose_apart s)) (congrArg (fun x => x.eng.buf1) (burstClose_apart s))

theorem dirFind_burstClose_none (h : s.dirFind n = none) : (burstClose s).dirFind n = none := by
  have hmap := congrArg (fun x : State => x.dirFind n) (burstClose_unopened s)
  rw [dirFind_unopened, dirFind_unopened, h] at hmap
  exact Option.map_eq_none_iff.mp hmap

/-- A buffer that is due for a parcel held in DECLARED calls for that parcel. -/
theorem needs_of_assembly (hd : s.DutyChosen) (ha : s.eng.buffer b = some a)
    (hdue : 2 ≤ (s.tmr.seconds - a.second).toNat) {e : DirEntry} (he : s.dirFind a.parcel = some e)
    (hst : e.state = .declared) : a.parcel ∈ needs s (arbiter s) := by
  have hneeds : a.parcel ∈ assemblyNeeds s b := by
    have h : assemblyDue b s = true := by
      simp only [assemblyDue, ha]
      exact decide_eq_true hdue
    simp [assemblyNeeds, h, ha, he, hst]
  rw [arbiter_duty hd]
  match b with
  | 0 => exact List.mem_append_left _ (List.mem_append_right _ hneeds)
  | 1 => exact List.mem_append_right _ hneeds

theorem timeoutAssembly_burstClose (ha : s.eng.buffer b = some a) (hdue : 2 ≤ (s.tmr.seconds - a.second).toNat) :
    timeoutAssembly b (burstClose s) = failAssembly a.source a.parcel ((burstClose s).setBuffer b none) :=
  timeoutAssembly_due ((buffer_burstClose s b).trans ha) (by rw [apart_tmr (burstClose_apart s)]; exact hdue)

theorem exec_assemblyTimeout_keepOpen (hh : s.sup.held = false) (hd : s.DutyChosen) (ha : s.eng.buffer b = some a)
    (hdue : 2 ≤ (s.tmr.seconds - a.second).toNat) (hp : s.sup.straps.policy = .keepOpen) :
    exec (.assemblyTimeout b) s = .next
    ((failAssembly a.source a.parcel (s.setBuffer b none)).finishWrites.setStoreLog s.storeLog) := by
  have hexec := exec_dutyPart (k := .assemblyTimeout b) (f := timeoutAssembly b) rfl hh hd
  rwa [timeoutAssembly_burstClose ha hdue, burstClose_keepOpen hp] at hexec

section Due

variable (hh : s.sup.held = false) (hd : s.DutyChosen) (ha : s.eng.buffer b = some a)
  (hdue : 2 ≤ (s.tmr.seconds - a.second).toNat)
include hh hd ha hdue

/-- A due buffer whose failed assembly makes a conflict, from a state that shows nothing new but the engine. -/
theorem assemblyTimeout_conflict {held : ParcelState} (hp : s.sup.straps.policy = .keepOpen)
    (hX : X.line = s.line ∧ X.port = s.port ∧
      X.counters = s.counters ∧ X.tmr = s.tmr ∧ X.acc = s.acc ∧ X.store = s.store ∧ X.eng.dueWrites = [])
    (hf : failAssembly a.source a.parcel (s.setBuffer b none) = declareConflict a.parcel a.source held X) :
    ∃ t, exec (.assemblyTimeout b) s = .next t ∧ t.eng = X.eng ∧ t.store = s.store ∧ t.acc = s.acc ∧ t.line = s.line ∧
      t.counters.conflicts = min 65535 (s.counters.conflicts + 1) ∧
      Posted s t (.declareConflict a.parcel a.source held) := by
  obtain ⟨hline, hport, hcounters, htmr, hacc, hstore, hwrites⟩ := hX
  have hnone : (declareConflict a.parcel a.source held X).eng.dueWrites = [] := by
    rw [declareConflict, post_eng]
    exact hwrites
  refine ⟨_, exec_assemblyTimeout_keepOpen hh hd ha hdue hp, ?_⟩
  rw [hf, finishWrites_none hnone, declareConflict]
  have hsame : ∀ (u : State) m, (u.post m).counters.conflicts = u.counters.conflicts := by
    intro u m
    simp only [State.post]
    split <;> rfl
  refine ⟨post_eng _ _, (post_store _ _).trans hstore, (post_acc _ _).trans hacc, (post_line _ _).trans hline, ?_, ?_⟩
  · refine (hsame _ _).trans ?_
    show min 65535 (X.counters.conflicts + 1) = _
    rw [hcounters]
  · exact (posted_post s (X.bump .conflicts) _ hport
      (by show X.counters.noticesLost = _; rw [hcounters]) (congrArg PublicationTimer.seconds htmr)).congr rfl rfl

variable (hw : s.eng.dueWrites = [])
include hw

/-- A due buffer is freed, and the second duty stays pending. -/
theorem assemblyTimeout_frees : ∃ t, exec (.assemblyTimeout b) s = .next t ∧ t.eng.buffer b = none ∧
    t.eng.dutyPending = true ∧ (s.dirFind a.parcel = none → Refused s t a.parcel a.source .assembly) := by
  refine ⟨_, exec_dutyPart (f := timeoutAssembly b) rfl hh hd, ?_⟩
  rw [timeoutAssembly_burstClose ha hdue]
  have hfree := setBuffer_buffersAre (s := burstClose s) (b := b) ((burstClose_dutyPending s).trans hd.2)
  have hclosed :=
    buffersAre_closed ((burstClose s).setBuffer b none).eng.buf0 ((burstClose s).setBuffer b none).eng.buf1 true
  obtain ⟨h0, h1, hpend⟩ := hclosed.finishWrites (hclosed.failAssembly a.source a.parcel hfree)
  refine ⟨?_, hpend, fun hnone => ?_⟩
  · rw [State.setStoreLog_eng, buffer_of b h0 h1]
    match b with
    | 0 => rfl
    | 1 => rfl
  · have hapart := burstClose_apart s
    obtain ⟨hport, hline, -, hcounters, -, -, -, -, -, -, hdue', -⟩ := setBuffer_rest (burstClose s) b none
    have hX : ((burstClose s).setBuffer b none).dirFind a.parcel = none :=
      ((setBuffer_sameRecords _ b none).dirFind _).trans (dirFind_burstClose_none hnone)
    have hwrites : (refuse a.parcel a.source .assembly ((burstClose s).setBuffer b none)).eng.dueWrites = [] := by
      rw [refuse, post_eng, offer_eng, hdue', apart_due hapart, hw]
    rw [failAssembly_none hX, finishWrites_none hwrites]
    have hbeside := setBuffer_beside (burstClose s) a.parcel b none
    exact refused_of_refuse (hline.trans (apart_line hapart)) (hport.trans (apart_port hapart))
      (hcounters.trans (apart_counters hapart)) (hbeside.tmr.trans (apart_tmr hapart))
      (hbeside.sup.trans (apart_sup hapart)) rfl rfl rfl

variable (hp : s.sup.straps.policy = .keepOpen)
include hp

/-- A due buffer whose failed assembly voids its parcel, open in a context and stored. -/
theorem assemblyTimeout_voids {i : ContextId} {e : DirEntry} {c : OpenContext} {d : Declaration}
    (ho : s.OpenWith a.parcel i e c) (hst : e.state = .declared) (hr : c.record.state = .declared)
    (hdecl : c.record.decl = some d) (hsame : d.declarer = a.source) (h0 : a.parcel ≠ 0#4)
    (hs : (s.stored a.parcel).isSome = true) (hal : c.record.alarm.raised = false) :
    ∃ t, exec (.assemblyTimeout b) s = .next t ∧ t.eng.buf0 = (s.setBuffer b none).eng.buf0 ∧
      t.eng.buf1 = (s.setBuffer b none).eng.buf1 ∧ t.acc.intake = s.acc.intake ∧ t.eng.dutyPending = true ∧
      AmendmentVoided s t a.parcel a.source .assembly c.record := by
  have hkeep := burstClose_keepOpen hp
  have hbeside := setBuffer_beside s a.parcel b none
  obtain ⟨hport, hline, hacc, hcounters, -⟩ := setBuffer_rest s b none
  have hof := ho.congr (setBuffer_sameRecords s b none)
  obtain ⟨W, hW, hBW, heng, hWacc, hWline, hnotices⟩ :=
    refuse_void_form (b := c.dirty) (reason := .assembly) (source := a.source) ho hbeside hport hline keepsPlace_id
      ho.2.2.2 hal (by rw [hr]; rfl)
  have hf := timeoutAssembly_burstClose ha hdue
  rw [hkeep, failAssembly_declared hof hst hr hdecl, if_pos hsame, hof.form, hW, ← hkeep] at hf
  have hneed := needs_of_assembly hd ha hdue ho.1 hst
  obtain ⟨t, ht, hwork, hstored, -, hkept, tline, tacc, tport, -, tpend, t0, t1⟩ :=
    exec_dutyPart_written (k := .assemblyTimeout b) (f := timeoutAssembly b) rfl hh hd hw h0 ho hneed hs hf
      (by rw [hkeep]; exact hBW) (by rw [heng]; exact List.mem_cons_self) ((keepsPlace_id.copy _).half false) ho.2.2.2
  rw [hkeep] at hkept
  have hpend := (setBuffer_buffersAre (b := b) hd.2).2.2
  rw [heng] at tpend t0 t1
  rw [hacc] at hWacc
  refine ⟨t, ht, t0, t1, by rw [tacc, hWacc]; rfl, tpend.trans hpend, hwork, hstored, ?_, tline.trans hWline, hkept,
    fun hroom => by rw [tport]; exact hnotices hroom⟩
  exact unbound_of (by rw [tacc, hWacc]) (by rw [tacc, hWacc])

end Due

/-- Settles O31. -/
theorem assemblyTimeoutFreesTheBuffer : Obligations.AssemblyTimeoutFreesTheBuffer := by
  unfold Obligations.AssemblyTimeoutFreesTheBuffer
  intro b s hh hd hw
  refine ⟨fun hidle hp => ?_, fun a ha hdue => ⟨assemblyTimeout_frees hh hd ha hdue hw, fun hp => ?_⟩⟩
  · exact exec_dutyPart_idle (f := timeoutAssembly b) rfl hh hd hw hp (timeoutAssembly_none hidle)
  intro freed conflicts
  obtain ⟨hport, hline, hacc, hcounters, -, -, -, hstore, -, -, hdue', -⟩ := setBuffer_rest s b none
  have hbeside := setBuffer_beside s a.parcel b none
  have hfree : freed.line = s.line ∧ freed.port = s.port ∧ freed.counters = s.counters ∧ freed.tmr = s.tmr ∧
      freed.acc = s.acc ∧ freed.store = s.store ∧ freed.eng.dueWrites = [] :=
    ⟨hline, hport, hcounters, hbeside.tmr, hacc, hstore, hdue'.trans hw⟩
  have hsame := setBuffer_sameRecords s b none
  refine ⟨fun de he hne => ?_, fun de he hst => ?_, fun i r d de hopen he hst hr hdecl => ?_⟩
  · exact assemblyTimeout_conflict hh hd ha hdue hp hfree (failAssembly_other ((hsame.dirFind _).trans he) hne)
  · refine actsAfterTurnaround_part (f := timeoutAssembly b) rfl hh hd hp ?_
    have hbuffer : (s.openParcel a.parcel).eng.buffer b = some a := by
      have hapart := openParcel_apart s a.parcel
      exact (buffer_of b (congrArg (fun x => x.eng.buf0) hapart) (congrArg (fun x => x.eng.buf1) hapart)).trans ha
    have hseconds : (s.openParcel a.parcel).tmr = s.tmr := apart_tmr (openParcel_apart s a.parcel)
    rw [timeoutAssembly_due hbuffer (by rw [hseconds]; exact hdue), timeoutAssembly_due ha hdue, ← openParcel_setBuffer,
      failAssembly_opens ((hsame.dirFind _).trans he) hst]
  · obtain ⟨e, c, ho, rfl, -⟩ := hopen.with
    obtain rfl := Option.some.inj (he.symm.trans ho.1)
    have hfail := failAssembly_declared (source := a.source) (ho.congr hsame) hst hr hdecl
    refine ⟨fun hne => ?_, fun heq h0 hs hal => assemblyTimeout_voids hh hd ha hdue hw hp ho hst hr hdecl heq h0 hs hal⟩
    rw [if_neg hne] at hfail
    exact assemblyTimeout_conflict hh hd ha hdue hp hfree hfail

end Sys2Proof.Machine

/-! SUPPORT. The service of a waiting port request (file 11, R115, R170 and R174; file 06, R105; file 01, R17), and with
it the statements on the reads and on DROP_PARCEL. -/

namespace Sys2Proof.Machine

variable {s t : State} {n : ParcelNo} {e : DirEntry} {r : ParcelRecord} {q : EngineRequest} {a : Response}

/-! ## The answer stays to the end of the service -/

/-- The port is ANSWERED with `a`, and no starvation count runs. -/
def Answered (a : Response) (t : State) : Prop := t.port.state = .answered a ∧ t.eng.starvation = none

theorem portState_closed (p : PortState) : RecordClosed (fun t => t.port.state = p) where
  eng _ _ _ h := h
  removed _ h := h
  admitted _ _ _ _ h := h
  put {s} r h := by obtain ⟨x, y, e, -⟩ := storePut_eq s r; rw [e]; exact h
  delete _ h := h
  acc _ _ h := h
  post {s} b h := (post_portState s b).trans h
  bump _ h := h
  offer f l h := by rw [offer_port]; exact h
  withdraw _ h := h

theorem portBody_answered (q : EngineRequest) (s : State) : Answered (portAnswer q s).1 (portBody q s) := by
  unfold portBody
  generalize portAnswer q s = a
  exact ⟨rfl, rfl⟩

/-- The service of a request ends in the answer that is made after the closings of its beginning. -/
theorem portService_answers (hh : s.sup.held = false) (ha : arbiter s = some (.port q)) :
    ∃ t, exec .portRequestService s = .next t ∧ Answered (portAnswer q ((burstClose s).withStarts [])).1 t := by
  refine ⟨_, exec_asService (c := .portRequestService) rfl hh, ?_⟩
  rw [portService_chosen ha, wholeService]
  obtain ⟨hstate, hstarved⟩ := portBody_answered q ((burstClose s).withStarts [])
  generalize portBody q ((burstClose s).withStarts []) = u at *
  have hclosed := (portState_closed (.answered (portAnswer q ((burstClose s).withStarts [])).1)).and
    (starvation_engineClosed none).toRecordClosed
  exact hclosed.endService (fun t h => buildAll_keeps hclosed (fun _ _ _ h => h) h) ⟨hstate, hstarved⟩

/-! ## The parcel that a byte names (R175) -/

theorem named_none {b : Byte} (h : ∀ n, n ≠ 0#4 → n.setWidth 8 = b → s.dirFind n = none) : s.named b = none := by
  refine List.find?_eq_none.mpr fun n hn => ?_
  have hn0 : n ≠ 0#4 := by
    rintro rfl
    exact absurd hn (by decide)
  by_cases hb : byte4 n = b
  · simp [State.isHeld, h n hn0 hb]
  · simp [hb]

theorem named_held (h0 : n ≠ 0#4) (he : s.dirFind n = some e) : s.named (n.setWidth 8) = some n := by
  have hheld : s.isHeld n = true := by simp [State.isHeld, he]
  cases hf : s.named (n.setWidth 8) with
  | none =>
    have := List.find?_eq_none.mp hf n (mem_allNumbers h0)
    simp [byte4, hheld] at this
  | some m =>
    have hm := List.find?_some hf
    have hbyte : m.setWidth 8 = n.setWidth 8 := by
      simp only [byte4, Bool.and_eq_true, beq_iff_eq] at hm
      exact hm.1
    congr 1
    bv_omega

theorem portAnswer_unknown {b k : Byte}
    (hq : q = .readParcel b ∨ q = .readRosterItem b k ∨ q = .readVotes b ∨ q = .dropParcel b) (h : s.named b = none) :
    (portAnswer q s).1 = { code := .unknownParcel, fields := [] } := by
  obtain rfl | rfl | rfl | rfl := hq
  · simp only [portAnswer, readStored, h, respond]
  · simp only [portAnswer, readStored, h, respond]
  · simp only [portAnswer, readStored, h, respond]
  · simp only [portAnswer, dropParcel, h, respond]

theorem portAnswer_acceptance (s : State) : (portAnswer .readAcceptance s).1.code = .done ∧
    (portAnswer .readAcceptance s).1.fields = acceptanceLayout s.acc :=
  ⟨rfl, acceptance_layout s.acc⟩

/-! ## The stored record that a read answers from (R115) -/

/-- Parcel n is held and stored, and `r` is what its next closing leaves in the store. -/
def StoredNext (s : State) (n : ParcelNo) (e : DirEntry) (r : ParcelRecord) : Prop :=
  (e.context = none ∧ ∃ p, s.stored n = some p ∧ p.record = r) ∨
    (∃ i p c, s.OpenIn n i c.record ∧ s.eng.context i = some c ∧ c.dirty = false ∧ s.stored n = some p ∧
      p.record = r) ∨
    (s.stored n).isSome = true ∧ ∃ i, s.OpenIn n i r ∧ s.eng.context i = some { record := r, dirty := true }

theorem closeNamed_closed (he : s.dirFind n = some e) (hc : e.context = none) : closeNamed n s = s := by
  simp only [closeNamed, he, hc]

theorem closeNamed_open {i : ContextId} (he : s.dirFind n = some e) (hc : e.context = some i) :
    closeNamed n s = s.closeContext i := by
  simp only [closeNamed, he, hc]

theorem closeNamed_apart (n : ParcelNo) (s : State) : (closeNamed n s).apart = s.apart := by
  unfold closeNamed
  repeat' split
  · exact closeContext_apart s _
  · rfl
  · rfl

theorem working_closed (he : s.dirFind n = some e) (hc : e.context = none) : s.working n = none := by
  simp only [State.working, he, hc]

/-- After the closing of its context the parcel is not open. -/
theorem closeContext_working {i : ContextId} {c : OpenContext} (h : s.OpenWith n i e c) :
    (s.closeContext i).working n = none := by
  obtain ⟨he, -, hi, hn⟩ := h
  refine working_closed (e := { e with context := none }) ?_ rfl
  rw [closeContext_dirFind, he, hi, Option.map_some, Option.map_some, hn, if_pos rfl]

theorem closeNamed_shows (he : s.dirFind n = some e) (h : StoredNext s n e r) :
    (closeNamed n s).working n = none ∧ ∃ p, (closeNamed n s).stored n = some p ∧ p.record = r := by
  obtain ⟨hc, hp⟩ | ⟨i, p, c, hopen, hi, hd, hs, hp⟩ | ⟨hs, i, hopen, hi⟩ := h
  · rw [closeNamed_closed he hc]
    exact ⟨working_closed he hc, hp⟩
  · obtain ⟨e', c', ho, -, -⟩ := hopen.with
    obtain ⟨he', hc', hi', -⟩ := id ho
    obtain rfl := Option.some.inj (he.symm.trans he')
    obtain rfl := Option.some.inj (hi.symm.trans hi')
    rw [closeNamed_open he hc']
    refine ⟨closeContext_working ho, p, ?_, hp⟩
    rw [closeContext_stored, hi]
    · simp [hd, hs]
    · intro d hdi hdd
      rw [hi] at hdi
      rw [← Option.some.inj hdi, hd] at hdd
      cases hdd
  · obtain ⟨e', c', ho, -, -⟩ := hopen.with
    obtain ⟨he', hc', hi', hn⟩ := id ho
    obtain rfl := Option.some.inj (he.symm.trans he')
    obtain rfl := Option.some.inj (hi.symm.trans hi')
    rw [closeNamed_open he hc']
    refine ⟨closeContext_working ho, mkStored r, ?_, rfl⟩
    rw [closeContext_stored, hi]
    · exact if_pos ⟨rfl, hn⟩
    · intro d hdi _
      rw [hi] at hdi
      rw [← Option.some.inj hdi]
      exact hn ▸ hs

theorem readStored_eq {p : StoredParcel} (h0 : n ≠ 0#4) (he : s.dirFind n = some e)
    (hs : (closeNamed n s).stored n = some p) (f : ParcelRecord → Response) :
    readStored (n.setWidth 8) f s = (f p.record, closeNamed n s) := by
  simp only [readStored, named_held h0 he, hs]

theorem answered_sameRecords (s : State) (p : PortState) (l : List StoreStep) :
    SameRecords s (((s.setPortState p).setStarvation none).setStoreLog l) :=
  ⟨rfl, fun j => by cases j <;> rfl, rfl⟩

/-- A service of a request under KEEP_OPEN, with no other work waiting. -/
theorem exec_port_quiet (hh : s.sup.held = false) (ha : arbiter s = some (.port q)) (hq : s.Quiet)
    (htmr : (portAnswer q s).2.tmr = s.tmr) (hsup : (portAnswer q s).2.sup = s.sup)
    (hdue : (portAnswer q s).2.eng.dueWrites = []) :
    exec .portRequestService s = .next ((portBody q s).setStoreLog s.storeLog) := by
  have hbody : (portBody q s).tmr = s.tmr ∧ (portBody q s).sup = s.sup ∧ (portBody q s).eng.dueWrites = [] := by
    unfold portBody
    generalize portAnswer q s = a at *
    exact ⟨htmr, hsup, hdue⟩
  obtain ⟨btmr, bsup, bdue⟩ := hbody
  rw [exec_asService (c := .portRequestService) rfl hh, portService_chosen ha, wholeService_quiet hq btmr]
  have hwrites := finishWrites_none bdue
  rw [endService_quiet (by rw [bsup]; exact hq.1) (by rw [hwrites, btmr]; exact hq.2.1) (by rw [hwrites]), hwrites]

/-- A read of a held, stored parcel is answered from the record that its closing leaves in the store. -/
theorem exec_port_read {f : ParcelRecord → Response} (hh : s.sup.held = false) (ha : arbiter s = some (.port q))
    (hq : s.Quiet) (h0 : n ≠ 0#4) (he : s.dirFind n = some e) (hr : StoredNext s n e r)
    (hf : portAnswer q s = readStored (n.setWidth 8) f s) :
    ∃ t, exec .portRequestService s = .next t ∧ t.port = { s.port with state := .answered (f r) } ∧
      t.working n = none ∧ (∃ p, t.stored n = some p ∧ p.record = r) ∧ t.line = s.line ∧ t.acc = s.acc := by
  obtain ⟨hwork, p, hstored, rfl⟩ := closeNamed_shows he hr
  rw [readStored_eq h0 he hstored] at hf
  have hapart := closeNamed_apart n s
  refine ⟨_, exec_port_quiet hh ha hq (by rw [hf]; exact apart_tmr hapart) (by rw [hf]; exact apart_sup hapart)
    (by rw [hf]; exact (apart_due hapart).trans hq.2.2), ?_⟩
  have hport := apart_port hapart
  have hline := apart_line hapart
  have hacc := apart_acc hapart
  rw [portBody, hf]
  generalize closeNamed n s = u at *
  have hrecords := answered_sameRecords u (.answered (f p.record)) s.storeLog
  refine ⟨?_, (hrecords.working n).trans hwork, ⟨p, hstored, rfl⟩, hline, hacc⟩
  rw [← hport]
  rfl

/-- Settles O44. -/
theorem portRequestIsAnswered : Obligations.PortRequestIsAnswered := by
  refine ⟨codesOfTheManual, fun q s hh ha => ⟨?_, fun n de r b k hq h0 hb he hr hread => ?_⟩⟩
  · obtain ⟨t, ht, hstate, hstarved⟩ := portService_answers hh ha
    refine ⟨t, _, ht, hstate, hstarved, fun b k hread hnone => ?_, fun hread => ?_⟩
    · exact portAnswer_unknown hread (named_none fun n h0 hn => dirFind_burstClose_none (hnone n h0 hn))
    · subst hread
      obtain ⟨hcode, hfields⟩ := portAnswer_acceptance ((burstClose s).withStarts [])
      have hacc : (burstClose s).acc = s.acc := apart_acc (burstClose_apart s)
      replace hacc : ((burstClose s).withStarts []).acc = s.acc := hacc
      rw [hacc] at hfields
      exact ⟨hcode, hfields, by rw [hfields, acceptanceLayout_length]⟩
  · subst hb
    obtain rfl | rfl | rfl := hread
    · obtain ⟨t, ht, hport, hwork, hstored, hline, hacc⟩ := exec_port_read (f := fun r => done (parcelBytes r))
        hh ha hq h0 he hr rfl
      refine ⟨t, _, ht, hport, hwork, hstored, hline, hacc, fun _ => ⟨rfl, parcel_layout r, ?_⟩, by simp, by simp⟩
      exact (congrArg List.length (parcel_layout r)).trans (parcelLayout_length r)
    · obtain ⟨t, ht, hport, hwork, hstored, hline, hacc⟩ := exec_port_read (f := rosterAnswer k)
        hh ha hq h0 he hr rfl
      refine ⟨t, _, ht, hport, hwork, hstored, hline, hacc, by simp, by simp, fun _ => ⟨fun x hx => ?_, fun hlen => ?_⟩⟩
      · have hanswer : rosterAnswer k r = { code := .done, fields := rosterItemLayout r.number k.toNat x } := by
          rw [← rosterItem_layout]
          simp only [rosterAnswer, hx, done]
        exact ⟨hanswer, by rw [hanswer]; exact rosterItemLayout_length _ _ _⟩
      · simp only [rosterAnswer, List.getElem?_eq_none hlen, respond]
    · obtain ⟨t, ht, hport, hwork, hstored, hline, hacc⟩ := exec_port_read (f := fun r => done (votesBytes r))
        hh ha hq h0 he hr rfl
      refine ⟨t, _, ht, hport, hwork, hstored, hline, hacc, by simp, fun _ => ⟨rfl, votes_layout r, ?_⟩, by simp⟩
      exact (congrArg List.length (votes_layout r)).trans (votesLayout_length r)

/-! ## DROP_PARCEL (R17) -/

/-- What the removal of a parcel that is not open leaves (R16). -/
theorem removeParcel_closed (he : s.dirFind n = some e) (hc : e.context = none) (cause : NoticeCause) :
    ∃ u, removeParcel n cause s = u.post (.parcelState n none e.round none cause) ∧ u.dirFind n = none ∧
      u.stored n = none ∧ (∀ y ∈ u.eng.rosterDir, y.parcel ≠ n) ∧ u.acc = unbindParcel n s.acc ∧
      u.line = s.line ∧ u.port = s.port ∧ u.counters = s.counters ∧ u.tmr = s.tmr ∧ u.sup = s.sup ∧
      (s.eng.dueWrites = [] → u.eng.dueWrites = []) ∧ OthersKept s u n := by
  have hfind : ((s.setAcc (unbindParcel n s.acc)).storeDelete n).dirFind = s.dirFind := rfl
  have hform : removeParcel n cause s = (dropDirectory n ((s.setAcc (unbindParcel n s.acc)).storeDelete n)).post
      (.parcelState n none e.round none cause) := by
    simp only [removeParcel, he, discardContext, hfind, hc]
  refine ⟨_, hform, ?_, ?_, ?_, rfl, rfl, rfl, rfl, rfl, rfl, fun hnone => ?_, fun m hm => ?_⟩
  · rw [dirFind_drop, if_pos rfl]
  · exact (stored_storeDelete (s.setAcc (unbindParcel n s.acc)) n n).trans (if_pos rfl)
  · intro y hy
    simpa using (List.mem_filter.1 hy).2
  · show s.eng.dueWrites.filter _ = []
    rw [hnone]
    rfl
  · have hdir : (dropDirectory n ((s.setAcc (unbindParcel n s.acc)).storeDelete n)).dirFind m = s.dirFind m := by
      rw [dirFind_drop, if_neg hm]
      rfl
    exact ⟨hdir, (stored_storeDelete (s.setAcc (unbindParcel n s.acc)) n m).trans (if_neg hm),
      working_of_context hdir fun j => .inl (by cases j <;> rfl)⟩

/-- What the removal of a held parcel leaves, open or not (R16). -/
theorem removeParcel_held (he : s.dirFind n = some e)
    (hc : ∀ i, e.context = some i → ∃ c, s.eng.context i = some c ∧ c.record.number = n) (cause : NoticeCause) :
    ∃ u, removeParcel n cause s = u.post (.parcelState n none e.round none cause) ∧ u.dirFind n = none ∧
      u.stored n = none ∧ (∀ y ∈ u.eng.rosterDir, y.parcel ≠ n) ∧ u.acc = unbindParcel n s.acc ∧
      u.line = s.line ∧ u.port = s.port ∧ u.counters = s.counters ∧ u.tmr = s.tmr ∧ u.sup = s.sup ∧
      (s.eng.dueWrites = [] → u.eng.dueWrites = []) ∧ OthersKept s u n := by
  cases hctx : e.context with
  | none => exact removeParcel_closed he hctx cause
  | some i =>
    obtain ⟨c, hi, hn⟩ := hc i hctx
    obtain ⟨u, hform, hdir, hstored, hroster, -, hrest⟩ := removeParcel_shows ⟨he, hctx, hi, hn⟩ cause
    exact ⟨u, hform, hdir, hstored, hroster, hrest⟩

theorem portAnswer_drop (h0 : n ≠ 0#4) (he : s.dirFind n = some e) : portAnswer (.dropParcel (n.setWidth 8)) s =
    if e.state.isTerminal then (done [], removeParcel n .other s) else (respond .notNow, s) := by
  simp only [portAnswer, dropParcel, named_held h0 he, he]

theorem isTerminal_iff (p : ParcelState) :
    p.isTerminal = true ↔ p = .agreed ∨ p = .disputed ∨ p = .lapsed ∨ p = .void := by
  cases p <;> decide

/-- Settles O45. -/
theorem dropParcelRemovesOrAnswersNotNow : Obligations.DropParcelRemovesOrAnswersNotNow := by
  intro n de s hh ha hq h0 he hc
  have hanswer := portAnswer_drop h0 he
  refine ⟨fun hst => ?_, fun h1 h2 h3 h4 => ?_⟩
  · rw [if_pos ((isTerminal_iff _).mpr hst)] at hanswer
    obtain ⟨u, hform, hdir, hstored, hroster, hacc, hline, hport, hcounters, htmr, hsup, hdue, hkept⟩ :=
      removeParcel_held he hc .other
    rw [hform] at hanswer
    refine ⟨_, exec_port_quiet hh ha hq (by rw [hanswer]; exact (post_tmr u _).trans htmr)
      (by rw [hanswer]; exact (post_sup u _).trans hsup)
      (by rw [hanswer]; exact (congrArg Engine.dueWrites (post_eng u _)).trans (hdue hq.2.2)), ?_⟩
    rw [portBody, hanswer]
    have hposted := posted_post s u (.parcelState n none de.round none .other) hport (congrArg _ hcounters)
      (congrArg _ htmr)
    have hacc' := (post_acc u (.parcelState n none de.round none .other)).trans hacc
    have hkept' : SameRecords u (u.post (.parcelState n none de.round none .other)) := (Beside.post (n := n) _).records
    have heng := post_eng u (.parcelState n none de.round none .other)
    have hline' := (post_line u (.parcelState n none de.round none .other)).trans hline
    generalize u.post (.parcelState n none de.round none .other) = v at *
    refine ⟨rfl, (hkept'.dirFind n).trans hdir, (hkept'.stored n).trans hstored, ?_, unbound_of ?_ ?_, ?_, hline', ?_⟩
    · intro x hx
      exact hroster x (heng ▸ hx)
    · exact congrArg AcceptanceUnit.entries hacc'
    · exact congrArg AcceptanceUnit.slots hacc'
    · exact hposted
    · exact (hkept.trans (hkept'.othersKept n)).trans ((answered_sameRecords v _ _).othersKept n)
  · have hst : ¬ de.state.isTerminal = true := by
      rw [isTerminal_iff]
      simp [h1, h2, h3, h4]
    rw [if_neg hst] at hanswer
    rw [exec_port_quiet hh ha hq (by rw [hanswer]) (by rw [hanswer]) (by rw [hanswer]; exact hq.2.2), portBody, hanswer]
    rfl

end Sys2Proof.Machine

/-! SUPPORT. FIGURE and ALARM frames of other nodes (file 04, R74 and R75; file 02, R42): which entries are of good form,
what an entry of good form does to its open parcel, and with them the statement on the peer data. -/

namespace Sys2Proof.Machine

variable {s : State} {e : IntakeEntry} {rest : List IntakeEntry} {i : ContextId} {de : DirEntry} {c : OpenContext}

/-! ## The notices of a service -/

/-- Since `s` the bodies `l` have been posted, in that order, and the clock has not moved. -/
structure Tells (s u : State) (l : List NoticeBody) : Prop where
  port : u.port = (s.postAll l).port
  lost : u.counters.noticesLost = (s.postAll l).counters.noticesLost
  tmr : u.tmr = s.tmr

theorem postAll_append (s : State) (l : List NoticeBody) (b : NoticeBody) : s.postAll (l ++ [b]) = (s.postAll l).post b := by
  simp only [State.postAll, List.foldl_append, List.foldl_cons, List.foldl_nil]

theorem postAll_tmr (s : State) (l : List NoticeBody) : (s.postAll l).tmr = s.tmr := (Beside.postAll (n := 0#4) l).tmr

/-- A notice is placed or lost by the notice queue and the clock alone. -/
theorem post_congr {u v : State} (b : NoticeBody) (hport : u.port = v.port)
    (hlost : u.counters.noticesLost = v.counters.noticesLost) (htmr : u.tmr = v.tmr) :
    (u.post b).port = (v.post b).port ∧ (u.post b).counters.noticesLost = (v.post b).counters.noticesLost := by
  obtain h | h := Nat.lt_or_ge u.port.notices.length 16
  · rw [post_of_room b h, post_of_room b (hport ▸ h)]
    exact ⟨by simp only [State.setPort, hport, htmr], hlost⟩
  · rw [post_of_full b h, post_of_full b (hport ▸ h)]
    exact ⟨hport, congrArg (fun x => min 65535 (x + 1)) hlost⟩

namespace Tells

variable {u v : State} {l : List NoticeBody}

theorem refl (s : State) : Tells s s [] := ⟨rfl, rfl, rfl⟩

/-- What shows the same notices and clock, tells the same. -/
theorem congr (h : Tells s u l) (hport : v.port = u.port) (hlost : v.counters.noticesLost = u.counters.noticesLost)
    (htmr : v.tmr = u.tmr) : Tells s v l :=
  ⟨hport.trans h.port, hlost.trans h.lost, htmr.trans h.tmr⟩

theorem post (h : Tells s u l) (b : NoticeBody) : Tells s (u.post b) (l ++ [b]) := by
  have hpost := post_congr b h.port h.lost (h.tmr.trans (postAll_tmr s l).symm)
  rw [← postAll_append] at hpost
  exact ⟨hpost.1, hpost.2, (post_tmr u b).trans h.tmr⟩

theorem markWrite (h : Tells s u l) (n : ParcelNo) : Tells s (u.markWrite n) l := h.congr rfl rfl rfl

theorem setAcc (h : Tells s u l) (a : AcceptanceUnit) : Tells s (u.setAcc a) l := h.congr rfl rfl rfl

theorem withdraw (h : Tells s u l) (k : FrameKey) : Tells s (withdraw k u) l := h.congr rfl rfl rfl

theorem offer (h : Tells s u l) (f : OfferedFrame) (listed : Bool) : Tells s (offer f listed u).2 l :=
  h.congr (offer_port _ _ _) (offer_noticesLost _ _ _) (offer_tmr _ _ _)

/-- The notices are told from any state that shows the same notices and clock. -/
theorem of_counts (h : Tells s u l) (hport : s.port = v.port) (hlost : s.counters = v.counters) (htmr : s.tmr = v.tmr) :
    Tells v u l := by
  have hall : (s.postAll l).port = (v.postAll l).port ∧
      (s.postAll l).counters.noticesLost = (v.postAll l).counters.noticesLost := by
    clear h
    induction l using List.reverseRecOn with
    | nil => exact ⟨hport, congrArg _ hlost⟩
    | append_singleton l b ih =>
      rw [postAll_append, postAll_append]
      exact post_congr b ih.1 ih.2 (by rw [postAll_tmr, postAll_tmr, htmr])
  exact ⟨h.port.trans hall.1, h.lost.trans hall.2, h.tmr.trans htmr⟩

theorem posted {b : NoticeBody} (h : Tells s u [b]) : Posted s u b :=
  (posted_post s s b rfl rfl rfl).congr h.port h.lost

theorem room (h : Tells s u l) (hroom : s.port.notices.length + l.length ≤ 16) :
    u.port.notices = s.port.notices ++ l.map (fun b => { second := s.tmr.seconds, body := b }) := by
  rw [h.port]
  exact postAll_room s l hroom

end Tells

/-- The entry into VOID of a parcel in a bound state, whose alarm is cleared without a frame (R15, R72), in the form of
a service. -/
theorem enterVoid_form {n : ParcelNo} {r : ParcelRecord} {b : Bool} (h : s.OpenWith n i de c) (hr : r.number = n)
    (hst : r.state.isBound = true) (why : VoidReason) (cause : NoticeCause) :
    let q := { r with
      state := .void, voidReason := some why, windowStart := none, voteOwed := false
      alarm := { conditionSince := none, raised := false, clearSince := none }
      roster := r.roster.map (fun x => { x with binding := none }) }
    ∃ u, enterVoid n why cause (s.withOpen n i id { record := r, dirty := b }) =
        u.withOpen n i (fun d => { (id d).copyFrom q with halfDone := false }) { record := q, dirty := true } ∧
      Beside n s u ∧ n ∈ u.eng.dueWrites ∧ u.acc = unbindParcel n s.acc ∧ u.line = s.line ∧
      Tells s u ((if r.alarm.raised then [.alarmCleared n .noneOffered (heldDelta r)] else []) ++
        [.parcelState n (some .void) r.round (some why) cause]) := by
  intro q
  have hnotice : stateNotice q cause = .parcelState n (some .void) r.round (some why) cause := by
    rw [← hr]
    rfl
  cases hal : r.alarm.raised with
  | false =>
    refine ⟨_, enterVoid_quiet h keepsPlace_id hr hal hst why cause,
      ((Beside.setAcc _).trans (.post _)).trans .markWrite, Beside.mem_markWrite _ _, post_acc _ _, post_line _ _, ?_⟩
    rw [← hnotice]
    exact (((Tells.refl s).setAcc (unbindParcel n s.acc)).post (stateNotice q cause)).markWrite n
  | true =>
    refine ⟨_, enterVoid_raised h keepsPlace_id hr hal hst why cause,
      ((((Beside.post _).trans .markWrite).trans (.setAcc _)).trans (.post _)).trans .markWrite,
      Beside.mem_markWrite _ _, ?_, (post_line _ _).trans (post_line _ _), ?_⟩
    · exact post_acc _ _
    · rw [← hnotice]
      exact (((((Tells.refl s).post (.alarmCleared n .noneOffered (heldDelta r))).markWrite n).setAcc
        (unbindParcel n s.acc)).post (stateNotice q cause)).markWrite n

/-! ## Good form -/

/-- A FIGURE of good form (R74). -/
def FigureForm (e : IntakeEntry) : Prop :=
  e.entryIndex = 6 ∧ e.item = 0#6 ∧ ∃ (p q w : Word32) (raised complete : Bool),
    e.payload = be32 p ++ be32 q ++ be32 w ++ [if raised then 1#8 else 0#8, if complete then 1#8 else 0#8]

/-- An ALARM DIVERGENCE of good form (R75). -/
def DivergenceForm (e : IntakeEntry) : Prop :=
  e.entryIndex = 4 ∧ e.item = 0#6 ∧ ∃ (raised : Bool) (w : Word32),
    e.payload = [0#8, if raised then 1#8 else 0#8] ++ be32 w

/-- An ALARM DECLARE_REFUSED of good form (R42). -/
def RefusalForm (e : IntakeEntry) : Prop :=
  e.entryIndex = 4 ∧ e.item = 1#6 ∧ ∃ (reason : Byte) (w : Word32), e.payload = [1#8, reason] ++ be32 w

theorem bit01_some {b : Byte} {x : Bool} (h : bit01 b = some x) : b = if x then 1#8 else 0#8 := by
  unfold bit01 at h
  split at h
  case isTrue hb =>
    obtain rfl := Option.some.inj h
    exact beq_iff_eq.mp hb
  split at h
  case isTrue hb =>
    obtain rfl := Option.some.inj h
    exact beq_iff_eq.mp hb
  · cases h

theorem parseFigure_form {f : PeerFigure} (hx : e.entryIndex = 6) (hi : e.item = 0#6) (h : parseFigure e = some f) :
    FigureForm e := by
  unfold parseFigure at h
  split at h
  case h_1 p0 p1 p2 p3 s0 s1 s2 s3 d0 d1 d2 d3 a c hpay =>
    split at h
    case h_1 raised complete ha hc =>
      refine ⟨hx, hi, word32 p0 p1 p2 p3, word32 s0 s1 s2 s3, word32 d0 d1 d2 d3, raised, complete, ?_⟩
      rw [hpay, bytes_word32, bytes_word32, bytes_word32, bit01_some ha, bit01_some hc]
      rfl
    case h_2 => cases h
  case h_2 => cases h

theorem parseAlarm_form {a : AlarmContent} (hx : e.entryIndex = 4) (h : parseAlarm e = some a) :
    DivergenceForm e ∨ RefusalForm e := by
  unfold parseAlarm at h
  split at h
  case h_2 => cases h
  case h_1 kind state v0 v1 v2 v3 hpay =>
    split at h
    case isTrue => cases h
    case isFalse hkind =>
    have hitem : kind = byte6 e.item := by simpa using hkind
    split at h
    case isTrue hd =>
      obtain rfl : kind = 0#8 := by simpa [divergenceCode] using hd
      obtain ⟨raised, hraised, -⟩ := Option.map_eq_some_iff.mp h
      refine .inl ⟨hx, ?_, raised, word32 v0 v1 v2 v3, ?_⟩
      · simp only [byte6] at hitem
        bv_omega
      · rw [hpay, bytes_word32, bit01_some hraised]
        rfl
    split at h
    case isTrue hr =>
      obtain rfl : kind = 1#8 := by simpa [declareRefusedCode] using hr
      refine .inr ⟨hx, ?_, state, word32 v0 v1 v2 v3, ?_⟩
      · simp only [byte6] at hitem
        bv_omega
      · rw [hpay, bytes_word32]
        rfl
    · cases h

theorem FigureForm.content (h : FigureForm e) : ∃ f, e.entryIndex = 6 ∧ e.item = 0#6 ∧ parseFigure e = some f := by
  obtain ⟨hx, hi, p, q, w, raised, complete, hpay⟩ := h
  exact ⟨_, hx, hi, parseFigure_of hpay⟩

theorem DivergenceForm.content (h : DivergenceForm e) :
    ∃ raised w, e.entryIndex = 4 ∧ parseAlarm e = some (.divergence raised w) := by
  obtain ⟨hx, hi, raised, w, hpay⟩ := h
  exact ⟨raised, w, hx, parseAlarm_divergence hi hpay⟩

theorem RefusalForm.content (h : RefusalForm e) : ∃ reason, e.entryIndex = 4 ∧ parseAlarm e = some (.refusal reason) := by
  obtain ⟨hx, hi, reason, w, hpay⟩ := h
  exact ⟨reason, hx, parseAlarm_refusal hi hpay⟩

/-! ## The rules -/

/-- A frame that carries the own flag, or is of no good form, does nothing. -/
theorem applyEntry_peer_idle (hx : e.entryIndex = 6 ∨ e.entryIndex = 4)
    (h : e.own = true ∨ ¬ (FigureForm e ∨ DivergenceForm e ∨ RefusalForm e)) (u : State) : applyEntry e u = u := by
  obtain hx | hx := hx
  · simp only [applyEntry, hx, applyFigure]
    split
    case isTrue => rfl
    case isFalse hown =>
    obtain ⟨hown, hi⟩ : e.own = false ∧ e.item = 0#6 := by simpa using hown
    cases hp : parseFigure e with
    | none => rfl
    | some f =>
      obtain h | h := h
      · rw [hown] at h
        cases h
      · exact absurd (.inl (parseFigure_form hx hi hp)) h
  · simp only [applyEntry, hx, applyAlarm]
    split
    case isTrue => rfl
    case isFalse hown =>
    cases hp : parseAlarm e with
    | none => rfl
    | some a =>
      obtain h | h := h
      · exact absurd h hown
      · exact absurd (.inr (parseAlarm_form hx hp)) h

theorem applyEntry_peer_opens (ho : e.own = false) (h : FigureForm e ∨ DivergenceForm e ∨ RefusalForm e) (u : State) :
    applyEntry e u = applyEntry e (u.openParcel e.parcel) := by
  obtain h | h | h := h
  · obtain ⟨f, hx, hi, hp⟩ := h.content
    exact applyFigure_opens hx ho hi hp u
  · obtain ⟨raised, w, hx, hp⟩ := h.content
    exact applyAlarm_opens hx ho hp u
  · obtain ⟨reason, hx, hp⟩ := h.content
    exact applyAlarm_opens hx ho hp u

theorem isPeerOf_iff {r : ParcelRecord} {d : Declaration} (hd : r.decl = some d) (source : Station) (u : State) :
    isPeerOf source u r = true ↔ source ∈ d.nodes ∧ source ≠ u.sup.straps.station := by
  simp [isPeerOf, hd, State.station]

theorem updatePeer_eq (source : Station) (f : PeerEntry → PeerEntry) (l : List PeerEntry) :
    updatePeer source f l = l.map (fun x => if x.node = source then f x else x) := by
  simp only [updatePeer, beq_iff_eq]

section Open

variable (hown : e.own = false) (ho : s.OpenWith e.parcel i de c)
include hown ho

theorem applyEntry_figure {f : PeerFigure} (hx : e.entryIndex = 6) (hi : e.item = 0#6) (hp : parseFigure e = some f) :
    applyEntry e s = if isPeerOf e.source s c.record then
        (s.touch i).modify e.parcel (fun r => { r with
          peers := r.peers.map (fun x => if x.node = e.source then { x with figure := some f } else x) })
      else s.touch i := by
  have hwork := (ho.congr (touch_sameRecords s i)).working
  simp only [applyEntry, hx, applyFigure, hown, hi, hp, ho.1, ho.open_eq, hwork, updatePeer_eq]
  rfl

theorem applyEntry_divergence {raised : Bool} {w : Word32} (hx : e.entryIndex = 4)
    (hp : parseAlarm e = some (.divergence raised w)) :
    applyEntry e s = if isPeerOf e.source s c.record then
        (((s.touch i).modify e.parcel (fun r => { r with
          peers := r.peers.map (fun x => if x.node = e.source then { x with alarm := raised } else x) })).post
          (.peerAlarm e.parcel e.source raised w)).markWrite e.parcel
      else s.touch i := by
  have hwork := (ho.congr (touch_sameRecords s i)).working
  simp only [applyEntry, hx, applyAlarm, hown, hp, ho.1, ho.open_eq, hwork, peerDivergence, updatePeer_eq]
  rfl

theorem applyEntry_refusal {reason : Byte} (hx : e.entryIndex = 4) (hp : parseAlarm e = some (.refusal reason)) :
    applyEntry e s = peerRefusal e reason c.record (s.touch i) := by
  have hwork := (ho.congr (touch_sameRecords s i)).working
  simp only [applyEntry, hx, applyAlarm, hown, hp, ho.1, ho.open_eq, hwork]
  rfl

/-- A frame of good form for a parcel with no declaration only uses its context. -/
theorem applyEntry_peer_undeclared (hd : c.record.decl = none)
    (h : FigureForm e ∨ DivergenceForm e ∨ RefusalForm e) : applyEntry e s = s.touch i := by
  have hpeer : isPeerOf e.source s c.record = false := by simp [isPeerOf, hd]
  obtain h | h | h := h
  · obtain ⟨f, hx, hi, hp⟩ := h.content
    rw [applyEntry_figure hown ho hx hi hp, if_neg (by simp [hpeer])]
  · obtain ⟨raised, w, hx, hp⟩ := h.content
    rw [applyEntry_divergence hown ho hx hp, if_neg (by simp [hpeer])]
  · obtain ⟨reason, hx, hp⟩ := h.content
    rw [applyEntry_refusal hown ho hx hp]
    simp only [peerRefusal, hd]

/-- A FIGURE or a divergence from no other node of the parcel only uses its context. -/
theorem applyEntry_peer_outside {d : Declaration} (hd : c.record.decl = some d)
    (hout : e.source ∉ d.nodes ∨ e.source = s.sup.straps.station) (h : FigureForm e ∨ DivergenceForm e) :
    applyEntry e s = s.touch i := by
  have hpeer : ¬ isPeerOf e.source s c.record = true := by
    rw [isPeerOf_iff hd, not_and_or, not_not]
    exact hout
  obtain h | h := h
  · obtain ⟨f, hx, hi, hp⟩ := h.content
    rw [applyEntry_figure hown ho hx hi hp, if_neg hpeer]
  · obtain ⟨raised, w, hx, hp⟩ := h.content
    rw [applyEntry_divergence hown ho hx hp, if_neg hpeer]

theorem applyEntry_refusal_idle {d : Declaration} {reason : Byte} (hd : c.record.decl = some d)
    (hidle : e.source ∉ d.nodes ∨ refusalVoids c.record.state = false) (hx : e.entryIndex = 4)
    (hp : parseAlarm e = some (.refusal reason)) : applyEntry e s = s.touch i := by
  rw [applyEntry_refusal hown ho hx hp]
  simp only [peerRefusal, hd]
  refine if_neg ?_
  obtain hout | hst := hidle
  · simp [hout]
  · simp [hst]

theorem applyEntry_refusal_voids {d : Declaration} {reason : Byte} (hd : c.record.decl = some d)
    (hin : e.source ∈ d.nodes) (hst : refusalVoids c.record.state = true) (hx : e.entryIndex = 4)
    (hp : parseAlarm e = some (.refusal reason)) :
    applyEntry e s = enterVoid e.parcel .peerRefused (.refusal reason)
      (s.withOpen e.parcel i id { record := c.record, dirty := c.dirty }) := by
  rw [applyEntry_refusal hown ho hx hp, ho.form]
  simp only [peerRefusal, hd]
  exact if_pos (by simp [hin, hst])

end Open

theorem refusalVoids_iff (p : ParcelState) : refusalVoids p = true ↔
    p = .declared ∨ p = .opening ∨ p = .transfer ∨ p = .closing ∨ p = .reconciled := by
  cases p <;> decide

theorem refusalVoids_not_iff (p : ParcelState) : refusalVoids p = false ↔
    p = .agreed ∨ p = .disputed ∨ p = .lapsed ∨ p = .void := by
  cases p <;> decide

/-- Settles O41. -/
theorem peerFramesEnterThePeerData : Obligations.PeerFramesEnterThePeerData := by
  intro e rest i r d s hc hq h0 figureForm divergenceForm refusalForm ofForm touched
  refine ⟨fun hx h => intake_plain hc hq (applyEntry_peer_idle hx h _), fun hown h =>
    actsAfterTurnaround_intake hc hq fun u _ _ => applyEntry_peer_opens hown h u, fun hown hopen => ?_,
    fun hown hopen hs hd hin hsrc => ?_⟩
  · obtain ⟨de, c, ho, rfl, -⟩ := hopen.with
    have hoh := headTaken_open ho rest
    refine ⟨fun hd h => ?_, fun hd => ⟨fun h hout => ?_, fun h hout => ?_⟩⟩
    · exact intake_used hc hq s.counters (applyEntry_peer_undeclared hown hoh hd h)
    · exact intake_used hc hq s.counters (applyEntry_peer_outside hown hoh hd hout h)
    · obtain ⟨reason, hx, hp⟩ := RefusalForm.content h
      exact intake_used hc hq s.counters (applyEntry_refusal_idle hown hoh hd (.inl hout) hx hp)
  obtain ⟨de, c, ho, rfl, hnum⟩ := hopen.with
  have hoh := headTaken_open ho rest
  have hpeer := (isPeerOf_iff hd e.source { s with acc := (s.headTaken rest).acc }).mpr ⟨hin, hsrc⟩
  refine ⟨fun p q w raised complete hx hi hpay => ?_, fun raised w hx hi hpay => ?_, fun reason w hx hi hpay => ⟨?_, ?_⟩⟩
  · have happly := applyEntry_figure hown hoh hx hi (parseFigure_of hpay)
    rw [if_pos hpeer, copy_form hoh] at happly
    obtain ⟨t, ht, hwork, -, -, hkept, hline, hacc, hport, hcounters⟩ :=
      intake_unwritten hc hq ho happly .refl (by rw [show State.eng _ = s.eng from rfl, hq.2.2]; simp)
        (keepsPlace_id.copy _) hnum
    exact ⟨t, ht, hwork, hport, hline, hcounters, hacc, hkept⟩
  · have happly := applyEntry_divergence hown hoh hx (parseAlarm_divergence hi hpay)
    rw [if_pos hpeer, copy_form hoh, withOpen_post, withOpen_markWrite] at happly
    obtain ⟨t, ht, hwork, hstored, -, hkept, hline, hacc, hport, hcounters⟩ :=
      intake_written hc hq h0 ho hs happly ((Beside.post _).trans .markWrite) (Beside.mem_markWrite _ _)
        (keepsPlace_id.copy _) hnum
    refine ⟨t, ht, hwork, hstored, ?_, hline.trans (post_line _ _), hacc.trans (post_acc _ _), hkept⟩
    exact (posted_post s { s with acc := (s.headTaken rest).acc } _ rfl rfl rfl).congr hport (congrArg _ hcounters)
  · intro hst
    exact intake_used hc hq s.counters (applyEntry_refusal_idle hown hoh hd
      (.inr ((refusalVoids_not_iff _).mpr hst)) hx (parseAlarm_refusal hi hpay))
  · intro hst q
    have hvoids := (refusalVoids_iff _).mpr hst
    have happly := applyEntry_refusal_voids hown hoh hd hin hvoids hx (parseAlarm_refusal hi hpay)
    obtain ⟨u, hform, hbeside, hmark, huacc, huline, htells⟩ :=
      enterVoid_form (b := c.dirty) hoh hnum (refusal_isBound hvoids) .peerRefused (.refusal reason)
    rw [hform] at happly
    obtain ⟨t, ht, hwork, hstored, -, hkept, hline, hacc, hport, hcounters⟩ :=
      intake_written hc hq h0 ho hs happly hbeside hmark ((keepsPlace_id.copy _).half false) hnum
    have htells : Tells s u _ := htells.of_counts rfl rfl rfl
    refine ⟨t, ht, hwork, hstored, unbound_of (by rw [hacc, huacc]; rfl) (by rw [hacc, huacc]; rfl),
      fun hal => ?_, fun hal hroom => ?_, hline.trans huline, hkept⟩
    · rw [hal] at htells
      exact htells.posted.congr hport (congrArg _ hcounters)
    · rw [hal] at htells
      rw [hport, htells.room hroom, heldDelta_eq]
      rfl

end Sys2Proof.Machine

/-! SUPPORT. Phases (file 01, R9 to R16): what each legal phase makes of an open parcel in the form of a service, and with
them the statements on OPEN, START and STOP and on REGAUGE, CANCEL and RELEASE. -/

namespace Sys2Proof.Machine

variable {s u v : State} {n : ParcelNo} {i : ContextId} {de : DirEntry} {c : OpenContext} {r : ParcelRecord} {b : Bool}
  {F : DirEntry → DirEntry} {e : IntakeEntry} {rest : List IntakeEntry} {l : List NoticeBody} {p : Phase}
  {reason : Byte} {arrival : Second}

/-- What is beside the records of a service that changes parcel n and marks it: since `s` the notices `l` were posted,
and the line and the Acceptance Unit are as given. -/
structure Moved (s u : State) (n : ParcelNo) (l : List NoticeBody) (line : LineInterface) (acc : AcceptanceUnit) : Prop where
  beside : Beside n s u
  marked : n ∈ u.eng.dueWrites
  tells : Tells s u l
  line : u.line = line
  acc : u.acc = acc

/-- An intake service that moves its one open parcel: the record and the directory entry, with the notices. -/
theorem intake_moved {q : ParcelRecord} {line : LineInterface} {acc : AcceptanceUnit} (hc : s.HeadChosen e rest)
    (hq : s.Quiet) (h0 : n ≠ 0#4) (ho : s.OpenWith n i de c) (hs : (s.stored n).isSome = true)
    (happly : applyEntry e { s with acc := (s.headTaken rest).acc } = u.withOpen n i F { record := q, dirty := true })
    (hu : Moved { s with acc := (s.headTaken rest).acc } u n l line acc) (hF : KeepsPlace F) (hn : q.number = n) :
    ∃ t, exec .intakeService s = .next t ∧ t.working n = some q ∧ t.stored n = some (mkStored q) ∧
      t.dirFind n = some (F de) ∧ (∀ x, l = [x] → Posted s t x) ∧
      (s.port.notices.length + l.length ≤ 16 →
        t.port.notices = s.port.notices ++ l.map (fun x => { second := s.tmr.seconds, body := x })) ∧
      t.line = line ∧ t.acc = acc ∧ OthersKept s t n := by
  obtain ⟨t, ht, hwork, hstored, hdir, hkept, hline, hacc, hport, hcounters⟩ :=
    intake_written hc hq h0 ho hs happly hu.beside hu.marked hF hn
  have htells : Tells s u l := hu.tells.of_counts rfl rfl rfl
  refine ⟨t, ht, hwork, hstored, hdir, fun x hx => ?_, fun hroom => ?_, hline.trans hu.line, hacc.trans hu.acc, hkept⟩
  · subst hx
    exact htells.posted.congr hport (congrArg _ hcounters)
  · rw [hport, htells.room hroom]

/-! ## The legal phases, in the form of a service -/

theorem stateNotice_of {q : ParcelRecord} (hn : q.number = n) (hv : q.state ≠ .void) (cause : NoticeCause) :
    stateNotice q cause = .parcelState n (some q.state) q.round none cause := by
  rw [stateNotice, hn, if_neg (by simpa using hv)]

/-- A change to a state that is not VOID. -/
theorem changeState_form (h : s.OpenWith n i de c) (hF : KeepsPlace F) (hr : r.number = n)
    (f : ParcelRecord → ParcelRecord) (hf : (f r).number = n) (hv : (f r).state ≠ .void) (cause : NoticeCause)
    (hu : Beside n s u) (ht : Tells s u l) :
    ∃ v, changeState n f cause (u.withOpen n i F { record := r, dirty := b }) =
        v.withOpen n i (fun d => (F d).copyFrom (f r)) { record := f r, dirty := true } ∧
      Moved s v n (l ++ [.parcelState n (some (f r).state) (f r).round none cause]) u.line u.acc := by
  rw [← stateNotice_of hf hv]
  refine ⟨_, withOpen_changeState (h.congr hu.records) hF hr f hf cause, ?_⟩
  exact ⟨(hu.trans (.post _)).trans .markWrite, Beside.mem_markWrite _ _, (ht.post _).markWrite n, post_line _ _,
    post_acc _ _⟩

/-- The clearing of a raised alarm, with its frame (R72), of a parcel in the form of a service. -/
theorem clearAlarm_form {acc : AcceptanceUnit} (w : State) (h : s.OpenWith n i de c) (hF : KeepsPlace F)
    (hr : r.number = n) (ha : r.alarm.raised = true) (hu : Beside n s u) (ht : Tells s u l) (hline : u.line = w.line)
    (hsup : u.sup = w.sup) (hacc : u.acc = acc) :
    let delta := (r.running.map RunningFigure.delta).getD 0#32
    let o := offer { key := mkKey .alarm w.sup.straps.station n 0#6, payload := [0#8, 0#8] ++ be32 delta } false w
    let refused := decide (o.1 = .queueFull) || decide (o.1 = .silenced)
    let q := { r with alarm := { conditionSince := none, raised := false, clearSince := none }, alarmOwed := refused }
    ∃ v, clearAlarmWithFrame n (u.withOpen n i F { record := r, dirty := b }) =
        v.withOpen n i (fun d => (F d).copyFrom q) { record := q, dirty := true } ∧
      Moved s v n (l ++ [.alarmCleared n (if refused then .refused else .admitted) delta]) o.2.line acc := by
  intro delta o refused q
  have hframe : alarmFrame u n { r with alarm := quietAlarm } =
      { key := mkKey .alarm w.sup.straps.station n 0#6, payload := [0#8, 0#8] ++ be32 delta } := by
    rw [alarmFrame_eq, hsup]
    rfl
  obtain ⟨hanswer, hqueue⟩ := offer_line_congr
    { key := mkKey .alarm w.sup.straps.station n 0#6, payload := [0#8, 0#8] ++ be32 delta } false hline
  have hfate : fateOf o.1 = if refused then .refused else .admitted := by rw [fateOf, isRefused_eq]
  have hform := clearAlarmWithFrame_raised (b := b) (h.congr hu.records) hF hr ha
  simp only [hframe, hanswer, isRefused_eq, heldDelta_eq] at hform
  rw [show fateOf (offer { key := mkKey .alarm w.sup.straps.station n 0#6, payload := [0#8, 0#8] ++ be32 delta } false w).1
    = _ from hfate] at hform
  refine ⟨_, hform, (((hu.trans (.offer _ _)).trans (.post _)).trans .markWrite), Beside.mem_markWrite _ _,
    ((ht.offer _ _).post _).markWrite n, (post_line _ _).trans hqueue,
    (post_acc _ _).trans ((offer_acc _ _ _).trans hacc)⟩

/-- The record with its last phase (R9). -/
def withPhase (e : IntakeEntry) (p : Phase) (reason : Byte) (r : ParcelRecord) : ParcelRecord :=
  { r with lastPhase := some { phase := p, source := e.source, reason := reason, arrival := e.arrival } }

/-- A legal PHASE of a node for an open parcel is applied to the record with its last phase. -/
theorem applyEntry_phase_legal {round : Byte} {d : Declaration} (hp : IsPhaseEntry e p round reason)
    (ho : s.OpenWith e.parcel i de c) (hd : c.record.decl = some d) (hin : e.source ∈ d.nodes)
    (hst : c.record.state ∈ legalStates p)
    (hround : p = .regauge → round.toNat = c.record.round ∧ c.record.round < 4) :
    applyEntry e s = applyLegal p e.parcel reason e.arrival (s.withOpen e.parcel i
      (fun d => d.copyFrom (withPhase e p reason c.record)) { record := withPhase e p reason c.record, dirty := true }) := by
  rw [applyEntry_phase hp ho hd, if_pos ⟨hin, hst, hround⟩, copy_form ho]
  rfl

theorem postAll_line (s : State) (l : List NoticeBody) : (s.postAll l).line = s.line := by
  induction l generalizing s with
  | nil => rfl
  | cons x l ih => exact (ih _).trans (post_line s x)

theorem postAll_acc (s : State) (l : List NoticeBody) : (s.postAll l).acc = s.acc := by
  induction l generalizing s with
  | nil => rfl
  | cons x l ih => exact (ih _).trans (post_acc s x)

/-- START on an open parcel (R11). -/
theorem applyStart_form (h : s.OpenWith n i de c) (hF : KeepsPlace F) (hr : r.number = n) (reason : Byte) :
    let q := { r with roster := r.roster.map substituteOpening, state := .transfer }
    ∃ v, applyStart n reason (s.withOpen n i F { record := r, dirty := b }) =
        v.withOpen n i (fun d => (F d).copyFrom q) { record := q, dirty := true } ∧
      Moved s v n ((missingOpenings 0 (r.roster.map substituteOpening)).map (fun k => .openingMissing n k) ++
        [.parcelState n (some .transfer) r.round none (.phase reason)]) s.line s.acc := by
  intro q
  have hFr := hF.copy { r with roster := r.roster.map substituteOpening }
  have hr' : ({ r with roster := r.roster.map substituteOpening } : ParcelRecord).number = n := hr
  have hform := withOpen_modify (b := b) h hF hr (fun r => { r with roster := r.roster.map substituteOpening })
  have hwork := withOpen_working (b := true) h hFr hr'
  have htells : Tells s (s.postAll ((missingOpenings 0 (r.roster.map substituteOpening)).map
    (fun k => .openingMissing n k))) _ := ⟨rfl, rfl, postAll_tmr s _⟩
  obtain ⟨v, hv, hmoved⟩ := changeState_form (b := true) h hFr hr' (fun r => { r with state := .transfer }) hr
    (by simp) (.phase reason) (Beside.postAll _) htells
  rw [postAll_line, postAll_acc] at hmoved
  refine ⟨v, ?_, hmoved⟩
  rw [applyStart, hform]
  simp only [hwork, withOpen_postAll]
  exact hv

/-- STOP on an open parcel whose alarm is not raised (R12). -/
theorem applyStop_quiet (h : s.OpenWith n i de c) (hF : KeepsPlace F) (hr : r.number = n) (ha : r.alarm.raised = false)
    (reason : Byte) (arrival : Second) :
    let q := { r with
      state := .closing, windowStart := some arrival
      alarm := { conditionSince := none, raised := false, clearSince := none } }
    ∃ v, applyStop n reason arrival (s.withOpen n i F { record := r, dirty := b }) =
        v.withOpen n i (fun d => { (F d).copyFrom q with halfDone := false }) { record := q, dirty := true } ∧
      Moved s v n [.parcelState n (some .closing) r.round none (.phase reason)] s.line s.acc := by
  intro q
  obtain ⟨v, hv, hmoved⟩ := changeState_form (b := b) h hF hr
    (fun r => { r with state := .closing, windowStart := some arrival }) hr (by simp) (.phase reason) .refl (.refl s)
  refine ⟨v, ?_, hmoved⟩
  rw [applyStop, hv, withOpen_setHalf _ _ _ _ (hF.copy _)]
  exact clearAlarmWithFrame_quiet (h.congr hmoved.beside.records) ((hF.copy _).half false) hr ha

/-- STOP on an open parcel whose alarm is raised (R12, R72). -/
theorem applyStop_raised (w : State) (h : s.OpenWith n i de c) (hF : KeepsPlace F) (hr : r.number = n)
    (ha : r.alarm.raised = true) (hline : s.line = w.line) (hsup : s.sup = w.sup) (reason : Byte) (arrival : Second) :
    let delta := (r.running.map RunningFigure.delta).getD 0#32
    let o := offer { key := mkKey .alarm w.sup.straps.station n 0#6, payload := [0#8, 0#8] ++ be32 delta } false w
    let refused := decide (o.1 = .queueFull) || decide (o.1 = .silenced)
    let q := { r with
      state := .closing, windowStart := some arrival, alarmOwed := refused
      alarm := { conditionSince := none, raised := false, clearSince := none } }
    ∃ v, applyStop n reason arrival (s.withOpen n i F { record := r, dirty := b }) =
        v.withOpen n i (fun d => { (F d).copyFrom q with halfDone := false }) { record := q, dirty := true } ∧
      Moved s v n [.parcelState n (some .closing) r.round none (.phase reason),
        .alarmCleared n (if refused then .refused else .admitted) delta] o.2.line s.acc := by
  intro delta o refused q
  obtain ⟨u, hu, hmoved⟩ := changeState_form (b := b) h hF hr
    (fun r => { r with state := .closing, windowStart := some arrival }) hr (by simp) (.phase reason) .refl (.refl s)
  obtain ⟨v, hv, hcleared⟩ := clearAlarm_form (b := true) (acc := s.acc)
    (r := { r with state := .closing, windowStart := some arrival }) w h ((hF.copy _).half false) hr ha hmoved.beside
    hmoved.tells (hmoved.line.trans hline) (hmoved.beside.sup.trans hsup) hmoved.acc
  refine ⟨v, ?_, hcleared⟩
  rw [applyStop, hu, withOpen_setHalf _ _ _ _ (hF.copy _)]
  exact hv

/-- Settles O37. -/
theorem openStartAndStopMoveTheParcel : Obligations.OpenStartAndStopMoveTheParcel := by
  intro e rest p round reason i r d s hc hq hp h0
  refine ⟨actsAfterTurnaround_intake hc hq fun u _ _ => applyPhase_opens hp u, fun hopen hs hd hin => ?_⟩
  intro last opened missing moved
  obtain ⟨de, c, ho, rfl, hn⟩ := hopen.with
  have hoh := headTaken_open ho rest
  have hF : KeepsPlace (fun d : DirEntry => d.copyFrom (withPhase e p reason c.record)) := keepsPlace_id.copy _
  have ends {u : State} {F : DirEntry → DirEntry} {q : ParcelRecord} {l : List NoticeBody} {line : LineInterface}
      (happly : applyEntry e { s with acc := (s.headTaken rest).acc } =
        u.withOpen e.parcel i F { record := q, dirty := true })
      (hu : Moved { s with acc := (s.headTaken rest).acc } u e.parcel l line (s.headTaken rest).acc) (hF : KeepsPlace F)
      (hn : q.number = e.parcel)
      (hdir : (F de).state = q.state ∧ (F de).round = q.round ∧ (F de).windowStart = q.windowStart) :
      moved q l line := by
    obtain ⟨t, ht, hwork, hstored, hfind, -, hroom, hline, hacc, hkept⟩ := intake_moved hc hq h0 ho hs happly hu hF hn
    obtain ⟨hstate, hround, hstart⟩ := hdir
    exact ⟨t, ht, hwork, hstored, ⟨_, hfind, hstate, hround, hstart, (hF de).2.trans ho.2.1⟩, hroom, hline, hacc, hkept⟩
  refine ⟨?_, ?_, ?_, ?_⟩
  · rintro rfl hst
    have happly := applyEntry_phase_legal hp hoh hd hin (by rw [hst]; decide) (by simp)
    obtain ⟨v, hv, hmoved⟩ := changeState_form (b := true) (r := withPhase e .opening reason c.record) hoh hF hn
      (fun r => { r with state := .opening }) hn (by simp) (.phase reason) .refl (.refl _)
    exact ends (happly.trans hv) hmoved (hF.copy _) hn ⟨rfl, rfl, rfl⟩
  · rintro rfl hst
    have happly := applyEntry_phase_legal hp hoh hd hin (by rw [hst]; decide) (by simp)
    obtain ⟨v, hv, hmoved⟩ := applyStart_form (b := true) (r := withPhase e .start reason c.record) hoh hF hn reason
    have hopened : (withPhase e .start reason c.record).roster.map substituteOpening = opened := by
      rw [substituteOpening_eq]
      rfl
    rw [hopened] at hv hmoved
    rw [missingOpenings_eq] at hmoved
    exact ends (happly.trans hv) hmoved (hF.copy _) hn ⟨rfl, rfl, rfl⟩
  · rintro rfl hst ha
    have happly := applyEntry_phase_legal hp hoh hd hin (by rw [hst]; decide) (by simp)
    obtain ⟨v, hv, hmoved⟩ := applyStop_quiet (b := true) (r := withPhase e .stop reason c.record) hoh hF hn ha reason e.arrival
    exact ends (happly.trans hv) hmoved ((hF.copy _).half false) hn ⟨rfl, rfl, rfl⟩
  · rintro rfl hst ha
    intro delta o refused
    have happly := applyEntry_phase_legal hp hoh hd hin (by rw [hst]; decide) (by simp)
    obtain ⟨v, hv, hmoved⟩ := applyStop_raised (b := true) (r := withPhase e .stop reason c.record) s hoh hF hn ha rfl rfl
      reason e.arrival
    exact ends (happly.trans hv) hmoved ((hF.copy _).half false) hn ⟨rfl, rfl, rfl⟩

end Sys2Proof.Machine

/-! SUPPORT. The phases that end a round (file 01, R13, R14, R16 and R9): REGAUGE, CANCEL and RELEASE on an open parcel,
the ignored phases, and with them the statement on them. -/

namespace Sys2Proof.Machine

variable {s u : State} {n : ParcelNo} {i : ContextId} {de : DirEntry} {c : OpenContext} {r : ParcelRecord} {b : Bool}
  {F : DirEntry → DirEntry} {e : IntakeEntry} {rest : List IntakeEntry} {l : List NoticeBody} {p : Phase}
  {round reason : Byte} {arrival : Second}

/-- REGAUGE on an open parcel (R13). -/
theorem applyRegauge_form (h : s.OpenWith n i de c) (hF : KeepsPlace F) (hr : r.number = n) (reason : Byte)
    (arrival : Second) :
    let key := mkKey .vote s.sup.straps.station n (BitVec.ofNat 6 r.round)
    ∃ v, applyRegauge n reason arrival (s.withOpen n i F { record := r, dirty := b }) =
        v.withOpen n i (fun d => { (F d).copyFrom (regauged arrival r) with halfDone := false })
          { record := regauged arrival r, dirty := true } ∧
      Moved s v n [.parcelState n (some .closing) (r.round + 1) none (.phase reason)]
        { s.line with
          outbound := (s.line.outbound.filter (fun x => x.key != key || x.inFlight)).map
            (fun x => if x.key = key then { x with withdrawn := true } else x) } s.acc := by
  intro key
  obtain ⟨v, hv, hbeside, hmark, htells, hline, hacc⟩ :=
    changeState_form (b := b) h hF hr (regauged arrival) hr (by simp [regauged])
    (.phase reason) .refl (.refl s)
  refine ⟨withdraw key v, ?_, hbeside.trans (.withdraw _), hmark, htells.withdraw _, ?_, hacc⟩
  · have hstation : (s.withOpen n i F { record := r, dirty := b }).station = s.sup.straps.station := rfl
    simp only [applyRegauge, withOpen_working h hF hr, hv, withOpen_setHalf _ _ _ _ (hF.copy _), withOpen_withdraw,
      hstation]
    rfl
  · simp only [withdraw, State.setOutbound, hline, beq_iff_eq]
    rfl

/-- The record that CANCEL leaves (R14, R15). -/
def cancelled (r : ParcelRecord) : ParcelRecord := { r with
  state := .void, voidReason := some .cancelled, windowStart := none, voteOwed := false
  alarm := { conditionSince := none, raised := false, clearSince := none }
  roster := r.roster.map (fun x => { x with binding := none }) }

/-- The entry into VOID(CANCELLED) with no alarm raised, of a parcel in the form of a service. -/
theorem enterVoid_cancelled (h : s.OpenWith n i de c) (hF : KeepsPlace F) (hr : r.number = n)
    (hst : r.state.isBound = true) (ha : r.alarm.raised = false) (hu : Beside n s u) (ht : Tells s u l)
    (cause : NoticeCause) :
    ∃ v, enterVoid n .cancelled cause (u.withOpen n i F { record := r, dirty := b }) =
        v.withOpen n i (fun d => { (F d).copyFrom (cancelled r) with halfDone := false })
          { record := cancelled r, dirty := true } ∧
      Moved s v n (l ++ [.parcelState n (some .void) r.round (some .cancelled) cause]) u.line (unbindParcel n u.acc) := by
  have hnotice : stateNotice (cancelled r) cause = .parcelState n (some .void) r.round (some .cancelled) cause := by
    rw [← hr]
    rfl
  rw [← hnotice]
  exact ⟨_, enterVoid_quiet (h.congr hu.records) hF hr ha hst .cancelled cause,
    ((hu.trans (.setAcc _)).trans (.post _)).trans .markWrite, Beside.mem_markWrite _ _,
    ((ht.setAcc _).post _).markWrite n, post_line _ _, post_acc _ _⟩

/-- CANCEL on an open parcel whose alarm is not raised (R14). -/
theorem applyCancel_quiet (h : s.OpenWith n i de c) (hF : KeepsPlace F) (hr : r.number = n)
    (hst : r.state.isBound = true) (ha : r.alarm.raised = false) (reason : Byte) :
    ∃ v, applyCancel n reason (s.withOpen n i F { record := r, dirty := b }) =
        v.withOpen n i (fun d => { (F d).copyFrom (cancelled r) with halfDone := false })
          { record := cancelled r, dirty := true } ∧
      Moved s v n [.parcelState n (some .void) r.round (some .cancelled) (.phase reason)] s.line
        (unbindParcel n s.acc) := by
  rw [applyCancel, clearAlarmWithFrame_quiet h hF hr ha]
  exact enterVoid_cancelled (r := { r with alarm := quietAlarm }) h (hF.copy _) hr hst rfl .refl (.refl s) (.phase reason)

/-- CANCEL on an open parcel whose alarm is raised (R14, R72). -/
theorem applyCancel_raised (w : State) (h : s.OpenWith n i de c) (hF : KeepsPlace F) (hr : r.number = n)
    (hst : r.state.isBound = true) (ha : r.alarm.raised = true) (hline : s.line = w.line) (hsup : s.sup = w.sup)
    (reason : Byte) :
    let delta := (r.running.map RunningFigure.delta).getD 0#32
    let o := offer { key := mkKey .alarm w.sup.straps.station n 0#6, payload := [0#8, 0#8] ++ be32 delta } false w
    let refused := decide (o.1 = .queueFull) || decide (o.1 = .silenced)
    let q := cancelled { r with alarmOwed := refused }
    ∃ v, applyCancel n reason (s.withOpen n i F { record := r, dirty := b }) =
        v.withOpen n i (fun d => { (F d).copyFrom q with halfDone := false }) { record := q, dirty := true } ∧
      Moved s v n [.alarmCleared n (if refused then .refused else .admitted) delta,
        .parcelState n (some .void) r.round (some .cancelled) (.phase reason)] o.2.line (unbindParcel n s.acc) := by
  intro delta o refused q
  obtain ⟨u, hu, hbeside, -, htells, huline, huacc⟩ :=
    clearAlarm_form (b := b) (acc := s.acc) w h hF hr ha .refl (.refl s) hline hsup rfl
  obtain ⟨v, hv, hmoved⟩ := enterVoid_cancelled (b := true)
    (r := { r with alarm := quietAlarm, alarmOwed := refused }) h (hF.copy _) hr hst rfl hbeside htells (.phase reason)
  rw [huline, huacc] at hmoved
  refine ⟨v, ?_, hmoved⟩
  rw [applyCancel, hu]
  exact hv

/-- An ignored PHASE of an open parcel is counted, and its context is the one used last. -/
theorem intake_phase_ignored (hc : s.HeadChosen e rest) (hq : s.Quiet)
    (h : applyEntry e { s with acc := (s.headTaken rest).acc } =
      (State.touch { s with acc := (s.headTaken rest).acc } i).bump .ignoredPhases) :
    exec .intakeService s = .next { s.headTaken rest with
      eng := { (s.headTaken rest).eng with lessRecent := otherContext i }
      counters := { s.counters with ignoredPhases := min 65535 (s.counters.ignoredPhases + 1) } } :=
  intake_used hc hq _ h

/-- Settles O38. -/
theorem regaugeCancelAndReleaseEndARound : Obligations.RegaugeCancelAndReleaseEndARound := by
  refine ⟨fun e rest p round reason i r d s hc hq hp h0 hopen hs hd => ?_,
    fun e rest p round reason i r s hc hq hp h0 hopen hs hd => ?_, fun e rest s hc hq hx hheld hform => ?_⟩
  · intro last
    obtain ⟨de, c, ho, rfl, hn⟩ := hopen.with
    have hoh := headTaken_open ho rest
    have hF : KeepsPlace (fun d : DirEntry => d.copyFrom (withPhase e p reason c.record)) := keepsPlace_id.copy _
    refine ⟨fun hin hreg hst hround hlast => ?_, fun hin hcan hst ha => ?_, fun hin hcan hst ha => ?_,
      fun hin hrel hst => ?_, fun hbad => ?_⟩
    · subst hreg
      intro q key
      have hmem : c.record.state ∈ legalStates .regauge := by
        obtain hst | hst := hst <;> rw [hst] <;> decide
      have happly := applyEntry_phase_legal hp hoh hd hin hmem fun _ => ⟨hround, hlast⟩
      obtain ⟨v, hv, hmoved⟩ := applyRegauge_form (b := true) (r := withPhase e .regauge reason c.record) hoh hF hn reason
        e.arrival
      obtain ⟨t, ht, hwork, hstored, hdir, hposted, -, hline, hacc, hkept⟩ :=
        intake_moved hc hq h0 ho hs (happly.trans hv) hmoved ((hF.copy _).half false) hn
      exact ⟨t, ht, hwork, hstored, hline, ⟨_, hdir, rfl, rfl, rfl⟩, hposted _ rfl, hacc, hkept⟩
    · subst hcan
      intro q
      have happly := applyEntry_phase_legal hp hoh hd hin hst (by simp)
      obtain ⟨v, hv, hmoved⟩ := applyCancel_quiet (b := true) (r := withPhase e .cancel reason c.record) hoh hF hn
        (cancel_isBound hst) ha reason
      obtain ⟨t, ht, hwork, hstored, -, hposted, -, hline, hacc, hkept⟩ :=
        intake_moved hc hq h0 ho hs (happly.trans hv) hmoved ((hF.copy _).half false) hn
      exact ⟨t, ht, hwork, hstored, unbound_of (by rw [hacc]; rfl) (by rw [hacc]; rfl), by rw [hacc]; rfl,
        hposted _ rfl, hline, hkept⟩
    · subst hcan
      intro delta o refused q
      have happly := applyEntry_phase_legal hp hoh hd hin hst (by simp)
      obtain ⟨v, hv, hmoved⟩ := applyCancel_raised (b := true) (r := withPhase e .cancel reason c.record) s hoh hF hn
        (cancel_isBound hst) ha rfl rfl reason
      obtain ⟨t, ht, hwork, hstored, -, -, hroom, hline, hacc, hkept⟩ :=
        intake_moved hc hq h0 ho hs (happly.trans hv) hmoved ((hF.copy _).half false) hn
      exact ⟨t, ht, hwork, hstored, unbound_of (by rw [hacc]; rfl) (by rw [hacc]; rfl), by rw [hacc]; rfl, hline, hkept,
        hroom⟩
    · subst hrel
      have happly := applyEntry_phase_legal hp hoh hd hin hst (by simp)
      exact intake_removed (r := withPhase e .release reason c.record) (b := true) hc hq ho hF hn (.phase reason) happly
    · refine intake_phase_ignored hc hq ((applyEntry_phase hp hoh hd).trans (if_neg ?_))
      rintro ⟨hin, hst, hround⟩
      obtain hout | hill | ⟨hreg, hbad⟩ := hbad
      · exact hout hin
      · exact hill hst
      · obtain ⟨heq, hlt⟩ := hround hreg
        omega
  · obtain ⟨de, c, ho, rfl, hn⟩ := hopen.with
    have hoh := headTaken_open ho rest
    have happly := applyEntry_phase_check hp hoh hd
    refine ⟨fun hrel hst => ?_, fun hbad => ?_⟩
    · rw [if_pos ⟨hrel, hst⟩, copy_form hoh, hrel] at happly
      exact intake_removed (r := withPhase e .release reason c.record) (b := true) hc hq ho (keepsPlace_id.copy _) hn
        (.phase reason) happly
    · rw [if_neg (by tauto)] at happly
      exact intake_phase_ignored hc hq happly
  · obtain ⟨de, hde⟩ := Option.isSome_iff_exists.mp hheld
    have hfind : State.dirFind { s with acc := (s.headTaken rest).acc } e.parcel = some de := hde
    refine intake_counted hq rest _ hc ?_
    simp only [applyEntry, hx, applyPhase, hfind, parsePhase_none hx hform]
    rfl

end Sys2Proof.Machine

/-! SUPPORT. Votes (file 05, R88 to R95): what a judged vote makes of an open parcel, the decision of R93 in the form of a
service, and with them the statement on VOTE entries. -/

namespace Sys2Proof.Machine

variable {s u : State} {n : ParcelNo} {i : ContextId} {de : DirEntry} {c : OpenContext} {r : ParcelRecord} {b : Bool}
  {F : DirEntry → DirEntry} {e : IntakeEntry} {rest : List IntakeEntry} {v : VoteData} {d : Declaration}

/-! ## The decision (R93 to R95) -/

/-- An entry of the vote list has become INCONSISTENT. -/
def HasOdd (l : List VoteEntry) : Prop := ∃ x ∈ l, x.status = .inconsistent

/-- Every entry of the vote list is RECEIVED. -/
def IsFull (l : List VoteEntry) : Prop := ∀ x ∈ l, x.status = .received

/-- All the entries of the vote list hold the same check. -/
def IsSame (l : List VoteEntry) : Prop := ∀ x ∈ l, ∀ y ∈ l, x.vote.map VoteData.check = y.vote.map VoteData.check

theorem IsFull.not_odd {l : List VoteEntry} (h : IsFull l) : ¬ HasOdd l := by
  rintro ⟨x, hx, hodd⟩
  rw [h x hx] at hodd
  cases hodd

theorem any_inconsistent (l : List VoteEntry) : l.any (fun x => x.status == .inconsistent) = true ↔ HasOdd l := by
  simp only [List.any_eq_true, beq_iff_eq, HasOdd]

theorem all_received (l : List VoteEntry) : l.all (fun x => x.status == .received) = true ↔ IsFull l := by
  simp only [List.all_eq_true, beq_iff_eq, IsFull]

theorem decide93_form (h : s.OpenWith n i de c) (hF : KeepsPlace F) (hr : r.number = n) :
    decide93 n (s.withOpen n i F { record := r, dirty := b }) =
      let u := s.withOpen n i F { record := r, dirty := b }
      if r.votes.any (fun x => x.status == .inconsistent) && (r.state == .closing || r.state == .reconciled) then
        enterDisputed n u
      else if r.votes.all (fun x => x.status == .received) && r.state == .reconciled then
        if checksEqual r.votes then enterAgreed n u else enterDisputed n u
      else u := by
  simp only [decide93, withOpen_working h hF hr]

theorem decide93_disputed (h : s.OpenWith n i de c) (hF : KeepsPlace F) (hr : r.number = n)
    (hv : HasOdd r.votes ∧ (r.state = .closing ∨ r.state = .reconciled) ∨
      IsFull r.votes ∧ r.state = .reconciled ∧ ¬ IsSame r.votes) :
    decide93 n (s.withOpen n i F { record := r, dirty := b }) =
      enterDisputed n (s.withOpen n i F { record := r, dirty := b }) := by
  rw [decide93_form h hF hr]
  obtain ⟨hodd, hst⟩ | ⟨hfull, hst, hsame⟩ := hv
  · exact if_pos (by simp [(any_inconsistent _).mpr hodd, hst])
  · have hequal : checksEqual r.votes = false := by
      rw [← Bool.not_eq_true, checksEqual_iff]
      exact hsame
    have hnot : r.votes.any (fun x => x.status == .inconsistent) = false := by
      rw [← Bool.not_eq_true, any_inconsistent]
      exact hfull.not_odd
    simp only [hnot, (all_received _).mpr hfull, hst, hequal, beq_self_eq_true, Bool.false_and, Bool.true_and,
      Bool.false_eq_true, if_false, if_true]

theorem decide93_agreed (h : s.OpenWith n i de c) (hF : KeepsPlace F) (hr : r.number = n) (hfull : IsFull r.votes)
    (hst : r.state = .reconciled) (hsame : IsSame r.votes) :
    decide93 n (s.withOpen n i F { record := r, dirty := b }) =
      enterAgreed n (s.withOpen n i F { record := r, dirty := b }) := by
  have hnot : r.votes.any (fun x => x.status == .inconsistent) = false := by
    rw [← Bool.not_eq_true, any_inconsistent]
    exact hfull.not_odd
  rw [decide93_form h hF hr]
  simp only [hnot, (all_received _).mpr hfull, hst, (checksEqual_iff _).mpr hsame, beq_self_eq_true, Bool.false_and,
    Bool.true_and, Bool.false_eq_true, if_false, if_true]

theorem decide93_stays (h : s.OpenWith n i de c) (hF : KeepsPlace F) (hr : r.number = n)
    (hv : r.state = .disputed ∨ ¬ HasOdd r.votes ∧ (r.state = .reconciled → ¬ IsFull r.votes)) :
    decide93 n (s.withOpen n i F { record := r, dirty := b }) = s.withOpen n i F { record := r, dirty := b } := by
  rw [decide93_form h hF hr]
  dsimp only
  rw [if_neg, if_neg]
  · rw [Bool.and_eq_true, all_received, beq_iff_eq]
    rintro ⟨hfull, hst⟩
    obtain hdis | ⟨-, hnot⟩ := hv
    · rw [hst] at hdis
      cases hdis
    · exact hnot hst hfull
  · rw [Bool.and_eq_true, any_inconsistent]
    rintro ⟨hodd, hst⟩
    obtain hdis | ⟨hnot, -⟩ := hv
    · rw [hdis] at hst
      exact absurd hst (by decide)
    · exact hnot hodd

/-- The record that DISPUTED leaves (R95). -/
def disputed (r : ParcelRecord) : ParcelRecord := { r with state := .disputed, windowStart := none }

/-- The record that AGREED leaves (R94). -/
def agreed (r : ParcelRecord) : ParcelRecord := { r with
  state := .agreed, windowStart := none, voteOwed := false, roster := r.roster.map (fun x => { x with binding := none }) }

theorem enterDisputed_form (h : s.OpenWith n i de c) (hF : KeepsPlace F) (hr : r.number = n) :
    ∃ v, enterDisputed n (s.withOpen n i F { record := r, dirty := b }) =
        v.withOpen n i (fun d => { (F d).copyFrom (disputed r) with halfDone := false })
          { record := disputed r, dirty := true } ∧
      Moved s v n [.parcelState n (some .disputed) r.round none .other] s.line s.acc := by
  obtain ⟨v, hv, hmoved⟩ := changeState_form (b := b) h hF hr (fun r => { r with state := .disputed, windowStart := none })
    hr (by simp) .other .refl (.refl s)
  refine ⟨v, ?_, hmoved⟩
  rw [enterDisputed, hv, withOpen_setHalf _ _ _ _ (hF.copy _)]
  rfl

theorem enterAgreed_form (h : s.OpenWith n i de c) (hF : KeepsPlace F) (hr : r.number = n) :
    ∃ v, enterAgreed n (s.withOpen n i F { record := r, dirty := b }) =
        v.withOpen n i (fun d => { (F d).copyFrom (agreed r) with halfDone := false })
          { record := agreed r, dirty := true } ∧
      Moved s v n [.parcelState n (some .agreed) r.round none .other] s.line (unbindParcel n s.acc) := by
  have hFr := hF.copy { r with roster := clearBindings r.roster }
  have hr' : ({ r with roster := clearBindings r.roster } : ParcelRecord).number = n := hr
  obtain ⟨v, hv, hmoved⟩ := changeState_form (b := true) (u := s.setAcc (unbindParcel n s.acc)) (l := []) h hFr hr'
    (fun r => { r with state := .agreed, windowStart := none, voteOwed := false }) hr (by simp) .other (.setAcc _)
    ((Tells.refl s).setAcc _)
  refine ⟨v, ?_, hmoved⟩
  rw [enterAgreed, unbind_form h hF hr]
  refine (congrArg (fun x => State.setHalf x n false) hv).trans ?_
  rw [withOpen_setHalf _ _ _ _ (hFr.copy _)]
  rfl

/-! ## Judging a vote (R88 to R92) -/

/-- The vote of a node counts: it is no echo of the own number, and it is of the round. -/
def VoteCounts (e : IntakeEntry) (v : VoteData) (d : Declaration) (r : ParcelRecord) (s : State) : Prop :=
  e.source ∈ d.nodes ∧ (e.source = s.sup.straps.station → e.own = true) ∧ v.round = r.round

theorem judgeVote_ignored (hd : r.decl = some d) (h : ¬ VoteCounts e v d r s) :
    judgeVote e v r s = s.bump .ignoredVotes := by
  simp only [judgeVote, hd]
  refine if_pos ?_
  simp only [VoteCounts, not_and_or, Classical.not_imp] at h
  simpa [State.station, or_assoc] using h

theorem judgeVote_late (hd : r.decl = some d) (h : VoteCounts e v d r s) (h1 : r.state ≠ .closing)
    (h2 : r.state ≠ .reconciled) (h3 : r.state ≠ .disputed) : judgeVote e v r s = s.bump .lateRecords := by
  obtain ⟨hin, hown, hround⟩ := h
  simp only [judgeVote, hd]
  rw [if_neg, if_pos]
  · simp [takesVotes, h1, h2, h3]
  · simpa [hin, hround, State.station] using hown

/-- A vote that counts, in a state that takes votes. -/
theorem judgeVote_taken (hd : r.decl = some d) (h : VoteCounts e v d r s)
    (hst : r.state = .closing ∨ r.state = .reconciled ∨ r.state = .disputed) :
    judgeVote e v r s = if applyVoteTo e.source v r.votes = r.votes then s
      else decide93 e.parcel (s.modify e.parcel (fun r => { r with votes := applyVoteTo e.source v r.votes })) := by
  obtain ⟨hin, hown, hround⟩ := h
  have htakes : takesVotes r.state = true := by
    obtain hst | hst | hst := hst <;> rw [hst] <;> rfl
  simp only [judgeVote, hd]
  rw [if_neg, if_neg]
  · simp only [beq_iff_eq]
  · simp [htakes]
  · simpa [hin, hround, State.station] using hown

/-- Settles O39. -/
theorem votesDecideTheParcel : Obligations.VotesDecideTheParcel := by
  refine ⟨fun e rest v i r d s hc hq hp h0 => ⟨?_, fun hopen hs hd => ?_⟩, fun e rest v i r s hc hq hp hopen hd => ?_,
    fun e rest s hc hq hx hheld hform => ?_⟩
  · exact actsAfterTurnaround_intake hc hq fun u _ _ => applyVote_opens hp u
  · intro used votes odd full same ended judged
    obtain ⟨de, c, ho, rfl, hn⟩ := hopen.with
    have hoh := headTaken_open ho rest
    have happly := applyEntry_vote hp hoh
    have hvotes : applyVoteTo e.source v c.record.votes = votes := applyVoteTo_eq _ _ _
    refine ⟨fun hj => ?_, fun hj h1 h2 h3 => ?_, fun hj hst => ?_⟩
    · exact intake_used hc hq _ (happly.trans (judgeVote_ignored hd hj))
    · exact intake_used hc hq _ (happly.trans (judgeVote_late hd hj h1 h2 h3))
    replace happly := happly.trans (judgeVote_taken hd hj hst)
    rw [copy_form hoh, hvotes] at happly
    have hF : KeepsPlace (fun d : DirEntry => d.copyFrom { c.record with votes := votes }) := keepsPlace_id.copy _
    have hnum : ({ c.record with votes := votes } : ParcelRecord).number = e.parcel := hn
    have disputes (hne : votes ≠ c.record.votes)
        (hv : HasOdd votes ∧ (c.record.state = .closing ∨ c.record.state = .reconciled) ∨
          IsFull votes ∧ c.record.state = .reconciled ∧ ¬ IsSame votes) :
        ended { c.record with votes := votes, state := .disputed, windowStart := none } := by
      rw [if_neg hne, decide93_disputed hoh hF hnum hv] at happly
      obtain ⟨w, hw, hmoved⟩ := enterDisputed_form (b := true) hoh hF hnum
      obtain ⟨t, ht, hwork, hstored, hdir, hposted, -, hline, hacc, hkept⟩ :=
        intake_moved hc hq h0 ho hs (happly.trans hw) hmoved ((hF.copy _).half false) hn
      exact ⟨t, ht, hwork, hstored, ⟨_, hdir, rfl, rfl, rfl⟩, hposted _ rfl, hline, by rw [hacc]; rfl,
        by simp, fun _ => hacc, hkept⟩
    refine ⟨fun heq => ?_, fun hne hodd hst => disputes hne (.inl ⟨hodd, hst⟩),
      fun hne hfull hst hsame => disputes hne (.inr ⟨hfull, hst, hsame⟩), fun hne hfull hst hsame => ?_,
      fun hne hstay => ?_⟩
    · rw [if_pos heq] at happly
      exact intake_used hc hq s.counters happly
    · rw [if_neg hne, decide93_agreed hoh hF hnum hfull hst hsame] at happly
      obtain ⟨w, hw, hmoved⟩ := enterAgreed_form (b := true) hoh hF hnum
      obtain ⟨t, ht, hwork, hstored, hdir, hposted, -, hline, hacc, hkept⟩ :=
        intake_moved hc hq h0 ho hs (happly.trans hw) hmoved ((hF.copy _).half false) hn
      exact ⟨t, ht, hwork, hstored, ⟨_, hdir, rfl, rfl, rfl⟩, hposted _ rfl, hline, by rw [hacc]; rfl,
        fun _ => unbound_of (by rw [hacc]; rfl) (by rw [hacc]; rfl), by simp, hkept⟩
    · rw [if_neg hne, decide93_stays hoh hF hnum hstay] at happly
      obtain ⟨t, ht, hwork, hstore, -, hkept, hline, hacc, hport, -⟩ :=
        intake_unwritten hc hq ho happly .refl (by rw [show State.eng _ = s.eng from rfl, hq.2.2]; simp) hF hn
      exact ⟨t, ht, hwork, hstore, hport, hline, hacc, hkept⟩
  · obtain ⟨de, c, ho, rfl, hn⟩ := hopen.with
    refine intake_used hc hq _ ((applyEntry_vote hp (headTaken_open ho rest)).trans ?_)
    simp only [judgeVote, hd]
    rfl
  · obtain ⟨de, hde⟩ := Option.isSome_iff_exists.mp hheld
    have hfind : State.dirFind { s with acc := (s.headTaken rest).acc } e.parcel = some de := hde
    have hnone : parseVote e = none := by
      by_contra hsome
      obtain ⟨v, hv⟩ := Option.ne_none_iff_exists'.mp hsome
      exact hform ⟨v, (parseVote_iff hx).mp hv⟩
    refine intake_counted hq rest _ hc ?_
    simp only [applyEntry, hx, applyVote, hfind, hnone]
    rfl

end Sys2Proof.Machine

/-! SUPPORT. SNAPSHOT, LINE STATE and METER records (file 02, R18 to R22; file 05, R82 and R84): what a record of good form
makes of the open parcel of one bound holder, and with it the statement on the opening and closing values. -/

namespace Sys2Proof.Machine

variable {s u : State} {n : ParcelNo} {i : ContextId} {de : DirEntry} {c : OpenContext} {r : ParcelRecord} {b : Bool}
  {F : DirEntry → DirEntry} {e : IntakeEntry} {rest : List IntakeEntry} {d : Declaration} {h : RosterEntry}
  {x : RosterItem} {rec : Reading} {k : Nat}

/-! ## One record for one open parcel -/

/-- A record of good form for a bound holder whose parcel is open is judged against its roster item. -/
theorem takeRecord_open (ho : s.OpenWith h.parcel i de c) (hd : c.record.decl = some d)
    (hx : c.record.roster[h.index]? = some x) (hrole : roleFits e.kind h.role = true)
    (hform : recordForm e.kind e.payload = some rec) :
    takeRecord e.kind e.payload h s =
      if rec.isBad d.alpha then (s.touch i).bump .unusableRecords
      else if rec.kind == 1#8 then takeOpening h.parcel h.index d rec c.record.state x (s.touch i)
      else takeClosing h.parcel h.index d rec c.record.state x (s.touch i) := by
  have hwork := (ho.congr (touch_sameRecords s i)).working
  simp only [takeRecord, hrole, hform, ho.open_eq, hwork, hd, hx, Bool.not_true, Bool.false_eq_true, if_false]

/-- The sequence number of a record is ahead of the one held. -/
def Ahead (rec : Reading) (held : Option Byte) : Prop :=
  ∀ q, held = some q → 1 ≤ (rec.seq - q).toNat ∧ (rec.seq - q).toNat ≤ 127

theorem takeOpening_late {st : ParcelState} (hst : st ≠ .opening) :
    takeOpening n k d rec st x s = s.bump .lateRecords := by
  simp [takeOpening, hst]

theorem takeOpening_stale (h : ¬ Ahead rec (x.opening.map (fun o => o.value.reading.seq))) :
    takeOpening n k d rec .opening x s = s.bump .staleReadings := by
  have hnot : newerThanOption rec.seq (openingSeq x) = false := by
    rw [← Bool.not_eq_true, newerThanOption_iff]
    exact h
  simp [takeOpening, hnot]

theorem takeOpening_taken (h : Ahead rec (x.opening.map (fun o => o.value.reading.seq))) :
    takeOpening n k d rec .opening x s =
      s.setItem n k (fun x => { x with opening := some { value := rec.toValue d, substituted := false } }) := by
  have hnewer : newerThanOption rec.seq (openingSeq x) = true := newerThanOption_iff.mpr h
  simp [takeOpening, hnewer]

theorem takeClosing_late {st : ParcelState} (hst : st ≠ .closing) :
    takeClosing n k d rec st x s = s.bump .lateRecords := by
  simp [takeClosing, hst]

theorem takeClosing_unusable (h : x.opening = none) :
    takeClosing n k d rec .closing x s = s.bump .unusableRecords := by
  simp [takeClosing, h]

theorem takeClosing_stale (ho : x.opening ≠ none) (h : ¬ Ahead rec (x.closing.map (fun c => c.reading.seq))) :
    takeClosing n k d rec .closing x s = s.bump .staleReadings := by
  have hnot : newerThanOption rec.seq (closingSeq x) = false := by
    rw [← Bool.not_eq_true, newerThanOption_iff]
    exact h
  simp [takeClosing, hnot, ho]

theorem takeClosing_taken (ho : x.opening ≠ none) (h : Ahead rec (x.closing.map (fun c => c.reading.seq))) :
    takeClosing n k d rec .closing x s =
      reconcileIfComplete n (s.setItem n k (fun x => { x with closing := some (rec.toValue d) })) := by
  have hnewer : newerThanOption rec.seq (closingSeq x) = true := newerThanOption_iff.mpr h
  simp [takeClosing, hnewer, ho]

theorem all_hasBothValues (l : List RosterItem) :
    l.all hasBothValues = true ↔ ∀ y ∈ l, y.opening ≠ none ∧ y.closing ≠ none := by
  simp only [List.all_eq_true, hasBothValues, Bool.and_eq_true, Option.isSome_iff_ne_none]

/-- The record that RECONCILED leaves, with the answer to the offer of its VOTE (R82, R84). -/
def reconciled (r : ParcelRecord) (own : OwnFigure) (owed : Bool) : ParcelRecord :=
  { r with own := some own, state := .reconciled, voteOwed := owed }

/-- The own VOTE of a figure (R83). -/
def ownVote (s : State) (n : ParcelNo) (round : Nat) (own : OwnFigure) : OfferedFrame :=
  { key := mkKey .vote s.sup.straps.station n (BitVec.ofNat 6 round)
    payload := [BitVec.ofNat 8 round, own.verdict.code] ++ be32 own.p ++ be32 own.s ++ be32 own.ratio ++ be32 own.check ++
      be16 own.flags }

/-- The entry into RECONCILED of a parcel with every value held, in the form of a service. -/
theorem reconcile_moved (w : State) (h : s.OpenWith n i de c) (hF : KeepsPlace F) (hr : r.number = n)
    (hd : r.decl = some d) (hall : r.roster.all hasBothValues = true) (hline : s.line = w.line) (hsup : s.sup = w.sup) :
    let own := ownFigure n r.round d r.roster
    let o := offer (ownVote w n r.round own) false w
    let q := reconciled r own (decide (o.1 = .queueFull ∨ o.1 = .silenced))
    ∃ v, reconcileIfComplete n (s.withOpen n i F { record := r, dirty := b }) =
        v.withOpen n i (fun d => (F d).copyFrom q) { record := q, dirty := true } ∧
      Moved s v n [.parcelState n (some .reconciled) r.round none .other] o.2.line s.acc := by
  subst hr
  intro own o q
  have hnotice : stateNotice { r with own := some own, state := .reconciled } .other =
      .parcelState r.number (some .reconciled) r.round none .other := by
    refine stateNotice_of rfl ?_ .other
    simp
  have hform := reconcile_form (b := b) h hF rfl hd
  rw [if_pos hall] at hform
  dsimp only at hform
  rw [show stateNotice { r with own := some (ownFigure r.number r.round d r.roster), state := .reconciled } .other = _ from
    hnotice] at hform
  have hframe (u : State) (hu : u.sup = s.sup) : voteFrame u r.number r.round (ownFigure r.number r.round d r.roster) =
      ownVote w r.number r.round own := by
    rw [voteFrame, ownFrame, State.station, hu, hsup]
    rfl
  have hposted : ((s.post (.parcelState r.number (some .reconciled) r.round none .other)).markWrite r.number).sup = s.sup :=
    post_sup s _
  rw [hframe _ hposted] at hform
  obtain ⟨hanswer, hqueue⟩ := offer_line_congr
    (t := (s.post (.parcelState r.number (some .reconciled) r.round none .other)).markWrite r.number)
    (s := w) (ownVote w r.number r.round own) false ((post_line s _).trans hline)
  have howed : o.1.isRefused = decide (o.1 = .queueFull ∨ o.1 = .silenced) := by
    rw [isRefused_eq, Bool.decide_or]
  rw [hanswer, show (offer (ownVote w r.number r.round own) false w).1.isRefused = _ from howed] at hform
  exact ⟨_, hform, ((Beside.post _).trans .markWrite).trans (.offer _ _),
    by rw [offer_eng]; exact Beside.mem_markWrite _ _, (((Tells.refl s).post _).markWrite r.number).offer _ _, hqueue,
    (offer_acc _ _ _).trans (post_acc _ _)⟩

/-! ## The services -/

theorem inBoundState_of (he : s.dirFind n = some de) (hb : de.state.isBound = true) : s.inBoundState n = true := by
  simp only [State.inBoundState, he, hb]

/-- A record that one bound holder holds, and whose parcel is open, is taken for it alone. -/
theorem applyRecord_one (hx : e.entryIndex = 2 ∨ e.entryIndex = 5) (h0 : h.parcel ≠ 0#4)
    (hl : s.holdersOf e.source e.item = [h]) (hb : s.inBoundState h.parcel = true) :
    applyEntry e s = takeRecord e.kind e.payload h s := by
  rw [applyRecord_eq e s hx, hl, boundHolders_one s h h0 hb]
  rfl

/-- Of two parcels open at once, a change of one in the form of a service leaves the other open as it was. -/
theorem withOpen_openWith_other {m : ParcelNo} {e' : DirEntry} {c' : OpenContext}
    (ho : s.OpenWith n i de c) (hF : KeepsPlace F) (hn : r.number = n) (ho' : s.OpenWith m (otherContext i) e' c')
    (hm : m ≠ n) : (s.withOpen n i F { record := r, dirty := b }).OpenWith m (otherContext i) e' c' := by
  obtain ⟨hdir, hctx, hopen, hnum⟩ := ho'
  obtain ⟨hdir', -, -⟩ := withOpen_othersKept (b := b) ho hF hn m hm
  refine ⟨hdir'.trans hdir, hctx, ?_, hnum⟩
  rw [← hopen]
  cases i <;> rfl

/-- The record with its opening value (R21). -/
def withOpening (h : RosterEntry) (x : RosterItem) (rec : Reading) (d : Declaration) (r : ParcelRecord) : ParcelRecord :=
  { r with roster := r.roster.set h.index { x with opening := some { value := rec.toValue d, substituted := false } } }

/-- An opening record for a parcel open in OPENING, with no opening value held, in the form of a service. -/
theorem takeRecord_opening (ho : s.OpenWith h.parcel i de c) (hd : c.record.decl = some d)
    (hx : c.record.roster[h.index]? = some x) (hrole : roleFits e.kind h.role = true)
    (hform : recordForm e.kind e.payload = some rec) (hkind : rec.kind = 1#8) (hbad : rec.isBad d.alpha = false)
    (hst : c.record.state = .opening) (hnone : x.opening = none) :
    takeRecord e.kind e.payload h s =
      s.withOpen h.parcel i (fun d' => d'.copyFrom (withOpening h x rec d c.record))
        { record := withOpening h x rec d c.record, dirty := true } := by
  rw [takeRecord_open ho hd hx hrole hform, if_neg (by simp [hbad]), if_pos (by simp [hkind]), hst, takeOpening_taken,
    setItem_form ho hx]
  · rfl
  · simp [Ahead, hnone]

/-- Two holders whose parcels are both open in OPENING, with no opening value held: both take the record. -/
theorem intake_two_openings {h₁ h₂ : RosterEntry} {e₁ e₂ : DirEntry} {c₁ c₂ : OpenContext} {d₁ d₂ : Declaration}
    {x₁ x₂ : RosterItem} (hc : s.HeadChosen e rest) (hq : s.Quiet) (hne : h₂.parcel ≠ h₁.parcel)
    (ho₁ : s.OpenWith h₁.parcel i e₁ c₁) (ho₂ : s.OpenWith h₂.parcel (otherContext i) e₂ c₂)
    (happly : applyEntry e { s with acc := (s.headTaken rest).acc } =
      takeRecord e.kind e.payload h₂ (takeRecord e.kind e.payload h₁ { s with acc := (s.headTaken rest).acc }))
    (take₁ : takeRecord e.kind e.payload h₁ { s with acc := (s.headTaken rest).acc } =
      State.withOpen { s with acc := (s.headTaken rest).acc } h₁.parcel i
        (fun d' => d'.copyFrom (withOpening h₁ x₁ rec d₁ c₁.record))
        { record := withOpening h₁ x₁ rec d₁ c₁.record, dirty := true })
    (take₂ : ∀ u : State, u.OpenWith h₂.parcel (otherContext i) e₂ c₂ → takeRecord e.kind e.payload h₂ u =
      u.withOpen h₂.parcel (otherContext i) (fun d' => d'.copyFrom (withOpening h₂ x₂ rec d₂ c₂.record))
        { record := withOpening h₂ x₂ rec d₂ c₂.record, dirty := true }) :
    ∃ t, exec .intakeService s = .next t ∧ t.working h₁.parcel = some (withOpening h₁ x₁ rec d₁ c₁.record) ∧
      t.working h₂.parcel = some (withOpening h₂ x₂ rec d₂ c₂.record) ∧ t.eng.lessRecent = i ∧ t.store = s.store ∧
      t.port = s.port ∧ t.line = s.line ∧ t.counters = s.counters ∧ t.acc = (s.headTaken rest).acc := by
  have hn₁ : (withOpening h₁ x₁ rec d₁ c₁.record).number = h₁.parcel := ho₁.2.2.2
  have hn₂ : (withOpening h₂ x₂ rec d₂ c₂.record).number = h₂.parcel := ho₂.2.2.2
  have hF₁ : KeepsPlace (fun d' : DirEntry => d'.copyFrom (withOpening h₁ x₁ rec d₁ c₁.record)) := keepsPlace_id.copy _
  have hF₂ : KeepsPlace (fun d' : DirEntry => d'.copyFrom (withOpening h₂ x₂ rec d₂ c₂.record)) := keepsPlace_id.copy _
  have hopen₁ := withOpen_open (b := true) (headTaken_open ho₁ rest) hF₁ hn₁
  have hopen₂ := withOpen_openWith_other (b := true) (headTaken_open ho₁ rest) hF₁ hn₁ (headTaken_open ho₂ rest) hne
  have hrest := withOpen_sameRest { s with acc := (s.headTaken rest).acc } h₁.parcel i
    (fun d' : DirEntry => d'.copyFrom (withOpening h₁ x₁ rec d₁ c₁.record))
    { record := withOpening h₁ x₁ rec d₁ c₁.record, dirty := true }
  have hstore : (State.withOpen { s with acc := (s.headTaken rest).acc } h₁.parcel i
    (fun d' : DirEntry => d'.copyFrom (withOpening h₁ x₁ rec d₁ c₁.record))
    { record := withOpening h₁ x₁ rec d₁ c₁.record, dirty := true }).store = s.store := rfl
  rw [take₁] at happly
  generalize State.withOpen { s with acc := (s.headTaken rest).acc } h₁.parcel i
    (fun d' : DirEntry => d'.copyFrom (withOpening h₁ x₁ rec d₁ c₁.record))
    { record := withOpening h₁ x₁ rec d₁ c₁.record, dirty := true } = u at *
  replace happly := happly.trans (take₂ _ hopen₂)
  have hwork₂ := withOpen_working (b := true) hopen₂ hF₂ hn₂
  obtain ⟨-, -, hwork₁⟩ := withOpen_othersKept (b := true) hopen₂ hF₂ hn₂ h₁.parcel hne.symm
  replace hwork₁ := hwork₁.trans hopen₁.working
  have hrest₂ := (withOpen_sameRest u h₂.parcel (otherContext i)
    (fun d' : DirEntry => d'.copyFrom (withOpening h₂ x₂ rec d₂ c₂.record))
    { record := withOpening h₂ x₂ rec d₂ c₂.record, dirty := true }).trans hrest
  have hstore₂ : (u.withOpen h₂.parcel (otherContext i)
    (fun d' : DirEntry => d'.copyFrom (withOpening h₂ x₂ rec d₂ c₂.record))
    { record := withOpening h₂ x₂ rec d₂ c₂.record, dirty := true }).store = s.store := hstore
  have hrecent : (u.withOpen h₂.parcel (otherContext i)
    (fun d' : DirEntry => d'.copyFrom (withOpening h₂ x₂ rec d₂ c₂.record))
    { record := withOpening h₂ x₂ rec d₂ c₂.record, dirty := true }).eng.lessRecent = i := by
    cases i <;> rfl
  have hexec := exec_intakeService hc hq
  rw [happly] at hexec
  generalize u.withOpen h₂.parcel (otherContext i)
    (fun d' : DirEntry => d'.copyFrom (withOpening h₂ x₂ rec d₂ c₂.record))
    { record := withOpening h₂ x₂ rec d₂ c₂.record, dirty := true } = v at *
  have hsup : v.sup = s.sup := (apart_sup hrest₂ :)
  have htmr : v.tmr = s.tmr := (apart_tmr hrest₂ :)
  have hdue : v.eng.dueWrites = s.eng.dueWrites := (apart_due hrest₂ :)
  rw [endService_unwritten (by rw [hsup]; exact hq.1) (by rw [htmr]; exact hq.2.1) (by rw [hdue]; exact hq.2.2)] at hexec
  have hsame := (counted_sameRecords v).trans (setStoreLog_sameRecords v.counted s.storeLog)
  refine ⟨_, hexec, (hsame.working _).trans hwork₁, (hsame.working _).trans hwork₂, hrecent, hstore₂,
    (apart_port hrest₂ :), (apart_line hrest₂ :), (apart_counters hrest₂ :), (apart_acc hrest₂ :)⟩

/-- Settles O40. -/
theorem recordsBecomeOpeningAndClosingValues : Obligations.RecordsBecomeOpeningAndClosingValues := by
  refine ⟨fun e rest h x rec i r d de s hc hq hx h0 hl he hb hrole hform => ⟨?_, fun hopen hs hd hr => ?_⟩,
    fun e rest s hc hq hx => ?_, ?_⟩
  · exact actsAfterTurnaround_intake hc hq fun u hdir hros => applyRecord_opens hx hrole hform u h0
      ((inBoundState_congr hdir _).trans (inBoundState_of he hb)) (by rw [State.holdersOf, hros]; exact hl)
  · intro ahead value counted kept late stale
    obtain ⟨de', c, ho, rfl, hn⟩ := hopen.with
    have hoh := headTaken_open ho rest
    have happly := (applyRecord_one (s := { s with acc := (s.headTaken rest).acc }) hx h0 hl
      (inBoundState_of (n := h.parcel) he hb)).trans (takeRecord_open hoh hd hr hrole hform)
    have counts {k : Counters} (hap : applyEntry e { s with acc := (s.headTaken rest).acc } =
        { State.touch { s with acc := (s.headTaken rest).acc } i with counters := k }) : counted k :=
      intake_used hc hq k hap
    have keeps {F : DirEntry → DirEntry} {q : ParcelRecord}
        (hap : applyEntry e { s with acc := (s.headTaken rest).acc } =
          State.withOpen { s with acc := (s.headTaken rest).acc } h.parcel i F { record := q, dirty := true })
        (hF : KeepsPlace F) (hq' : q.number = h.parcel) : kept q := by
      obtain ⟨t, ht, hwork, hstore, -, hkept, hline, hacc, hport, hcounters⟩ :=
        intake_unwritten hc hq ho hap .refl (by rw [show State.eng _ = s.eng from rfl, hq.2.2]; simp) hF hq'
      exact ⟨t, ht, hwork, hstore, hport, hline, hcounters, hacc, hkept⟩
    refine ⟨fun hbad => ?_, fun hbad hkind => ⟨fun hst => ?_, fun hst hah => ?_, fun hst hah => ?_⟩,
      fun hbad hkind => ⟨fun hst => ?_, fun hst hop => ?_, fun hst hop hah => ?_, fun hst hop hah => ?_⟩⟩
    · rw [if_pos hbad] at happly
      exact counts happly
    · rw [if_neg (by simp [hbad]), if_pos (by simp [hkind]), takeOpening_late hst] at happly
      exact counts happly
    · rw [if_neg (by simp [hbad]), if_pos (by simp [hkind]), hst, takeOpening_stale hah] at happly
      exact counts happly
    · rw [if_neg (by simp [hbad]), if_pos (by simp [hkind]), hst, takeOpening_taken hah, setItem_form hoh hr] at happly
      exact keeps happly (keepsPlace_id.copy _) hn
    · rw [if_neg (by simp [hbad]), if_neg (by simp [hkind]), takeClosing_late hst] at happly
      exact counts happly
    · rw [if_neg (by simp [hbad]), if_neg (by simp [hkind]), hst, takeClosing_unusable hop] at happly
      exact counts happly
    · rw [if_neg (by simp [hbad]), if_neg (by simp [hkind]), hst, takeClosing_stale hop hah] at happly
      exact counts happly
    · rw [if_neg (by simp [hbad]), if_neg (by simp [hkind]), hst, takeClosing_taken hop hah, setItem_form hoh hr] at happly
      intro roster own o q
      have hF : KeepsPlace (fun d : DirEntry => d.copyFrom { c.record with roster := roster }) := keepsPlace_id.copy _
      refine ⟨fun hmiss => ?_, fun hall => ?_⟩
      · have hnot : ¬ roster.all hasBothValues = true := by
          rw [all_hasBothValues]
          obtain ⟨y, hy, hnone⟩ := hmiss
          intro hall
          obtain ⟨h1, h2⟩ := hall y hy
          exact hnone.elim h1 h2
        have hform := (reconcile_form (b := true) (r := { c.record with roster := roster }) hoh hF hn hd).trans (if_neg hnot)
        exact keeps (happly.trans hform) hF hn
      · obtain ⟨v, hv, hmoved⟩ := reconcile_moved (b := true) (r := { c.record with roster := roster }) s hoh hF hn hd
          ((all_hasBothValues _).mpr hall) rfl rfl
        obtain ⟨t, ht, hwork, hstored, -, hposted, -, hline, hacc, hkept⟩ :=
          intake_moved hc hq h0 ho hs (happly.trans hv) hmoved (hF.copy _) hn
        exact ⟨t, ht, hwork, hstored, hline, hposted _ rfl, hacc, hkept⟩
  · intro holders bound counted
    have happly := applyRecord_eq e { s with acc := (s.headTaken rest).acc } hx
    have hlength : (boundHolders { s with acc := (s.headTaken rest).acc } holders).length = bound.length :=
      boundHolders_length { s with acc := (s.headTaken rest).acc } holders
    have hempty : boundHolders { s with acc := (s.headTaken rest).acc } holders = [] ↔ bound = [] := by
      rw [← List.length_eq_zero_iff, hlength, List.length_eq_zero_iff]
    have hmem (y : RosterEntry) : y ∈ boundHolders { s with acc := (s.headTaken rest).acc } holders ↔ y ∈ bound :=
      mem_boundHolders { s with acc := (s.headTaken rest).acc } holders y
    refine ⟨fun hnone => ?_, fun hsome hbound => ?_, fun hbound hall => ?_⟩
    · have hnil : bound = [] := by
        show List.filter _ holders = []
        rw [hnone]
        rfl
      refine intake_counted hq rest _ hc (happly.trans ((if_pos ?_).trans (if_pos ?_)))
      · exact List.isEmpty_iff.mpr (hempty.mpr hnil)
      · exact List.isEmpty_iff.mpr hnone
    · refine intake_counted hq rest _ hc (happly.trans ((if_pos ?_).trans (if_neg ?_)))
      · exact List.isEmpty_iff.mpr (hempty.mpr hbound)
      · exact fun h => hsome (List.isEmpty_iff.mp h)
    · refine intake_counted hq rest _ hc (happly.trans ((if_neg ?_).trans ?_))
      · exact fun h => hbound (hempty.mp (List.isEmpty_iff.mp h))
      · refine (takeRecord_fold_unusable e _ _ (fun y hy => hall y ((hmem y).mp hy)) (mt hempty.mp hbound)).trans ?_
        rw [show (boundHolders { s with acc := (s.headTaken rest).acc } holders).length = _ from hlength]
  · intro e rest rec h₁ h₂ i r₁ r₂ d₁ d₂ x₁ x₂ s hc hq hx h0 hlt hl hrole₁ hrole₂ hform hkind hopen₁ hopen₂ hdir hst₁ hst₂
      hd₁ hd₂ hr₁ hr₂ hbad₁ hbad₂ hnone₁ hnone₂ taken
    obtain ⟨e₁, c₁, ho₁, rfl, hn₁⟩ := hopen₁.with
    obtain ⟨e₂, c₂, ho₂, rfl, hn₂⟩ := hopen₂.with
    obtain ⟨f₁, f₂, hf₁, hf₂, hs₁, hs₂⟩ := hdir
    refine intake_two_openings hc hq (by bv_omega) ho₁ ho₂ ?_
      (takeRecord_opening (headTaken_open ho₁ rest) hd₁ hr₁ hrole₁ hform hkind hbad₁ hst₁ hnone₁)
      (fun u hu => takeRecord_opening hu hd₂ hr₂ hrole₂ hform hkind hbad₂ hst₂ hnone₂)
    have hb₁ := inBoundState_of (s := { s with acc := (s.headTaken rest).acc }) hf₁ (by rw [hs₁]; rfl)
    have hb₂ := inBoundState_of (s := { s with acc := (s.headTaken rest).acc }) hf₂ (by rw [hs₂]; rfl)
    have hbound := boundHolders_two { s with acc := (s.headTaken rest).acc } h₁ h₂ h0 hlt hb₁ hb₂
      (State.holdersOf { s with acc := (s.headTaken rest).acc } e.source e.item) hl
    rw [applyRecord_eq e _ hx, hbound]
    rfl

end Sys2Proof.Machine

/-! SUPPORT. The service of a gauge slot (file 07, R106, R129 and R130; file 04, R63 to R70): what a reading of good form
makes of its open parcel, the persistence test that follows a complete evaluation, and with them the statement on it. -/

namespace Sys2Proof.Machine

variable {s u : State} {n : ParcelNo} {i : ContextId} {de : DirEntry} {c : OpenContext} {r : ParcelRecord} {β : Bool}
  {F : DirEntry → DirEntry} {d : Declaration} {x : RosterItem} {m : Nat} {b : BoundEntry} {w : WaitingReading}
  {rd : TankReading}

/-! ## What the service leaves of the Acceptance Unit -/

theorem moveAlarm_acc (n : ParcelNo) (raised : Bool) (s : State) : (moveAlarm n raised s).acc = s.acc := by
  have hoffer (u : State) : (offerAlarm n u).2.acc = u.acc := by
    unfold offerAlarm
    split
    · rfl
    · exact (modify_acc _ n _).trans (offer_acc _ _ _)
  have hpost (u : State) (fate : FrameFate) : (postAlarm n raised fate u).acc = u.acc := by
    unfold postAlarm
    split
    · rfl
    · exact post_acc _ _
  exact (hpost _ _).trans ((hoffer _).trans (modify_acc s n _))

theorem testPersistence_acc (n : ParcelNo) (s : State) : (testPersistence n s).acc = s.acc := by
  unfold testPersistence
  repeat' split
  · rfl
  · rfl
  · exact moveAlarm_acc n _ s
  · rfl

theorem evaluate_acc (n : ParcelNo) (s : State) : (evaluate n s).acc = s.acc := by
  unfold evaluate
  dsimp only
  repeat' split
  · exact (testPersistence_acc n _).trans (modify_acc s n _)
  · exact modify_acc s n _
  · exact modify_acc s n _
  · exact modify_acc s n _

theorem takeRoutine_acc (b : BoundEntry) (arrival : Second) (rd : TankReading) (s : State) :
    (takeRoutine b arrival rd s).acc = s.acc := by
  unfold takeRoutine
  dsimp only
  repeat' split
  · rfl
  · exact (evaluate_acc _ _).trans (modify_acc s _ _)
  · exact modify_acc s _ _
  · rfl
  · rfl

theorem takeReading_acc (b : BoundEntry) (w : WaitingReading) (s : State) : (takeReading b w s).acc = s.acc := by
  unfold takeReading
  split
  · rfl
  · exact (takeRoutine_acc _ _ _ _).trans (apart_acc (openParcel_apart s _))

/-- The Acceptance Unit with slot m empty and its overrun mark clear (R129). -/
def emptiedAt (m : Nat) (a : AcceptanceUnit) : AcceptanceUnit :=
  { a with slots := a.slots.set m { a.slot m with waiting := none, overrun := false } }

theorem slotBody_acc (m : Nat) (s : State) : (slotBody m s).acc = emptiedAt m s.acc := by
  unfold slotBody
  split
  · exact takeReading_acc _ _ _
  · rfl

theorem slotBody_pointer (m : Nat) (s : State) : (slotBody m s).eng.slotPointer = m := by
  have hempty : (emptySlotAt m s).eng.slotPointer = m := rfl
  unfold slotBody
  split
  · exact ((flags_engineClosed _ _ m _).takeReading _ _ ⟨rfl, rfl, hempty, rfl⟩).2.2.1
  · exact hempty

theorem finishWrites_acc (s : State) : s.finishWrites.acc = s.acc := by
  refine fold_keeps (P := fun u => u.acc = s.acc) State.writeThrough (fun u k hu => ?_) _ rfl
  unfold State.writeThrough
  repeat' split
  · exact (apart_acc (writeBack_apart u _)).trans hu
  · exact hu
  · exact hu

theorem endService_acc (s : State) : (endService s).acc = s.acc := by
  have hbuild : (buildAll s.finishWrites).acc = s.acc := by
    rw [buildAll_outside]
    exact finishWrites_acc s
  unfold endService idleClose
  split
  · exact (apart_acc (burstClose_apart _)).trans hbuild
  · exact hbuild

/-- The slot is emptied and the rotation pointer set, in any service of a slot. -/
theorem slotService_empties (hh : s.sup.held = false) (ha : arbiter s = some (.slot m)) :
    ∃ t, exec .gaugeSlotService s = .next t ∧ t.acc = emptiedAt m s.acc ∧ t.eng.slotPointer = m := by
  refine ⟨_, exec_asService (c := .gaugeSlotService) rfl hh, ?_⟩
  rw [slotService_chosen ha, serve, wholeService]
  have hstart : ((burstClose s).withStarts []).acc = s.acc := by
    have h := apart_acc (burstClose_apart s)
    exact h
  have hacc := slotBody_acc m ((burstClose s).withStarts [])
  have hpointer := slotBody_pointer m ((burstClose s).withStarts [])
  rw [hstart] at hacc
  generalize slotBody m ((burstClose s).withStarts []) = u at *
  refine ⟨(endService_acc _).trans hacc, ?_⟩
  have hclosed :=
    (flags_engineClosed u.eng.dutyPending u.eng.checkpointPending m (u.eng.starvation.map countService)).toRecordClosed
  have hstays := hclosed.endService (fun t h => by rw [buildAll_eng]; exact h)
    (s := (countOther u).withStarts s.tmr.buildsDue) ⟨rfl, rfl, hpointer, rfl⟩
  exact hstays.2.2.1

/-! ## A reading for an open parcel -/

/-- The alarm is raised or cleared with its frame and notice (R69, R70), in the form of a service. -/
theorem moveAlarm_moved (w : State) (h : s.OpenWith n i de c) (hF : KeepsPlace F) (hr : r.number = n) (raised : Bool)
    (hline : s.line = w.line) (hsup : s.sup = w.sup) :
    let delta := (r.running.map RunningFigure.delta).getD 0#32
    let o := offer
      { key := mkKey .alarm w.sup.straps.station n 0#6
        payload := [0#8, if raised then 1#8 else 0#8] ++ be32 delta } false w
    let refused := decide (o.1 = .queueFull) || decide (o.1 = .silenced)
    let q := { r with alarm := { conditionSince := none, raised := raised, clearSince := none }, alarmOwed := refused }
    ∃ v, moveAlarm n raised (s.withOpen n i F { record := r, dirty := β }) =
        v.withOpen n i (fun d => (F d).copyFrom q) { record := q, dirty := true } ∧
      Moved s v n [if raised then .alarmRaised n (if refused then .refused else .admitted) delta
        else .alarmCleared n (if refused then .refused else .admitted) delta] o.2.line s.acc := by
  intro delta o refused q
  have hframe : alarmFrame s n { r with alarm := { conditionSince := none, raised := raised, clearSince := none } } =
      { key := mkKey .alarm w.sup.straps.station n 0#6
        payload := [0#8, if raised then 1#8 else 0#8] ++ be32 delta } := by
    rw [alarmFrame_eq, hsup]
  obtain ⟨hanswer, hqueue⟩ := offer_line_congr
    { key := mkKey .alarm w.sup.straps.station n 0#6
      payload := [0#8, if raised then 1#8 else 0#8] ++ be32 delta } false hline
  have hfate : fateOf o.1 = if refused then .refused else .admitted := by rw [fateOf, isRefused_eq]
  have hform := moveAlarm_form (b := β) h hF hr raised
  simp only [hframe, hanswer, isRefused_eq, heldDelta_eq] at hform
  rw [show fateOf (offer
    { key := mkKey .alarm w.sup.straps.station n 0#6
      payload := [0#8, if raised then 1#8 else 0#8] ++ be32 delta } false w).1 = _ from hfate] at hform
  exact ⟨_, hform, ((Beside.offer _ _).trans (.post _)).trans .markWrite, Beside.mem_markWrite _ _,
    (((Tells.refl s).offer _ _).post _).markWrite n, (post_line _ _).trans hqueue, (post_acc _ _).trans (offer_acc _ _ _)⟩

theorem emptySlotAt_beside (m : Nat) (n : ParcelNo) (s : State) : Beside n s (emptySlotAt m s) :=
  ⟨⟨rfl, fun j => by cases j <;> rfl, rfl⟩, rfl, rfl, fun _ => .inl⟩

theorem slotBody_reading (hb : s.slotBinding m = some b) (hw : (s.acc.slot m).waiting = some w) :
    slotBody m s = takeReading b w (emptySlotAt m s) := by
  simp only [slotBody, hb, hw]

/-- A reading of good form for an open parcel is judged against its roster item. -/
theorem takeReading_open (hform : routineForm w.payload = some rd) (ho : s.OpenWith b.parcel i de c)
    (hd : c.record.decl = some d) (hx : c.record.roster[b.index]? = some x) :
    takeReading b w s = if newerThanOption rd.seq (latestSeq x) then
        let t := (s.touch i).setItem b.parcel b.index (fun y => { y with latest := some (latestOf d.alpha w.arrival rd) })
        if c.record.state == .transfer then evaluate b.parcel t else t
      else (s.touch i).bump .staleReadings := by
  have hwork := (ho.congr (touch_sameRecords s i)).working
  simp only [takeReading, hform, ho.open_eq, takeRoutine, hwork, hd, hx]

/-- The record after an evaluation (R63, R65). -/
theorem evaluated_eq (now : Second) (hd : r.decl = some d) :
    evaluated now r = { r with
      running := some (runningFigure d r.roster now)
      alarm := if (runningFigure d r.roster now).complete then
          alarmAfterEvaluation (divergenceHolds d r.roster) now r.alarm else r.alarm } := by
  simp only [evaluated, hd]

/-- An evaluation of a parcel in the form of a service: a complete one is followed by the persistence test. -/
theorem evaluate_form (h : s.OpenWith n i de c) (hF : KeepsPlace F) (hr : r.number = n) (hd : r.decl = some d) :
    let q := evaluated s.tmr.seconds r
    evaluate n (s.withOpen n i F { record := r, dirty := β }) =
      let t := s.withOpen n i (fun d' => (F d').copyFrom q) { record := q, dirty := true }
      if (runningFigure d r.roster s.tmr.seconds).complete then testPersistence n t else t := by
  intro q
  have hform := withOpen_modify (b := β) h hF hr (evaluated s.tmr.seconds)
  have hq : q.number = n := by
    show (evaluated _ r).number = n
    rw [evaluated_eq _ hd]
    exact hr
  have hwork := withOpen_working (b := true) h (hF.copy q) hq
  have hrunning : q.running = some (runningFigure d r.roster s.tmr.seconds) := by
    show (evaluated _ r).running = _
    rw [evaluated_eq _ hd]
  have hnow : (s.withOpen n i F { record := r, dirty := β }).now = s.tmr.seconds := rfl
  simp only [evaluate, hnow, hform]
  rw [show (s.withOpen n i (fun d' => (F d').copyFrom (evaluated s.tmr.seconds r))
    { record := evaluated s.tmr.seconds r, dirty := true }).working n = some q from hwork]
  simp only [hrunning]
  rfl

/-- The persistence test of a parcel whose record has not run out, or has no condition that runs. -/
theorem testPersistence_stays (h : s.OpenWith n i de c) (hF : KeepsPlace F) (hr : r.number = n)
    (hp : (F de).persistence = persistenceCopy r)
    (hrun : ∀ c, persistenceCopy r = some c → (s.tmr.seconds - c.since).toNat < c.persistence) :
    testPersistence n (s.withOpen n i F { record := r, dirty := β }) = s.withOpen n i F { record := r, dirty := β } := by
  rw [testPersistence_form h hF hr hp]
  cases hc : persistenceCopy r with
  | none => rfl
  | some c => exact if_neg (Nat.not_le.mpr (hrun c hc))

theorem testPersistence_moves {k : PersistenceCopy} (h : s.OpenWith n i de c) (hF : KeepsPlace F) (hr : r.number = n)
    (hp : (F de).persistence = persistenceCopy r) (hk : persistenceCopy r = some k)
    (hrun : k.persistence ≤ (s.tmr.seconds - k.since).toNat) :
    testPersistence n (s.withOpen n i F { record := r, dirty := β }) =
      moveAlarm n (decide (k.tag = .condition)) (s.withOpen n i F { record := r, dirty := β }) := by
  have htag : (k.tag == .condition) = decide (k.tag = .condition) := by cases k.tag <;> rfl
  rw [testPersistence_form h hF hr hp, hk]
  dsimp only
  rw [if_pos hrun, htag]

theorem alarmAfterEvaluation_eq (d : Declaration) (l : List RosterItem) (now : Second) (a : AlarmRecord) :
    let diverges := d.alarmLimit < ((runningExact d l).1 - (runningExact d l).2).natAbs
    alarmAfterEvaluation (divergenceHolds d l) now a = if a.raised then
        { a with clearSince := if diverges then none else some (a.clearSince.getD now) }
      else { a with conditionSince := if diverges then some (a.conditionSince.getD now) else none } := by
  intro diverges
  unfold alarmAfterEvaluation divergenceHolds
  by_cases h : d.alarmLimit < ((runningExact d l).1 - (runningExact d l).2).natAbs
  · simp only [h, decide_true, if_true, diverges]
  · simp only [h, decide_false, Bool.false_eq_true, if_false, diverges]

theorem arbiter_openParcel (s : State) (n : ParcelNo) : arbiter (s.openParcel n) = arbiter s := by
  rw [eq_of_apart (openParcel_apart s n)]
  rfl

section Reading

variable (hh : s.sup.held = false) (ha : arbiter s = some (.slot m)) (hq : s.Quiet) (hb : s.slotBinding m = some b)
  (hw : (s.acc.slot m).waiting = some w)
include hh ha hq hb hw

theorem exec_reading : exec .gaugeSlotService s =
    .next ((endService (countOther (takeReading b w (emptySlotAt m s)))).setStoreLog s.storeLog) := by
  rw [exec_gaugeSlotService hh hq ha, slotBody_reading hb hw]

/-- A reading that is only counted, in a state with another context used last or the same. -/
theorem exec_reading_counted (h : takeReading b w (emptySlotAt m s) = u) (hsup : u.sup = s.sup) (htmr : u.tmr = s.tmr)
    (hdue : u.eng.dueWrites = s.eng.dueWrites) : exec .gaugeSlotService s = .next ((countOther u).setStoreLog s.storeLog) := by
  rw [exec_reading hh ha hq hb hw, h, endService_none (by rw [hsup]; exact hq.1) (by rw [htmr]; exact hq.2.1)
    (by rw [hdue]; exact hq.2.2)]

/-- A reading that changes its open parcel, and marks none to be written. -/
theorem exec_reading_unwritten (ho : s.OpenWith n i de c)
    (h : takeReading b w (emptySlotAt m s) = (emptySlotAt m s).withOpen n i F { record := r, dirty := true })
    (hF : KeepsPlace F) (hr : r.number = n) :
    ∃ t, exec .gaugeSlotService s = .next t ∧ t.working n = some r ∧ t.store = s.store ∧ t.port = s.port ∧
      t.line = s.line ∧ t.counters = s.counters ∧ OthersKept s t n := by
  have hnot : n ∉ (emptySlotAt m s).eng.dueWrites := by
    rw [show (emptySlotAt m s).eng.dueWrites = s.eng.dueWrites from rfl, hq.2.2]
    simp
  obtain ⟨hwork, hstore, -, hkept, hline, -, hport, hcounters⟩ :=
    ended_unwritten (b := true) hq ho (emptySlotAt_beside m n s) hnot hF hr s.storeLog
  refine ⟨_, exec_reading hh ha hq hb hw, ?_⟩
  rw [h]
  exact ⟨hwork, hstore, hport, hline, hcounters, hkept⟩

/-- A reading that moves the alarm of its open parcel. -/
theorem exec_reading_moved {l : List NoticeBody} {line : LineInterface} {acc : AcceptanceUnit}
    (h0 : n ≠ 0#4) (ho : s.OpenWith n i de c) (hs : (s.stored n).isSome = true)
    (h : takeReading b w (emptySlotAt m s) = u.withOpen n i F { record := r, dirty := true })
    (hu : Moved (emptySlotAt m s) u n l line acc) (hF : KeepsPlace F) (hr : r.number = n) :
    ∃ t, exec .gaugeSlotService s = .next t ∧ t.working n = some r ∧ t.stored n = some (mkStored r) ∧ t.line = line ∧
      (∀ x, l = [x] → Posted s t x) ∧ OthersKept s t n := by
  obtain ⟨hwork, hstored, -, hkept, hline, -, hport, hcounters⟩ :=
    ended_written hq h0 ho hs ((emptySlotAt_beside m n s).trans hu.beside) hu.marked hF hr s.storeLog
  have htells : Tells s u l := hu.tells.of_counts rfl rfl rfl
  refine ⟨_, exec_reading hh ha hq hb hw, ?_⟩
  rw [h]
  refine ⟨hwork, hstored, hline.trans hu.line, fun x hx => ?_, hkept⟩
  subst hx
  exact htells.posted.congr hport (congrArg _ hcounters)

/-- A reading of good form acts after the turnaround of its parcel. -/
theorem reading_afterTurnaround (hform : routineForm w.payload = some rd) :
    ActsAfterTurnaround .gaugeSlotService s b.parcel := by
  intro e p he hc hs hv
  obtain ⟨-, racc, rtmr, -, rsup, -, -, rdue, -⟩ := openParcel_rest s b.parcel
  have hq' : (s.openParcel b.parcel).Quiet :=
    ⟨by rw [rsup]; exact hq.1, by rw [rtmr]; exact hq.2.1, by rw [rdue]; exact hq.2.2⟩
  have hb' : (s.openParcel b.parcel).slotBinding m = some b := by
    rw [State.slotBinding, racc]
    exact hb
  refine ⟨s.openParcel b.parcel, _, openParcel_turned he hc hs hv,
    exec_reading (by rw [rsup]; exact hh) ((arbiter_openParcel s _).trans ha) hq' hb' (by rw [racc]; exact hw), ?_⟩
  have hopens : takeReading b w (emptySlotAt m (s.openParcel b.parcel)) = takeReading b w (emptySlotAt m s) := by
    rw [emptySlotAt_openParcel]
    simp only [takeReading, hform, openParcel_openParcel]
  rw [hopens, exec_reading hh ha hq hb hw]
  rfl

end Reading

/-- Settles O43. -/
theorem slotServiceStoresTheReading : Obligations.SlotServiceStoresTheReading := by
  intro m s hh ha emptied
  refine ⟨slotService_empties hh ha, fun b w hq hb hw => ⟨fun hform => ?_, fun rd hform =>
    ⟨reading_afterTurnaround hh ha hq hb hw hform, ?_⟩⟩⟩
  · have hread : takeReading b w (emptySlotAt m s) = (emptySlotAt m s).bump .unusableRecords := by
      simp only [takeReading, hform]
    rw [exec_reading_counted hh ha hq hb hw hread rfl rfl rfl, ← starvation_counted]
    rfl
  · intro i r d x hopen hd hx ahead latest q run diverges alarm kept
    obtain ⟨de, c, ho, rfl, hn⟩ := hopen.with
    have hoE : (emptySlotAt m s).OpenWith b.parcel i de c := ho.congr (emptySlotAt_beside m b.parcel s).records
    have hread := takeReading_open hform hoE hd hx
    have hset := setItem_form hoE hx (fun y => { y with latest := some (latestOf d.alpha w.arrival rd) })
    have hnewer : newerThanOption rd.seq (latestSeq x) = true ↔ ahead := newerThanLatest_iff
    have hF : KeepsPlace (fun d' : DirEntry => d'.copyFrom q) := keepsPlace_id.copy _
    have hq' : q.number = b.parcel := hn
    have hdq : q.decl = some d := hd
    have hz : (evaluated s.tmr.seconds q).number = b.parcel := by rw [evaluated_eq _ hdq]; exact hq'
    have hFz : KeepsPlace (fun d' : DirEntry => (d'.copyFrom q).copyFrom (evaluated s.tmr.seconds q)) := keepsPlace_id.copy _
    have evaluates (hah : ahead) (hst : c.record.state = .transfer) : takeReading b w (emptySlotAt m s) =
        let t := (emptySlotAt m s).withOpen b.parcel i (fun d' => (d'.copyFrom q).copyFrom (evaluated s.tmr.seconds q))
          { record := evaluated s.tmr.seconds q, dirty := true }
        if run.complete then testPersistence b.parcel t else t := by
      rw [if_pos (hnewer.mpr hah)] at hread
      dsimp only at hread
      rw [if_pos (by simpa using hst), hset] at hread
      exact hread.trans (evaluate_form (β := true) hoE hF hq' hdq)
    refine ⟨fun hah => ?_, fun hah hst => ?_, fun hah hst hinc => ?_, fun hah hst hcom hrun => ?_,
      fun k hah hst hcom h0 hs hk hrun => ?_⟩
    · rw [if_neg (mt hnewer.mp hah)] at hread
      rw [exec_reading_counted hh ha hq hb hw hread rfl rfl rfl, ← starvation_counted]
      rfl
    · rw [if_pos (hnewer.mpr hah)] at hread
      dsimp only at hread
      rw [if_neg (by simpa using hst)] at hread
      exact exec_reading_unwritten hh ha hq hb hw ho (hread.trans hset) hF hq'
    · have heval := evaluates hah hst
      dsimp only at heval
      rw [if_neg (by rw [Bool.not_eq_true]; exact hinc)] at heval
      have heq : evaluated s.tmr.seconds q = { q with running := some run } := by
        rw [evaluated_eq _ hdq, if_neg (by rw [Bool.not_eq_true]; exact hinc)]
      rw [← heq]
      exact exec_reading_unwritten hh ha hq hb hw ho heval hFz hz
    all_goals
      have heval := evaluates hah hst
      dsimp only at heval
      rw [if_pos hcom] at heval
      have heq : evaluated s.tmr.seconds q = { q with running := some run, alarm := alarm } := by
        rw [evaluated_eq _ hdq, if_pos hcom, alarmAfterEvaluation_eq]
      have hcopy : persistenceCopy (evaluated s.tmr.seconds q) = persistenceCopy { q with alarm := alarm } := by
        rw [heq]
        rfl
    · rw [testPersistence_stays hoE hFz hz rfl (by rw [hcopy]; exact hrun)] at heval
      rw [← heq]
      exact exec_reading_unwritten hh ha hq hb hw ho heval hFz hz
    · rw [testPersistence_moves hoE hFz hz rfl (hcopy.trans hk) hrun] at heval
      intro raised o refused z
      obtain ⟨v, hv, hmoved⟩ := moveAlarm_moved (β := true) s hoE hFz hz raised rfl rfl
      obtain ⟨t, ht, hwork, hstored, hline, hposted, hkept⟩ :=
        exec_reading_moved hh ha hq hb hw h0 ho hs (heval.trans hv) hmoved (hFz.copy _) hz
      replace hposted := hposted _ rfl
      rw [heq] at hwork hstored hline hposted
      exact ⟨t, ht, hwork, hstored, hline, hposted, hkept⟩

end Sys2Proof.Machine

/-! SUPPORT. DECLARE frames (file 02, R24 to R41): which assembly rule a DECLARE of good form comes to, in every state that
shows the same buffers, the checks of a declaration in their order, and with them the statement on declarations. -/

namespace Sys2Proof.Machine

variable {s X : State} {e : IntakeEntry} {rest : List IntakeEntry} {p : Part0} {b : Fin 2} {a : Assembly}

/-! ## What the assembly rules look at -/

/-- Numbered, with the assembly buffers and the straps of `s`. -/
structure SeesBuffers (s X : State) : Prop where
  numbered : X.line.standing ≠ .unnumbered
  buf0 : X.eng.buf0 = s.eng.buf0
  buf1 : X.eng.buf1 = s.eng.buf1
  sup : X.sup = s.sup

theorem seesBuffers_head (hc : s.HeadChosen e rest) : SeesBuffers s { s with acc := (s.headTaken rest).acc } :=
  ⟨hc.2.2.2, rfl, rfl, rfl⟩

theorem seesBuffers_open (hc : s.HeadChosen e rest) (n : ParcelNo) :
    SeesBuffers s (State.openParcel { s with acc := (s.headTaken rest).acc } n) := by
  have hapart := openParcel_apart { s with acc := (s.headTaken rest).acc } n
  refine ⟨?_, (congrArg (fun x => x.eng.buf0) hapart :), (congrArg (fun x => x.eng.buf1) hapart :), (apart_sup hapart :)⟩
  rw [apart_line hapart]
  exact hc.2.2.2

namespace SeesBuffers

theorem bufferFor (h : SeesBuffers s X) (source : Station) (n : ParcelNo) :
    X.eng.bufferFor source n = s.eng.bufferFor source n := by
  simp only [Engine.bufferFor, h.buf0, h.buf1]

theorem buffer (h : SeesBuffers s X) (b : Fin 2) : X.eng.buffer b = s.eng.buffer b := buffer_of b h.buf0 h.buf1

theorem numberAssembled (h : SeesBuffers s X) (n : ParcelNo) : X.eng.numberAssembled n = s.eng.numberAssembled n := by
  simp only [Engine.numberAssembled, h.buf0, h.buf1]

theorem freeBuffer (h : SeesBuffers s X) : X.eng.freeBuffer = s.eng.freeBuffer := by
  simp only [Engine.freeBuffer, h.buf0, h.buf1]

theorem station (h : SeesBuffers s X) : X.station = s.sup.straps.station := congrArg (fun y => y.straps.station) h.sup

end SeesBuffers

/-! ## Part 0 (R27) -/

theorem takePart0_short (h : e.payload.length ≠ 20) : takePart0 e X = X := by
  simp only [takePart0, parsePart0_none h]

section Part0

variable (hX : SeesBuffers s X) (hp : parsePart0 e.payload = some p)
include hX hp

theorem takePart0_stranger (hout : s.sup.straps.station ∉ p.nodes) : takePart0 e X =
    match s.eng.bufferFor e.source e.parcel with
    | some b => X.setBuffer b none
    | none => X := by
  simp only [takePart0, hp, hX.station, hX.bufferFor]
  exact if_pos (by simpa using hout)

variable (hin : s.sup.straps.station ∈ p.nodes)
include hin

theorem takePart0_member : takePart0 e X =
    match s.eng.bufferFor e.source e.parcel with
    | some b => startAssembly b e p X
    | none => if s.eng.numberAssembled e.parcel then X.bump .conflicts
      else match s.eng.freeBuffer with
        | some b => startAssembly b e p X
        | none => failAssembly e.source e.parcel X := by
  simp only [takePart0, hp, hX.station, hX.bufferFor, hX.numberAssembled, hX.freeBuffer]
  exact if_neg (by simpa using hin)

theorem takePart0_conflict (hnone : s.eng.bufferFor e.source e.parcel = none)
    (hused : ∃ a, (s.eng.buf0 = some a ∨ s.eng.buf1 = some a) ∧ a.parcel = e.parcel) :
    takePart0 e X = X.bump .conflicts := by
  rw [takePart0_member hX hp hin, hnone]
  exact if_pos (numberAssembled_used hused)

theorem takePart0_full (hnone : s.eng.bufferFor e.source e.parcel = none)
    (hfree : ∀ a, s.eng.buf0 = some a ∨ s.eng.buf1 = some a → a.parcel ≠ e.parcel) (h0 : s.eng.buf0 ≠ none)
    (h1 : s.eng.buf1 ≠ none) : takePart0 e X = failAssembly e.source e.parcel X := by
  have hfull : s.eng.freeBuffer = none := by
    simp only [Engine.freeBuffer, Option.isNone_iff_eq_none, h0, h1, if_false]
  rw [takePart0_member hX hp hin, hnone]
  dsimp only
  rw [numberAssembled_free hfree, hfull]
  rfl

/-- The buffer that a part 0 of a member starts: the one of its source and number, or else the lower free one. -/
theorem takePart0_starts (hb : s.eng.bufferFor e.source e.parcel = some b ∨
      (s.eng.bufferFor e.source e.parcel = none ∧
        (∀ a, s.eng.buf0 = some a ∨ s.eng.buf1 = some a → a.parcel ≠ e.parcel) ∧
        (if s.eng.buf0 = none then b = 0 else s.eng.buf1 = none ∧ b = 1))) :
    takePart0 e X = startAssembly b e p X := by
  rw [takePart0_member hX hp hin]
  obtain hb | ⟨hnone, hfree, hlow⟩ := hb
  · rw [hb]
  · have hbuffer : s.eng.freeBuffer = some b := by
      simp only [Engine.freeBuffer, Option.isNone_iff_eq_none]
      split at hlow
      case isTrue h0 => rw [if_pos h0, hlow]
      case isFalse h0 => rw [if_neg h0, if_pos hlow.1, hlow.2]
    rw [hnone]
    dsimp only
    rw [numberAssembled_free hfree, hbuffer]
    rfl

end Part0

theorem startAssembly_opens (h1 : 2 ≤ p.count) (h2 : p.count ≤ 16) : startAssembly b e p X = X.setBuffer b (some
    { source := e.source, parcel := e.parcel, part0 := p, second := e.arrival, nextPart := 1, items := [] }) := by
  simp [startAssembly, countOk, h1, h2]

theorem startAssembly_completes (h : p.count < 2 ∨ 16 < p.count) :
    startAssembly b e p X = completeDeclaration e.source e.parcel p [] (X.setBuffer b none) := by
  have hcount : countOk p = false := by
    rw [countOk, Bool.and_eq_false_iff, decide_eq_false_iff_not, decide_eq_false_iff_not]
    omega
  simp [startAssembly, hcount]

/-! ## Parts 1 and 2 (R24, R28, R29) -/

theorem takeRosterPart_unbuffered (hX : SeesBuffers s X) (hnone : s.eng.bufferFor e.source e.parcel = none) :
    takeRosterPart e X = if s.eng.numberAssembled e.parcel then X.bump .conflicts else X := by
  simp only [takeRosterPart, hX.bufferFor, hX.numberAssembled, hnone]

section RosterPart

variable (hX : SeesBuffers s X) (hb : s.eng.bufferFor e.source e.parcel = some b) (ha : s.eng.buffer b = some a)
include hX hb ha

theorem takeRosterPart_fails (h : ¬ IsNextPart e a) :
    takeRosterPart e X = failAssembly e.source e.parcel (X.setBuffer b none) := by
  simp only [takeRosterPart, hX.bufferFor, hb, hX.buffer, ha]
  exact if_pos (by rwa [isNextPart_iff, not_not] at h)

theorem takeRosterPart_next (h : IsNextPart e a) : takeRosterPart e X =
    if (a.items ++ parseItems e.payload).length == a.part0.count then
      completeDeclaration e.source e.parcel a.part0 (a.items ++ parseItems e.payload) (X.setBuffer b none)
    else X.setBuffer b (some { a with items := a.items ++ parseItems e.payload, nextPart := 2 }) := by
  simp only [takeRosterPart, hX.bufferFor, hb, hX.buffer, ha]
  exact if_neg ((isNextPart_iff e a).mp h)

/-- Part 1 of a declaration of 11 to 16 items is collected. -/
theorem takeRosterPart_collects (h : IsNextPart e a) (hpart : a.nextPart = 1) (hitems : a.items = [])
    (h1 : 11 ≤ a.part0.count) :
    takeRosterPart e X = X.setBuffer b (some { a with items := a.items ++ parseItems e.payload, nextPart := 2 }) := by
  have hlength : (parseItems e.payload).length = 10 := by
    refine parseItems_length _ 10 ?_
    rw [h.2, if_pos hpart, if_neg (by omega)]
  rw [takeRosterPart_next hX hb ha h, if_neg]
  rw [hitems, List.nil_append, hlength]
  simp only [beq_iff_eq]
  omega

/-- The last part completes the declaration. -/
theorem takeRosterPart_completes (h : IsLastPart e a) : takeRosterPart e X =
    completeDeclaration e.source e.parcel a.part0 (a.items ++ parseItems e.payload) (X.setBuffer b none) := by
  obtain ⟨hnext, hlast⟩ := h
  rw [takeRosterPart_next hX hb ha hnext, if_pos]
  rw [beq_iff_eq, List.length_append]
  obtain ⟨hpart, hitems, h1, h2⟩ | ⟨hpart, hitems, h1, h2⟩ := hlast
  · rw [hitems, parseItems_length _ a.part0.count (by rw [hnext.2, if_pos hpart, if_pos h2]), List.length_nil, Nat.zero_add]
  · rw [hitems, parseItems_length _ (a.part0.count - 10) (by rw [hnext.2, hpart, if_neg (by decide)])]
    omega

end RosterPart

/-! ## The checks in their order (R34) -/

/-- A node of the set has not been heard (R33, R34). -/
def IsUnheard (p : Part0) (s : State) : Prop := ∃ m ∈ p.nodes, m ∉ s.eng.heard

/-- The parcel is not held and the table is full. -/
def TableIsFull (n : ParcelNo) (s : State) : Prop := s.dirFind n = none ∧ 6 ≤ s.eng.directory.length

open Classical in
theorem validate_eq (source : Station) (n : ParcelNo) (p : Part0) (items : List DeclaredItem) (s : State) :
    validate source n p items s =
      if ¬ FormPasses p items then some .form
      else if source ∉ p.nodes then some .notMember
      else if IsUnheard p s then some .nodeUnheard
      else if TankIsBusy n items s then some .tankBusy
      else if TableIsFull n s then some .tableFull
      else if LacksSlots items s.acc then some .noSlots
      else none := by
  have hheard : (!p.nodes.all (fun m => s.eng.heard.contains m)) = true ↔ IsUnheard p s := by
    simp [IsUnheard]
  have hfull : (!s.isHeld n && decide (Config.tableSize ≤ s.eng.directory.length)) = true ↔ TableIsFull n s := by
    simp [TableIsFull, State.isHeld, Config.tableSize]
  simp only [validate, Bool.not_eq_true', ← Bool.not_eq_true, formOk_iff, List.contains_iff_mem, hheard, hfull,
    tankBusy_iff, lacks_iff]

/-- Each reason is given exactly when its check is the first that fails (R34 to R37). -/
theorem validate_iff (source : Station) (n : ParcelNo) (p : Part0) (items : List DeclaredItem) (s : State) :
    let v := validate source n p items s
    let c₁ := FormPasses p items
    let c₂ := source ∈ p.nodes
    (v = some .form ↔ ¬ c₁) ∧ (v = some .notMember ↔ c₁ ∧ ¬ c₂) ∧ (v = some .nodeUnheard ↔ c₁ ∧ c₂ ∧ IsUnheard p s) ∧
      (v = some .tankBusy ↔ c₁ ∧ c₂ ∧ ¬ IsUnheard p s ∧ TankIsBusy n items s) ∧
      (v = some .tableFull ↔ c₁ ∧ c₂ ∧ ¬ IsUnheard p s ∧ ¬ TankIsBusy n items s ∧ TableIsFull n s) ∧
      (v = some .noSlots ↔ c₁ ∧ c₂ ∧ ¬ IsUnheard p s ∧ ¬ TankIsBusy n items s ∧ ¬ TableIsFull n s ∧
        LacksSlots items s.acc) ∧
      (v = none ↔ c₁ ∧ c₂ ∧ ¬ IsUnheard p s ∧ ¬ TankIsBusy n items s ∧ ¬ TableIsFull n s ∧
        ¬ LacksSlots items s.acc) := by
  dsimp only
  rw [validate_eq]
  by_cases h1 : FormPasses p items
  · by_cases h2 : source ∈ p.nodes
    · by_cases h3 : IsUnheard p s
      · simp [h1, h2, h3]
      · by_cases h4 : TankIsBusy n items s
        · simp [h1, h2, h3, h4]
        · by_cases h5 : TableIsFull n s
          · simp [h1, h2, h3, h4, h5]
          · by_cases h6 : LacksSlots items s.acc
            · simp [h1, h2, h3, h4, h5, h6]
            · simp [h1, h2, h3, h4, h5, h6]
    · simp [h1, h2]
  · simp [h1]

theorem validate_count {source : Station} {n : ParcelNo} {items : List DeclaredItem} (h : p.count < 2 ∨ 16 < p.count) :
    validate source n p items s = some .form := by
  refine (validate_iff source n p items s).1.mpr fun hform => ?_
  obtain ⟨⟨-, -, h1, h2, -⟩, -⟩ := hform
  omega

/-! ## The services -/

section Service

variable (h0 : e.parcel ≠ 0#4)
include h0

/-- Every DECLARE of a part 0 to 2 comes to its assembly rule, before and after an opening of its parcel. -/
theorem applyEntry_part0 (hx : e.entryIndex = 3) (hi : e.item = 0#6) (hX : SeesBuffers s X) : applyEntry e X = takePart0 e X := by
  rw [applyEntry_declare hx hX.numbered h0 (by rw [hi]; decide), if_pos hi]

theorem applyEntry_rosterPart (hx : e.entryIndex = 3) (hi : e.item = 1#6 ∨ e.item = 2#6)
    (hX : SeesBuffers s X) :
    applyEntry e X = takeRosterPart e X := by
  rw [applyEntry_declare hx hX.numbered h0 (by obtain hi | hi := hi <;> rw [hi] <;> decide),
    if_neg (by obtain hi | hi := hi <;> rw [hi] <;> decide)]

variable (hc : s.HeadChosen e rest) (hq : s.Quiet)
include hc hq

/-- A head whose rule frees a buffer and fails the assembly, in every state that shows the buffers. -/
theorem assemblyFails_freed (h : ∀ X, SeesBuffers s X →
    applyEntry e X = failAssembly e.source e.parcel (X.setBuffer b none)) :
    AssemblyFails s ((s.headTaken rest).setBuffer b none) e rest :=
  assemblyFails_of hc hq h0 (judged_setBuffer hq b none) (h _ (seesBuffers_head hc))
    (by rw [openParcel_setBuffer]; exact h _ (seesBuffers_open hc e.parcel))

/-- A head whose rule frees a buffer and completes the declaration, in every state that shows the buffers. -/
theorem declarationCompletes_freed {items : List DeclaredItem} (h : ∀ X, SeesBuffers s X →
    applyEntry e X = completeDeclaration e.source e.parcel p items (X.setBuffer b none)) :
    DeclarationCompletes s ((s.headTaken rest).setBuffer b none) e rest p items :=
  declarationCompletes_of hc hq h0 (judged_setBuffer hq b none) (h _ (seesBuffers_head hc))
    (by rw [openParcel_setBuffer]; exact h _ (seesBuffers_open hc e.parcel))

end Service

/-- A DECLARE of parcel 0 or of a part above 2 has no effect (R25). -/
theorem applyEntry_declare_idle (hx : e.entryIndex = 3) (h : e.parcel = 0#4 ∨ 2 < e.item.toNat) : applyEntry e X = X := by
  simp only [applyEntry, hx, applyDeclare]
  refine if_pos ?_
  obtain h | h := h <;> simp [h]

/-- Settles O42. -/
theorem completedDeclarationIsJudged : Obligations.CompletedDeclarationIsJudged := by
  refine ⟨fun e rest s hc hq hx => ?_, fun source n p items s => validate_iff source n p items s⟩
  intro plain conflict
  have hhead := seesBuffers_head hc
  refine ⟨fun hbad => intake_plain hc hq (applyEntry_declare_idle hx hbad), fun h0 hi => ?_, fun h0 hi => ?_⟩
  · have hrule {X : State} (hX : SeesBuffers s X) : applyEntry e X = takePart0 e X := applyEntry_part0 h0 hx hi hX
    refine ⟨fun hlen => intake_plain hc hq ((hrule hhead).trans (takePart0_short hlen)), fun p hp => ?_⟩
    intro fresh
    refine ⟨fun hout => ⟨fun b hb => ?_, fun hnone => ?_⟩, fun hin hnone hused => ?_, fun hin hnone hfree hfull0 hfull1 => ?_,
      fun b hin hb => ⟨fun h1 h2 => ?_, fun hcount => ⟨validate_count hcount, ?_⟩⟩⟩
    · have hstranger := takePart0_stranger hhead hp hout
      rw [hb] at hstranger
      exact intake_setBuffer hc hq b none ((hrule hhead).trans hstranger)
    · have hstranger := takePart0_stranger hhead hp hout
      rw [hnone] at hstranger
      exact intake_plain hc hq ((hrule hhead).trans hstranger)
    · exact intake_conflict hc hq ((hrule hhead).trans (takePart0_conflict hhead hp hin hnone hused))
    · refine assemblyFails_of hc hq h0 (judged_plain hq) ((hrule hhead).trans ?_) ((hrule (seesBuffers_open hc _)).trans ?_)
      · exact takePart0_full hhead hp hin hnone hfree hfull0 hfull1
      · exact takePart0_full (seesBuffers_open hc _) hp hin hnone hfree hfull0 hfull1
    · exact intake_setBuffer hc hq b _ ((hrule hhead).trans ((takePart0_starts hhead hp hin hb).trans
        (startAssembly_opens h1 h2)))
    · exact declarationCompletes_freed h0 hc hq fun X hX => (hrule hX).trans
        ((takePart0_starts hX hp hin hb).trans (startAssembly_completes hcount))
  · have hrule {X : State} (hX : SeesBuffers s X) : applyEntry e X = takeRosterPart e X :=
      applyEntry_rosterPart h0 hx hi hX
    refine ⟨fun hnone => ⟨fun hused => ?_, fun hfree => ?_⟩, fun b a hb ha => ?_⟩
    · refine intake_conflict hc hq ((hrule hhead).trans ?_)
      rw [takeRosterPart_unbuffered hhead hnone, if_pos (numberAssembled_used hused)]
    · refine intake_plain hc hq ((hrule hhead).trans ?_)
      rw [takeRosterPart_unbuffered hhead hnone, numberAssembled_free hfree]
      rfl
    · intro items freed
      refine ⟨fun hnext => ?_, fun hnext hpart hitems h1 h2 => ?_, fun hlast => ?_⟩
      · exact assemblyFails_freed h0 hc hq fun X hX => (hrule hX).trans (takeRosterPart_fails hX hb ha hnext)
      · exact intake_setBuffer hc hq b _ ((hrule hhead).trans (takeRosterPart_collects hhead hb ha hnext hpart hitems h1))
      · exact declarationCompletes_freed h0 hc hq fun X hX => (hrule hX).trans
          (takeRosterPart_completes hX hb ha hlast)

end Sys2Proof.Machine

/-! SUPPORT. The checkpoint (file 06, R114; file 05, R84; file 04, R70): the closing of both contexts, what a store position
holds once its context is closed, the retries of owed frames as a fold of offers, and with them the statement on it. -/

namespace Sys2Proof.Machine

variable {s t u v x : State} {n m : ParcelNo} {i j : ContextId} {e : DirEntry} {c : OpenContext} {r : ParcelRecord}

/-! ## Both contexts closed -/

/-- No parcel is open. -/
def State.NoneOpen (s : State) : Prop := ∀ i, s.eng.context i = none

theorem noneOpen_of (h0 : s.eng.w0 = none) (h1 : s.eng.w1 = none) : s.NoneOpen
  | .w0 => h0
  | .w1 => h1

namespace State.NoneOpen

theorem closeContext_eq (h : s.NoneOpen) (i : ContextId) : s.closeContext i = s := by
  simp only [State.closeContext, h i]

theorem writeThrough_eq (h : s.NoneOpen) (n : ParcelNo) : s.writeThrough n = s := by
  unfold State.writeThrough
  split
  case h_1 =>
    split
    case h_1 i _ => simp only [State.writeBack, h i]
    case h_2 => rfl
  case h_2 => rfl

theorem finishWrites_eq (h : s.NoneOpen) : s.finishWrites = s.setEng { s.eng with dueWrites := [] } := by
  have hfold (l : List ParcelNo) : l.foldl State.writeThrough s = s := by
    induction l with
    | nil => rfl
    | cons k l ih => rw [List.foldl_cons, h.writeThrough_eq, ih]
  rw [State.finishWrites]
  dsimp only
  rw [hfold]

theorem burstClose_eq (h : s.NoneOpen) : burstClose s = s := by
  have hclose (l : List ParcelNo) (i : ContextId) : closeUnneeded l i s = s := by simp only [closeUnneeded, h i]
  unfold burstClose
  split
  · rfl
  · rw [hclose, hclose]

/-- A service that ends with no parcel open writes nothing through. -/
theorem endService_shows (h : s.NoneOpen) : (endService s).eng = { s.eng with dueWrites := [] } ∧
    (endService s).store = s.store := by
  have heng : (buildAll s.finishWrites).eng = { s.eng with dueWrites := [] } := by
    rw [buildAll_eng, h.finishWrites_eq]
    rfl
  have hstore : (buildAll s.finishWrites).store = s.store := by
    rw [buildAll_outside, h.finishWrites_eq]
    rfl
  have hnone : (buildAll s.finishWrites).NoneOpen := by
    intro i
    rw [heng]
    have := h i
    cases i <;> exact this
  unfold endService idleClose
  split
  · rw [hnone.burstClose_eq]
    exact ⟨heng, hstore⟩
  · exact ⟨heng, hstore⟩

end State.NoneOpen

/-- Both contexts are closed (R114). -/
def closeBoth (s : State) : State := (s.closeContext .w0).closeContext .w1

theorem closeBoth_noneOpen (s : State) : (closeBoth s).NoneOpen := by
  intro i
  rw [closeBoth, closeContext_context, closeContext_context]
  cases i <;> rfl

theorem closeBoth_apart (s : State) : (closeBoth s).apart = s.apart :=
  (closeContext_apart _ _).trans (closeContext_apart _ _)

/-- The closing of a dirty record that has a store position stores it. -/
theorem closeContext_stored_dirty (hc : s.eng.context i = some c) (hd : c.dirty = true)
    (hs : (s.stored c.record.number).isSome = true) :
    (s.closeContext i).stored c.record.number = some (mkStored c.record) := by
  rw [closeContext_stored (fun d hd' _ => by rw [hc] at hd'; rw [← Option.some.inj hd']; exact hs), hc]
  exact if_pos ⟨hd, rfl⟩

theorem closeBoth_stored_dirty (hc : s.eng.context i = some c) (hd : c.dirty = true)
    (hs : (s.stored c.record.number).isSome = true)
    (ho : ∀ d, s.eng.context (otherContext i) = some d → d.record.number ≠ c.record.number) :
    (closeBoth s).stored c.record.number = some (mkStored c.record) := by
  cases i with
  | w0 =>
    rw [closeBoth, closeContext_stored_other, closeContext_stored_dirty hc hd hs]
    intro d hd'
    rw [closeContext_context, if_neg (by decide)] at hd'
    exact ho d hd'
  | w1 =>
    refine closeContext_stored_dirty ?_ hd ?_
    · rwa [closeContext_context, if_neg (by decide)]
    · rwa [closeContext_stored_other (i := .w0) ho]

theorem checkpointBody_eq (s : State) : checkpointBody s =
    closeBoth (allNumbers.foldl retryParcel (s.setEng { s.eng with checkpointPending := false })) := rfl

/-- A parcel whose directory entry shows no owed frame is not retried. -/
theorem retryParcel_none (h : ∀ e, s.dirFind n = some e → e.voteOwed = false ∧ e.alarmOwed = false) :
    retryParcel s n = s := by
  unfold retryParcel
  split
  case h_1 e he =>
    obtain ⟨hvote, halarm⟩ := h e he
    rw [hvote, halarm]
    rfl
  case h_2 => rfl

theorem retryAll_none (h : ∀ n e, s.dirFind n = some e → e.voteOwed = false ∧ e.alarmOwed = false) (l : List ParcelNo) :
    l.foldl retryParcel s = s := by
  induction l with
  | nil => rfl
  | cons n l ih => rw [List.foldl_cons, retryParcel_none (h n), ih]

/-- The entry that a number has after the closings of a burst owes what it owed before. -/
theorem owes_burstClose (h : ∀ e ∈ s.eng.directory, e.voteOwed = false ∧ e.alarmOwed = false) (n : ParcelNo)
    (he : (burstClose s).dirFind n = some e) : e.voteOwed = false ∧ e.alarmOwed = false := by
  have hmap := congrArg (fun x : State => x.dirFind n) (burstClose_unopened s)
  rw [dirFind_unopened, dirFind_unopened, he] at hmap
  obtain ⟨d, hd, hclosed⟩ := Option.map_eq_some_iff.mp hmap.symm
  obtain ⟨hvote, halarm⟩ := h d (List.mem_of_find?_eq_some hd)
  exact ⟨(congrArg DirEntry.voteOwed hclosed).symm.trans hvote, (congrArg DirEntry.alarmOwed hclosed).symm.trans halarm⟩

/-- A dirty record is stored by a checkpoint with nothing owed, whether its burst rule closes it or its body does. -/
theorem checkpoint_stores (ha : arbiter s = some .checkpoint)
    (how : ∀ e ∈ s.eng.directory, e.voteOwed = false ∧ e.alarmOwed = false) (hc : s.eng.context i = some c)
    (hd : c.dirty = true) (hs : (s.stored c.record.number).isSome = true)
    (ho : ∀ d, s.eng.context (otherContext i) = some d → d.record.number ≠ c.record.number) :
    (checkpointBody ((burstClose s).withStarts [])).stored c.record.number = some (mkStored c.record) := by
  have hsame : SameRecords (burstClose s) (((burstClose s).withStarts []).setEng
      { ((burstClose s).withStarts []).eng with checkpointPending := false }) := ⟨rfl, fun j => by cases j <;> rfl, rfl⟩
  rw [checkpointBody_eq]
  generalize ((burstClose s).withStarts []).setEng { ((burstClose s).withStarts []).eng with checkpointPending := false } = u
    at hsame
  rw [retryAll_none (fun n e he => owes_burstClose how n ((hsame.dirFind n).symm.trans he))]
  cases hp : s.sup.straps.policy with
  | keepOpen =>
    rw [burstClose_keepOpen hp] at hsame
    refine closeBoth_stored_dirty (i := i) ((hsame.context i).trans hc) hd (by rw [hsame.stored]; exact hs) ?_
    intro d hd'
    exact ho d ((hsame.context _).symm.trans hd')
  | closeAfterBurst =>
    have hneeds : needs s (arbiter s) = [] := by rw [ha]; rfl
    have hnone : u.NoneOpen := by
      intro j
      rw [hsame.context, burstClose_context hp, hneeds]
      cases s.eng.context j <;> rfl
    rw [closeBoth, hnone.closeContext_eq, hnone.closeContext_eq, hsame.stored]
    exact burstClose_stored_dirty hp hc (by rw [hneeds]; exact List.not_mem_nil) hd hs ho

/-- The flags after a checkpoint: it is no longer pending, and the second duty is as it was. -/
theorem checkpointBody_flags (s : State) : (checkpointBody ((burstClose s).withStarts [])).eng.checkpointPending = false ∧
    (checkpointBody ((burstClose s).withStarts [])).eng.dutyPending = s.eng.dutyPending := by
  have hclosed := (flags_engineClosed s.eng.dutyPending false ((burstClose s).withStarts []).eng.slotPointer
    ((burstClose s).withStarts []).eng.starvation).toRecordClosed
  obtain ⟨hduty, hcheck, -⟩ := hclosed.checkpointBody (s := (burstClose s).withStarts [])
    ⟨burstClose_dutyPending s, rfl, rfl, rfl⟩
  exact ⟨hcheck, hduty⟩

/-- What a checkpoint leaves of the engine and the store. -/
theorem checkpoint_shows (hh : s.sup.held = false) (hp : s.eng.checkpointPending = true) :
    ∃ t, exec .checkpoint s = .next t ∧ t.eng.checkpointPending = false ∧ t.NoneOpen ∧
      t.eng.dutyPending = s.eng.dutyPending ∧ t.store = (checkpointBody ((burstClose s).withStarts [])).store ∧
      t.eng.directory = (checkpointBody ((burstClose s).withStarts [])).eng.directory := by
  refine ⟨_, exec_asService (c := .checkpoint) rfl hh, ?_⟩
  rw [checkpointService_chosen (arbiter_checkpoint hp), serve, wholeService]
  obtain ⟨hcheck, hduty⟩ := checkpointBody_flags s
  have hnone : (checkpointBody ((burstClose s).withStarts [])).NoneOpen := closeBoth_noneOpen _
  generalize checkpointBody ((burstClose s).withStarts []) = u at *
  have hnone' : ((countOther u).withStarts s.tmr.buildsDue).NoneOpen := by
    intro i
    have := hnone i
    cases i <;> exact this
  obtain ⟨heng, hstore⟩ := hnone'.endService_shows
  have hclosed (i : ContextId) : (endService ((countOther u).withStarts s.tmr.buildsDue)).eng.context i = none := by
    rw [heng]
    have := hnone i
    cases i <;> exact this
  refine ⟨?_, hclosed, ?_, hstore, ?_⟩
  · rw [State.setStoreLog_eng, heng]
    exact hcheck
  · rw [State.setStoreLog_eng, heng]
    exact hduty
  · rw [State.setStoreLog_eng, heng]
    rfl

end Sys2Proof.Machine

/-! SUPPORT. The retries of a checkpoint in an agreeing state (file 05, R84; file 04, R70; file 06, R114): the fold of
offers that they are, and what it leaves in the store and the directory. -/

namespace Sys2Proof.Machine

variable {s t u v x : State} {n m : ParcelNo} {i j : ContextId} {e : DirEntry} {c : OpenContext} {r : ParcelRecord}

/-! ## What a store position holds (R101, R116) -/

/-- Number m is open in a context whose record is dirty. -/
def State.DirtyOpen (s : State) (m : ParcelNo) : Prop :=
  ∃ i c, s.eng.context i = some c ∧ c.record.number = m ∧ c.dirty = true

/-- A stored copy is freshly checked, or it is the record of `s`, or its number is open and dirty. -/
def Accounted (s u : State) : Prop :=
  ∀ m p, u.stored m = some p → p = mkStored p.record ∨ s.recordOf m = some p.record ∨ u.DirtyOpen m

theorem SameRecords.accounted (g : SameRecords u v) (h : Accounted s u) : Accounted s v := by
  intro m p hp
  obtain hp | hp | ⟨i, c, hi, hc⟩ := h m p ((g.stored m).symm.trans hp)
  · exact .inl hp
  · exact .inr (.inl hp)
  · exact .inr (.inr ⟨i, c, (g.context i).trans hi, hc⟩)

theorem accounted_refl (h : s.Coherent) : Accounted s s := by
  intro m p hp
  cases hd : s.dirFind m with
  | none => exact .inr (.inl (by rw [recordOf_absent hd, hp]; rfl))
  | some e =>
    cases hc : e.context with
    | none => exact .inr (.inl (by rw [recordOf_closed hd hc, hp]; rfl))
    | some i =>
      obtain ⟨c, hi, hn⟩ := h.opened m e i hd hc
      cases hdirty : c.dirty with
      | false =>
        refine .inr (.inl ?_)
        rw [recordOf_open hd hc hi hn, h.clean i c p hi hdirty (hn.symm ▸ hp)]
      | true => exact .inr (.inr ⟨i, c, hi, hn, hdirty⟩)

theorem Accounted.closeContext (hu : u.Coherent) (h : Accounted s u) (i : ContextId) : Accounted s (u.closeContext i) := by
  have hpos : ∀ c, u.eng.context i = some c → c.dirty = true → (u.stored c.record.number).isSome = true :=
    fun c hc _ => hu.storedSome hc
  intro m p hp
  have hstored := closeContext_stored hpos m
  rw [hp] at hstored
  have hkept (hold : u.stored m = some p) (hnot : ∀ c, u.eng.context i = some c → c.record.number = m → c.dirty = false) :
      p = mkStored p.record ∨ s.recordOf m = some p.record ∨ (u.closeContext i).DirtyOpen m := by
    obtain hfresh | hsame | ⟨j, d, hj, hn, hd⟩ := h m p hold
    · exact .inl hfresh
    · exact .inr (.inl hsame)
    · refine .inr (.inr ⟨j, d, ?_, hn, hd⟩)
      rw [closeContext_context, if_neg, hj]
      rintro rfl
      rw [hnot d hj hn] at hd
      cases hd
  cases hi : u.eng.context i with
  | none =>
    rw [hi] at hstored
    exact hkept hstored.symm fun c hc => by rw [hi] at hc; cases hc
  | some c =>
    rw [hi] at hstored
    dsimp only at hstored
    by_cases hm : c.dirty = true ∧ c.record.number = m
    · rw [if_pos hm] at hstored
      exact .inl (by rw [Option.some.inj hstored]; rfl)
    · rw [if_neg hm] at hstored
      refine hkept hstored.symm fun d hd hn => ?_
      rw [hi] at hd
      obtain rfl := Option.some.inj hd
      simpa [hn] using hm

theorem Accounted.openParcel (hu : u.Coherent) (h : Accounted s u) (n : ParcelNo) : Accounted s (u.openParcel n) := by
  cases hd : u.dirFind n with
  | none => rwa [show u.openParcel n = u by simp [State.openParcel, hd]]
  | some e =>
    cases hc : e.context with
    | some i =>
      rw [show u.openParcel n = u.touch i by simp [State.openParcel, hd, hc]]
      exact (touch_sameRecords u i).accounted h
    | none =>
      obtain ⟨p, hp, -⟩ := hu.stored n e hd
      have hpos : ∀ c, u.eng.context u.missVictim = some c → c.dirty = true → (u.stored c.record.number).isSome = true :=
        fun c hc _ => hu.storedSome hc
      obtain ⟨-, hother, -, -, hstored, -⟩ := openParcel_turned hd hc hp hpos
      have hsame (m : ParcelNo) : (u.openParcel n).stored m = (u.closeContext u.missVictim).stored m := by
        refine (hstored m).trans (Eq.trans ?_ (closeContext_stored hpos m).symm)
        cases u.eng.context u.missVictim <;> rfl
      intro m q hq
      rw [hsame] at hq
      obtain hfresh | hold | ⟨j, d, hj, hn, hdirty⟩ := h.closeContext hu u.missVictim m q hq
      · exact .inl hfresh
      · exact .inr (.inl hold)
      · rw [closeContext_context] at hj
        split at hj
        case isTrue => cases hj
        case isFalse hne =>
        have hj' : j = otherContext u.missVictim := by
          revert hne
          cases j <;> cases u.missVictim <;> decide
        subst hj'
        exact .inr (.inr ⟨_, d, hother.trans hj, hn, hdirty⟩)

/-- A change of an open record leaves it dirty, and touches no other. -/
theorem Accounted.modify (h : Accounted s u) (ho : u.OpenWith n i e c) (f : ParcelRecord → ParcelRecord)
    (hf : (f c.record).number = n) : Accounted s (u.modify n f) := by
  obtain ⟨-, -, hi, hn⟩ := id ho
  obtain ⟨-, -, hopen, -⟩ := ho.modify f hf
  have hother (j : ContextId) (hj : j ≠ i) : (u.modify n f).eng.context j = u.eng.context j := by
    rw [ho.modify_eq]
    simp [hj]
  intro m p hp
  have hstored : (u.modify n f).stored m = u.stored m := by
    simp only [State.stored, modify_store]
  rw [hstored] at hp
  obtain hfresh | hsame | ⟨j, d, hj, hd, hdirty⟩ := h m p hp
  · exact .inl hfresh
  · exact .inr (.inl hsame)
  · by_cases hji : j = i
    · subst hji
      rw [hi] at hj
      obtain rfl := Option.some.inj hj
      exact .inr (.inr ⟨j, _, hopen, hf.trans (hn.symm.trans hd), rfl⟩)
    · exact .inr (.inr ⟨j, d, (hother j hji).trans hj, hd, hdirty⟩)

/-! ## Beside the records -/

/-- But for the records, `u` is `x`. -/
def Mirrors (u x : State) : Prop := ∃ y z l, u = x.withRecords y z l

theorem Mirrors.refl (s : State) : Mirrors s s := ⟨s.eng, s.store, s.storeLog, rfl⟩

theorem Mirrors.of_apart (h : Mirrors u x) (ha : v.apart = u.apart) : Mirrors v x := by
  obtain ⟨y, z, l, rfl⟩ := h
  exact ⟨_, _, _, (eq_of_apart ha :)⟩

theorem Mirrors.setEng (h : Mirrors u x) (y : Engine) : Mirrors (u.setEng y) x := by
  obtain ⟨-, z, l, rfl⟩ := h
  exact ⟨y, z, l, rfl⟩

/-- An offer is answered alike, and leaves alike. -/
theorem Mirrors.offer (h : Mirrors u x) (f : OfferedFrame) :
    (offer f false u).1 = (offer f false x).1 ∧ Mirrors (offer f false u).2 (offer f false x).2 := by
  obtain ⟨y, z, l, rfl⟩ := h
  exact ⟨(offer_line_congr (t := x.withRecords y z l) (s := x) f false rfl).1, y, z, l, offer_withRecords f false x y z l⟩

/-! ## One owed frame -/

/-- Parcel n is open with record `r` in an agreeing state `u` that a checkpoint of `s` has come to, in which the queue is
that of `x`; since `v` no other record has changed. -/
structure Retrying (s v : State) (n : ParcelNo) (x : State) (r : ParcelRecord) (u : State) : Prop where
  coherent : u.Coherent
  mirrors : Mirrors u x
  due : u.eng.dueWrites = []
  accounted : Accounted s u
  isOpen : ∃ i e c, u.OpenWith n i e c ∧ c.record = r
  others : ∀ m, m ≠ n → u.recordOf m = v.recordOf m
  held : ∀ m, u.isHeld m = v.isHeld m

theorem Retrying.number (h : Retrying s v n x r u) : r.number = n := by
  obtain ⟨i, e, c, ho, rfl⟩ := h.isOpen
  exact ho.2.2.2

theorem Retrying.working (h : Retrying s v n x r u) : u.working n = some r := by
  obtain ⟨i, e, c, ho, rfl⟩ := h.isOpen
  exact ho.working

/-- An owed frame is offered, and the answer noted in the record. -/
theorem Retrying.offer_modify (h : Retrying s v n x r u) (frame : OfferedFrame) (f : ParcelRecord → ParcelRecord)
    (hf : (f r).number = n) :
    Retrying s v n (offer frame false x).2 (f r) ((offer frame false u).2.modify n f) := by
  obtain ⟨i, e, c, ho, rfl⟩ := h.isOpen
  have hsame := offer_sameRecords frame false u
  have ho' := ho.congr hsame
  obtain ⟨hcoherent, hopen, hrecord⟩ := (h.coherent.congr hsame).modify ho' f hf
  refine ⟨hcoherent, (h.mirrors.offer frame).2.of_apart (modify_apart _ n f), ?_,
    (hsame.accounted h.accounted).modify ho' f hf, ⟨i, _, _, hopen, rfl⟩, fun m hm => ?_, fun m => ?_⟩
  · rw [apart_due (modify_apart _ n f), offer_eng]
    exact h.due
  · rw [hrecord, if_neg hm, hsame.recordOf]
    exact h.others m hm
  · by_cases hm : m = n
    · subst hm
      rw [hopen.isHeld, ← h.held, ho.isHeld]
    · rw [State.isHeld, (modify_othersKept ho' f hf m hm).1, hsame.dirFind]
      exact h.held m

theorem retriesVote_iff (st : ParcelState) :
    retriesVote st = true ↔ st = .reconciled ∨ st = .disputed ∨ st = .lapsed := by
  cases st <;> decide

/-- The queue refuses a frame (R84). -/
def refusedBy (a : Answer) : Bool := decide (a = .queueFull ∨ a = .silenced)

theorem refusedBy_eq (a : Answer) : a.isRefused = refusedBy a := by cases a <;> rfl

/-- The ALARM of a record (R70). -/
def ownAlarm (s : State) (n : ParcelNo) (r : ParcelRecord) : OfferedFrame :=
  { key := mkKey .alarm s.sup.straps.station n 0#6
    payload := [0#8, if r.alarm.raised then 1#8 else 0#8] ++ be32 ((r.running.map RunningFigure.delta).getD 0#32) }

/-- The retry of an owed VOTE, on the queue and the record (R84). -/
def voteRetry (s : State) (x : State × ParcelRecord) : State × ParcelRecord :=
  match x.2.own with
  | some o =>
    if x.2.voteOwed ∧ (x.2.state = .reconciled ∨ x.2.state = .disputed ∨ x.2.state = .lapsed) then
      ((offer (ownVote s x.2.number x.2.round o) false x.1).2,
        { x.2 with voteOwed := refusedBy (offer (ownVote s x.2.number x.2.round o) false x.1).1 })
    else x
  | none => x

/-- The retry of an owed ALARM, on the queue and the record (R70). -/
def alarmRetry (s : State) (x : State × ParcelRecord) : State × ParcelRecord :=
  if x.2.alarmOwed then
    ((offer (ownAlarm s x.2.number x.2) false x.1).2,
      { x.2 with alarmOwed := refusedBy (offer (ownAlarm s x.2.number x.2) false x.1).1 })
  else x

theorem Retrying.retryVote (h : Retrying s v n x r u) (hx : x.sup = s.sup) :
    Retrying s v n (voteRetry s (x, r)).1 (voteRetry s (x, r)).2 (retryVote n u) := by
  have hnum := h.number
  have hsup : u.sup = s.sup := by
    obtain ⟨y, z, l, hu⟩ := h.mirrors
    rw [hu]
    exact hx
  rw [Machine.retryVote, h.working]
  cases hown : r.own with
  | none =>
    simp only [voteRetry, hown, Option.isSome_none, Bool.and_false, Bool.false_eq_true, if_false]
    exact h
  | some o =>
    have hframe : voteFrame u n r.round o = ownVote s r.number r.round o := by
      rw [voteFrame, ownFrame, State.station, hsup, hnum]
      rfl
    have hanswer := (h.mirrors.offer (ownVote s r.number r.round o)).1
    simp only [voteRetry, hown, Option.isSome_some, Bool.and_true, Bool.and_eq_true, retriesVote_iff, offerVote, h.working,
      hframe, hanswer, refusedBy_eq]
    split
    · have hstep := h.offer_modify (ownVote s r.number r.round o)
        (fun q => { q with voteOwed := refusedBy (offer (ownVote s r.number r.round o) false x).1 }) hnum
      simp only [hown] at hstep
      exact hstep
    · exact h

theorem Retrying.retryAlarm (h : Retrying s v n x r u) (hx : x.sup = s.sup) :
    Retrying s v n (alarmRetry s (x, r)).1 (alarmRetry s (x, r)).2 (retryAlarm n u) := by
  have hnum := h.number
  have hsup : u.sup = s.sup := by
    obtain ⟨y, z, l, hu⟩ := h.mirrors
    rw [hu]
    exact hx
  have hframe : ownFrame u .alarm n 0#6 (alarmPayload r) = ownAlarm s r.number r := by
    have := alarmFrame_eq u n r
    rw [hsup, ← hnum] at this
    exact hnum ▸ this
  have hanswer := (h.mirrors.offer (ownAlarm s r.number r)).1
  simp only [Machine.retryAlarm, h.working, alarmRetry, offerAlarm, hframe, hanswer, refusedBy_eq]
  split
  · exact h.offer_modify _ (fun r => { r with alarmOwed := _ }) hnum
  · exact h

/-! ## The fold of retries -/

/-- The retry of what one held record owes. -/
def recordRetry (s : State) (x : State) (r : ParcelRecord) : State × ParcelRecord :=
  if r.voteOwed || r.alarmOwed then alarmRetry s (voteRetry s (x, r)) else (x, r)

/-- The retries of a number, on the queue and the records that stand after them. -/
def numberRetry (s : State) (x : State × List ParcelRecord) (n : ParcelNo) : State × List ParcelRecord :=
  match s.recordOf n, s.isHeld n with
  | some r, true => ((recordRetry s x.1 r).1, x.2 ++ [(recordRetry s x.1 r).2])
  | _, _ => x

theorem voteRetry_outside (s : State) (x : State × ParcelRecord) :
    (voteRetry s x).1 = x.1.withOutside (voteRetry s x).1.line x.1.tmr (voteRetry s x).1.counters := by
  unfold voteRetry
  repeat' split
  · exact offer_withOutside _ false x.1
  · rfl
  · rfl

theorem alarmRetry_outside (s : State) (x : State × ParcelRecord) :
    (alarmRetry s x).1 = x.1.withOutside (alarmRetry s x).1.line x.1.tmr (alarmRetry s x).1.counters := by
  unfold alarmRetry
  split
  · exact offer_withOutside _ false x.1
  · rfl

/-- Retries change the line and the counters alone. -/
theorem recordRetry_outside (s x : State) (r : ParcelRecord) :
    (recordRetry s x r).1 = x.withOutside (recordRetry s x r).1.line x.tmr (recordRetry s x r).1.counters := by
  unfold recordRetry
  split
  · have hvote := voteRetry_outside s (x, r)
    have halarm := alarmRetry_outside s (voteRetry s (x, r))
    generalize alarmRetry s (voteRetry s (x, r)) = z at *
    generalize voteRetry s (x, r) = y at *
    rw [hvote] at halarm
    exact halarm
  · rfl

theorem numberRetry_outside (s : State) (x : State × List ParcelRecord) (n : ParcelNo) :
    (numberRetry s x n).1 = x.1.withOutside (numberRetry s x n).1.line x.1.tmr (numberRetry s x n).1.counters := by
  unfold numberRetry
  split
  · exact recordRetry_outside s x.1 _
  · rfl

/-- The state of a checkpoint of `s` that has tried the numbers `l`, in which the queue is that of `x.1` and the records of
`x.2` stand. -/
structure RetriedAll (s : State) (l : List ParcelNo) (x : State × List ParcelRecord) (u : State) : Prop where
  coherent : u.Coherent
  mirrors : Mirrors u x.1
  outside : x.1 = s.withOutside x.1.line s.tmr x.1.counters
  due : u.eng.dueWrites = []
  accounted : Accounted s u
  held : ∀ m, u.isHeld m = s.isHeld m
  left : ∀ m, m ∉ l → u.recordOf m = s.recordOf m
  listed : ∀ r ∈ x.2, r.number ∈ l ∧ u.recordOf r.number = some r ∧ u.isHeld r.number = true

theorem RetriedAll.unheld {l : List ParcelNo} {x : State × List ParcelRecord} (h : RetriedAll s l x u)
    (hn : s.dirFind n = none) : RetriedAll s (l ++ [n]) (numberRetry s x n) (retryParcel u n) := by
  have hheld : s.isHeld n = false := by simp [State.isHeld, hn]
  have hfind : u.dirFind n = none := by
    have := h.held n
    rw [hheld, State.isHeld] at this
    exact Option.isNone_iff_eq_none.mp (by simpa using this)
  have hx : numberRetry s x n = x := by
    unfold numberRetry
    rw [hheld]
    split
    · contradiction
    · rfl
  have hu : retryParcel u n = u := by simp only [retryParcel, hfind]
  rw [hx, hu]
  exact { h with
    left := fun m hm => h.left m fun hl => hm (List.mem_append_left _ hl)
    listed := fun r hr => (h.listed r hr).imp_left (List.mem_append_left _) }

end Sys2Proof.Machine

/-! SUPPORT. CHECKPOINT (file 06, R114): the retries of all the numbers, the two closings after them, and with them the
statement on it. -/

namespace Sys2Proof.Machine

variable {s t u v x : State} {n m : ParcelNo} {i j : ContextId} {e : DirEntry} {c : OpenContext} {r : ParcelRecord}
  {l : List ParcelNo} {y : State × List ParcelRecord}

/-! ## A held number -/

theorem isHeld_iff : s.isHeld n = true ↔ ∃ e, s.dirFind n = some e := Option.isSome_iff_exists

/-- The opening of a held parcel, whose record a retry then changes. -/
theorem retrying_openParcel (hu : u.Coherent) (hm : Mirrors u x) (hd : u.eng.dueWrites = []) (ha : Accounted s u)
    (hn : u.isHeld n = true) (hr : u.recordOf n = some r) : Retrying s u n x r (u.openParcel n) := by
  obtain ⟨e, he⟩ := isHeld_iff.mp hn
  obtain ⟨hcoherent, hsame, i, e', c, ho, hrec, -⟩ := hu.openParcel he
  refine ⟨hcoherent, hm.of_apart (openParcel_apart u n), (openParcel_due u n).trans hd, ha.openParcel hu n,
    ⟨i, e', c, ho, Option.some.inj (hrec.symm.trans hr)⟩, fun m _ => hsame m, fun m => ?_⟩
  simpa [State.isHeld] using congrArg Option.isSome (openParcel_closed hu he m)

/-- What a parcel owes is in its directory entry as in its record. -/
theorem owed_of_copies (hu : u.Coherent) (he : u.dirFind n = some e) (hr : u.recordOf n = some r) :
    e.voteOwed = r.voteOwed ∧ e.alarmOwed = r.alarmOwed := by
  have h := hu.copies n e r he hr
  exact ⟨(congrArg DirEntry.voteOwed h).symm, (congrArg DirEntry.alarmOwed h).symm⟩

/-- The retry of a held parcel that owes nothing is nothing. -/
theorem retryParcel_settled (hu : u.Coherent) (hr : u.recordOf n = some r)
    (ho : (r.voteOwed || r.alarmOwed) = false) : retryParcel u n = u := by
  refine retryParcel_none fun e he => ?_
  obtain ⟨hvote, halarm⟩ := owed_of_copies hu he hr
  rw [hvote, halarm]
  simpa using ho

theorem retryParcel_owing (hu : u.Coherent) (hn : u.isHeld n = true) (hr : u.recordOf n = some r)
    (ho : (r.voteOwed || r.alarmOwed) = true) : retryParcel u n = retryAlarm n (retryVote n (u.openParcel n)) := by
  obtain ⟨e, he⟩ := isHeld_iff.mp hn
  obtain ⟨hvote, halarm⟩ := owed_of_copies hu he hr
  simp only [retryParcel, he, hvote, halarm, ho, if_true]

namespace RetriedAll

theorem sup (h : RetriedAll s l y u) : y.1.sup = s.sup := by
  rw [h.outside]
  rfl

/-- The record with the answers noted stands after the number's retry. -/
theorem of_retrying (h : RetriedAll s l y u) (hn : n ∉ l) {q : ParcelRecord}
    (hx : x = s.withOutside x.line s.tmr x.counters) (hv : Retrying s u n x q v) :
    RetriedAll s (l ++ [n]) (x, y.2 ++ [q]) v where
  coherent := hv.coherent
  mirrors := hv.mirrors
  outside := hx
  due := hv.due
  accounted := hv.accounted
  held m := (hv.held m).trans (h.held m)
  left m hm := by
    rw [List.mem_append, List.mem_singleton, not_or] at hm
    exact (hv.others m hm.2).trans (h.left m hm.1)
  listed p hp := by
    obtain hp | hp := List.mem_append.mp hp
    · obtain ⟨hmem, hrec, hhold⟩ := h.listed p hp
      have hne : p.number ≠ n := fun heq => hn (heq ▸ hmem)
      exact ⟨List.mem_append_left _ hmem, (hv.others _ hne).trans hrec, (hv.held _).trans hhold⟩
    · obtain rfl := List.mem_singleton.mp hp
      obtain ⟨i, e, c, ho, rfl⟩ := hv.isOpen
      rw [ho.2.2.2]
      exact ⟨by simp, recordOf_open ho.1 ho.2.1 ho.2.2.1 ho.2.2.2, ho.isHeld⟩

theorem step_held (hs : s.Coherent) (h : RetriedAll s l y u) (hn : n ∉ l) (hheld : s.isHeld n = true) :
    RetriedAll s (l ++ [n]) (numberRetry s y n) (retryParcel u n) := by
  obtain ⟨e, he⟩ := isHeld_iff.mp hheld
  obtain ⟨r, hr, hnum⟩ := hs.held he
  have hhold : u.isHeld n = true := (h.held n).trans hheld
  have hrec : u.recordOf n = some r := (h.left n hn).trans hr
  have hy : numberRetry s y n = ((recordRetry s y.1 r).1, y.2 ++ [(recordRetry s y.1 r).2]) := by
    simp only [numberRetry, hr, hheld]
  have hout : (recordRetry s y.1 r).1 =
      s.withOutside (recordRetry s y.1 r).1.line s.tmr (recordRetry s y.1 r).1.counters := by
    have := recordRetry_outside s y.1 r
    generalize (recordRetry s y.1 r).1 = z at *
    rw [h.outside] at this
    exact this
  rw [hy]
  cases ho : r.voteOwed || r.alarmOwed with
  | false =>
    have hsame : recordRetry s y.1 r = (y.1, r) := by simp only [recordRetry, ho, Bool.false_eq_true, if_false]
    rw [hsame, retryParcel_settled h.coherent hrec ho]
    exact { h with
      left := fun m hm => h.left m fun hl => hm (List.mem_append_left _ hl)
      listed := fun p hp => by
        obtain hp | hp := List.mem_append.mp hp
        · exact (h.listed p hp).imp_left (List.mem_append_left _)
        · obtain rfl := List.mem_singleton.mp hp
          rw [hnum]
          exact ⟨by simp, hrec, hhold⟩ }
  | true =>
    have hopen := retrying_openParcel h.coherent h.mirrors h.due h.accounted hhold hrec
    have hvote := hopen.retryVote h.sup
    have hsup : (voteRetry s (y.1, r)).1.sup = s.sup := by
      rw [voteRetry_outside]
      exact h.sup
    have hboth := hvote.retryAlarm hsup
    have hretry : recordRetry s y.1 r = alarmRetry s (voteRetry s (y.1, r)) := by
      simp only [recordRetry, ho, if_true]
    rw [retryParcel_owing h.coherent hhold hrec ho]
    refine h.of_retrying hn hout ?_
    rw [hretry]
    exact hboth

theorem step (hs : s.Coherent) (h : RetriedAll s l y u) (hn : n ∉ l) :
    RetriedAll s (l ++ [n]) (numberRetry s y n) (retryParcel u n) := by
  cases hd : s.dirFind n with
  | none => exact h.unheld hd
  | some e => exact h.step_held hs hn (isHeld_iff.mpr ⟨e, hd⟩)

theorem fold (hs : s.Coherent) (k : List ParcelNo) (h : RetriedAll s l y u) (hk : (l ++ k).Nodup) :
    RetriedAll s (l ++ k) (k.foldl (numberRetry s) y) (k.foldl retryParcel u) := by
  induction k generalizing l y u with
  | nil => simpa using h
  | cons n k ih =>
    have hn : n ∉ l := fun hl => (List.nodup_append.mp hk).2.2 n hl n List.mem_cons_self rfl
    have := ih (h.step hs hn) (by simpa using hk)
    simpa using this

end RetriedAll

/-- The retries of a checkpoint in an agreeing state. -/
theorem retriedAll_of_coherent (hs : s.Coherent) (hd : s.eng.dueWrites = []) :
    RetriedAll s allNumbers (allNumbers.foldl (numberRetry s) (s, []))
      (allNumbers.foldl retryParcel (s.setEng { s.eng with checkpointPending := false })) := by
  have hsame : SameRecords s (s.setEng { s.eng with checkpointPending := false }) := ⟨rfl, fun j => by cases j <;> rfl, rfl⟩
  have hstart : RetriedAll s [] (s, []) (s.setEng { s.eng with checkpointPending := false }) :=
    { coherent := hs.congr hsame
      mirrors := (Mirrors.refl s).setEng _
      outside := rfl
      due := hd
      accounted := hsame.accounted (accounted_refl hs)
      held := fun _ => rfl
      left := fun m _ => hsame.recordOf m
      listed := fun _ h => absurd h List.not_mem_nil }
  exact hstart.fold hs allNumbers (by decide)

/-! ## Both contexts closed, and the end of the service -/

/-- The store and the directory once both contexts are closed. -/
theorem RetriedAll.closed (h : RetriedAll s l y u) (hr : r ∈ y.2) :
    ∃ p e, (closeBoth u).stored r.number = some p ∧ p.record = r ∧ (s.recordOf r.number ≠ some r → p = mkStored r) ∧
      (closeBoth u).dirFind r.number = some e ∧ e.voteOwed = r.voteOwed ∧ e.alarmOwed = r.alarmOwed ∧ e.context = none := by
  obtain ⟨-, hrec, hheld⟩ := h.listed r hr
  obtain ⟨hfirst, hsame⟩ := h.coherent.closeContext .w0
  obtain ⟨hboth, hsame'⟩ := hfirst.closeContext .w1
  have haccounted := (h.accounted.closeContext h.coherent .w0).closeContext hfirst .w1
  have hrec' : (closeBoth u).recordOf r.number = some r := (hsame' _).trans ((hsame _).trans hrec)
  have hheld' : (closeBoth u).isHeld r.number = true := by
    simp only [closeBoth, State.isHeld, closeContext_dirFind, Option.isSome_map]
    exact hheld
  have hnone := closeBoth_noneOpen u
  change (closeBoth u).Coherent at hboth
  change Accounted s (closeBoth u) at haccounted
  generalize closeBoth u = t at *
  obtain ⟨e, he⟩ := isHeld_iff.mp hheld'
  obtain ⟨p, hp, -⟩ := hboth.stored _ e he
  have hclosed : e.context = none := by
    cases hc : e.context with
    | none => rfl
    | some i =>
      obtain ⟨c, hi, -⟩ := hboth.opened _ e i he hc
      rw [hnone i] at hi
      cases hi
  have hpr : p.record = r := by
    rw [recordOf_closed he hclosed, hp] at hrec'
    exact Option.some.inj hrec'
  obtain ⟨hvote, halarm⟩ := owed_of_copies hboth he hrec'
  refine ⟨p, e, hp, hpr, fun hne => ?_, he, hvote, halarm, hclosed⟩
  obtain hfresh | hold | ⟨i, c, hi, -⟩ := haccounted _ p hp
  · rwa [hpr] at hfresh
  · rw [hpr] at hold
    exact absurd hold hne
  · rw [hnone i] at hi
    cases hi

/-- A service of a quiet state that leaves the timer and the straps, with no write owed after its work, is its work. -/
theorem serve_quiet {body : State → State} (hq : s.Quiet) (htmr : (body s).tmr = s.tmr) (hsup : (body s).sup = s.sup)
    (hdue : (body s).eng.dueWrites = []) : serve body s = countOther (body s) := by
  rw [serve, wholeService_quiet (body := fun s => countOther (body s)) hq htmr]
  exact endService_none (by rw [hsup]; exact hq.1) (by rw [htmr]; exact hq.2.1) hdue

/-- What the body of a checkpoint leaves apart from the records, in an agreeing state. -/
theorem checkpointBody_mirrors (hs : s.Coherent) (hd : s.eng.dueWrites = []) :
    Mirrors (checkpointBody s) (allNumbers.foldl (numberRetry s) (s, [])).1 ∧
      (checkpointBody s).eng.dueWrites = [] := by
  have hall := retriedAll_of_coherent hs hd
  rw [checkpointBody_eq]
  exact ⟨hall.mirrors.of_apart (closeBoth_apart _), (apart_due (closeBoth_apart _)).trans hall.due⟩

theorem checkpointBody_closed (hs : s.Coherent) (hd : s.eng.dueWrites = [])
    (hr : r ∈ (allNumbers.foldl (numberRetry s) (s, [])).2) :
    ∃ p e, (checkpointBody s).stored r.number = some p ∧ p.record = r ∧ (s.recordOf r.number ≠ some r → p = mkStored r) ∧
      (checkpointBody s).dirFind r.number = some e ∧ e.voteOwed = r.voteOwed ∧ e.alarmOwed = r.alarmOwed ∧
      e.context = none := by
  rw [checkpointBody_eq]
  exact (retriedAll_of_coherent hs hd).closed hr

/-- A checkpoint with no other work waiting (R114): its retries, its closings, and nothing more. -/
theorem exec_checkpoint_quiet (hh : s.sup.held = false) (hp : s.eng.checkpointPending = true) (hq : s.Quiet)
    (hs : s.Coherent) :
    exec .checkpoint s = .next ((countOther (checkpointBody s)).setStoreLog s.storeLog) := by
  obtain ⟨hmirrors, hdue⟩ := checkpointBody_mirrors hs hq.2.2
  have hout := (retriedAll_of_coherent hs hq.2.2).outside
  obtain ⟨a, b, k, hbody⟩ := hmirrors
  have hsup : (checkpointBody s).sup = s.sup := by
    rw [hbody, hout]
    rfl
  have htmr : (checkpointBody s).tmr = s.tmr := by
    rw [hbody, hout]
    rfl
  rw [exec_asService (c := .checkpoint) rfl hh, checkpointService_chosen (arbiter_checkpoint hp),
    serve_quiet hq htmr hsup hdue]

/-- Settles O29. -/
theorem checkpointClosesBothContexts : Obligations.CheckpointClosesBothContexts := by
  intro s hh hp
  obtain ⟨t, ht, hflag, hnone, hduty, hstore, -⟩ := checkpoint_shows hh hp
  refine ⟨t, ht, hflag, hnone .w0, hnone .w1, hduty, fun how i c hc hd hs ho => ?_, fun hq hs _ => ?_⟩
  · refine Eq.trans ?_ (checkpoint_stores (arbiter_checkpoint hp) how hc hd hs ho)
    simp only [State.stored, hstore]
  · rw [exec_checkpoint_quiet hh hp hq hs] at ht
    injection ht with ht
    subst ht
    have hout := (retriedAll_of_coherent hs hq.2.2).outside
    obtain ⟨⟨a, b, k, hbody⟩, -⟩ := checkpointBody_mirrors hs hq.2.2
    have hclosed := fun r => checkpointBody_closed (r := r) hs hq.2.2
    intro refused voteOf alarmOf retryVote retryAlarm retried
    have hretried : retried = allNumbers.foldl (numberRetry s) (s, []) := rfl
    rw [hretried]
    generalize allNumbers.foldl (numberRetry s) (s, []) = x at *
    rw [hout] at hbody
    generalize checkpointBody s = w at *
    subst hbody
    exact ⟨rfl, rfl, rfl, rfl, hclosed⟩

end Sys2Proof.Machine

/-! SUPPORT. Verification of the store at a release (file 06, R119): which positions are treated, what each of them makes of
the store and the directories, and the numbers held after it. -/

namespace Sys2Proof.Machine

variable {s t : State} {n m : ParcelNo} {st : Station} {q : StoredParcel} {l : List (Option StoredParcel)}

/-! ## The positions treated -/

/-- A position that a lower one or its own number rules out is emptied. -/
def treatedAfter (lower : List (Option StoredParcel)) (p : Option StoredParcel) : Option StoredParcel :=
  p.filter (fun q => decide (1 ≤ q.number.toNat ∧ q.number.toNat ≤ 15) &&
    !(lower.filterMap id).any (fun y => y.number == q.number))

/-- The store with the positions emptied that the verification does not treat. -/
def treatedStore (l : List (Option StoredParcel)) : List (Option StoredParcel) :=
  l.zipIdx.map (fun x => treatedAfter (l.take x.2) x.1)

/-- The records that the verification treats. -/
def treatedRecords (l : List (Option StoredParcel)) : List StoredParcel := (treatedStore l).filterMap id

theorem treatedStore_append (l : List (Option StoredParcel)) (p : Option StoredParcel) :
    treatedStore (l ++ [p]) = treatedStore l ++ [treatedAfter l p] := by
  have hlower : l.zipIdx.map (fun x => treatedAfter ((l ++ [p]).take x.2) x.1) = treatedStore l := by
    refine List.map_congr_left fun x hx => ?_
    have hlt : x.2 < l.length := by simpa using List.snd_lt_of_mem_zipIdx hx
    rw [List.take_append_of_le_length hlt.le]
  rw [treatedStore, List.zipIdx_append, List.map_append, hlower]
  simp

theorem treatedRecords_append (l : List (Option StoredParcel)) (p : Option StoredParcel) :
    treatedRecords (l ++ [p]) = treatedRecords l ++ (treatedAfter l p).toList := by
  rw [treatedRecords, treatedStore_append, List.filterMap_append]
  cases treatedAfter l p <;> rfl

/-- A number in range that a position holds is that of a treated record. -/
theorem mem_numbers_treatedRecords {b : Byte} (hlo : 1 ≤ b.toNat) (hhi : b.toNat ≤ 15) :
    b ∈ (treatedRecords l).map StoredParcel.number ↔ b ∈ (l.filterMap id).map StoredParcel.number := by
  induction l using List.reverseRecOn with
  | nil => rfl
  | append_singleton l p ih =>
    rw [treatedRecords_append, List.map_append, List.mem_append, ih, List.filterMap_append, List.map_append,
      List.mem_append]
    refine or_congr_right' fun hnew => ?_
    cases p with
    | none => rfl
    | some q =>
      rw [treatedAfter, Option.filter_some]
      split
      case isTrue => rfl
      case isFalse hnot =>
        refine ⟨fun h => absurd h List.not_mem_nil, fun h => ?_⟩
        obtain rfl : b = q.number := by simpa using h
        refine absurd ?_ hnot
        simp only [hlo, hhi, and_self, decide_true, Bool.true_and, Bool.not_eq_true', List.any_eq_false, beq_iff_eq]
        exact fun y hy heq => hnew (heq ▸ List.mem_map_of_mem hy)

/-! ## What a treated record becomes -/

/-- The record passes the verification. -/
def passes (st : Station) (q : StoredParcel) : Bool := q.check == storeCheck q.number q.record && nodeSetHolds st q.record

/-- The record that a treated one becomes. -/
def verifiedRecord (st : Station) (q : StoredParcel) : ParcelRecord :=
  if passes st q then restored (q.number.setWidth 4) q.record else voidCheckRecord (q.number.setWidth 4)

theorem verifiedRecord_number (st : Station) (q : StoredParcel) : (verifiedRecord st q).number = q.number.setWidth 4 := by
  unfold verifiedRecord
  split <;> rfl

/-- What the verification of the positions `l` makes of the store. -/
def verifiedAs (st : Station) (l : List (Option StoredParcel)) : Verified where
  store := (treatedStore l).map (Option.map (fun q => mkStored (verifiedRecord st q)))
  held := (treatedRecords l).map (verifiedRecord st)
  seen := (treatedRecords l).map StoredParcel.number
  failed := ((treatedRecords l).filter (fun q => !passes st q)).map (fun q => q.number.setWidth 4)

/-- A position holds a record to treat. -/
theorem treatedAfter_some (l : List (Option StoredParcel)) (q : StoredParcel) : treatedAfter l (some q) =
    if q.number.toNat == 0 || decide (15 < q.number.toNat) ||
      ((treatedRecords l).map StoredParcel.number).contains q.number then none else some q := by
  rw [treatedAfter, Option.filter_some]
  by_cases hrange : 1 ≤ q.number.toNat ∧ q.number.toNat ≤ 15
  · obtain ⟨hlo, hhi⟩ := hrange
    have hseen : ((treatedRecords l).map StoredParcel.number).contains q.number =
        (l.filterMap id).any (fun y => y.number == q.number) := by
      rw [Bool.eq_iff_iff, List.contains_iff_mem, mem_numbers_treatedRecords hlo hhi, List.any_eq_true, List.mem_map]
      simp only [beq_iff_eq]
    have h0 : (q.number.toNat == 0) = false := by simp; omega
    have h15 : decide (15 < q.number.toNat) = false := by simp; omega
    rw [hseen, h0, h15]
    cases (l.filterMap id).any (fun y => y.number == q.number) <;> simp [hlo, hhi]
  · rw [if_neg (by simp [hrange]), if_pos]
    simp only [Bool.or_eq_true, beq_iff_eq, decide_eq_true_eq]
    omega

theorem verifyPosition_some (st : Station) (v : Verified) (q : StoredParcel) : verifyPosition st v (some q) =
    if q.number.toNat == 0 || decide (15 < q.number.toNat) || v.seen.contains q.number then
      { v with store := v.store ++ [none] }
    else
      { store := v.store ++ [some (mkStored (verifiedRecord st q))]
        held := v.held ++ [verifiedRecord st q]
        seen := v.seen ++ [q.number]
        failed := if passes st q then v.failed else v.failed ++ [q.number.setWidth 4] } := rfl

theorem verifyPosition_eq (st : Station) (l : List (Option StoredParcel)) (p : Option StoredParcel) :
    verifyPosition st (verifiedAs st l) p = verifiedAs st (l ++ [p]) := by
  unfold verifiedAs
  rw [treatedStore_append, treatedRecords_append]
  cases p with
  | none => simp [verifyPosition, treatedAfter]
  | some q =>
    rw [treatedAfter_some, verifyPosition_some]
    split
    · simp
    · cases hgood : passes st q <;> simp [hgood]

theorem verifyStore_eq (st : Station) (l : List (Option StoredParcel)) : verifyStore st l = verifiedAs st l := by
  unfold verifyStore
  induction l using List.reverseRecOn with
  | nil => rfl
  | append_singleton l p ih => rw [List.foldl_append, ih, List.foldl_cons, List.foldl_nil, verifyPosition_eq]

/-! ## The numbers treated -/

theorem nodup_numbers_treatedRecords (l : List (Option StoredParcel)) :
    ((treatedRecords l).map StoredParcel.number).Nodup := by
  obtain ⟨-, hnodup, -, -⟩ := verifyStore_sound 1#6 l
  rw [verifyStore_eq] at hnodup
  exact hnodup

theorem number_of_treated (hq : q ∈ treatedRecords l) : 1 ≤ q.number.toNat ∧ q.number.toNat ≤ 15 := by
  obtain ⟨x, hx, rfl⟩ : ∃ x ∈ treatedStore l, x = some q := by simpa [treatedRecords] using hq
  obtain ⟨y, -, hy⟩ := List.mem_map.mp hx
  have := Option.eq_some_of_filter_eq_some hy
  rw [treatedAfter, this, Option.filter_some] at hy
  split at hy
  case isTrue h =>
    rw [Bool.and_eq_true, decide_eq_true_eq] at h
    exact h.1
  case isFalse => cases hy

theorem byte4_of_treated (hq : q ∈ treatedRecords l) : byte4 (q.number.setWidth 4) = q.number :=
  byte4_setWidth q.number (number_of_treated hq).2

/-- A treated record has the number n when its position has the byte of n. -/
theorem number_eq_byte4_iff (hq : q ∈ treatedRecords l) : q.number = byte4 n ↔ q.number.setWidth 4 = n := by
  rw [← byte4_injective.eq_iff, byte4_of_treated hq]

theorem number_ne_zero_of_treated (hq : q ∈ treatedRecords l) : q.number.setWidth 4 ≠ 0#4 := by
  intro h
  have hbyte := byte4_of_treated hq
  rw [h] at hbyte
  have hlo := (number_of_treated hq).1
  rw [← hbyte] at hlo
  exact absurd hlo (by decide)

/-- The treated record of a number. -/
theorem find_treated (hq : q ∈ treatedRecords l) :
    (treatedRecords l).find? (fun p => p.number == byte4 (q.number.setWidth 4)) = some q := by
  rw [byte4_of_treated hq]
  obtain ⟨p, hp⟩ : ∃ p, (treatedRecords l).find? (fun p => p.number == q.number) = some p :=
    Option.isSome_iff_exists.mp (List.find?_isSome.mpr ⟨q, hq, by simp⟩)
  rw [hp]
  have hnum : p.number = q.number := by simpa using List.find?_some hp
  exact congrArg some (List.inj_on_of_nodup_map (nodup_numbers_treatedRecords l) (List.mem_of_find?_eq_some hp) hq hnum)

/-! ## The store and the directories after the verification -/

/-- What is stored under a number, of the records that the store holds. -/
theorem stored_eq (s : State) (n : ParcelNo) :
    s.stored n = (s.store.filterMap id).find? (fun p => p.number == byte4 n) := by
  unfold State.stored
  induction s.store with
  | nil => rfl
  | cons a l ih =>
    cases a with
    | none => exact ih
    | some p =>
      rw [List.find?_cons, List.filterMap_cons_some (f := id) (b := p) rfl,
        List.find?_cons]
      cases h : p.number == byte4 n
      · simpa [storedUnder, h] using ih
      · simp [storedUnder, h]

/-- Verified records are held, the last after those before it. -/
theorem holdAll_directory (k : List ParcelRecord) (hk : (k.map ParcelRecord.number).Nodup)
    (hnew : ∀ r ∈ k, s.dirFind r.number = none) (m : ParcelNo) :
    (k.foldl holdParcel s).dirFind m = ((k.find? (fun r => r.number == m)).map dirEntryOf).or (s.dirFind m) := by
  induction k generalizing s with
  | nil => rfl
  | cons r k ih =>
    obtain ⟨hr, hk⟩ := List.nodup_cons.mp hk
    have hown : (holdParcel s r).dirFind r.number = some (dirEntryOf r) :=
      insertDir_find (dirEntryOf r) s.eng.directory (hnew r List.mem_cons_self)
    have hother {x : ParcelNo} (hx : x ≠ r.number) : (holdParcel s r).dirFind x = s.dirFind x :=
      insertDir_find_other (dirEntryOf r) s.eng.directory hx
    have hnone (x : ParcelRecord) (hx : x ∈ k) : x.number ≠ r.number := fun h => hr (h ▸ List.mem_map_of_mem hx)
    rw [List.foldl_cons, ih hk fun x hx => (hother (hnone x hx)).trans (hnew x (List.mem_cons_of_mem _ hx)),
      List.find?_cons]
    by_cases hm : r.number = m
    · subst hm
      have habsent : k.find? (fun x => x.number == r.number) = none :=
        List.find?_eq_none.mpr fun x hx => by simpa using hnone x hx
      rw [habsent, hown, beq_self_eq_true]
      rfl
    · rw [hother (Ne.symm hm), beq_eq_false_iff_ne.mpr hm]

theorem holdAll_rosterDir (k : List ParcelRecord) (s : State) : (k.foldl holdParcel s).eng.rosterDir =
    s.eng.rosterDir ++ k.flatMap (fun r => rosterEntries r.number 0 r.roster) := by
  induction k generalizing s with
  | nil => simp
  | cons r k ih =>
    rw [List.foldl_cons, ih, List.flatMap_cons, ← List.append_assoc]
    rfl

theorem mem_rosterEntries {k : Nat} {roster : List RosterItem} {y : RosterEntry} :
    y ∈ rosterEntries n k roster ↔ ∃ j x, roster[j]? = some x ∧
      y = { station := x.station, item := x.item, parcel := n, index := k + j, role := x.role } := by
  induction roster generalizing k with
  | nil => simp [rosterEntries]
  | cons x roster ih =>
    rw [rosterEntries, List.mem_cons, ih]
    constructor
    · rintro (rfl | ⟨j, z, hj, rfl⟩)
      · exact ⟨0, x, rfl, rfl⟩
      · exact ⟨j + 1, z, by simpa using hj, by rw [Nat.add_right_comm, Nat.add_assoc]⟩
    · rintro ⟨j, z, hj, rfl⟩
      cases j with
      | zero =>
        obtain rfl : x = z := by simpa using hj
        exact .inl rfl
      | succ j => exact .inr ⟨j, z, by simpa using hj, by rw [Nat.add_right_comm, Nat.add_assoc]⟩

/-- The state in which the verified records of a store are held, before their tanks are bound. -/
def verifiedState (s : State) : State :=
  (verifyStore s.station s.store).held.foldl holdParcel (s.setStore (verifyStore s.station s.store).store)

theorem restartedParcels_eq (s : State) : restartedParcels s = allNumbers.foldl rebindParcel (verifiedState s) := rfl

theorem verifiedState_store (s : State) : (verifiedState s).store =
    (treatedStore s.store).map (Option.map (fun q => mkStored (verifiedRecord s.station q))) := by
  have hhold (k : List ParcelRecord) (t : State) : (k.foldl holdParcel t).store = t.store := by
    induction k generalizing t with
    | nil => rfl
    | cons r k ih => exact ih _
  rw [verifiedState, hhold, verifyStore_eq]
  rfl

theorem verifiedState_acc (s : State) : (verifiedState s).acc = s.acc := by
  have hhold (k : List ParcelRecord) (t : State) : (k.foldl holdParcel t).acc = t.acc := by
    induction k generalizing t with
    | nil => rfl
    | cons r k ih => exact ih _
  exact hhold _ _

theorem mkStored_verified_number (hq : q ∈ treatedRecords l) : (mkStored (verifiedRecord st q)).number = q.number := by
  rw [mkStored, verifiedRecord_number]
  exact byte4_of_treated hq

/-- A number is stored with the verified record of its position. -/
theorem verifiedState_stored (s : State) (n : ParcelNo) : (verifiedState s).stored n =
    ((treatedRecords s.store).find? (fun q => q.number == byte4 n)).map
      (fun q => mkStored (verifiedRecord s.station q)) := by
  have hrecords : ((treatedStore s.store).map (Option.map (fun q => mkStored (verifiedRecord s.station q)))).filterMap id =
      (treatedRecords s.store).map (fun q => mkStored (verifiedRecord s.station q)) := by
    rw [treatedRecords, List.filterMap_map, List.map_filterMap]
    rfl
  rw [stored_eq, verifiedState_store, hrecords, List.find?_map]
  refine congrArg _ (List.find?_congr fun q hq => ?_)
  rw [Function.comp_apply, mkStored_verified_number hq]

theorem verifiedState_dirFind (he : s.eng.directory = []) (n : ParcelNo) : (verifiedState s).dirFind n =
    ((treatedRecords s.store).find? (fun q => q.number == byte4 n)).map
      (fun q => dirEntryOf (verifiedRecord s.station q)) := by
  have hnone (m : ParcelNo) : (s.setStore (verifyStore s.station s.store).store).dirFind m = none := by
    simp [State.dirFind, he]
  have hnodup : ((verifyStore s.station s.store).held.map ParcelRecord.number).Nodup := by
    obtain ⟨hseen, hnd, -, -⟩ := verifyStore_sound s.station s.store
    refine List.Nodup.of_map byte4 ?_
    rw [List.map_map]
    exact hseen ▸ hnd
  rw [verifiedState, holdAll_directory _ hnodup (fun r _ => hnone r.number), hnone, Option.or_none, verifyStore_eq]
  simp only [verifiedAs]
  rw [List.find?_map, Option.map_map]
  refine congrArg _ (List.find?_congr fun q hq => ?_)
  rw [Function.comp_apply, verifiedRecord_number, Bool.eq_iff_iff, beq_iff_eq, beq_iff_eq, number_eq_byte4_iff hq]

/-- A number is held when it is stored. -/
theorem verifiedState_isHeld (he : s.eng.directory = []) (n : ParcelNo) :
    (verifiedState s).isHeld n = ((verifiedState s).stored n).isSome := by
  rw [State.isHeld, verifiedState_dirFind he, verifiedState_stored, Option.isSome_map, Option.isSome_map]

theorem verifiedState_rosterDir (he : s.eng.rosterDir = []) : (verifiedState s).eng.rosterDir =
    (treatedRecords s.store).flatMap (fun q =>
      rosterEntries (q.number.setWidth 4) 0 (verifiedRecord s.station q).roster) := by
  rw [verifiedState, holdAll_rosterDir, State.setStore_eng, he, List.nil_append, verifyStore_eq]
  simp only [verifiedAs, List.flatMap_map, verifiedRecord_number]

end Sys2Proof.Machine

/-! SUPPORT. The binding of tanks from an empty Acceptance Unit (file 06, R120; file 07, R125): the entries and slots that a
list of tanks takes, and the bindings that its roster items then show. -/

namespace Sys2Proof.Machine

variable {n : ParcelNo} {a : AcceptanceUnit} {x : RosterItem} {roster : List RosterItem}
  {l k : List (ParcelNo × Nat × RosterItem)}

/-! ## Lists of 24 places -/

/-- The first place of a list that is free from place c on. -/
theorem findIdx_range {α : Type} {g : Nat → α} {p : α → Bool} {c w : Nat} (h : ∀ k < w, p (g k) = decide (c ≤ k)) :
    ((List.range w).map g).findIdx? p = if c < w then some c else none := by
  split
  case isTrue hc =>
    rw [List.findIdx?_eq_some_iff_getElem]
    refine ⟨by simpa using hc, by simpa using h c hc, fun j hj => ?_⟩
    simp [h j (hj.trans hc), hj]
  case isFalse hc =>
    rw [List.findIdx?_eq_none_iff]
    intro y hy
    obtain ⟨k, hk, rfl⟩ := List.mem_map.mp hy
    have hk : k < w := List.mem_range.mp hk
    rw [h k hk, decide_eq_false_iff_not]
    omega

theorem range_map_set {α : Type} {g f : Nat → α} {c w : Nat} (h : ∀ k, k ≠ c → f k = g k) :
    ((List.range w).map g).set c (f c) = (List.range w).map f := by
  refine List.ext_getElem (by simp) fun i hi _ => ?_
  rw [List.getElem_set]
  split
  case isTrue heq => simp [← heq]
  case isFalse hne => simp [h i (Ne.symm hne)]

/-! ## The places that tanks take (R125) -/

/-- The bindable entry of a tank in slot k. -/
def entryFor (k : Nat) (x : ParcelNo × Nat × RosterItem) : BoundEntry :=
  { station := x.2.2.station, item := x.2.2.item, parcel := x.1, index := x.2.1, slot := k }

/-- The bindable entries once the tanks `l` are bound. -/
def entriesFor (l : List (ParcelNo × Nat × RosterItem)) : List (Option BoundEntry) :=
  (List.range 24).map (fun k => l[k]?.map (entryFor k))

/-- The gauge slots once `c` tanks are bound. -/
def slotsFor (c : Nat) : List GaugeSlot :=
  (List.range 24).map (fun k =>
    { boundTo := if k < c then some (8 + k) else none, waiting := none, overrun := false })

/-- The binding of the tank at place k. -/
def placeOf (k : Nat) : Option Binding := if k < 24 then some { entry := 8 + k, slot := k } else none

theorem entriesFor_nil : entriesFor [] = List.replicate 24 none := rfl

theorem slotsFor_zero : slotsFor 0 = List.replicate 24 { boundTo := none, waiting := none, overrun := false } := rfl

theorem firstFree_entriesFor (l : List (ParcelNo × Nat × RosterItem)) :
    firstFree entryFree (entriesFor l) = if l.length < 24 then some l.length else none :=
  findIdx_range fun k _ => by
    rw [entryFree, Option.isNone_map, Bool.eq_iff_iff, Option.isNone_iff_eq_none, List.getElem?_eq_none_iff,
      decide_eq_true_eq]

theorem firstFree_slotsFor (c : Nat) : firstFree slotFree (slotsFor c) = if c < 24 then some c else none :=
  findIdx_range fun k _ => by
    rw [slotFree]
    by_cases h : k < c
    · simp [h]
    · simp [h, Nat.le_of_not_lt h]

theorem entriesFor_append (l : List (ParcelNo × Nat × RosterItem)) (x : ParcelNo × Nat × RosterItem) :
    entriesFor (l ++ [x]) = (entriesFor l).set l.length (some (entryFor l.length x)) := by
  have hset := range_map_set (g := fun k => l[k]?.map (entryFor k)) (f := fun k => (l ++ [x])[k]?.map (entryFor k))
    (c := l.length) (w := 24) fun k hk => by
      refine congrArg _ ?_
      obtain hlt | hgt := Nat.lt_or_gt_of_ne hk
      · exact List.getElem?_append_left hlt
      · rw [List.getElem?_eq_none (by simp; omega), List.getElem?_eq_none hgt.le]
  have hlast : (l ++ [x])[l.length]? = some x := by simp
  rw [hlast] at hset
  exact hset.symm

theorem slotsFor_succ (c : Nat) :
    slotsFor (c + 1) = (slotsFor c).set c { boundTo := some (8 + c), waiting := none, overrun := false } := by
  have hset := range_map_set (c := c) (w := 24)
    (g := fun k => ({ boundTo := if k < c then some (8 + k) else none, waiting := none, overrun := false } : GaugeSlot))
    (f := fun k => { boundTo := if k < c + 1 then some (8 + k) else none, waiting := none, overrun := false })
    fun k hk => by
      have : k < c + 1 ↔ k < c := by omega
      simp only [this]
  simp only [Nat.lt_succ_self, if_true] at hset
  exact hset.symm

theorem slotsFor_length (c : Nat) : (slotsFor c).length = 24 := by simp [slotsFor]

theorem entriesFor_length (l : List (ParcelNo × Nat × RosterItem)) : (entriesFor l).length = 24 := by simp [entriesFor]

/-- The tanks `l`, and no other, are bound. -/
def AcceptanceUnit.Binds (a : AcceptanceUnit) (l : List (ParcelNo × Nat × RosterItem)) : Prop :=
  a.entries = entriesFor l ∧ a.slots = slotsFor l.length

/-- A further tank takes the next place, if there is one (R125). -/
theorem bindTank_next (h : a.Binds l) (x : RosterItem) (n : ParcelNo) (j : Nat) :
    (bindTank x.station x.item n j a).1 = placeOf l.length ∧
      (bindTank x.station x.item n j a).2.Binds (l ++ [(n, j, x)]) := by
  obtain ⟨hentries, hslots⟩ := h
  unfold bindTank
  rw [hentries, hslots, firstFree_entriesFor, firstFree_slotsFor]
  unfold AcceptanceUnit.Binds
  rw [entriesFor_append, List.length_append, List.length_singleton, slotsFor_succ]
  by_cases hroom : l.length < 24
  · rw [placeOf, if_pos hroom, if_pos hroom]
    exact ⟨rfl, rfl, rfl⟩
  · rw [placeOf, if_neg hroom, if_neg hroom]
    refine ⟨rfl, ?_, ?_⟩
    · rw [List.set_eq_of_length_le (by rw [entriesFor_length]; omega), hentries]
    · rw [List.set_eq_of_length_le (by rw [slotsFor_length]; omega), hslots]

/-! ## The tanks of a roster (R120) -/

/-- The tanks of a parcel's roster, whose indices begin at j. -/
def tanksOf (n : ParcelNo) (j : Nat) (roster : List RosterItem) : List (ParcelNo × Nat × RosterItem) :=
  ((roster.zipIdx j).filter (fun x => x.1.role.isTank)).map (fun x => (n, x.2, x.1))

theorem tanksOf_cons (n : ParcelNo) (j : Nat) (x : RosterItem) (roster : List RosterItem) :
    tanksOf n j (x :: roster) =
      if x.role.isTank then (n, j, x) :: tanksOf n (j + 1) roster else tanksOf n (j + 1) roster := by
  rw [tanksOf, List.zipIdx_cons, List.filter_cons]
  split <;> rfl

/-- The bindings that the roster items of the tanks `k` show, of which the first has place c. -/
def ShowsPlaces (n : ParcelNo) (j c : Nat) (k : List (ParcelNo × Nat × RosterItem)) (roster : List RosterItem) : Prop :=
  ∀ b m i x, k[b]? = some (m, i, x) →
    m = n ∧ ∃ i' y, i = j + i' ∧ roster[i']? = some y ∧ y.binding = placeOf (c + b)

theorem ShowsPlaces.cons {j c : Nat} (h : ShowsPlaces n (j + 1) c k roster) (x : RosterItem) :
    ShowsPlaces n j c k (x :: roster) := by
  intro b m i z hb
  obtain ⟨hm, i', y, hi, hy, hplace⟩ := h b m i z hb
  exact ⟨hm, i' + 1, y, by omega, by simpa using hy, hplace⟩

theorem ShowsPlaces.cons_tank {j c : Nat} (h : ShowsPlaces n (j + 1) (c + 1) k roster) {x y : RosterItem}
    (hy : y.binding = placeOf c) : ShowsPlaces n j c ((n, j, x) :: k) (y :: roster) := by
  intro b m i z hb
  cases b with
  | zero =>
    obtain ⟨rfl, rfl, -⟩ : n = m ∧ j = i ∧ x = z := by simpa using hb
    exact ⟨rfl, 0, y, rfl, rfl, hy⟩
  | succ b =>
    obtain ⟨hm, i', w, hi, hw, hplace⟩ := h.cons y b m i z (by simpa using hb)
    exact ⟨hm, i', w, hi, hw, by rw [hplace, Nat.add_right_comm, Nat.add_assoc]⟩

/-- The binding of a roster whose bindings have been cleared, after the tanks `l`. -/
theorem bindRoster_next (h : a.Binds l) (n : ParcelNo) (j : Nat) (roster : List RosterItem) :
    (bindRoster n j (clearBindings roster) a).2.Binds (l ++ tanksOf n j roster) ∧
      clearBindings (bindRoster n j (clearBindings roster) a).1 = clearBindings roster ∧
      ShowsPlaces n j l.length (tanksOf n j roster) (bindRoster n j (clearBindings roster) a).1 := by
  induction roster generalizing j a l with
  | nil => exact ⟨by simpa [tanksOf, clearBindings, bindRoster] using h, rfl, fun b m i x hb => by simp [tanksOf] at hb⟩
  | cons x roster ih =>
    rw [show clearBindings (x :: roster) = { x with binding := none } :: clearBindings roster from rfl, tanksOf_cons]
    unfold bindRoster
    dsimp only
    by_cases htank : x.role.isTank
    · obtain ⟨hplace, hbinds⟩ := bindTank_next h x n j
      obtain ⟨hrest, hclear, hshows⟩ := ih hbinds (j + 1)
      rw [if_pos htank, if_pos htank]
      refine ⟨by simpa using hrest, congrArg (List.cons ({ x with binding := none } : RosterItem)) hclear, ?_⟩
      rw [List.length_append, List.length_singleton] at hshows
      exact hshows.cons_tank hplace
    · obtain ⟨hrest, hclear, hshows⟩ := ih h (j + 1)
      rw [if_neg htank, if_neg htank]
      exact ⟨hrest, congrArg (List.cons ({ x with binding := none } : RosterItem)) hclear, hshows.cons _⟩

end Sys2Proof.Machine

/-! SUPPORT. The rebinding of the tanks at a release (file 06, R120), and with the verification the statement on the release
after a warm reset. -/

namespace Sys2Proof.Machine

variable {s u w : State} {n m : ParcelNo} {q p : StoredParcel} {done : List ParcelNo}

/-! ## One parcel -/

/-- A record that has a store position leaves every position its number. -/
theorem storePut_numbers (r : ParcelRecord) (h : (s.stored r.number).isSome = true) :
    (s.storePut r).store.map (Option.map StoredParcel.number) = s.store.map (Option.map StoredParcel.number) := by
  obtain ⟨i, hi, hplace, hstored⟩ := storePlace_stored h
  have hput : s.storePut r = s.storeSet i r := by simp [State.storePut, State.storePlace, hplace]
  have hnumber : (s.store[i]).map StoredParcel.number = some (byte4 r.number) := by
    generalize s.store[i] = x at hstored
    cases x with
    | none => cases hstored
    | some p => exact congrArg some (beq_iff_eq.mp hstored)
  rw [hput]
  show (s.store.set i (some (mkStored r))).map _ = _
  rw [List.map_set]
  refine List.ext_getElem (by simp) fun k hk _ => ?_
  rw [List.getElem_set]
  split
  case isTrue heq =>
    subst heq
    rw [List.getElem_map, hnumber]
    rfl
  case isFalse => rfl

/-- The tanks that the release binds for a parcel. -/
def State.tanksAt (w : State) (n : ParcelNo) : List (ParcelNo × Nat × RosterItem) :=
  match w.stored n with
  | some p => if p.record.state.isBound then tanksOf n 0 p.record.roster else []
  | none => []

theorem rebindParcel_absent (h : u.stored n = none) : rebindParcel u n = u := by
  simp only [rebindParcel, h]

theorem rebindParcel_unbound (h : u.stored n = some p) (hb : p.record.state.isBound = false) : rebindParcel u n = u := by
  simp only [rebindParcel, h, hb, Bool.and_false, Bool.false_eq_true, if_false]

theorem rebindParcel_bound (h : u.stored n = some p) (hh : u.isHeld n = true) (hb : p.record.state.isBound = true) :
    rebindParcel u n = (u.setAcc (bindRoster n 0 (clearBindings p.record.roster) u.acc).2).storePut
      { p.record with roster := (bindRoster n 0 (clearBindings p.record.roster) u.acc).1 } := by
  simp only [rebindParcel, h, hh, hb, Bool.and_self, if_true]

/-! ## All parcels -/

/-- Every stored parcel is held, and stored with a fresh check under its number. -/
def State.Fresh (w : State) : Prop :=
  ∀ n p, w.stored n = some p → p = mkStored p.record ∧ p.record.number = n ∧ w.isHeld n = true

/-- The tanks of the numbers `done` have been bound, since the state `w` in which none was. -/
structure Rebound (w : State) (done : List ParcelNo) (u : State) : Prop where
  eng : u.eng = w.eng
  binds : u.acc.Binds (done.flatMap w.tanksAt)
  numbers : u.store.map (Option.map StoredParcel.number) = w.store.map (Option.map StoredParcel.number)
  left : ∀ n, n ∉ done → u.stored n = w.stored n
  kept : ∀ n p, w.stored n = some p → ∃ roster, u.stored n = some (mkStored { p.record with roster := roster }) ∧
    clearBindings roster = clearBindings p.record.roster ∧ (p.record.state.isBound = false → roster = p.record.roster)
  shows : ∀ (k : Nat) n j x, (done.flatMap w.tanksAt)[k]? = some (n, j, x) →
    n ∈ done ∧ ∃ p y, u.stored n = some p ∧ p.record.roster[j]? = some y ∧ y.binding = placeOf k

theorem rebound_start (hw : w.Fresh) (hentries : w.acc.entries = List.replicate 24 none)
    (hslots : w.acc.slots = List.replicate 24 { boundTo := none, waiting := none, overrun := false }) :
    Rebound w [] w where
  eng := rfl
  binds := ⟨hentries.trans entriesFor_nil.symm, hslots.trans slotsFor_zero.symm⟩
  numbers := rfl
  left _ _ := rfl
  kept n p hp := ⟨p.record.roster, hp.trans (congrArg some (hw n p hp).1), rfl, fun _ => rfl⟩
  shows k n j x h := by simp at h

/-- A number with no tanks to bind is passed over. -/
theorem Rebound.skip (h : Rebound w done u) (hn : w.tanksAt n = []) (hu : rebindParcel u n = u) :
    Rebound w (done ++ [n]) (rebindParcel u n) := by
  have htanks : (done ++ [n]).flatMap w.tanksAt = done.flatMap w.tanksAt := by simp [hn]
  rw [hu]
  exact { h with
    binds := htanks ▸ h.binds
    left := fun m hm => h.left m fun hd => hm (List.mem_append_left _ hd)
    shows := fun k m j x hk => (h.shows k m j x (htanks ▸ hk)).imp_left (List.mem_append_left _) }

theorem Rebound.step (hw : w.Fresh) (h : Rebound w done u) (hn : n ∉ done) :
    Rebound w (done ++ [n]) (rebindParcel u n) := by
  have hstored := h.left n hn
  cases hp : w.stored n with
  | none =>
    rw [hp] at hstored
    exact h.skip (by simp only [State.tanksAt, hp]) (rebindParcel_absent hstored)
  | some p =>
    rw [hp] at hstored
    cases hb : p.record.state.isBound with
    | false =>
      exact h.skip (by simp only [State.tanksAt, hp, hb, Bool.false_eq_true, if_false]) (rebindParcel_unbound hstored hb)
    | true =>
      obtain ⟨-, hnum, hheld⟩ := hw n p hp
      have hheld' : u.isHeld n = true := by
        rw [State.isHeld, State.dirFind, h.eng]
        exact hheld
      have htanks : w.tanksAt n = tanksOf n 0 p.record.roster := by simp only [State.tanksAt, hp, hb, if_true]
      have hflat : (done ++ [n]).flatMap w.tanksAt = done.flatMap w.tanksAt ++ tanksOf n 0 p.record.roster := by
        simp [htanks]
      obtain ⟨hbinds, hclear, hshows⟩ := bindRoster_next h.binds n 0 p.record.roster
      rw [rebindParcel_bound hstored hheld' hb]
      generalize bindRoster n 0 (clearBindings p.record.roster) u.acc = b at *
      have hposition : ((u.setAcc b.2).stored ({ p.record with roster := b.1 } : ParcelRecord).number).isSome = true := by
        show (u.stored p.record.number).isSome = true
        rw [hnum, hstored]
        rfl
      have hnumbers := storePut_numbers _ hposition
      have hstored' := stored_storePut _ hposition
      obtain ⟨heng, -, hacc, -⟩ := storePut_sameRest (u.setAcc b.2) { p.record with roster := b.1 }
      generalize (u.setAcc b.2).storePut { p.record with roster := b.1 } = v at *
      change ∀ m, v.stored m = if m = p.record.number then _ else u.stored m at hstored'
      rw [hnum] at hstored'
      have hown : v.stored n = some (mkStored { p.record with roster := b.1 }) := by rw [hstored', if_pos rfl]
      have hother (m : ParcelNo) (hm : m ≠ n) : v.stored m = u.stored m := by rw [hstored', if_neg hm]
      exact {
        eng := heng.trans h.eng
        binds := by
          rw [hflat, hacc]
          exact hbinds
        numbers := hnumbers.trans h.numbers
        left := fun m hm => by
          rw [List.mem_append, List.mem_singleton, not_or] at hm
          exact (hother m hm.2).trans (h.left m hm.1)
        kept := fun m p' hp' => by
          by_cases hm : m = n
          · subst hm
            rw [hp] at hp'
            obtain rfl := Option.some.inj hp'
            exact ⟨b.1, hown, hclear, fun hunbound => by rw [hb] at hunbound; cases hunbound⟩
          · rw [hother m hm]
            exact h.kept m p' hp'
        shows := fun k m j x hk => by
          rw [hflat] at hk
          obtain hlt | hge := Nat.lt_or_ge k (done.flatMap w.tanksAt).length
          · rw [List.getElem?_append_left hlt] at hk
            obtain ⟨hmem, hrest⟩ := h.shows k m j x hk
            rw [hother m fun heq => hn (heq ▸ hmem)]
            exact ⟨List.mem_append_left _ hmem, hrest⟩
          · rw [List.getElem?_append_right hge] at hk
            obtain ⟨rfl, i', y, hi, hy, hplace⟩ := hshows _ m j x hk
            rw [Nat.add_sub_cancel' hge] at hplace
            rw [Nat.zero_add] at hi
            exact ⟨by simp, _, y, hown, hi ▸ hy, hplace⟩ }

theorem Rebound.fold (hw : w.Fresh) (k : List ParcelNo) (h : Rebound w done u) (hk : (done ++ k).Nodup) :
    Rebound w (done ++ k) (k.foldl rebindParcel u) := by
  induction k generalizing done u with
  | nil => simpa using h
  | cons n k ih =>
    have hn : n ∉ done := fun hd => (List.nodup_append.mp hk).2.2 n hd n List.mem_cons_self rfl
    simpa using ih (h.step hw hn) (by simpa using hk)

/-! ## The release after a warm reset -/

theorem verifiedState_fresh (he : s.eng.directory = []) : (verifiedState s).Fresh := by
  intro n p hp
  have hheld : (verifiedState s).isHeld n = true := by
    rw [verifiedState_isHeld he, hp]
    rfl
  rw [verifiedState_stored] at hp
  obtain ⟨q, hq, rfl⟩ := Option.map_eq_some_iff.mp hp
  have hnumber : q.number = byte4 n := by simpa using List.find?_some hq
  exact ⟨rfl, (verifiedRecord_number _ _).trans ((number_eq_byte4_iff (List.mem_of_find?_eq_some hq)).mp hnumber), hheld⟩

/-- Of the records of different numbers, one at most has the number b. -/
theorem filter_number {k : List StoredParcel} (hk : (k.map StoredParcel.number).Nodup) (b : Byte)
    (f : StoredParcel → Bool) : k.filter (fun q => q.number == b && f q) =
      ((k.find? (fun q => q.number == b)).filter f).toList := by
  induction k with
  | nil => rfl
  | cons q k ih =>
    obtain ⟨hq, hk⟩ := List.nodup_cons.mp hk
    rw [List.filter_cons, List.find?_cons, ih hk]
    by_cases hb : q.number = b
    · have habsent : k.find? (fun q => q.number == b) = none :=
        List.find?_eq_none.mpr fun x hx h => hq (hb ▸ beq_iff_eq.mp h ▸ List.mem_map_of_mem hx)
      rw [habsent, hb, beq_self_eq_true]
      cases hf : f q <;> simp [hf, Option.filter_some]
    · simp [beq_eq_false_iff_ne.mpr hb]

theorem verifiedRecord_pass {st : Station} (h : passes st q = true) :
    verifiedRecord st q = restored (q.number.setWidth 4) q.record := if_pos h

theorem verifiedRecord_fail {st : Station} (h : passes st q = false) :
    verifiedRecord st q = voidCheckRecord (q.number.setWidth 4) := if_neg (by simp [h])

/-- The tanks that the release binds for a number are those of its record, if that passed and is in a bound state. -/
theorem verifiedState_tanksAt (s : State) (n : ParcelNo) : (verifiedState s).tanksAt n =
    ((treatedRecords s.store).filter
      (fun q => q.number == byte4 n && passes s.station q && q.record.state.isBound)).flatMap
        (fun q => tanksOf n 0 q.record.roster) := by
  simp only [Bool.and_assoc]
  rw [filter_number (nodup_numbers_treatedRecords s.store), State.tanksAt, verifiedState_stored]
  cases (treatedRecords s.store).find? (fun q => q.number == byte4 n) with
  | none => rfl
  | some q =>
    rw [Option.filter_some]
    cases hpass : passes s.station q with
    | false => simp [mkStored, verifiedRecord_fail hpass, voidCheckRecord, ParcelState.isBound]
    | true => cases hb : q.record.state.isBound <;> simp [mkStored, verifiedRecord_pass hpass, restored, hb]

/-- The notices of a release name the failed records in ascending number (R119). -/
theorem failNotices_eq (s : State) : failNotices s =
    (allNumbers.filter (fun n => (treatedRecords s.store).any (fun q => q.number == byte4 n && !passes s.station q))).map
      (fun n => .parcelState n (some .void) 0 (some .check) .other) := by
  rw [failNotices, verifyStore_eq]
  refine congrArg _ (List.filter_congr fun n _ => ?_)
  rw [Bool.eq_iff_iff, List.contains_iff_mem, List.any_eq_true]
  simp only [verifiedAs, List.mem_map, List.mem_filter, Bool.and_eq_true, beq_iff_eq]
  constructor
  · rintro ⟨q, ⟨hq, hfail⟩, hn⟩
    exact ⟨q, hq, (number_eq_byte4_iff hq).mpr hn, hfail⟩
  · rintro ⟨q, hq, hn, hfail⟩
    exact ⟨q, ⟨hq, hfail⟩, (number_eq_byte4_iff hq).mp hn⟩

theorem rebound_restartedParcels (he : s.eng.directory = []) (hentries : s.acc.entries = List.replicate 24 none)
    (hslots : s.acc.slots = List.replicate 24 { boundTo := none, waiting := none, overrun := false }) :
    Rebound (verifiedState s) allNumbers (restartedParcels s) := by
  have hstart := rebound_start (verifiedState_fresh he) ((congrArg _ (verifiedState_acc s)).trans hentries)
    ((congrArg _ (verifiedState_acc s)).trans hslots)
  exact hstart.fold (verifiedState_fresh he) allNumbers (by decide)

theorem mem_verifiedState_rosterDir (he : s.eng.rosterDir = []) (y : RosterEntry) :
    y ∈ (verifiedState s).eng.rosterDir ↔ ∃ q ∈ treatedRecords s.store, passes s.station q = true ∧
      ∃ j x, q.record.roster[j]? = some x ∧
        y = { station := x.station, item := x.item, parcel := q.number.setWidth 4, index := j, role := x.role } := by
  rw [verifiedState_rosterDir he, List.mem_flatMap]
  refine exists_congr fun q => and_congr_right fun _ => ?_
  rw [mem_rosterEntries]
  cases hpass : passes s.station q with
  | false => simp [verifiedRecord_fail hpass, voidCheckRecord]
  | true => simp [verifiedRecord_pass hpass, restored]

/-- A treated record is held, and stored, as verified, but for the bindings of its tanks. -/
theorem Rebound.treated (h : Rebound (verifiedState s) done u) (he : s.eng.directory = [])
    (hq : q ∈ treatedRecords s.store) :
    u.dirFind (q.number.setWidth 4) = some (dirEntryOf (verifiedRecord s.station q)) ∧
      ∃ roster, u.stored (q.number.setWidth 4) =
          some (mkStored { verifiedRecord s.station q with roster := roster }) ∧
        clearBindings roster = clearBindings (verifiedRecord s.station q).roster ∧
        ((verifiedRecord s.station q).state.isBound = false → roster = (verifiedRecord s.station q).roster) := by
  constructor
  · rw [State.dirFind, h.eng]
    exact (verifiedState_dirFind he _).trans (congrArg _ (find_treated hq))
  · exact h.kept _ (mkStored (verifiedRecord s.station q)) ((verifiedState_stored s _).trans (congrArg _ (find_treated hq)))

/-- The positions of a restarted store have the numbers of the treated positions. -/
theorem Rebound.position (h : Rebound (verifiedState s) done u) (k : Nat) :
    u.store[k]?.map (Option.map StoredParcel.number) = (treatedStore s.store)[k]?.map (Option.map StoredParcel.number) := by
  rw [← List.getElem?_map, h.numbers, verifiedState_store, List.map_map, List.getElem?_map]
  cases hk : (treatedStore s.store)[k]? with
  | none => rfl
  | some x =>
    cases x with
    | none => rfl
    | some q =>
      have hq : q ∈ treatedRecords s.store := List.mem_filterMap.mpr ⟨some q, List.mem_of_getElem? hk, rfl⟩
      exact congrArg (fun b => some (some b)) (mkStored_verified_number hq)

/-- What a release after a warm reset leaves: the verified parcels, and the notices after RESTART. -/
theorem release_rebound (pins : StrapPins) (hc : s.sup.cause ≠ .powerOn) (h0 : pins.st ≠ 0#6) (h63 : pins.st ≠ 63#6) :
    ∃ v, v.store = s.store ∧ v.station = pins.st ∧ v.eng.directory = [] ∧ v.eng.rosterDir = [] ∧
      Rebound (verifiedState v) allNumbers (release pins s) ∧
      (release pins s).port.notices = { second := 0#32, body := .restart s.sup.cause pins.st } ::
        (failNotices v).map (fun b => { second := 0#32, body := b }) := by
  refine ⟨freshlyReleased pins s, ?_, rfl, rfl, rfl, ?_, ?_⟩
  · rw [freshlyReleased_eq]
    exact if_neg (by simpa using hc)
  · obtain ⟨heng, hbinds, hnumbers, hleft, hkept, hshows⟩ := rebound_restartedParcels
      (freshlyReleased_directory pins s) rfl rfl
    rw [release_warm hc h0 h63]
    generalize restartedParcels (freshlyReleased pins s) = u at *
    exact ⟨heng, hbinds, hnumbers, hleft, hkept, hshows⟩
  · rw [release_warm hc h0 h63]
    rfl

/-- Settles O7. -/
theorem warmReleaseVerifiesTheStore : Obligations.WarmReleaseVerifiesTheStore := by
  intro pins s hh hc h0 h63 treated records passing tanks
  refine ⟨release pins s, exec_resetRelease pins hh, ?_⟩
  obtain ⟨v, hstore, hstation, hdir, hroster, hbound, hnotices⟩ := release_rebound pins hc h0 h63
  generalize release pins s = t at hbound hnotices
  have htreated : treated = treatedStore v.store := by rw [hstore]; rfl
  have hrecords : records = treatedRecords v.store := by rw [hstore]; rfl
  have hpassing : passing = passes v.station := by rw [hstation]; rfl
  have htanks : tanks = allNumbers.flatMap (verifiedState v).tanksAt := by
    simp only [tanks, hrecords, hpassing]
    exact List.flatMap_congr fun n _ => (verifiedState_tanksAt v n).symm
  clear_value tanks passing records treated
  subst htreated hrecords hpassing htanks
  rw [← hstore, ← hstation]
  obtain ⟨hentries, hslots⟩ := hbound.binds
  refine ⟨fun k q _ hk => ?_, fun k q hk => ?_, fun n e he => ?_, fun y => ?_, hentries, hslots, fun k n j x hk => ?_, ?_,
    fun q hq => ?_⟩
  · have hposition := hbound.position k
    rw [hk] at hposition
    simpa using hposition
  · have hposition := hbound.position k
    rw [hk] at hposition
    simpa using hposition
  · rw [State.dirFind, hbound.eng] at he
    obtain ⟨q, hq, -⟩ := Option.map_eq_some_iff.mp ((verifiedState_dirFind hdir n).symm.trans he)
    exact ⟨q, List.mem_of_find?_eq_some hq, by simpa using List.find?_some hq⟩
  · rw [hbound.eng]
    exact mem_verifiedState_rosterDir hroster y
  · exact (hbound.shows k n j x hk).2
  · rw [hnotices, failNotices_eq, List.map_map, hstation]
    rfl
  · obtain ⟨hfind, roster, hstored, hclear, hkept⟩ := hbound.treated hdir hq
    cases hpass : passes v.station q with
    | true =>
      rw [verifiedRecord_pass hpass] at hfind hstored hclear hkept
      have hgood := hpass
      rw [passes, Bool.and_eq_true, beq_iff_eq] at hgood
      rw [if_pos hgood]
      refine ⟨⟨_, hfind, rfl, rfl, rfl, rfl, rfl, ?_, rfl, rfl⟩, _, hstored, rfl, hkept, hclear, rfl⟩
      show persistenceCopy _ = none
      unfold persistenceCopy restored
      cases q.record.decl <;> rfl
    | false =>
      rw [verifiedRecord_fail hpass] at hfind hstored hkept
      have hbad := hpass
      rw [passes, Bool.and_eq_false_iff, beq_eq_false_iff_ne] at hbad
      rw [if_neg fun h => hbad.elim (fun hne => hne h.1) fun hne => by rw [hne] at h; cases h.2]
      refine ⟨⟨_, hfind, rfl, rfl⟩, ?_⟩
      rw [hstored, hkept rfl]

end Sys2Proof.Machine
